-- ==== Sys2Proof/Word.lean ====
section
/-! DEFINITION. The widths of the values that the CJ4810's frames carry, and the number ranges of the
things it numbers (00_scope, sections 1.5 and 1.6; R166, R168). -/
namespace Sys2Proof

/-- One byte of a frame (R165). -/
abbrev Byte := BitVec 8
/-- A two-byte field: a label, a destination code, a tick count (R166, R156). -/
abbrev Half := BitVec 16
/-- A request number, 0 to 65535; 0 means none (R145). -/
abbrev ReqNo := BitVec 16
/-- An extension as a frame carries it, in 3 bytes; the part takes 0 to 999999 (R166, R125). -/
abbrev Ext := BitVec 24
/-- A call tag, any 32-bit value (R11). -/
abbrev Tag := BitVec 32

/-- A position, 0 to 7. -/
abbrev PosNo := Fin 8
/-- A loop of a position, 0 to 3. -/
abbrev LoopNo := Fin 4
/-- A park orbit, 0 to 15. -/
abbrev OrbitNo := Fin 16
/-- A slot of the Call Register, 0 to 255 (R1). -/
abbrev SlotNo := Fin 256
/-- A class, 0 to 7. -/
abbrev ClassNo := Fin 8
/-- An incoming trunk group, 0 to 63. -/
abbrev GroupNo := Fin 64
/-- An index of the origin table, 0 to 1023. -/
abbrev OriginNo := Fin 1024

/-- A table of fixed length with one entry replaced. -/
def vset {α : Type} {n : Nat} (v : Vector α n) (i : Fin n) (a : α) : Vector α n := v.set i a i.isLt

end Sys2Proof
end

