-- ==== Sys2Proof/Syntax.lean ====
section
/-! DEFINITION. The commands: one constructor for each row of spec/opcode_table.json.

A row that is an order (a frame from the switching processor or from a console processor) carries `len`,
the payload length of the frame as it was received, and then the fields of the frame in the order of
R168. The fields mean something only where `len` is the length that section 11.3 gives for the kind. A
console order carries first the position whose link it came on, and, after `len`, the sequence byte. -/
namespace Sys2Proof

/-- The nine links (00_scope, section 1.2). -/
inductive Link where
  | switch
  | console (p : PosNo)
  deriving DecidableEq, Repr

/-- The two rates the strap pin chooses between (00_scope, section 1.7). -/
inductive LineRate where
  | bps115200
  | bps460800
  deriving DecidableEq, Repr

/-- The commands of the block, one for each row of the table, in the table's order. -/
inductive Instr where
  /-- POWER_ON_RESET (R175): the reset input is released while the strap pin selects `strap`. -/
  | powerOnReset (strap : LineRate)
  /-- TICK_PULSE (R155): one pulse on the tick line. -/
  | tickPulse
  /-- COUNTED_TICK (R156): a pulse that passes the divider. -/
  | countedTick
  /-- LINK_LOST (R174): the link is found silent for its loss limit. -/
  | linkLost (l : Link)
  /-- FRAME_ABANDONED (R165): the frame being collected on the link is given up. -/
  | frameAbandoned (l : Link)
  /-- BAD_FRAMES (R165): the bytes collected after a lead byte make an invalid frame. -/
  | badFrames (l : Link) (bytes : List Byte)
  /-- IDLE (R166): a valid IDLE frame. -/
  | idle (l : Link) (len : Nat)
  /-- SWITCH_FRAME_SENT (R169): the last byte of the frame on the switch link has been sent. -/
  | switchFrameSent
  /-- CONSOLE_NOTICE_SENT (R171): the console link is free and takes its next notice. -/
  | consoleNoticeSent (p : PosNo)
  /-- ARRIVE (R27). -/
  | arrive (len : Nat) (tag : Tag) (group circuit : Byte)
  /-- GONE (R15). -/
  | gone (len : Nat) (tag : Tag)
  /-- PATH_ACK (R148). -/
  | pathAck (len : Nat) (number : ReqNo) (outcome : Byte)
  /-- LEG_STATE (R128). -/
  | legState (len : Nat) (number : ReqNo) (value : Byte)
  /-- EXT_FREE (R138). -/
  | extFree (len : Nat) (ext : Ext)
  /-- PICKUP (R116). -/
  | pickup (len : Nat) (orbit : Byte) (ext : Ext)
  /-- START (R176). -/
  | start (len : Nat)
  /-- STOP (R177) with any mode byte but FORCED's: ORDERLY is 0, and every other byte is out of range. -/
  | stopOrderly (len : Nat) (mode : Byte)
  /-- STOP FORCED (R177): the mode byte is 1. -/
  | stopForced (len : Nat)
  /-- RESTART (R177). -/
  | restart (len : Nat)
  /-- GROUP_SET (R23). -/
  | groupSet (len : Nat) (group valid bits : Byte) (base : Half) (cls : Byte) (night : Half)
  /-- ORIGIN_SET (R24). -/
  | originSet (len : Nat) (index : Half) (valid override : Byte) (label : Half)
  /-- POSITION_SET (R179) with any subject but the report interval's: 0 to 7 name a position. -/
  | positionSetLeadEligible (len : Nat) (subject value : Byte)
  /-- POSITION_SET (R179) with subject 0x80. -/
  | positionSetReportInterval (len : Nat) (value : Byte)
  /-- TIMING_SET (R162). -/
  | timingSet (len : Nat) (thinOut stepBit stepEdge switchLimit consoleLimit : Byte)
  /-- RANGE_SET (R161). -/
  | rangeSet (len : Nat) (first last : Half)
  /-- PLAN_HOLD (R48). -/
  | planHold (len : Nat)
  /-- PLAN_WRITE (R49). -/
  | planWrite (len : Nat) (target field : Byte) (value : Half)
  /-- PLAN_RELEASE (R51). -/
  | planRelease (len : Nat)
  /-- PLAN_ABANDON (R52). -/
  | planAbandon (len : Nat)
  /-- PLAN_SELECT (R54). -/
  | planSelect (len : Nat) (selection : Byte)
  /-- SELECT (R54). -/
  | select (p : PosNo) (len : Nat) (seq selection : Byte)
  /-- NIGHT from the switch (R55). -/
  | night (len : Nat) (value : Byte)
  /-- NIGHT from a console (R55). -/
  | nightConsole (p : PosNo) (len : Nat) (seq value : Byte)
  /-- COUNTERS_READ (R180). -/
  | countersRead (len : Nat) (clear : Byte)
  /-- STATUS_READ (R181). -/
  | statusRead (len : Nat)
  /-- OPEN (R95). -/
  | openPosition (p : PosNo) (len : Nat) (seq : Byte)
  /-- CLOSE (R96). -/
  | closePosition (p : PosNo) (len : Nat) (seq : Byte)
  /-- ANSWER (R86). -/
  | answer (p : PosNo) (len : Nat) (seq loop slot : Byte)
  /-- PICK (R88). -/
  | pick (p : PosNo) (len : Nat) (seq slot loop : Byte)
  /-- HOLD (R99). -/
  | hold (p : PosNo) (len : Nat) (seq loop : Byte)
  /-- RETURN (R100). -/
  | returnCall (p : PosNo) (len : Nat) (seq loop : Byte)
  /-- RELEASE (R101). -/
  | release (p : PosNo) (len : Nat) (seq loop : Byte)
  /-- PARK (R113). -/
  | park (p : PosNo) (len : Nat) (seq loop orbit : Byte)
  /-- RETRIEVE (R115). -/
  | retrieve (p : PosNo) (len : Nat) (seq orbit loop : Byte)
  /-- CONSULT (R125). -/
  | consult (p : PosNo) (len : Nat) (seq loop : Byte) (ext : Ext)
  /-- JOIN (R129). -/
  | join (p : PosNo) (len : Nat) (seq loop : Byte)
  /-- CANCEL (R130). -/
  | cancel (p : PosNo) (len : Nat) (seq loop : Byte)
  /-- CAMP (R131). -/
  | camp (p : PosNo) (len : Nat) (seq loop : Byte)
  /-- SEND (R132). -/
  | send (p : PosNo) (len : Nat) (seq loop : Byte) (ext : Ext)
  /-- SWEEP_VISIT (R159): a sweep step is taken. -/
  | sweepVisit
  /-- WAIT_LIMIT_ROUTING (R67): the wait-limit test of the visited slot. -/
  | waitLimitRouting (slot : SlotNo)
  /-- OFFER_EXPIRY (R82): the offer expiry of the visited slot. -/
  | offerExpiry (slot : SlotNo)
  /-- HOLD_REMINDER (R103): the first stage of the hold check of the visited slot. -/
  | holdReminder (slot : SlotNo)
  /-- HOLD_RECALL (R103): the second stage of the hold check of the visited slot. -/
  | holdRecall (slot : SlotNo)
  /-- PARK_EXPIRY (R117): the park check of the visited slot. -/
  | parkExpiry (slot : SlotNo)
  /-- RING_EXPIRY (R134): the ring check of the visited slot. -/
  | ringExpiry (slot : SlotNo)
  /-- CAMP_EXPIRY (R139): the camp check of the visited slot. -/
  | campExpiry (slot : SlotNo)
  /-- REPORT_INTERVAL_END (R158). -/
  | reportIntervalEnd
  /-- RESET_ASSERTED (R175): the reset input is asserted. -/
  | resetAsserted
  /-- LEAD_BYTE_RECEIVED (R165): a byte 0xA6 is received on the link. -/
  | leadByteReceived (l : Link)
  /-- OTHER_KIND_FRAME (R166): a valid frame whose kind is no order on its link. -/
  | otherKindFrame (l : Link) (kind : Byte)
  deriving DecidableEq, Repr

end Sys2Proof
end

