-- ==== Sys2Proof/Decode.lean ====
section
/-! DEFINITION. The opcode table gives no row bits, so `decodeTableWord` reads no command from a word.

Beside it stand the frames of chapter 11: the check, the kind codes, the payload layouts of every order
in both directions (`Instr.frame` writes them, `commandOfFrame` reads them). A command of `Instr` that is
an order stands for one valid frame; these functions say for which. -/
namespace Sys2Proof

/-- No row of the table has bits (every "fields" is empty and none has "fixed"), so no word spells a
command. -/
def decodeTableWord (_nbits _w : Nat) : Option Instr := none

/-! ## Bytes of the multi-byte fields, high byte first (R166, R168) -/

def be2 (a b : Byte) : Half := a ++ b
def be3 (a b c : Byte) : Ext := a ++ b ++ c
def be4 (a b c d : Byte) : Tag := a ++ b ++ c ++ d

def bytes2 (h : Half) : List Byte := [h.extractLsb' 8 8, h.extractLsb' 0 8]
def bytes3 (x : Ext) : List Byte := [x.extractLsb' 16 8, x.extractLsb' 8 8, x.extractLsb' 0 8]
def bytes4 (t : Tag) : List Byte :=
  [t.extractLsb' 24 8, t.extractLsb' 16 8, t.extractLsb' 8 8, t.extractLsb' 0 8]

/-! ## The check and the frame (R165) -/

/-- One bit into the check: polynomial 0x1021, most significant bit first, no reflection. -/
def crcBit (crc : Half) (bit : Bool) : Half :=
  if crc.msb != bit then (crc <<< 1) ^^^ 0x1021 else crc <<< 1

def crcByte (crc : Half) (b : Byte) : Half :=
  [7, 6, 5, 4, 3, 2, 1, 0].foldl (fun c k => crcBit c (b.getLsbD k)) crc

/-- CRC-16 with initial value 0xFFFF and no final exclusive-or (R165). -/
def crc16 (bytes : List Byte) : Half := bytes.foldl crcByte 0xFFFF

/-- The bytes of a frame after its lead byte: length, kind, payload and the two check bytes. -/
def frameBody (kind : Byte) (payload : List Byte) : List Byte :=
  let covered := BitVec.ofNat 8 payload.length :: kind :: payload
  covered ++ bytes2 (crc16 covered)

/-- The whole frame, with its lead byte 0xA6 (section 11.1). -/
def frameBytes (kind : Byte) (payload : List Byte) : List Byte := 0xA6 :: frameBody kind payload

/-- The longest payload (R165). -/
def maxPayload : Nat := 58

/-- A frame whose check agrees: its kind and its payload (R165). `bytes` are those after the lead byte. -/
def validFrame (bytes : List Byte) : Option (Byte × List Byte) :=
  match bytes with
  | len :: kind :: rest =>
    let n := len.toNat
    let payload := rest.take n
    if n ≤ maxPayload ∧ rest.length = n + 2 ∧ rest.drop n = bytes2 (crc16 (len :: kind :: payload))
    then some (kind, payload) else none
  | _ => none

/-- An invalid frame: a length byte above 58, at once, or a check that differs (R165). -/
def invalidFrame (bytes : List Byte) : Bool :=
  match bytes with
  | [] => false
  | len :: rest =>
    let n := len.toNat
    if maxPayload < n then rest.isEmpty
    else rest.length == n + 3 && rest.drop (n + 1) != bytes2 (crc16 (len :: rest.take (n + 1)))

/-! ## Kind codes (section 11.3) -/

namespace Kind
abbrev idle : Byte := 0x01
abbrev arrive : Byte := 0x10
abbrev gone : Byte := 0x11
abbrev pathAck : Byte := 0x12
abbrev legState : Byte := 0x13
abbrev extFree : Byte := 0x14
abbrev pickup : Byte := 0x15
abbrev start : Byte := 0x20
abbrev stop : Byte := 0x21
abbrev restart : Byte := 0x22
abbrev groupSet : Byte := 0x23
abbrev originSet : Byte := 0x24
abbrev positionSet : Byte := 0x25
abbrev timingSet : Byte := 0x26
abbrev rangeSet : Byte := 0x27
abbrev planHold : Byte := 0x28
abbrev planWrite : Byte := 0x29
abbrev planRelease : Byte := 0x2A
abbrev planAbandon : Byte := 0x2B
abbrev planSelect : Byte := 0x2C
abbrev night : Byte := 0x2D
abbrev countersRead : Byte := 0x2E
abbrev statusRead : Byte := 0x2F
abbrev openPosition : Byte := 0x60
abbrev closePosition : Byte := 0x61
abbrev answer : Byte := 0x62
abbrev pick : Byte := 0x63
abbrev hold : Byte := 0x64
abbrev returnCall : Byte := 0x65
abbrev release : Byte := 0x66
abbrev park : Byte := 0x67
abbrev retrieve : Byte := 0x68
abbrev consult : Byte := 0x69
abbrev join : Byte := 0x6A
abbrev cancel : Byte := 0x6B
abbrev send : Byte := 0x6C
abbrev camp : Byte := 0x6D
abbrev nightConsole : Byte := 0x6E
abbrev select : Byte := 0x6F
end Kind

/-- The payload lengths of the orders from the switch (section 11.3), IDLE among them (R166). -/
def switchOrderLengths : List (Byte × Nat) :=
  [(Kind.idle, 0), (Kind.arrive, 6), (Kind.gone, 4), (Kind.pathAck, 3), (Kind.legState, 3),
   (Kind.extFree, 3), (Kind.pickup, 4), (Kind.start, 0), (Kind.stop, 1), (Kind.restart, 0),
   (Kind.groupSet, 8), (Kind.originSet, 6), (Kind.positionSet, 2), (Kind.timingSet, 5),
   (Kind.rangeSet, 4), (Kind.planHold, 0), (Kind.planWrite, 4), (Kind.planRelease, 0),
   (Kind.planAbandon, 0), (Kind.planSelect, 1), (Kind.night, 1), (Kind.countersRead, 1),
   (Kind.statusRead, 0)]

/-- The payload lengths of the orders from a console (section 11.3), IDLE among them (R166). -/
def consoleOrderLengths : List (Byte × Nat) :=
  [(Kind.idle, 0), (Kind.openPosition, 1), (Kind.closePosition, 1), (Kind.answer, 3), (Kind.pick, 3),
   (Kind.hold, 2), (Kind.returnCall, 2), (Kind.release, 2), (Kind.park, 3), (Kind.retrieve, 3),
   (Kind.consult, 5), (Kind.join, 2), (Kind.cancel, 2), (Kind.send, 5), (Kind.camp, 2),
   (Kind.nightConsole, 2), (Kind.select, 2)]

/-- The payload length of an order kind on a link; none where the kind is no order there (R166). -/
def orderLength (l : Link) (kind : Byte) : Option Nat :=
  match l with
  | .switch => switchOrderLengths.lookup kind
  | .console _ => consoleOrderLengths.lookup kind

/-! ## Writing an order as a frame (R167, R168) -/

/-- The link, the kind and the payload of the frame that an order of the right length stands for; none
for a command that is no valid frame of an order. -/
def Instr.frame : Instr → Option (Link × Byte × List Byte)
  | .idle l _ => some (l, Kind.idle, [])
  | .arrive _ tag group circuit => some (.switch, Kind.arrive, bytes4 tag ++ [group, circuit])
  | .gone _ tag => some (.switch, Kind.gone, bytes4 tag)
  | .pathAck _ number outcome => some (.switch, Kind.pathAck, bytes2 number ++ [outcome])
  | .legState _ number value => some (.switch, Kind.legState, bytes2 number ++ [value])
  | .extFree _ ext => some (.switch, Kind.extFree, bytes3 ext)
  | .pickup _ orbit ext => some (.switch, Kind.pickup, orbit :: bytes3 ext)
  | .start _ => some (.switch, Kind.start, [])
  | .stopOrderly _ mode => some (.switch, Kind.stop, [mode])
  | .stopForced _ => some (.switch, Kind.stop, [1])
  | .restart _ => some (.switch, Kind.restart, [])
  | .groupSet _ group valid bits base cls dest =>
    some (.switch, Kind.groupSet, [group, valid, bits] ++ bytes2 base ++ [cls] ++ bytes2 dest)
  | .originSet _ index valid override label =>
    some (.switch, Kind.originSet, bytes2 index ++ [valid, override] ++ bytes2 label)
  | .positionSetLeadEligible _ subject value => some (.switch, Kind.positionSet, [subject, value])
  | .positionSetReportInterval _ value => some (.switch, Kind.positionSet, [0x80, value])
  | .timingSet _ thin bit edge sw con => some (.switch, Kind.timingSet, [thin, bit, edge, sw, con])
  | .rangeSet _ first last => some (.switch, Kind.rangeSet, bytes2 first ++ bytes2 last)
  | .planHold _ => some (.switch, Kind.planHold, [])
  | .planWrite _ target field value =>
    some (.switch, Kind.planWrite, [target, field] ++ bytes2 value)
  | .planRelease _ => some (.switch, Kind.planRelease, [])
  | .planAbandon _ => some (.switch, Kind.planAbandon, [])
  | .planSelect _ selection => some (.switch, Kind.planSelect, [selection])
  | .select p _ seq selection => some (.console p, Kind.select, [seq, selection])
  | .night _ value => some (.switch, Kind.night, [value])
  | .nightConsole p _ seq value => some (.console p, Kind.nightConsole, [seq, value])
  | .countersRead _ clear => some (.switch, Kind.countersRead, [clear])
  | .statusRead _ => some (.switch, Kind.statusRead, [])
  | .openPosition p _ seq => some (.console p, Kind.openPosition, [seq])
  | .closePosition p _ seq => some (.console p, Kind.closePosition, [seq])
  | .answer p _ seq loop slot => some (.console p, Kind.answer, [seq, loop, slot])
  | .pick p _ seq slot loop => some (.console p, Kind.pick, [seq, slot, loop])
  | .hold p _ seq loop => some (.console p, Kind.hold, [seq, loop])
  | .returnCall p _ seq loop => some (.console p, Kind.returnCall, [seq, loop])
  | .release p _ seq loop => some (.console p, Kind.release, [seq, loop])
  | .park p _ seq loop orbit => some (.console p, Kind.park, [seq, loop, orbit])
  | .retrieve p _ seq orbit loop => some (.console p, Kind.retrieve, [seq, orbit, loop])
  | .consult p _ seq loop ext => some (.console p, Kind.consult, [seq, loop] ++ bytes3 ext)
  | .join p _ seq loop => some (.console p, Kind.join, [seq, loop])
  | .cancel p _ seq loop => some (.console p, Kind.cancel, [seq, loop])
  | .camp p _ seq loop => some (.console p, Kind.camp, [seq, loop])
  | .send p _ seq loop ext => some (.console p, Kind.send, [seq, loop] ++ bytes3 ext)
  | .powerOnReset _ => none
  | .tickPulse => none
  | .countedTick => none
  | .linkLost _ => none
  | .frameAbandoned _ => none
  | .badFrames _ _ => none
  | .switchFrameSent => none
  | .consoleNoticeSent _ => none
  | .sweepVisit => none
  | .waitLimitRouting _ => none
  | .offerExpiry _ => none
  | .holdReminder _ => none
  | .holdRecall _ => none
  | .parkExpiry _ => none
  | .ringExpiry _ => none
  | .campExpiry _ => none
  | .reportIntervalEnd => none
  | .resetAsserted => none
  | .leadByteReceived _ => none
  | .otherKindFrame _ _ => none

/-! ## Reading a frame as a command (R166 to R168)

A field that a payload of the wrong length does not hold is read as 0; the order is not taken then. -/

/-- Byte k of a payload. -/
def byteAt (p : List Byte) (k : Nat) : Byte := p.getD k 0
def halfAt (p : List Byte) (k : Nat) : Half := be2 (byteAt p k) (byteAt p (k + 1))
def extAt (p : List Byte) (k : Nat) : Ext := be3 (byteAt p k) (byteAt p (k + 1)) (byteAt p (k + 2))
def tagAt (p : List Byte) (k : Nat) : Tag :=
  be4 (byteAt p k) (byteAt p (k + 1)) (byteAt p (k + 2)) (byteAt p (k + 3))

/-- The command of a valid frame on the switch link. -/
def switchCommand (kind : Byte) (b : List Byte) : Instr :=
  if kind = Kind.idle then .idle .switch b.length
  else if kind = Kind.arrive then .arrive b.length (tagAt b 0) (byteAt b 4) (byteAt b 5)
  else if kind = Kind.gone then .gone b.length (tagAt b 0)
  else if kind = Kind.pathAck then .pathAck b.length (halfAt b 0) (byteAt b 2)
  else if kind = Kind.legState then .legState b.length (halfAt b 0) (byteAt b 2)
  else if kind = Kind.extFree then .extFree b.length (extAt b 0)
  else if kind = Kind.pickup then .pickup b.length (byteAt b 0) (extAt b 1)
  else if kind = Kind.start then .start b.length
  else if kind = Kind.stop then
    if byteAt b 0 = 1 then .stopForced b.length else .stopOrderly b.length (byteAt b 0)
  else if kind = Kind.restart then .restart b.length
  else if kind = Kind.groupSet then
    .groupSet b.length (byteAt b 0) (byteAt b 1) (byteAt b 2) (halfAt b 3) (byteAt b 5) (halfAt b 6)
  else if kind = Kind.originSet then
    .originSet b.length (halfAt b 0) (byteAt b 2) (byteAt b 3) (halfAt b 4)
  else if kind = Kind.positionSet then
    if byteAt b 0 = 0x80 then .positionSetReportInterval b.length (byteAt b 1)
    else .positionSetLeadEligible b.length (byteAt b 0) (byteAt b 1)
  else if kind = Kind.timingSet then
    .timingSet b.length (byteAt b 0) (byteAt b 1) (byteAt b 2) (byteAt b 3) (byteAt b 4)
  else if kind = Kind.rangeSet then .rangeSet b.length (halfAt b 0) (halfAt b 2)
  else if kind = Kind.planHold then .planHold b.length
  else if kind = Kind.planWrite then .planWrite b.length (byteAt b 0) (byteAt b 1) (halfAt b 2)
  else if kind = Kind.planRelease then .planRelease b.length
  else if kind = Kind.planAbandon then .planAbandon b.length
  else if kind = Kind.planSelect then .planSelect b.length (byteAt b 0)
  else if kind = Kind.night then .night b.length (byteAt b 0)
  else if kind = Kind.countersRead then .countersRead b.length (byteAt b 0)
  else if kind = Kind.statusRead then .statusRead b.length
  else .otherKindFrame .switch kind

/-- The command of a valid frame on the link of a console. -/
def consoleCommand (p : PosNo) (kind : Byte) (b : List Byte) : Instr :=
  if kind = Kind.idle then .idle (.console p) b.length
  else if kind = Kind.openPosition then .openPosition p b.length (byteAt b 0)
  else if kind = Kind.closePosition then .closePosition p b.length (byteAt b 0)
  else if kind = Kind.answer then .answer p b.length (byteAt b 0) (byteAt b 1) (byteAt b 2)
  else if kind = Kind.pick then .pick p b.length (byteAt b 0) (byteAt b 1) (byteAt b 2)
  else if kind = Kind.hold then .hold p b.length (byteAt b 0) (byteAt b 1)
  else if kind = Kind.returnCall then .returnCall p b.length (byteAt b 0) (byteAt b 1)
  else if kind = Kind.release then .release p b.length (byteAt b 0) (byteAt b 1)
  else if kind = Kind.park then .park p b.length (byteAt b 0) (byteAt b 1) (byteAt b 2)
  else if kind = Kind.retrieve then .retrieve p b.length (byteAt b 0) (byteAt b 1) (byteAt b 2)
  else if kind = Kind.consult then .consult p b.length (byteAt b 0) (byteAt b 1) (extAt b 2)
  else if kind = Kind.join then .join p b.length (byteAt b 0) (byteAt b 1)
  else if kind = Kind.cancel then .cancel p b.length (byteAt b 0) (byteAt b 1)
  else if kind = Kind.send then .send p b.length (byteAt b 0) (byteAt b 1) (extAt b 2)
  else if kind = Kind.camp then .camp p b.length (byteAt b 0) (byteAt b 1)
  else if kind = Kind.nightConsole then .nightConsole p b.length (byteAt b 0) (byteAt b 1)
  else if kind = Kind.select then .select p b.length (byteAt b 0) (byteAt b 1)
  else .otherKindFrame (.console p) kind

/-- The command that the bytes after a lead byte make on a link: an order or an IDLE by its kind
(R166), OTHER_KIND_FRAME for any other kind, BAD_FRAMES for an invalid frame (R165); none while the
bytes make no whole frame. -/
def commandOfFrame (l : Link) (bytes : List Byte) : Option Instr :=
  if invalidFrame bytes then some (.badFrames l bytes)
  else match validFrame bytes with
    | none => none
    | some (kind, payload) =>
      match l with
      | .switch => some (switchCommand kind payload)
      | .console p => some (consoleCommand p kind payload)

end Sys2Proof
end

