-- ==== Sys2Proof/Config.lean ====
section
/-! DEFINITION. The choices that the spec leaves open. Each is a constant with no body, applied to the
draw count of the state, so that nothing in Lean can evaluate it and every claim holds whatever it is.
The numbers are codes of arrangements, read by `Machine.arrange`. -/
namespace Sys2Proof.Config

/-- The order, at the given draw, in which one counted tick takes the losses of links, the abandoned
frames and the sweep visit (R164: 'The two are taken in either order'). notes/assumptions/3.md. -/
opaque tickOrder : Nat → Nat

/-- Whether the supervision event of a link (numbered 0 for the switch link, then 1 to 8), at the given
draw, finds its transmit side with nothing to send, where that differs in the course of one counted
tick (R172, R164). notes/assumptions/4.md. -/
opaque idleFound : Nat → Nat → Bool

/-- The order, at the given draw and for the given console, in which the subjects that one action
newly makes pending join the console's list (R171). notes/assumptions/5.md. -/
opaque subjectOrder : Nat → Nat → Nat

end Sys2Proof.Config
end

