-- ==== Sys2Proof/Machine/State.lean ====
section
/-! DEFINITION. Everything the spec gives the part, as plain data, block by block in the order of the
chapters, and the machine right after reset. Three fields are the model's own: the queue of waiting
commands, the draw count of the free values, and each position's mark `offerNews`. -/
namespace Sys2Proof.Machine

/-! ## The Call Register (chapter 1) -/

/-- The states of a slot that holds a call (R9). A FREE slot holds none, so it has no `Call`. -/
inductive CallState where
  | waiting | offered | talking | held | parked | ringing | camped | departing
  deriving DecidableEq, Repr

/-- The six recall reasons (section 1.2, section 7.5). -/
inductive RecallReason where
  | hold | park | ring | camp | positionLost | pathFail
  deriving DecidableEq, Repr

/-- The offer field of a slot: one position, or ALL (section 1.2). -/
inductive Offer where
  | one (p : PosNo)
  | all
  deriving DecidableEq, Repr

/-- A connection value (R143). -/
inductive Conn where
  | none
  | seat (p : PosNo) (l : LoopNo)
  | hold
  | ring (x : Ext)
  | deliver (x : Ext) (via : Option ReqNo)
  | away (d : Half)
  | drop
  deriving DecidableEq, Repr

/-- The home of a call: a position, with a loop while the call is seated (R6). -/
structure Home where
  pos : PosNo
  loop : Option LoopNo
  deriving DecidableEq, Repr

/-- The outstanding request of a slot: its number and its target (R144). -/
structure Request where
  number : ReqNo
  target : Conn
  deriving DecidableEq, Repr

/-- The slot record of a slot that holds a call: the 21 fields of section 1.2. -/
structure Call where
  state : CallState
  tag : Tag
  origin : OriginNo
  cls : ClassNo
  label : Half
  age : Nat
  score : Nat
  reason : Option RecallReason
  preferred : Option PosNo
  offer : Option Offer
  offerAge : Nat
  home : Option Home
  reminded : Bool
  orbit : Option OrbitNo
  extension : Option Ext
  campOrder : Option Nat
  confirmed : Conn
  wanted : Conn
  outstanding : Option Request
  ringWatch : Option ReqNo
  retryWait : Bool
  deriving DecidableEq, Repr

/-! ## Origin Lookup (chapter 2) -/

/-- An entry of the group table (section 2.1). -/
structure Group where
  valid : Bool
  bits : Nat
  base : Nat
  cls : ClassNo
  night : Half
  deriving DecidableEq, Repr

/-- An entry of the origin table (section 2.2). -/
structure Origin where
  valid : Bool
  override : Option ClassNo
  label : Half
  current : Option SlotNo
  deriving DecidableEq, Repr

/-- A group entry after power-on (R21). -/
def Group.cleared : Group := { valid := false, bits := 0, base := 0, cls := 0, night := 0 }

/-- An origin entry after power-on (R22). -/
def Origin.cleared : Origin := { valid := false, override := none, label := 0, current := none }

/-! ## The Plan Bank (chapter 3) -/

inductive Mode where
  | single | common
  deriving DecidableEq, Repr

/-- The 28 fields of a plan (R38). Binary digit p of a mask stands for position p. -/
structure Plan where
  mode : Mode
  masks : Vector Byte 8
  weights : Vector Nat 8
  gain : Nat
  bonus : Nat
  offerLimit : Nat
  missLimit : Nat
  holdLimit : Nat
  parkLimit : Nat
  ringLimit : Nat
  campLimit : Nat
  waitLimit : Nat
  queueLimit : Nat
  overflow : Half
  deriving DecidableEq, Repr

/-- The power-on defaults of a plan (R38). -/
def Plan.default : Plan :=
  { mode := .single, masks := Vector.replicate 8 0xFF,
    weights := #v[0, 32, 64, 96, 128, 160, 192, 224], gain := 32, bonus := 64,
    offerLimit := 8, missLimit := 0, holdLimit := 24, parkLimit := 48, ringLimit := 24,
    campLimit := 96, waitLimit := 0, queueLimit := 256, overflow := 0 }

/-- The four thresholds (R39). -/
structure Thresholds where
  t1 : Nat
  t2 : Nat
  t3 : Nat
  t4 : Nat
  deriving DecidableEq, Repr

inductive PlanName where
  | a | b | c
  deriving DecidableEq, Repr

/-- The three plans and the thresholds: what an edit writes (R38, R39). -/
structure Plans where
  a : Plan
  b : Plan
  c : Plan
  thresholds : Thresholds
  deriving DecidableEq, Repr

/-- The selection (R40). -/
inductive Selection where
  | manual (n : PlanName)
  | load
  deriving DecidableEq, Repr

/-- The band (R41). -/
inductive Band where
  | a | ab | b | bc | c
  deriving DecidableEq, Repr

/-- The fields of a plan that an edit can name (R167). -/
inductive PlanField where
  | mode | mask (c : ClassNo) | weight (c : ClassNo) | gain | bonus | offerLimit | missLimit
  | holdLimit | parkLimit | ringLimit | campLimit | waitLimit | queueLimit | overflow
  deriving DecidableEq, Repr

/-- The target of a plan edit (R47, R49). -/
inductive EditTarget where
  | field (n : PlanName) (f : PlanField)
  | threshold (k : Fin 4)
  deriving DecidableEq, Repr

/-- A staged edit: its target and its value after clamping (R47). -/
structure Edit where
  target : EditTarget
  value : Nat
  deriving DecidableEq, Repr

inductive NightSetting where
  | manualOff | manualOn | auto
  deriving DecidableEq, Repr

/-! ## The positions (chapters 5, 6 and 8) -/

inductive PosState where
  | down | closed | opened
  deriving DecidableEq, Repr

/-- The last reason of a position (section 6.1). -/
inductive PosReason where
  | opened | closed | forced
  deriving DecidableEq, Repr

/-- A loop: empty or one slot, with its recall mark (R97). -/
structure Loop where
  slot : Option SlotNo
  mark : Option RecallReason
  deriving DecidableEq, Repr

def Loop.empty : Loop := { slot := none, mark := none }

/-- The phases of a consult (R124). -/
inductive Phase where
  | asked | dialled | ringing | answered | busy | failed | cleared
  deriving DecidableEq, Repr

/-- An open consult record (R124). -/
structure Consult where
  loop : LoopNo
  ext : Ext
  phase : Phase
  leg : Option ReqNo
  deriving DecidableEq, Repr

/-- A position context (section 6.1). `offerNews` is the model's own: the position's offer has changed
within the action under way; it is clear between actions (R76). -/
structure Position where
  state : PosState
  lastReason : PosReason
  leadEligible : Bool
  loops : Vector Loop 4
  offer : Option SlotNo
  missCount : Nat
  consult : Option Consult
  offerNews : Bool
  deriving DecidableEq, Repr

/-- A position context after power-on (R93). -/
def Position.powerOn : Position :=
  { state := .down, lastReason := .closed, leadEligible := true,
    loops := Vector.replicate 4 Loop.empty, offer := none, missCount := 0, consult := none,
    offerNews := false }

/-! ## The camp table (section 8.7) -/

/-- An entry of the camp table: an extension and its camp list, oldest first (R136). -/
structure CampEntry where
  ext : Ext
  list : List SlotNo
  deriving DecidableEq, Repr

/-! ## The timebase (chapter 10) -/

inductive StepEdge where
  | rise | fall | either
  deriving DecidableEq, Repr

/-! ## Notices (chapter 11) -/

/-- The result codes (R182). -/
inductive ResultCode where
  | accepted | clamped | notInService | notInStandby | closed | notLead | badLoop | badOrbit
  | badSlot | noCall | taken | loopBusy | wrongState | consulting | occupied | parkFull | campFull
  | congested | notHeld | heldAlready | stageFull | badThresholds | badRange | callsPresent
  deriving DecidableEq, Repr

/-- The reasons of REJECT (R35). -/
inductive RejectReason where
  | notInService | duplicateTag | unknownOrigin | circuitBusy | full
  deriving DecidableEq, Repr

/-- The reasons of DIVERT (R35). -/
inductive DivertReason where
  | night | overflow
  deriving DecidableEq, Repr

/-- The exception kinds (R182). -/
inductive ExceptionKind where
  | unknownOrigin | duplicateTag | circuitBusy | pathFailed | staleReply
  deriving DecidableEq, Repr

inductive ServiceState where
  | standby | service
  deriving DecidableEq, Repr

/-- What a STATUS notice carries: the thirteen items of R181 and, beside the depth, the oldest age (R69),
to which the layout of R181 gives no item (notes/assumptions/27.md). -/
structure Status where
  service : ServiceState
  nightSetting : NightSetting
  nightFlag : Bool
  selection : Selection
  band : Band
  depth : Nat
  oldestAge : Nat
  freeSlots : Nat
  lead : Option PosNo
  positions : Vector PosState 8
  switchUp : Bool
  consolesUp : Vector Bool 8
  tickCount : Half
  pointer : SlotNo
  staged : Nat
  deriving DecidableEq, Repr

/-- A notice to the switch (section 11.3). -/
inductive SwitchNotice where
  | pathReq (number : ReqNo) (tag : Tag) (target : Conn)
  | legReq (number : ReqNo) (p : PosNo) (x : Ext)
  | legDrop (number : ReqNo)
  | divert (tag : Tag) (dest : Half) (reason : DivertReason)
  | reject (tag : Tag) (reason : RejectReason)
  | watch (x : Ext)
  | unwatch (x : Ext)
  | positionAlarm (p : PosNo) (up : Bool)
  | exception (kind : ExceptionKind) (d1 d2 d3 : Tag)
  | result (kind : Byte) (code : ResultCode)
  | counters (part : Nat) (values : List Nat)
  | status (st : Status)
  deriving DecidableEq, Repr

/-- The lamp states (R110). -/
inductive Lamp where
  | empty | connecting | talking | held | heldRemind | asked | dialled | ringing | answered | busy
  | failed | cleared
  deriving DecidableEq, Repr

/-- What a LOOP or OFFER notice tells of a call: its slot, label and class (R110, R76). -/
structure CallShown where
  slot : SlotNo
  label : Half
  cls : ClassNo
  deriving DecidableEq, Repr

/-- A notice to a console (section 11.3). -/
inductive ConsoleNotice where
  | result (seq kind : Byte) (code : ResultCode) (orbit : Option OrbitNo)
  | loop (l : LoopNo) (lamp : Lamp) (call : Option CallShown) (mark : Option RecallReason)
  | offer (all : Bool) (call : Option CallShown) (reason : Option RecallReason)
  | queue (depth oldest : Nat) (band : Band) (nightFlag : Bool)
  | park (items : List (OrbitNo × Half))
  | position (state : PosState) (lead : Bool) (missCount : Nat) (reason : PosReason)
  deriving DecidableEq, Repr

/-- The subject entries of a console transmit set (R171). -/
inductive Subject where
  | loop (l : LoopNo)
  | offer
  | queue
  | park
  | position
  deriving DecidableEq, Repr

/-! ## The Link Interface (chapter 11) -/

/-- The receive side of a link: hunting, or collecting a frame; `old` says that a supervision event has
come since its lead byte (R165). -/
inductive Receive where
  | hunting
  | collecting (old : Bool)
  deriving DecidableEq, Repr

/-- A link: its state, quiet count, heard mark and receive side (R165, R173), and whether an IDLE frame
is in the course of being sent on it (R172). -/
structure LinkUnit where
  up : Bool
  quiet : Nat
  heard : Bool
  receive : Receive
  idling : Bool
  deriving DecidableEq, Repr

/-- A link after power-on (R165, R173). -/
def LinkUnit.powerOn : LinkUnit :=
  { up := false, quiet := 0, heard := false, receive := .hunting, idling := false }

/-- A console transmit set: the pending entries in the order in which they became pending, and the
frame in the course of being sent (R171). -/
structure ConsoleSet where
  pending : List ConsoleNotice
  sending : Option ConsoleNotice
  deriving DecidableEq, Repr

/-! ## The Counter Bank (section 12.4) -/

inductive Counter where
  | arrivals | admitted | divertedNight | divertedOverflow | rejected | abandoned | answered | picked
  | recalls | delivered | dropped | missedOffers | staleReplies | pathFailures | badFrames
  | discardedOrders | droppedNotices | positionLosses
  deriving DecidableEq, Repr

/-! ## The machine -/

structure State where
  /-- service state (R175) -/
  service : ServiceState
  /-- the reset input is asserted (R175) -/
  resetHeld : Bool
  /-- the rate of all links, sampled from the strap pin at reset (00_scope 1.7, R175) -/
  lineRate : LineRate
  /-- LI: the switch link (R165, R173) -/
  switchLink : LinkUnit
  /-- LI: the console links 0 to 7 -/
  consoleLinks : Vector LinkUnit 8
  /-- LI: the loss limits (R173) -/
  switchLossLimit : Nat
  consoleLossLimit : Nat
  /-- LI: the switch transmit list, head first (R169) -/
  txList : List SwitchNotice
  /-- LI: the console transmit sets (R171) -/
  consoles : Vector ConsoleSet 8
  /-- OL: the group table (R21) -/
  groups : Vector Group 64
  /-- OL: the origin table (R22) -/
  origins : Vector Origin 1024
  /-- CR: the slots; `none` is a FREE slot (R1, R3) -/
  slots : Vector (Option Call) 256
  /-- CR: the sweep range (R1) -/
  rangeFirst : SlotNo
  rangeLast : SlotNo
  /-- CR: the free-slot count (R2) -/
  freeSlots : Nat
  /-- CR: the tag index (R11) -/
  tagIndex : List (Tag × SlotNo)
  /-- OQ: the queue, head first (R58) -/
  queue : List SlotNo
  /-- PB: the plans and thresholds (R38, R39) -/
  plans : Plans
  /-- PB: the selection (R40) -/
  selection : Selection
  /-- PB: the effective plan and its band (R42) -/
  eff : Plan
  band : Band
  /-- PB: the staging list; `none` is closed (R47) -/
  staging : Option (List Edit)
  /-- PB: the night setting and the night flag (R55, R56) -/
  nightSetting : NightSetting
  nightFlag : Bool
  /-- OD: the available list, head first (R74) -/
  available : List PosNo
  /-- PC: the position contexts (section 6.1) -/
  positions : Vector Position 8
  /-- PC: the lead position (R105) -/
  lead : Option PosNo
  /-- PO: the orbits (R112) -/
  orbits : Vector (Option SlotNo) 16
  /-- TU: the camp table (R136) -/
  camps : List CampEntry
  /-- PRU: the request number counter (R145) -/
  reqCounter : ReqNo
  /-- SU: the divider (R155) -/
  thinOut : Nat
  pulseCount : Nat
  /-- SU: the tick count and the step selection (R156, R157) -/
  tickCount : Half
  stepBit : Nat
  stepEdge : StepEdge
  /-- SU: the sweep pointer and the pass count (R158) -/
  pointer : SlotNo
  passCount : Nat
  /-- CB: the counters and the report interval (R179, R180) -/
  counters : Vector Nat 18
  reportInterval : Nat
  /-- the model's own: how many free values have been drawn -/
  draws : Nat
  /-- the model's own: the commands that wait, first in first out -/
  pending : List Instr
  deriving DecidableEq, Repr

/-- The reasons to stop with a fault. There is none: the spec gives every command an effect in every
state, so the type has no constructor and no step ends in a fault. -/
inductive Fault where
  deriving DecidableEq, Repr

/-- The reasons to refuse a command. -/
inductive Refusal where
  /-- An arm of `exec` that has no meaning yet answers this, with the row's mnemonic. Safe: the machine
  stops where the part goes on. No arm answers it. -/
  | notModelled (mnemonic : String)
  deriving DecidableEq, Repr

/-- The machine right after reset: the power-on value of every piece of state (R175 and the rule that
each field's docstring names). The line rate and the draw count have no power-on value in the spec:
notes/assumptions/6.md. -/
def State.reset : State :=
  { service := .standby, resetHeld := false, lineRate := .bps115200,
    switchLink := LinkUnit.powerOn, consoleLinks := Vector.replicate 8 LinkUnit.powerOn,
    switchLossLimit := 32, consoleLossLimit := 32, txList := [],
    consoles := Vector.replicate 8 { pending := [], sending := none },
    groups := Vector.replicate 64 Group.cleared, origins := Vector.replicate 1024 Origin.cleared,
    slots := Vector.replicate 256 none, rangeFirst := 0, rangeLast := 63, freeSlots := 64,
    tagIndex := [], queue := [],
    plans := { a := Plan.default, b := Plan.default, c := Plan.default,
               thresholds := { t1 := 8, t2 := 16, t3 := 24, t4 := 32 } },
    selection := .manual .a, eff := Plan.default, band := .a, staging := none,
    nightSetting := .auto, nightFlag := true, available := [],
    positions := Vector.replicate 8 Position.powerOn, lead := none,
    orbits := Vector.replicate 16 none, camps := [], reqCounter := 0,
    thinOut := 1, pulseCount := 0, tickCount := 0, stepBit := 0, stepEdge := .rise,
    pointer := 0, passCount := 0, counters := Vector.replicate 18 0, reportInterval := 0,
    draws := 0, pending := [] }

end Sys2Proof.Machine
end

