-- ==== Sys2Proof/Machine/Operands.lean ====
section
/-! DEFINITION. Reading the operands of the orders: every field's range and every coded value, as
section 11.3 and the orders' own rules give them. -/
namespace Sys2Proof.Machine

/-- A loop argument, 0 to 3 (R86, R99). -/
def loopArg (b : Byte) : Option LoopNo := if h : b.toNat < 4 then some ⟨b.toNat, h⟩ else none

/-- An orbit number, 0 to 15 (R113). -/
def orbitArg (b : Byte) : Option OrbitNo := if h : b.toNat < 16 then some ⟨b.toNat, h⟩ else none

/-- The orbit byte that means ANY in PARK (R167). -/
def anyOrbit : Byte := 0xFF

/-- Every byte is a slot number (R1). -/
def slotArg (b : Byte) : SlotNo := ⟨b.toNat, b.isLt⟩

/-- A position number, 0 to 7 (R179). -/
def posArg (b : Byte) : Option PosNo := if h : b.toNat < 8 then some ⟨b.toNat, h⟩ else none

/-- A group number, 0 to 63 (R23, R26). -/
def groupArg (b : Byte) : Option GroupNo := if h : b.toNat < 64 then some ⟨b.toNat, h⟩ else none

/-- A class, 0 to 7 (R23, R24). -/
def classArg (b : Byte) : Option ClassNo := if h : b.toNat < 8 then some ⟨b.toNat, h⟩ else none

/-- An origin index, 0 to 1023 (R24). -/
def originArg (n : Nat) : Option OriginNo := if h : n < 1024 then some ⟨n, h⟩ else none

/-- A valid byte: 0 is no and 1 is yes (R168). -/
def validArg (b : Byte) : Option Bool :=
  if b = 0 then some false else if b = 1 then some true else none

/-- The class override of ORIGIN_SET: 0xFF is absent (R167); above 7 is out of range (R24). -/
def overrideArg (b : Byte) : Option (Option ClassNo) :=
  if b = 0xFF then some none else (classArg b).map some

/-- The extension lies in 0 to 999999 (R116, R125, R132, R138). -/
def extInRange (x : Ext) : Bool := x.toNat ≤ 999999

/-- The outcome of PATH_ACK: 0 DONE, 1 FAIL (section 11.3); any other is not taken (R148). -/
def outcomeArg (b : Byte) : Option Bool :=
  if b = 0 then some true else if b = 1 then some false else none

/-- The values of LEG_STATE (section 11.3, R128). -/
inductive LegReport where
  | ringing | answered | busy | unobtainable | cleared
  deriving DecidableEq, Repr

def legReportArg (b : Byte) : Option LegReport :=
  if b = 1 then some .ringing else if b = 2 then some .answered else if b = 3 then some .busy
  else if b = 4 then some .unobtainable else if b = 5 then some .cleared else none

/-- The selection values of PLAN_SELECT and SELECT (R167). -/
def selectionArg (b : Byte) : Option Selection :=
  if b = 0 then some (.manual .a) else if b = 1 then some (.manual .b)
  else if b = 2 then some (.manual .c) else if b = 3 then some .load else none

/-- The night values (R167). -/
def nightArg (b : Byte) : Option NightSetting :=
  if b = 0 then some .manualOff else if b = 1 then some .manualOn
  else if b = 2 then some .auto else none

/-- The fields of a plan by number (R167). -/
def planFieldArg (b : Byte) : Option PlanField :=
  let n := b.toNat
  if n = 0 then some .mode
  else if n ≤ 8 then (originClass (n - 1)).map .mask
  else if n ≤ 16 then (originClass (n - 9)).map .weight
  else match n with
    | 17 => some .gain
    | 18 => some .bonus
    | 19 => some .offerLimit
    | 20 => some .missLimit
    | 21 => some .holdLimit
    | 22 => some .parkLimit
    | 23 => some .ringLimit
    | 24 => some .campLimit
    | 25 => some .waitLimit
    | 26 => some .queueLimit
    | 27 => some .overflow
    | _ => none
where
  /-- A class number below 8. -/
  originClass (k : Nat) : Option ClassNo := if h : k < 8 then some ⟨k, h⟩ else none

/-- The target of PLAN_WRITE (R167): target byte 0, 1, 2 for the plans and 3 for the thresholds. -/
def editTargetArg (target field : Byte) : Option EditTarget :=
  if target = 0 then (planFieldArg field).map (.field .a)
  else if target = 1 then (planFieldArg field).map (.field .b)
  else if target = 2 then (planFieldArg field).map (.field .c)
  else if target = 3 then
    if h : field.toNat < 4 then some (.threshold ⟨field.toNat, h⟩) else none
  else none

/-- A value brought into a range (R38, R39, R162). -/
def clampTo (lo hi v : Nat) : Nat := max lo (min hi v)

/-- The range of an edit's target, lowest and highest value (R38, R39). -/
def EditTarget.range : EditTarget → Nat × Nat
  | .threshold _ => (0, 256)
  | .field _ .mode => (0, 1)
  | .field _ (.mask _) => (0, 255)
  | .field _ (.weight _) => (0, 255)
  | .field _ .gain => (0, 255)
  | .field _ .bonus => (0, 255)
  | .field _ .offerLimit => (1, 15)
  | .field _ .missLimit => (0, 15)
  | .field _ .holdLimit => (1, 255)
  | .field _ .parkLimit => (1, 255)
  | .field _ .ringLimit => (1, 255)
  | .field _ .campLimit => (1, 255)
  | .field _ .waitLimit => (0, 255)
  | .field _ .queueLimit => (1, 256)
  | .field _ .overflow => (0, 65535)

/-- The value of an edit after clamping (R49). -/
def EditTarget.clamp (t : EditTarget) (v : Nat) : Nat := clampTo t.range.1 t.range.2 v

/-- The step edge of TIMING_SET (R168): 0 RISE, 1 FALL, 2 EITHER; any other code is RISE (R162). -/
def edgeArg (b : Byte) : StepEdge :=
  if b = 1 then .fall else if b = 2 then .either else .rise

/-- The codes of the step edge that are in range (R162). -/
def edgeInRange (b : Byte) : Bool := b == 0 || b == 1 || b == 2

/-- A loss limit: 16, 32 or 64; any other value becomes 64 (R162). -/
def lossLimitArg (b : Byte) : Nat := if b = 16 then 16 else if b = 32 then 32 else 64

def lossLimitInRange (b : Byte) : Bool := b == 16 || b == 32 || b == 64

end Sys2Proof.Machine
end

