-- ==== Sys2Proof/Machine/PlanBank.lean ====
section
/-! DEFINITION. The computations of the Plan Bank (chapter 3): bands, blends, the effective plan, and
what an edit writes. -/
namespace Sys2Proof.Machine

/-- A valid set of thresholds (R39). -/
def Thresholds.valid (t : Thresholds) : Bool := t.t1 < t.t2 && t.t2 ≤ t.t3 && t.t3 < t.t4

def Thresholds.put (t : Thresholds) (k : Fin 4) (v : Nat) : Thresholds :=
  match k with
  | 0 => { t with t1 := v }
  | 1 => { t with t2 := v }
  | 2 => { t with t3 := v }
  | 3 => { t with t4 := v }

def Plans.get (ps : Plans) : PlanName → Plan
  | .a => ps.a
  | .b => ps.b
  | .c => ps.c

def Plans.put (ps : Plans) (n : PlanName) (p : Plan) : Plans :=
  match n with
  | .a => { ps with a := p }
  | .b => { ps with b := p }
  | .c => { ps with c := p }

/-- A plan with one field written; the value is already in the field's range (R38). -/
def Plan.put (p : Plan) (f : PlanField) (v : Nat) : Plan :=
  match f with
  | .mode => { p with mode := if v = 0 then .single else .common }
  | .mask c => { p with masks := vset p.masks c (BitVec.ofNat 8 v) }
  | .weight c => { p with weights := vset p.weights c v }
  | .gain => { p with gain := v }
  | .bonus => { p with bonus := v }
  | .offerLimit => { p with offerLimit := v }
  | .missLimit => { p with missLimit := v }
  | .holdLimit => { p with holdLimit := v }
  | .parkLimit => { p with parkLimit := v }
  | .ringLimit => { p with ringLimit := v }
  | .campLimit => { p with campLimit := v }
  | .waitLimit => { p with waitLimit := v }
  | .queueLimit => { p with queueLimit := v }
  | .overflow => { p with overflow := BitVec.ofNat 16 v }

/-- The plans and thresholds with one edit applied (R50, R51). -/
def Plans.apply (ps : Plans) (e : Edit) : Plans :=
  match e.target with
  | .field n f => ps.put n ((ps.get n).put f e.value)
  | .threshold k => { ps with thresholds := ps.thresholds.put k e.value }

/-- The working copy of a release: the edits in list order, oldest first (R51). -/
def Plans.applyAll (ps : Plans) (es : List Edit) : Plans := es.foldl Plans.apply ps

/-- The band of a depth among the thresholds (R41). -/
def bandOf (t : Thresholds) (d : Nat) : Band :=
  if d ≤ t.t1 then .a
  else if d < t.t2 then .ab
  else if d ≤ t.t3 then .b
  else if d < t.t4 then .bc
  else .c

/-- One blended value (R42): between the bounds lo and hi, at depth d, rounded down. -/
def blendValue (x y lo hi d : Nat) : Nat := (x * (hi - d) + y * (d - lo)) / (hi - lo)

/-- The blend of a lower and an upper plan (R42): the weights, the gain and the bonus are blended and
every other field is the lower plan's. -/
def blend (l u : Plan) (lo hi d : Nat) : Plan :=
  { l with
    weights := Vector.zipWith (fun x y => blendValue x y lo hi d) l.weights u.weights
    gain := blendValue l.gain u.gain lo hi d
    bonus := blendValue l.bonus u.bonus lo hi d }

def PlanName.band : PlanName → Band
  | .a => .a
  | .b => .b
  | .c => .c

/-- The band in force (R40, R41). -/
def bandInForce (sel : Selection) (ps : Plans) (d : Nat) : Band :=
  match sel with
  | .manual n => n.band
  | .load => bandOf ps.thresholds d

/-- The plan of a band at a depth (R42). -/
def planOfBand (ps : Plans) (d : Nat) : Band → Plan
  | .a => ps.a
  | .ab => blend ps.a ps.b ps.thresholds.t1 ps.thresholds.t2 d
  | .b => ps.b
  | .bc => blend ps.b ps.c ps.thresholds.t3 ps.thresholds.t4 d
  | .c => ps.c

/-- The effective plan for a selection, the plans and a depth (R42). -/
def planInForce (sel : Selection) (ps : Plans) (d : Nat) : Plan :=
  planOfBand ps d (bandInForce sel ps d)

/-- Position p is in the mask of class c (R38). -/
def Plan.allows (pl : Plan) (c : ClassNo) (p : PosNo) : Bool := (pl.masks[c]).getLsbD p.val

end Sys2Proof.Machine
end

