-- ==== Sys2Proof/Machine/Flags.lean ====
section
/-! DEFINITION. The reading side of the machine: lookups, and every figure that the spec defines from
other state (the depth and the oldest age, the live numbers, availability, the lead, the night flag,
lamp states, and the contents of the console notices). -/
namespace Sys2Proof.Machine

/-! ## Lookups -/

def allPos : List PosNo := [0, 1, 2, 3, 4, 5, 6, 7]
def allLoops : List LoopNo := [0, 1, 2, 3]
def allOrbits : List OrbitNo := [0, 1, 2, 3, 4, 5, 6, 7, 8, 9, 10, 11, 12, 13, 14, 15]
def allLinks : List Link := .switch :: allPos.map .console

def State.call (s : State) (i : SlotNo) : Option Call := s.slots[i]
def State.pos (s : State) (p : PosNo) : Position := s.positions[p]
def Position.loop (c : Position) (l : LoopNo) : Loop := c.loops[l]
def State.group (s : State) (g : GroupNo) : Group := s.groups[g]
def State.origin (s : State) (o : OriginNo) : Origin := s.origins[o]
def State.orbitSlot (s : State) (o : OrbitNo) : Option SlotNo := s.orbits[o]
def State.console (s : State) (p : PosNo) : ConsoleSet := s.consoles[p]

def State.link (s : State) : Link → LinkUnit
  | .switch => s.switchLink
  | .console p => s.consoleLinks[p]

/-- The loss limit of a link (R173). -/
def State.lossLimit (s : State) : Link → Nat
  | .switch => s.switchLossLimit
  | .console _ => s.consoleLossLimit

/-- The call on a loop, with its slot number. -/
def State.loopCall (s : State) (p : PosNo) (l : LoopNo) : Option (SlotNo × Call) :=
  match ((s.pos p).loop l).slot with
  | none => none
  | some i => (s.call i).map (fun c => (i, c))

/-- The number of a counter in the bank: its tag less 1 (section 12.4). -/
def Counter.index : Counter → Fin 18
  | .arrivals => 0
  | .admitted => 1
  | .divertedNight => 2
  | .divertedOverflow => 3
  | .rejected => 4
  | .abandoned => 5
  | .answered => 6
  | .picked => 7
  | .recalls => 8
  | .delivered => 9
  | .dropped => 10
  | .missedOffers => 11
  | .staleReplies => 12
  | .pathFailures => 13
  | .badFrames => 14
  | .discardedOrders => 15
  | .droppedNotices => 16
  | .positionLosses => 17

def State.count (s : State) (c : Counter) : Nat := s.counters[c.index]

/-! ## States of calls -/

/-- WAITING or OFFERED: the call is in the queue (R58). -/
def CallState.queued : CallState → Bool
  | .waiting => true
  | .offered => true
  | _ => false

/-- TALKING or HELD: the call is on a loop (R97). -/
def CallState.seated : CallState → Bool
  | .talking => true
  | .held => true
  | _ => false

/-- The record of the consult is open on this loop of the position (R100, R103). -/
def State.consultOn (s : State) (p : PosNo) (l : LoopNo) : Bool :=
  match (s.pos p).consult with
  | none => false
  | some r => r.loop == l

/-- A call whose position's consult record is open on its loop: it is consulting (R103, R159). -/
def State.consulting (s : State) (c : Call) : Bool :=
  match c.home with
  | some { pos := p, loop := some l } => s.consultOn p l
  | _ => false

/-- The call is seated on loop l of position p. -/
def Call.isHomeAt (c : Call) (p : PosNo) (l : LoopNo) : Bool :=
  c.home == some { pos := p, loop := some l }

/-- The slot number lies in the sweep range (R1). -/
def State.inRange (s : State) (i : SlotNo) : Bool := s.rangeFirst ≤ i && i ≤ s.rangeLast

/-- The length of the sweep range (R1). -/
def State.rangeLength (s : State) : Nat := s.rangeLast.val + 1 - s.rangeFirst.val

def allSlots : List SlotNo := List.finRange 256

/-- The lowest-numbered FREE slot of the sweep range (R10). -/
def State.lowestFree (s : State) : Option SlotNo :=
  allSlots.find? (fun i => s.inRange i && (s.call i).isNone)

/-- Every slot is FREE (R175, R177). -/
def State.allFree (s : State) : Bool := s.slots.toList.all Option.isNone

/-! ## The queue (chapter 4) -/

/-- The depth (R69). -/
def State.depth (s : State) : Nat := s.queue.length

def State.storedScore (s : State) (i : SlotNo) : Nat := ((s.call i).map (·.score)).getD 0
def State.storedAge (s : State) (i : SlotNo) : Nat := ((s.call i).map (·.age)).getD 0

/-- The oldest age (R69). -/
def State.oldestAge (s : State) : Nat := (s.queue.map s.storedAge).foldl max 0

/-- The largest score (R61). -/
def maxScore : Nat := 4095

/-- The score of a call under a plan (R61). -/
def scoreOf (e : Plan) (c : Call) : Nat :=
  min maxScore
    (8 * e.weights[c.cls] + c.age * e.gain / 32 + (if c.reason.isSome then e.bonus else 0))

/-- The walk of R63: immediately ahead of the first entry whose score is strictly lower. -/
def insertByScore (score : SlotNo → Nat) (i : SlotNo) : List SlotNo → List SlotNo
  | [] => [i]
  | j :: rest => if score j < score i then i :: j :: rest else j :: insertByScore score i rest

/-! ## Request numbers (R145) -/

def Call.numbers (c : Call) : List ReqNo :=
  (c.outstanding.map (·.number)).toList ++ c.ringWatch.toList

def Position.leg (c : Position) : Option ReqNo :=
  match c.consult with
  | none => none
  | some r => r.leg

/-- The live numbers: those of outstanding requests, of ring watches and of consult legs (R145). -/
def State.liveNumbers (s : State) : List ReqNo :=
  s.slots.toList.flatMap (fun o => match o with | none => [] | some c => c.numbers) ++
    s.positions.toList.flatMap (fun c => c.leg.toList)

/-- Stepping upwards from a number, from 65535 to 1, passing over 0 and every live number (R145). -/
def nextFrom (live : List ReqNo) : Nat → ReqNo → ReqNo
  | 0, n => n
  | fuel + 1, n => if n + 1 = 0 ∨ n + 1 ∈ live then nextFrom live fuel (n + 1) else n + 1

/-- The next request number (R145). -/
def State.nextNumber (s : State) : ReqNo := nextFrom s.liveNumbers 65536 s.reqCounter

/-- The slot whose outstanding request has the number (R148). -/
def State.slotOfRequest (s : State) (n : ReqNo) : Option SlotNo :=
  allSlots.find? (fun i =>
    match s.call i with
    | none => false
    | some c => (c.outstanding.map (·.number)) == some n)

/-- The position whose open consult record has the leg number (R127, R128). -/
def State.posOfLeg (s : State) (n : ReqNo) : Option PosNo :=
  allPos.find? (fun p => (s.pos p).leg == some n)

/-- The RINGING call whose ring watch has the number (R135). -/
def State.slotOfWatch (s : State) (n : ReqNo) : Option SlotNo :=
  allSlots.find? (fun i =>
    match s.call i with
    | none => false
    | some c => c.state == .ringing && c.ringWatch == some n)

/-! ## The switch transmit list (R169) -/

/-- The free count: 64 less the entries held. -/
def State.freeEntries (s : State) : Nat := 64 - s.txList.length

/-- The conditions of the issue rule for a call (R146). -/
def State.mayIssue (s : State) (c : Call) : Bool :=
  c.outstanding.isNone && c.wanted != c.confirmed && !c.retryWait && 1 ≤ s.freeEntries

/-! ## Positions -/

/-- At least one loop is empty. -/
def Position.hasEmptyLoop (c : Position) : Bool := allLoops.any (fun l => (c.loop l).slot.isNone)

/-- A position is available (R74). -/
def State.isAvailable (s : State) (p : PosNo) : Bool :=
  (s.pos p).state == .opened && (s.pos p).hasEmptyLoop && (s.pos p).consult.isNone &&
    (s.eff.mode == .common || (s.pos p).offer.isNone)

/-- Some position is being offered or shown the slot (R76). -/
def State.shownAnywhere (s : State) (i : SlotNo) : Bool :=
  allPos.any (fun p => (s.pos p).offer == some i)

/-- The lead (R105): the lowest eligible OPEN position, else the lowest eligible CLOSED one. -/
def leadOf (positions : Vector Position 8) : Option PosNo :=
  match allPos.find? (fun p => positions[p].leadEligible && positions[p].state == .opened) with
  | some p => some p
  | none => allPos.find? (fun p => positions[p].leadEligible && positions[p].state == .closed)

/-- The night flag (R56). -/
def nightFlagOf (setting : NightSetting) (positions : Vector Position 8) : Bool :=
  match setting with
  | .manualOn => true
  | .manualOff => false
  | .auto => !(allPos.any (fun p => positions[p].state == .opened))

/-- The night destination of an admitted call: that of the group owning its origin (R21). -/
def State.nightDestination (s : State) (o : OriginNo) : Half :=
  match s.groups.toList.find?
    (fun g => g.valid && g.base ≤ o.val && o.val < g.base + 2 ^ g.bits) with
  | some g => g.night
  | none => 0

/-! ## Console notices (R76, R70, R110, R111, R118) -/

def Phase.lamp : Phase → Lamp
  | .asked => .asked
  | .dialled => .dialled
  | .ringing => .ringing
  | .answered => .answered
  | .busy => .busy
  | .failed => .failed
  | .cleared => .cleared

/-- The lamp state of a loop: the first line of the table of R110 that applies. -/
def State.lamp (s : State) (p : PosNo) (l : LoopNo) : Lamp :=
  match s.loopCall p l with
  | none => .empty
  | some (_, c) =>
    match (s.pos p).consult with
    | some r => if r.loop = l then r.phase.lamp else lampOfCall c
    | none => lampOfCall c
where
  /-- The lamp of a call whose loop has no consult. -/
  lampOfCall (c : Call) : Lamp :=
    if c.state = .talking then if c.confirmed = .seat p l then .talking else .connecting
    else if c.reminded then .heldRemind else .held

def shown (i : SlotNo) (c : Call) : CallShown := { slot := i, label := c.label, cls := c.cls }

def State.loopNotice (s : State) (p : PosNo) (l : LoopNo) : ConsoleNotice :=
  match s.loopCall p l with
  | none => .loop l .empty none none
  | some (i, c) => .loop l (s.lamp p l) (some (shown i c)) ((s.pos p).loop l).mark

def State.offerNotice (s : State) (p : PosNo) : ConsoleNotice :=
  match (s.pos p).offer with
  | none => .offer false none none
  | some i =>
    match s.call i with
    | none => .offer false none none
    | some c => .offer (c.offer == some .all) (some (shown i c)) c.reason

def State.queueNotice (s : State) : ConsoleNotice :=
  .queue s.depth s.oldestAge s.band s.nightFlag

/-- The occupied orbits in ascending order, each with the label of its call (R118). -/
def State.parkItems (s : State) : List (OrbitNo × Half) :=
  allOrbits.filterMap (fun o =>
    match s.orbitSlot o with
    | none => none
    | some i => (s.call i).map (fun c => (o, c.label)))

def State.parkNotice (s : State) : ConsoleNotice := .park s.parkItems

def State.positionNotice (s : State) (p : PosNo) : ConsoleNotice :=
  .position (s.pos p).state (s.lead == some p) (s.pos p).missCount (s.pos p).lastReason

/-- The present content of a subject (R171). -/
def State.notice (s : State) (p : PosNo) : Subject → ConsoleNotice
  | .loop l => s.loopNotice p l
  | .offer => s.offerNotice p
  | .queue => s.queueNotice
  | .park => s.parkNotice
  | .position => s.positionNotice p

/-- The subject of a notice; a RESULT has none. -/
def ConsoleNotice.subject : ConsoleNotice → Option Subject
  | .result .. => none
  | .loop l .. => some (.loop l)
  | .offer .. => some .offer
  | .queue .. => some .queue
  | .park .. => some .park
  | .position .. => some .position

/-- How many RESULT entries a console's set holds (R171). -/
def State.resultsPending (s : State) (p : PosNo) : Nat :=
  ((s.console p).pending.filter (fun n => n.subject.isNone)).length

/-- The transmit side of a link has nothing to send: its list or set is empty and no frame, an IDLE
included, is in the course of being sent (R172). The switch list holds the frame being sent until it is
complete (R169). -/
def State.nothingToSend (s : State) : Link → Bool
  | .switch => s.txList.isEmpty && !s.switchLink.idling
  | .console p =>
    (s.console p).pending.isEmpty && (s.console p).sending.isNone && !(s.link (.console p)).idling

/-- The STATUS notice: the thirteen items of R181, and the oldest age, which R69 has it carry beside the
depth (notes/assumptions/27.md). -/
def State.statusNow (s : State) : Status :=
  { service := s.service, nightSetting := s.nightSetting, nightFlag := s.nightFlag,
    selection := s.selection, band := s.band, depth := s.depth, oldestAge := s.oldestAge,
    freeSlots := s.freeSlots, lead := s.lead, positions := s.positions.map (·.state), switchUp := s.switchLink.up,
    consolesUp := s.consoleLinks.map (·.up), tickCount := s.tickCount, pointer := s.pointer,
    staged := (s.staging.getD []).length }

/-- A step is taken at the change of the tick count from `before` to `after` (R157). -/
def stepTaken (edge : StepEdge) (bit : Nat) (before after : Half) : Bool :=
  match edge with
  | .rise => !before.getLsbD bit && after.getLsbD bit
  | .fall => before.getLsbD bit && !after.getLsbD bit
  | .either => before.getLsbD bit != after.getLsbD bit

end Sys2Proof.Machine
end

