-- ==== Sys2Proof/Machine/Ops.lean ====
section
/-! DEFINITION. The shared operations, block by block: each is one thing that the rules make several
commands do. All are total functions from states to states; where a record names something that is not
there (which no run reaches), an operation leaves the state as it is (notes/assumptions/20.md). -/
namespace Sys2Proof.Machine

/-! ## Writing the tables -/

def State.setCall (s : State) (i : SlotNo) (c : Option Call) : State :=
  { s with slots := vset s.slots i c }

/-- Change the record of a slot that holds a call; a FREE slot stays FREE. -/
def State.modCall (s : State) (i : SlotNo) (f : Call → Call) : State :=
  s.setCall i ((s.call i).map f)

def State.setPos (s : State) (p : PosNo) (c : Position) : State :=
  { s with positions := vset s.positions p c }

def State.setLoop (s : State) (p : PosNo) (l : LoopNo) (x : Loop) : State :=
  s.setPos p { s.pos p with loops := vset (s.pos p).loops l x }

def State.setConsole (s : State) (p : PosNo) (c : ConsoleSet) : State :=
  { s with consoles := vset s.consoles p c }

def State.setLink (s : State) (l : Link) (u : LinkUnit) : State :=
  match l with
  | .switch => { s with switchLink := u }
  | .console p => { s with consoleLinks := vset s.consoleLinks p u }

/-! ## Counters (R180) -/

def counterMax : Nat := 4294967295

/-- Raise a counter by 1, saturating. -/
def bump (c : Counter) (s : State) : State :=
  { s with counters := vset s.counters c.index (min counterMax (s.counters[c.index] + 1)) }

/-- All eighteen counters become 0. -/
def clearCounters (s : State) : State := { s with counters := Vector.replicate 18 0 }

/-! ## The switch transmit list (R169, R170) -/

/-- A frame joins the list at its tail. -/
def enlist (n : SwitchNotice) (s : State) : State := { s with txList := s.txList ++ [n] }

/-- EXCEPTION and POSITION_ALARM: admitted while at least 16 entries are free, else dropped. -/
def placeLow (n : SwitchNotice) (s : State) : State :=
  if 16 ≤ s.freeEntries then enlist n s else bump .droppedNotices s

/-- LEG_DROP and UNWATCH: admitted while an entry is free, else dropped. -/
def placeDroppable (n : SwitchNotice) (s : State) : State :=
  if 1 ≤ s.freeEntries then enlist n s else bump .droppedNotices s

/-- RESULT, DIVERT, REJECT and STATUS: admitted while an entry is free, else the order they answer is
counted. -/
def placeAnswer (n : SwitchNotice) (s : State) : State :=
  if 1 ≤ s.freeEntries then enlist n s else bump .discardedOrders s

/-- LEG_REQ and WATCH, whose orders have tested for room. -/
def placeTested (n : SwitchNotice) (s : State) : State :=
  if 1 ≤ s.freeEntries then enlist n s else s

/-- The RESULT of an order of the switch. -/
def answerSwitch (kind : Byte) (code : ResultCode) (s : State) : State :=
  placeAnswer (.result kind code) s

/-! ## The console transmit sets (R171) -/

/-- A RESULT joins the console's list at its tail as an entry of its own. -/
def answerConsole (p : PosNo) (seq kind : Byte) (code : ResultCode) (orbit : Option OrbitNo)
    (s : State) : State :=
  s.setConsole p { s.console p with pending := (s.console p).pending ++ [.result seq kind code orbit] }

/-- A subject made pending: in its place when it is pending already, else at the tail. -/
def pend (list : List ConsoleNotice) (n : ConsoleNotice) : List ConsoleNotice :=
  if list.any (fun m => m.subject == n.subject) then
    list.map (fun m => if m.subject == n.subject then n else m)
  else list ++ [n]

/-- The subjects become pending for the console, in the order given, with their present contents. -/
def makePending (p : PosNo) (subjects : List Subject) (s : State) : State :=
  s.setConsole p
    { s.console p with pending := subjects.foldl (fun l k => pend l (s.notice p k)) (s.console p).pending }

/-- An arrangement of a list, chosen by a code; every arrangement has a code. -/
def arrange {α : Type} (n : Nat) : List α → List α
  | [] => []
  | [x] => [x]
  | x :: y :: rest =>
    (arrange (n / (rest.length + 2)) (y :: rest)).insertIdx (n % (rest.length + 2)) x

def allSubjects : List Subject :=
  allLoops.map .loop ++ [.offer, .queue, .park, .position]

/-- The subjects of a console that an action, from `old` to `new`, makes pending: those whose content
has changed, PARK when the orbits have, and OFFER when the position's offer was given, cleared or
replaced in the course of it (R70, R76, R110, R111, R118). -/
def changedSubjects (old new : State) (p : PosNo) : List Subject :=
  allSubjects.filter (fun k =>
    match k with
    | .offer => (new.pos p).offerNews
    | .park => old.orbits != new.orbits
    | k => old.notice p k != new.notice p k)

/-- The changed subjects in the order in which they become pending: those already pending keep their
place, and the order in which the others join the list is free (notes/assumptions/5.md). -/
def pendingOrder (old new : State) (p : PosNo) : List Subject :=
  let changed := changedSubjects old new p
  let isPending := fun k => (new.console p).pending.any (fun m => m.subject == some k)
  changed.filter isPending ++
    arrange (Config.subjectOrder new.draws p.val) (changed.filter (fun k => !isPending k))

/-- The console's part of the end of an action: notices only where the link is UP (R171). -/
def announceTo (old new : State) (p : PosNo) (s : State) : State :=
  if (new.link (.console p)).up then makePending p (pendingOrder old new p) s else s

/-- The action is over: every mark `offerNews` is clear and the next draw stands. -/
def endAction (s : State) : State :=
  { s with positions := s.positions.map (fun c => { c with offerNews := false }),
           draws := s.draws + 1 }

/-- The end of an action: the subjects it changed become pending for the consoles whose link is UP. -/
def announce (old new : State) : State :=
  endAction (allPos.foldl (fun s p => announceTo old new p s) new)

/-- One action (R171: a subject's content is taken at the end of the action that made it pending). -/
def act (f : State → State) (s : State) : State := announce s (f s)

/-! ## Path requests (chapter 9) -/

/-- The issue rule (R146). -/
def issue (i : SlotNo) (s : State) : State :=
  match s.call i with
  | none => s
  | some c =>
    if s.mayIssue c then
      let n := s.nextNumber
      (enlist (.pathReq n c.tag c.wanted) { s with reqCounter := n }).modCall i
        (fun c => { c with outstanding := some { number := n, target := c.wanted } })
    else s

/-- A block names a wanted connection: one equal to the present one leaves the field as it is (R144),
and a change is followed by an attempt of the issue rule (R147). -/
def want (i : SlotNo) (w : Conn) (s : State) : State :=
  match s.call i with
  | none => s
  | some c => if c.wanted = w then s else issue i (s.modCall i (fun c => { c with wanted := w }))

/-! ## Collections and state changes (R9) -/

/-- Step 2 of a state change: the new state, the age and the fields that belong to the old state alone
(R4, R5, R6, R7). -/
def Call.enter (st : CallState) (c : Call) : Call :=
  { c with
    state := st
    age := if c.state.queued && st.queued then c.age else 0
    score := if st.queued then c.score else 0
    offer := none
    offerAge := 0
    reminded := false
    orbit := none
    campOrder := none
    extension := none
    home := if st.seated then c.home else c.home.map (fun h => { h with loop := none }) }

/-- The Transfer Unit removes a call from its camp list: the calls behind it move up, and an emptied
entry goes with an UNWATCH (R136, R137). -/
def leaveCamp (i : SlotNo) (x : Ext) (s : State) : State :=
  match s.camps.find? (fun e => e.ext == x) with
  | none => s
  | some e =>
    let behind := (e.list.dropWhile (· != i)).drop 1
    let rest := e.list.filter (· != i)
    let s := behind.foldl
      (fun s j => s.modCall j (fun c => { c with campOrder := c.campOrder.map (· - 1) })) s
    if rest.isEmpty then
      placeDroppable (.unwatch x) { s with camps := s.camps.filter (fun e => e.ext != x) }
    else
      { s with camps := s.camps.map (fun e => if e.ext == x then { e with list := rest } else e) }

/-- Step 1 of a state change: the call leaves the collection that its state names. -/
def leave (i : SlotNo) (s : State) : State :=
  match s.call i with
  | none => s
  | some c =>
    match c.state with
    | .waiting => { s with queue := s.queue.filter (· != i) }
    | .offered => { s with queue := s.queue.filter (· != i) }
    | .talking => leaveLoop c s
    | .held => leaveLoop c s
    | .parked =>
      match c.orbit with
      | some o => { s with orbits := vset s.orbits o none }
      | none => s
    | .camped =>
      match c.extension with
      | some x => leaveCamp i x s
      | none => s
    | .ringing => s
    | .departing => s
where
  /-- The loop of a seated call empties and its recall mark is cleared (R97). -/
  leaveLoop (c : Call) (s : State) : State :=
    match c.home with
    | some { pos := p, loop := some l } => s.setLoop p l Loop.empty
    | _ => s

/-! ## The queue (chapter 4) -/

/-- The score of a call by the effective plan in force is stored (R61, R62). -/
def rescore (i : SlotNo) (s : State) : State :=
  s.modCall i (fun c => { c with score := scoreOf s.eff c })

/-- Placement by the stored score (R63). -/
def place (i : SlotNo) (s : State) : State :=
  { s with queue := insertByScore s.storedScore i (s.queue.filter (· != i)) }

/-! ## Offers (R76, R84) -/

/-- The position's offer is given, cleared or replaced. -/
def setOffer (p : PosNo) (o : Option SlotNo) (s : State) : State :=
  s.setPos p { s.pos p with offer := o, offerNews := true }

/-- The offers of a call that leaves the queue end at every position that holds one. -/
def endOffers (i : SlotNo) (s : State) : State :=
  allPos.foldl (fun s p => if (s.pos p).offer = some i then setOffer p none s else s) s

/-- A change that only an OFFERED call takes. -/
def modOffered (i : SlotNo) (f : Call → Call) (s : State) : State :=
  s.modCall i (fun c => if c.state = .offered then f c else c)

/-- The withdrawal of the offer held by a position, without a miss (R84): the preferred position is
cleared, and a call that no position holds any more becomes WAITING. -/
def withdrawAt (p : PosNo) (s : State) : State :=
  match (s.pos p).offer with
  | none => s
  | some i =>
    let s := modOffered i (fun c => { c with preferred := none }) (setOffer p none s)
    if s.shownAnywhere i then s else modOffered i (Call.enter .waiting) s

/-- The withdrawal of a call's offer at every position that holds it (R120). -/
def withdrawCall (i : SlotNo) (s : State) : State :=
  allPos.foldl (fun s p => if (s.pos p).offer = some i then withdrawAt p s else s) s

/-- The withdrawal of every offer of the part (R44). -/
def withdrawAll (s : State) : State := allPos.foldl (fun s p => withdrawAt p s) s

/-- The withdrawal of the offers whose position is no longer in the mask of the call's class (R45). -/
def withdrawMasked (s : State) : State :=
  allPos.foldl (fun s p =>
    match (s.pos p).offer with
    | none => s
    | some i =>
      match s.call i with
      | none => s
      | some c => if s.eff.allows c.cls p then s else withdrawAt p s) s

/-! ## The effective plan (R43 to R45) -/

/-- The recompute changed the mode or a mask. -/
def plansDiffer (old new : Plan) : Bool := old.mode != new.mode || old.masks != new.masks

/-- The recompute of the effective plan, with the withdrawals that a change of mode or mask brings. -/
def recompute (s : State) : State :=
  let e := planInForce s.selection s.plans s.depth
  let s' := { s with eff := e, band := bandInForce s.selection s.plans s.depth }
  if s.eff.mode != e.mode then withdrawAll s'
  else if s.eff.masks != e.masks then withdrawMasked s'
  else s'

/-! ## The available list (R75) -/

/-- Every position is judged again: those no longer available are removed, and those newly available
join at the tail in ascending order. -/
def rejudge (s : State) : State :=
  let kept := s.available.filter s.isAvailable
  { s with available := kept ++ allPos.filter (fun p => s.isAvailable p && !kept.contains p) }

/-- In COMMON mode a position that is not available loses its showing (R81). -/
def dropShowings (s : State) : State :=
  if s.eff.mode = .common then
    allPos.foldl (fun s p => if s.isAvailable p then s else withdrawAt p s) s
  else s

/-! ## Leaving for a final connection, ringing and holding -/

/-- A call becomes DEPARTING with the wanted connection and the extension given (R7). -/
def depart (i : SlotNo) (x : Option Ext) (w : Conn) (s : State) : State :=
  want i w ((leave i s).modCall i (fun c => { c.enter .departing with extension := x }))

/-- A call becomes RINGING at an extension (R133). -/
def ringAt (i : SlotNo) (x : Ext) (s : State) : State :=
  want i (.ring x) ((leave i s).modCall i (fun c => { c.enter .ringing with extension := some x }))

/-- A seated call becomes HELD on its loop (R98, R99). -/
def holdSeated (i : SlotNo) (s : State) : State := want i .hold (s.modCall i (Call.enter .held))

/-- The auto-hold that goes with a move into TALKING on loop l (R98). -/
def autoHold (p : PosNo) (l : LoopNo) (s : State) : State :=
  allLoops.foldl (fun s k =>
    if k = l then s
    else match s.loopCall p k with
      | none => s
      | some (j, c) => if c.state = .talking then holdSeated j s else s) s

/-- A call is seated TALKING on an empty loop (R87, R88, R115). An ANSWER or a PICK (`fresh`) clears the
recall reason, which becomes the loop's recall mark, and the preferred position (R5, R97). -/
def seat (p : PosNo) (l : LoopNo) (i : SlotNo) (fresh : Bool) (s : State) : State :=
  let s := leave i (autoHold p l s)
  let mark := if fresh then (s.call i).bind (·.reason) else none
  let s := s.setLoop p l { slot := some i, mark := mark }
  want i (.seat p l) (s.modCall i (fun c =>
    { c.enter .talking with
      home := some { pos := p, loop := some l }
      reason := if fresh then none else c.reason
      preferred := if fresh then none else c.preferred }))

/-- A HELD call becomes TALKING on its own loop (R100, R130). -/
def talkAgain (p : PosNo) (l : LoopNo) (i : SlotNo) (s : State) : State :=
  want i (.seat p l) ((autoHold p l s).modCall i (Call.enter .talking))

/-! ## Distribution (R77 to R81) -/

/-- Night routing (R78): every WAITING call of a group with a night destination, in queue order. -/
def nightRoute (s : State) : State :=
  s.queue.foldl (fun s i =>
    match s.call i with
    | none => s
    | some c =>
      let d := s.nightDestination c.origin
      if c.state = .waiting ∧ d ≠ 0 then depart i none (.away d) s else s) s

/-- An offer of a WAITING call to one position (R79). -/
def offerTo (p : PosNo) (i : SlotNo) (s : State) : State :=
  let s := s.modCall i (fun c => { c.enter .offered with offer := some (.one p) })
  let s := setOffer p (some i) s
  { s with available := s.available.filter (· != p) }

/-- The candidate chosen for a call (R80). -/
def chooseCandidate (s : State) (c : Call) : Option PosNo :=
  let candidates := s.available.filter (fun p => s.eff.allows c.cls p)
  match c.preferred with
  | some q => if candidates.contains q then some q else candidates.head?
  | none => candidates.head?

/-- The walk of SINGLE mode, from the head of the queue to the tail (R79). -/
def walk (s : State) : State :=
  s.queue.foldl (fun s i =>
    match s.call i with
    | none => s
    | some c =>
      if c.state = .waiting then
        match chooseCandidate s c with
        | some p => offerTo p i s
        | none => s
      else s) s

/-- The first listed call whose class is in the position's mask (R81). -/
def firstFor (s : State) (p : PosNo) : Option SlotNo :=
  s.queue.find? (fun i =>
    match s.call i with
    | none => false
    | some c => c.state.queued && s.eff.allows c.cls p)

/-- A call is shown to a position: it is OFFERED with offer ALL and offer age 0 (R81). -/
def showTo (p : PosNo) (i : SlotNo) (s : State) : State :=
  setOffer p (some i) (s.modCall i (fun c => { c.enter .offered with offer := some .all }))

/-- The showing of COMMON mode: a call to each available position that is shown nothing (R81). -/
def showing (s : State) : State :=
  s.available.foldl (fun s p =>
    if (s.pos p).offer.isSome then s
    else match firstFor s p with
      | some i => showTo p i s
      | none => s) s

def distribute (s : State) : State :=
  match s.eff.mode with
  | .single => walk s
  | .common => showing s

/-- Under LOAD the effective plan follows the depth (R43). -/
def recomputeUnderLoad (s : State) : State := if s.selection = .load then recompute s else s

/-- The re-establishing of the distribution condition with the recompute and the judgement of
availability that go before it (R43, R75, R77). While night routing lowers the depth under LOAD, it
starts again; the depth bounds how often, so `fuel` is the depth plus 1. DESIGN CHOICE: each time it judges
availability anew, so positions that several rounds make available join the list round by round, in
ascending order within a round (notes/assumptions/28.md). -/
def settleWith : Nat → State → State
  | 0, s => s
  | fuel + 1, s =>
    let s := dropShowings (rejudge (recomputeUnderLoad s))
    let t := if s.nightFlag then nightRoute s else s
    if t.selection = .load ∧ t.depth < s.depth then settleWith fuel t else distribute t

def settle (s : State) : State := settleWith (s.depth + 1) s

/-- A recompute that a change of the selection or of the plans causes: distribution runs once when the
mode or a mask changed, and not otherwise (R43). -/
def replan (s : State) : State :=
  let t := recompute s
  if plansDiffer s.eff t.eff then settle t else t

/-! ## Freeing (R13) -/

/-- The freeing action: offers end without a miss, the call leaves its collection, the tag and the
origin link go, the numbers die with the record, and the free-slot count rises. -/
def freeSlot (i : SlotNo) (s : State) : State :=
  match s.call i with
  | none => s
  | some c =>
    let s := leave i (if c.state = .offered then endOffers i s else s)
    { s.setCall i none with
      tagIndex := s.tagIndex.filter (fun e => e.1 != c.tag)
      origins := vset s.origins c.origin { s.origin c.origin with current := none }
      freeSlots := s.freeSlots + 1 }

/-! ## The consult record (R124, R126) -/

/-- A closing of the record; with `drop`, LEG_DROP is placed when the leg number is present. -/
def closeConsult (p : PosNo) (drop : Bool) (s : State) : State :=
  match (s.pos p).consult with
  | none => s
  | some r =>
    let s := s.setPos p { s.pos p with consult := none }
    match r.leg with
    | some n => if drop then placeDroppable (.legDrop n) s else s
    | none => s

/-! ## The recall procedure (R119, R120) -/

/-- Steps 1 to 4 of the recall procedure and its count. Step 5's recompute and distribution are made by
`settle`, once for the action (R121). -/
def recallCall (i : SlotNo) (reason : RecallReason) (s : State) : State :=
  match s.call i with
  | none => s
  | some c =>
    let s := if c.state.queued then withdrawCall i s else leave i s
    let s := s.modCall i (fun c =>
      { c.enter .waiting with
        reason := some reason
        preferred := c.home.map (·.pos)
        age := 0
        ringWatch := none
        wanted := .hold })
    bump .recalls (place i (rescore i (issue i s)))

/-! ## Positions (R94) -/

/-- The lead and the night flag are judged again (R105, R56). -/
def rejudgeGroup (s : State) : State :=
  { s with lead := leadOf s.positions, nightFlag := nightFlagOf s.nightSetting s.positions }

/-- A position takes a new state and last reason. -/
def setPosState (p : PosNo) (st : PosState) (why : PosReason) (s : State) : State :=
  s.setPos p { s.pos p with state := st, lastReason := why }

/-! ## The service reset (R178) -/

/-- The full notices of a service reset, in the order of step 5 of R178. -/
def fullNotices : List Subject := allLoops.map .loop ++ [.position, .offer, .queue, .park]

/-- A position context after a service reset (R93). -/
def Position.serviceReset (toStandby : Bool) (c : Position) : Position :=
  { c with
    loops := Vector.replicate 4 Loop.empty
    offer := none
    consult := none
    state := if toStandby && c.state == .opened then .closed else c.state
    lastReason := if toStandby && c.state == .opened then .closed else c.lastReason }

/-- The full notices become pending for every console whose link is UP. -/
def pendFull (s : State) : State :=
  allPos.foldl
    (fun s p => if (s.link (.console p)).up then makePending p fullNotices s else s) s

/-- The service reset, into STANDBY or keeping the service state. -/
def serviceReset (toStandby : Bool) (s : State) : State :=
  let s := { s with
    slots := Vector.replicate 256 none
    freeSlots := s.rangeLength
    tagIndex := []
    origins := s.origins.map (fun o => { o with current := none })
    queue := []
    orbits := Vector.replicate 16 none
    camps := []
    positions := s.positions.map (Position.serviceReset toStandby)
    staging := none
    service := if toStandby then .standby else s.service
    available := [] }
  pendFull (rejudge (rejudgeGroup (recompute s)))

/-! ## Links (R173, R174, R107, R108) -/

/-- Step 1 of a position loss: the calls of the loops are recalled in ascending loop number. -/
def recallLoops (p : PosNo) (s : State) : State :=
  allLoops.foldl (fun s l =>
    match s.loopCall p l with
    | none => s
    | some (i, c) => if c.state.seated then recallCall i .positionLost s else s) s

/-- Position loss (R107). -/
def positionLoss (p : PosNo) (s : State) : State :=
  let s := withdrawAt p (closeConsult p true (recallLoops p s))
  let s := rejudgeGroup (setPosState p .down .closed s)
  settle (bump .positionLosses (placeLow (.positionAlarm p false) s))

/-- What a link becoming LOST is handed on as (R174). -/
def linkLoss (l : Link) (s : State) : State :=
  let s := s.setLink l { s.link l with up := false, quiet := s.lossLimit l }
  match l with
  | .console p => positionLoss p (s.setConsole p { s.console p with pending := [] })
  | .switch => if s.service = .service then serviceReset true s else s

/-- The notices that bring a restored console up to date, in the order of R108. -/
def restoreNotices : List Subject := .position :: allLoops.map .loop ++ [.offer, .queue, .park]

/-- Restoration of a position (R108). -/
def restoration (p : PosNo) (s : State) : State :=
  let s := setPosState p .closed .closed s
  let s := s.setPos p { s.pos p with missCount := 0 }
  makePending p restoreNotices (placeLow (.positionAlarm p true) (settle (rejudgeGroup s)))

/-- A valid frame on a link (R165, R166, R173): the receive side hunts again, the link is heard, and a
LOST link becomes UP first. -/
def receive (l : Link) (s : State) : State :=
  let u := s.link l
  let t := s.setLink l { u with receive := .hunting, heard := true, up := true,
                                quiet := if u.up then u.quiet else 0 }
  match l with
  | .switch => t
  | .console p => if u.up then t else announce s (restoration p t)

/-! ## Orders -/

/-- While the reset input holds the part in power-on reset nothing reaches it (R175, R155). -/
def unlessHeld (f : State → State) (s : State) : Host.Outcome State Fault Refusal :=
  .next (if s.resetHeld then s else f s)

/-- An order of the switch: a payload of the wrong length is not taken and is counted (R166). -/
def switchOrder (kind : Byte) (len : Nat) (f : State → State) (s : State) : State :=
  let s := receive .switch s
  if orderLength .switch kind = some len then act f s else bump .discardedOrders s

/-- The most RESULT entries a console's set holds (R171). -/
def maxResults : Nat := 8

/-- An order of a console: discarded and counted when its payload has the wrong length (R166) or when
its set already holds 8 pending RESULT entries (R171). -/
def consoleOrder (p : PosNo) (kind : Byte) (len : Nat) (f : State → State) (s : State) : State :=
  let s := receive (.console p) s
  if orderLength (.console p) kind = some len ∧ s.resultsPending p < maxResults then act f s
  else bump .discardedOrders s

/-- The order is counted under DISCARDED_ORDERS because it is not taken (R116, R128, R138, R148). -/
def notTaken (s : State) : State := bump .discardedOrders s

end Sys2Proof.Machine
end

