-- ==== Sys2Proof/Machine/Arrivals.lean ====
section
/-! DEFINITION. Chapter 2: the rows ARRIVE, GROUP_SET and ORIGIN_SET. -/
namespace Sys2Proof.Machine

/-! ## The mapping (R26) -/

/-- The origin index that a group and a circuit map to; none where the mapping fails. -/
def mapOrigin (s : State) (group circuit : Byte) : Option (Group × OriginNo) :=
  match groupArg group with
  | none => none
  | some g =>
    let e := s.group g
    if e.valid ∧ circuit.toNat < 2 ^ e.bits then
      match originArg (e.base + circuit.toNat) with
      | none => none
      | some o => if (s.origin o).valid then some (e, o) else none
    else none

/-- The class of a call: the override when present, else the group's default (R26). -/
def classOf (e : Group) (o : Origin) : ClassNo := o.override.getD e.cls

/-! ## The ARRIVE decision (R27 to R36) -/

/-- A refusal of an arrival, with its REJECT (R35). -/
def rejectArrival (tag : Tag) (reason : RejectReason) (s : State) : State :=
  placeAnswer (.reject tag reason) (bump .rejected s)

/-- A diversion of an arrival, with its DIVERT (R35). -/
def divertArrival (tag : Tag) (dest : Half) (reason : DivertReason) (c : Counter) (s : State) : State :=
  placeAnswer (.divert tag dest reason) (bump c s)

/-- The record of a newly admitted call (R10). -/
def newCall (tag : Tag) (o : OriginNo) (cls : ClassNo) (label : Half) : Call :=
  { state := .waiting, tag := tag, origin := o, cls := cls, label := label, age := 0, score := 0,
    reason := none, preferred := none, offer := none, offerAge := 0, home := none, reminded := false,
    orbit := none, extension := none, campOrder := none, confirmed := .none, wanted := .none,
    outstanding := none, ringWatch := none, retryWait := false }

/-- Allocation of a slot (R10): the record, the tag index, the origin link and the free-slot count. -/
def allocate (i : SlotNo) (c : Call) (s : State) : State :=
  { s.setCall i (some c) with
    tagIndex := s.tagIndex ++ [(c.tag, i)]
    origins := vset s.origins c.origin { s.origin c.origin with current := some i }
    freeSlots := s.freeSlots - 1 }

/-- Step 7 (R34): the allocation, the score and the placement by the plan in force, the recompute for the
new depth and the distribution. -/
def admitCall (i : SlotNo) (c : Call) (s : State) : State :=
  settle (place i (rescore i (allocate i c (bump .admitted s))))

/-- Step 6's answer when there is no room (R33). -/
def overflowArrival (tag : Tag) (s : State) : State :=
  if s.eff.overflow ≠ 0 then divertArrival tag s.eff.overflow .overflow .divertedOverflow s
  else rejectArrival tag .full s

/-- Steps 4 to 7 for an arrival that maps to origin o of group e. -/
def decideMapped (tag : Tag) (e : Group) (o : OriginNo) (s : State) : State :=
  match (s.origin o).current with
  | some j =>
    placeLow (.exception .circuitBusy tag (BitVec.ofNat 32 o.val) (BitVec.ofNat 32 j.val))
      (rejectArrival tag .circuitBusy s)
  | none =>
    if s.nightFlag ∧ e.night ≠ 0 then divertArrival tag e.night .night .divertedNight s
    else if s.eff.queueLimit ≤ s.depth ∨ s.freeSlots = 0 then overflowArrival tag s
    else
      match s.lowestFree with
      | none => overflowArrival tag s
      | some i => admitCall i (newCall tag o (classOf e (s.origin o)) (s.origin o).label) s

/-- The slot that a tag names in the tag index (R11). -/
def State.slotOfTag (s : State) (tag : Tag) : Option SlotNo := s.tagIndex.lookup tag

/-- The ARRIVE decision (R27). -/
def arriveDecision (tag : Tag) (group circuit : Byte) (s : State) : State :=
  let s := bump .arrivals s
  if s.service = .standby then rejectArrival tag .notInService s
  else
    match s.slotOfTag tag with
    | some j =>
      let origin := ((s.call j).map (fun c => BitVec.ofNat 32 c.origin.val)).getD 0
      placeLow (.exception .duplicateTag tag (BitVec.ofNat 32 j.val) origin)
        (rejectArrival tag .duplicateTag s)
    | none =>
      match mapOrigin s group circuit with
      | none =>
        placeLow (.exception .unknownOrigin (group.setWidth 32) (circuit.setWidth 32) tag)
          (rejectArrival tag .unknownOrigin s)
      | some (e, o) => decideMapped tag e o s

/-- ARRIVE (R27). -/
def execArrive (len : Nat) (tag : Tag) (group circuit : Byte) (s : State) :
    Host.Outcome State Fault Refusal :=
  unlessHeld (switchOrder Kind.arrive len (arriveDecision tag group circuit)) s

/-! ## Writing the tables (R23, R24, R25) -/

/-- The ranges base to base + 2^bits − 1 of two groups share no index (R21, R23). -/
def rangesDisjoint (base bits base' bits' : Nat) : Bool :=
  base + 2 ^ bits ≤ base' || base' + 2 ^ bits' ≤ base

/-- No other valid group claims an index of the range (R23). -/
def rangeIsOpen (s : State) (g : GroupNo) (base bits : Nat) : Bool :=
  (List.finRange 64).all (fun k =>
    k == g || !(s.group k).valid || rangesDisjoint base bits (s.group k).base (s.group k).bits)

/-- The entry that a GROUP_SET writes, none where a check refuses it (R23). -/
def groupEntry (s : State) (g : GroupNo) (valid bits : Byte) (base : Half) (cls : Byte) (night : Half) :
    Option Group :=
  match validArg valid, classArg cls with
  | none, _ => none
  | some false, _ => some Group.cleared
  | some true, none => none
  | some true, some c =>
    if bits.toNat ≤ 7 ∧ base.toNat ≤ 1023 ∧ base.toNat + 2 ^ bits.toNat ≤ 1024 ∧
        rangeIsOpen s g base.toNat bits.toNat = true then
      some { valid := true, bits := bits.toNat, base := base.toNat, cls := c, night := night }
    else none

/-- The configuration orders are taken in STANDBY and refused NOT_IN_STANDBY in SERVICE (R175). -/
def inStandby (kind : Byte) (f : State → State) (s : State) : State :=
  if s.service = .standby then f s else answerSwitch kind .notInStandby s

/-- GROUP_SET in STANDBY (R23). -/
def groupSetOrder (group valid bits : Byte) (base : Half) (cls : Byte) (night : Half) (s : State) :
    State :=
  match groupArg group with
  | none => answerSwitch Kind.groupSet .badRange s
  | some g =>
    match groupEntry s g valid bits base cls night with
    | none => answerSwitch Kind.groupSet .badRange s
    | some e => answerSwitch Kind.groupSet .accepted { s with groups := vset s.groups g e }

/-- GROUP_SET (R23). -/
def execGroupSet (len : Nat) (group valid bits : Byte) (base : Half) (cls : Byte) (night : Half)
    (s : State) : Host.Outcome State Fault Refusal :=
  unlessHeld (switchOrder Kind.groupSet len
    (inStandby Kind.groupSet (groupSetOrder group valid bits base cls night))) s

/-- ORIGIN_SET in STANDBY (R24). -/
def originSetOrder (index : Half) (valid override : Byte) (label : Half) (s : State) : State :=
  match originArg index.toNat, validArg valid, overrideArg override with
  | some o, some v, some ov =>
    let e := { s.origin o with
      valid := v, override := if v then ov else none, label := if v then label else 0 }
    answerSwitch Kind.originSet .accepted { s with origins := vset s.origins o e }
  | _, _, _ => answerSwitch Kind.originSet .badRange s

/-- ORIGIN_SET (R24). -/
def execOriginSet (len : Nat) (index : Half) (valid override : Byte) (label : Half) (s : State) :
    Host.Outcome State Fault Refusal :=
  unlessHeld (switchOrder Kind.originSet len
    (inStandby Kind.originSet (originSetOrder index valid override label))) s

end Sys2Proof.Machine
end

