-- ==== Sys2Proof/Machine/Offers.lean ====
section
/-! DEFINITION. Chapter 5's orders: the rows ANSWER and PICK. -/
namespace Sys2Proof.Machine

/-- The tests of ANSWER in their order (R86): the loop and the slot it names, or the code that refuses. -/
def answerTests (p : PosNo) (loop slot : Byte) (s : State) : Except ResultCode (LoopNo × SlotNo) :=
  if (s.pos p).state ≠ .opened then .error .closed
  else match loopArg loop with
    | none => .error .badLoop
    | some l =>
      if ((s.pos p).loop l).slot.isSome then .error .loopBusy
      else if (s.pos p).consult.isSome then .error .consulting
      else if (s.pos p).offer = some (slotArg slot) then .ok (l, slotArg slot)
      else .error .taken

/-- A taken ANSWER (R87): every offer of the call ends, the position leaves its place in the available
list (it joins again at the tail, if available), and the call is seated. -/
def answerTaken (p : PosNo) (l : LoopNo) (i : SlotNo) (s : State) : State :=
  let s := endOffers i s
  let s := { s with available := s.available.filter (· != p) }
  let s := seat p l i true s
  let s := bump .answered (s.setPos p { s.pos p with missCount := 0 })
  settle s

def answerOrder (p : PosNo) (seq loop slot : Byte) (s : State) : State :=
  match answerTests p loop slot s with
  | .error code => answerConsole p seq Kind.answer code none s
  | .ok (l, i) => answerTaken p l i (answerConsole p seq Kind.answer .accepted none s)

/-- ANSWER (R86, R87). -/
def execAnswer (p : PosNo) (len : Nat) (seq loop slot : Byte) (s : State) :
    Host.Outcome State Fault Refusal :=
  unlessHeld (consoleOrder p Kind.answer len (answerOrder p seq loop slot)) s

/-- The tests of PICK in their order (R88). -/
def pickTests (p : PosNo) (slot loop : Byte) (s : State) : Except ResultCode (LoopNo × SlotNo) :=
  match loopArg loop with
  | none => .error .badLoop
  | some l =>
    if s.inRange (slotArg slot) = false then .error .badSlot
    else if ((s.pos p).loop l).slot.isSome then .error .loopBusy
    else if (s.pos p).consult.isSome then .error .consulting
    else match s.call (slotArg slot) with
      | none => .error .noCall
      | some c => if c.state.queued then .ok (l, slotArg slot) else .error .noCall

/-- A taken PICK (R88): every offer of the call is withdrawn without a miss, and the call is seated. -/
def pickTaken (p : PosNo) (l : LoopNo) (i : SlotNo) (s : State) : State :=
  settle (bump .picked (seat p l i true (endOffers i s)))

def pickOrder (p : PosNo) (seq slot loop : Byte) (s : State) : State :=
  match pickTests p slot loop s with
  | .error code => answerConsole p seq Kind.pick code none s
  | .ok (l, i) => pickTaken p l i (answerConsole p seq Kind.pick .accepted none s)

/-- PICK (R88). -/
def execPick (p : PosNo) (len : Nat) (seq slot loop : Byte) (s : State) :
    Host.Outcome State Fault Refusal :=
  unlessHeld (consoleOrder p Kind.pick len (pickOrder p seq slot loop)) s

end Sys2Proof.Machine
end

