-- ==== Sys2Proof/Machine/Loops.lean ====
section
/-! DEFINITION. Chapter 6's orders: the rows OPEN, CLOSE, HOLD, RETURN and RELEASE. -/
namespace Sys2Proof.Machine

/-! ## OPEN and CLOSE (R95, R96) -/

/-- A taken OPEN (R95). -/
def openTaken (p : PosNo) (s : State) : State :=
  let t := s.setPos p { s.pos p with missCount := 0 }
  if (s.pos p).state = .opened then t
  else settle (rejudgeGroup (setPosState p .opened .opened t))

def openOrder (p : PosNo) (seq : Byte) (s : State) : State :=
  if s.service = .standby then answerConsole p seq Kind.openPosition .notInService none s
  else openTaken p (answerConsole p seq Kind.openPosition .accepted none s)

/-- OPEN (R95). -/
def execOpen (p : PosNo) (len : Nat) (seq : Byte) (s : State) : Host.Outcome State Fault Refusal :=
  unlessHeld (consoleOrder p Kind.openPosition len (openOrder p seq)) s

/-- CLOSE of an OPEN position (R96): its offer is withdrawn without a miss. -/
def closeTaken (p : PosNo) (s : State) : State :=
  if (s.pos p).state = .opened then
    settle (rejudgeGroup (setPosState p .closed .closed (withdrawAt p s)))
  else s

def closeOrder (p : PosNo) (seq : Byte) (s : State) : State :=
  closeTaken p (answerConsole p seq Kind.closePosition .accepted none s)

/-- CLOSE (R96). -/
def execClose (p : PosNo) (len : Nat) (seq : Byte) (s : State) : Host.Outcome State Fault Refusal :=
  unlessHeld (consoleOrder p Kind.closePosition len (closeOrder p seq)) s

/-! ## Loop orders (R99 to R101) -/

/-- The first two tests of a loop order: the loop is 0 to 3 and holds a call. -/
def loopTests (p : PosNo) (loop : Byte) (s : State) : Except ResultCode (LoopNo × SlotNo × Call) :=
  match loopArg loop with
  | none => .error .badLoop
  | some l =>
    match s.loopCall p l with
    | none => .error .noCall
    | some (i, c) => .ok (l, i, c)

/-- The tests of HOLD (R99). -/
def holdTests (p : PosNo) (loop : Byte) (s : State) : Except ResultCode SlotNo :=
  match loopTests p loop s with
  | .error code => .error code
  | .ok (_, i, c) => if c.state = .talking then .ok i else .error .wrongState

def holdOrder (p : PosNo) (seq loop : Byte) (s : State) : State :=
  match holdTests p loop s with
  | .error code => answerConsole p seq Kind.hold code none s
  | .ok i => holdSeated i (answerConsole p seq Kind.hold .accepted none s)

/-- HOLD (R99). -/
def execHold (p : PosNo) (len : Nat) (seq loop : Byte) (s : State) :
    Host.Outcome State Fault Refusal :=
  unlessHeld (consoleOrder p Kind.hold len (holdOrder p seq loop)) s

/-- The tests of RETURN (R100). -/
def returnTests (p : PosNo) (loop : Byte) (s : State) : Except ResultCode (LoopNo × SlotNo) :=
  match loopTests p loop s with
  | .error code => .error code
  | .ok (l, i, c) =>
    if c.state = .talking then .error .wrongState
    else if s.consultOn p l then .error .consulting
    else .ok (l, i)

def returnOrder (p : PosNo) (seq loop : Byte) (s : State) : State :=
  match returnTests p loop s with
  | .error code => answerConsole p seq Kind.returnCall code none s
  | .ok (l, i) => talkAgain p l i (answerConsole p seq Kind.returnCall .accepted none s)

/-- RETURN (R100). -/
def execReturn (p : PosNo) (len : Nat) (seq loop : Byte) (s : State) :
    Host.Outcome State Fault Refusal :=
  unlessHeld (consoleOrder p Kind.returnCall len (returnOrder p seq loop)) s

/-- The tests of RELEASE (R101). -/
def releaseTests (p : PosNo) (loop : Byte) (s : State) : Except ResultCode SlotNo :=
  match loopTests p loop s with
  | .error code => .error code
  | .ok (l, i, _) => if s.consultOn p l then .error .consulting else .ok i

/-- A taken RELEASE (R101). -/
def releaseTaken (i : SlotNo) (s : State) : State :=
  settle (bump .dropped (depart i none .drop s))

def releaseOrder (p : PosNo) (seq loop : Byte) (s : State) : State :=
  match releaseTests p loop s with
  | .error code => answerConsole p seq Kind.release code none s
  | .ok i => releaseTaken i (answerConsole p seq Kind.release .accepted none s)

/-- RELEASE (R101). -/
def execRelease (p : PosNo) (len : Nat) (seq loop : Byte) (s : State) :
    Host.Outcome State Fault Refusal :=
  unlessHeld (consoleOrder p Kind.release len (releaseOrder p seq loop)) s

end Sys2Proof.Machine
end

