-- ==== Sys2Proof/Machine/Orbits.lean ====
section
/-! DEFINITION. Chapter 7's orders: the rows PARK and RETRIEVE. -/
namespace Sys2Proof.Machine

/-- The lowest-numbered empty orbit (R114). -/
def State.lowestOrbit (s : State) : Option OrbitNo :=
  allOrbits.find? (fun o => (s.orbitSlot o).isNone)

/-- The tests of PARK in their order (R113), and the orbit that a passing PARK takes (R114). -/
def parkTests (p : PosNo) (loop orbit : Byte) (s : State) : Except ResultCode (SlotNo × OrbitNo) :=
  match loopTests p loop s with
  | .error code => .error code
  | .ok (l, i, _) =>
    if s.consultOn p l then .error .consulting
    else if orbit = anyOrbit then
      match s.lowestOrbit with
      | some o => .ok (i, o)
      | none => .error .parkFull
    else
      match orbitArg orbit with
      | none => .error .badOrbit
      | some o => if (s.orbitSlot o).isSome then .error .occupied else .ok (i, o)

/-- The call in a slot becomes PARKED in an orbit (R114). -/
def parkCall (i : SlotNo) (o : OrbitNo) (s : State) : State :=
  let s := (leave i s).modCall i (fun c => { c.enter .parked with orbit := some o })
  want i .hold { s with orbits := vset s.orbits o (some i) }

def parkOrder (p : PosNo) (seq loop orbit : Byte) (s : State) : State :=
  match parkTests p loop orbit s with
  | .error code => answerConsole p seq Kind.park code none s
  | .ok (i, o) => settle (parkCall i o (answerConsole p seq Kind.park .accepted (some o) s))

/-- PARK (R113, R114). -/
def execPark (p : PosNo) (len : Nat) (seq loop orbit : Byte) (s : State) :
    Host.Outcome State Fault Refusal :=
  unlessHeld (consoleOrder p Kind.park len (parkOrder p seq loop orbit)) s

/-- The tests of RETRIEVE in their order (R115). -/
def retrieveTests (p : PosNo) (orbit loop : Byte) (s : State) : Except ResultCode (LoopNo × SlotNo) :=
  match loopArg loop, orbitArg orbit with
  | none, _ => .error .badLoop
  | some _, none => .error .badOrbit
  | some l, some o =>
    if ((s.pos p).loop l).slot.isSome then .error .loopBusy
    else if (s.pos p).consult.isSome then .error .consulting
    else match s.orbitSlot o with
      | none => .error .noCall
      | some i => .ok (l, i)

def retrieveOrder (p : PosNo) (seq orbit loop : Byte) (s : State) : State :=
  match retrieveTests p orbit loop s with
  | .error code => answerConsole p seq Kind.retrieve code none s
  | .ok (l, i) => settle (seat p l i false (answerConsole p seq Kind.retrieve .accepted none s))

/-- RETRIEVE (R115). -/
def execRetrieve (p : PosNo) (len : Nat) (seq orbit loop : Byte) (s : State) :
    Host.Outcome State Fault Refusal :=
  unlessHeld (consoleOrder p Kind.retrieve len (retrieveOrder p seq orbit loop)) s

end Sys2Proof.Machine
end

