-- ==== Sys2Proof/Machine/Sweep.lean ====
section
/-! DEFINITION. Chapter 10's visit and the checks of the blocks that own the states: the rows
SWEEP_VISIT, WAIT_LIMIT_ROUTING, OFFER_EXPIRY, HOLD_REMINDER, HOLD_RECALL, PARK_EXPIRY, RING_EXPIRY,
CAMP_EXPIRY and REPORT_INTERVAL_END. A visit takes each check through the operation that the check's own
row runs (notes/assumptions/1.md). -/
namespace Sys2Proof.Machine

/-! ## The checks -/

/-- The wait-limit test of a call (R67). -/
def waitLimitHolds (s : State) (c : Call) : Bool :=
  c.state == .waiting && s.eff.waitLimit != 0 && s.eff.waitLimit ≤ c.age && s.eff.overflow != 0

/-- Wait-limit routing (R67). -/
def waitLimitCheck (i : SlotNo) (s : State) : State :=
  match s.call i with
  | none => s
  | some c =>
    if waitLimitHolds s c then
      settle (bump .divertedOverflow (depart i none (.away s.eff.overflow) s))
    else s

/-- The largest offer age and miss count (R82, R83). -/
def maxOfferAge : Nat := 15
def maxMissCount : Nat := 15

/-- A miss of a position, and the forced close it may bring (R83). -/
def countMiss (p : PosNo) (s : State) : State :=
  let n := min maxMissCount ((s.pos p).missCount + 1)
  let s := bump .missedOffers (s.setPos p { s.pos p with missCount := n })
  if s.eff.missLimit ≠ 0 ∧ s.eff.missLimit ≤ n ∧ (s.pos p).state = .opened then
    rejudgeGroup (setPosState p .closed .forced s)
  else s

/-- The offer expiry of a call that is OFFERED to one position (R82). -/
def offerExpiryCheck (i : SlotNo) (s : State) : State :=
  match s.call i with
  | none => s
  | some c =>
    match c.state, c.offer with
    | .offered, some (.one p) =>
      let n := min maxOfferAge (c.offerAge + 1)
      if n < s.eff.offerLimit then s.modCall i (fun c => { c with offerAge := n })
      else settle (countMiss p (withdrawAt p s))
    | _, _ => s

/-- The HELD call whose hold check has reached the hold limit, not consulting (R103). -/
def holdLimitReached (s : State) (c : Call) : Bool :=
  c.state == .held && !s.consulting c && s.eff.holdLimit ≤ c.age

/-- The first stage of the hold check: the reminder (step 3 of R103). -/
def holdReminderCheck (i : SlotNo) (s : State) : State :=
  match s.call i with
  | none => s
  | some c =>
    if holdLimitReached s c ∧ c.reminded = false then
      s.modCall i (fun c => { c with reminded := true, age := 0 })
    else s

/-- A recall that is an action of its own: the procedure of R119 with its step 5. -/
def recallNow (i : SlotNo) (reason : RecallReason) (s : State) : State := settle (recallCall i reason s)

/-- The second stage of the hold check: the recall (step 4 of R103). -/
def holdRecallCheck (i : SlotNo) (s : State) : State :=
  match s.call i with
  | none => s
  | some c => if holdLimitReached s c ∧ c.reminded = true then recallNow i .hold s else s

/-- The park check (R117). -/
def parkCheck (i : SlotNo) (s : State) : State :=
  match s.call i with
  | none => s
  | some c => if c.state = .parked ∧ s.eff.parkLimit ≤ c.age then recallNow i .park s else s

/-- The ring check (R134). -/
def ringCheck (i : SlotNo) (s : State) : State :=
  match s.call i with
  | none => s
  | some c => if c.state = .ringing ∧ s.eff.ringLimit ≤ c.age then recallNow i .ring s else s

/-- The camp check (R139). -/
def campCheck (i : SlotNo) (s : State) : State :=
  match s.call i with
  | none => s
  | some c => if c.state = .camped ∧ s.eff.campLimit ≤ c.age then recallNow i .camp s else s

/-! ## The visit (R159) -/

/-- The visit of a WAITING or OFFERED call (R66). -/
def queueCheck (found : Call) (i : SlotNo) (s : State) : State :=
  let s := settle (place i (rescore i s))
  match s.call i with
  | none => s
  | some c =>
    if waitLimitHolds s c then waitLimitCheck i s
    else if found.state = .offered ∧ s.eff.mode = .single then offerExpiryCheck i s
    else s

/-- The states in which a visit raises the age (the table of R159). -/
def agesAtVisit (s : State) (c : Call) : Bool :=
  match c.state with
  | .waiting => true
  | .offered => true
  | .talking => false
  | .held => !s.consulting c
  | .parked => true
  | .ringing => true
  | .camped => true
  | .departing => false

/-- The largest age (R4). -/
def maxAge : Nat := 255

/-- The check of the block that owns the state found (the table of R159). -/
def ownersCheck (found : Call) (i : SlotNo) (s : State) : State :=
  match found.state with
  | .waiting => queueCheck found i s
  | .offered => queueCheck found i s
  | .talking => s
  | .held => if found.reminded then holdRecallCheck i s else holdReminderCheck i s
  | .parked => parkCheck i s
  | .ringing => ringCheck i s
  | .camped => campCheck i s
  | .departing => s

/-- A visit of one slot: retry wait is cleared, the issue rule attempted, the age raised and the check
taken (R159). -/
def visitSlot (i : SlotNo) (s : State) : State :=
  match s.call i with
  | none => s
  | some c =>
    let s := issue i (s.modCall i (fun c => { c with retryWait := false }))
    let s := if agesAtVisit s c then s.modCall i (fun c => { c with age := min maxAge (c.age + 1) }) else s
    ownersCheck c i s

/-! ## The pass and the report interval (R158, R180) -/

/-- The two COUNTERS frames, in tag order (R180). -/
def counterFrames (s : State) : List SwitchNotice :=
  [.counters 1 (s.counters.toList.take 9), .counters 2 (s.counters.toList.drop 9)]

/-- The periodic report: both frames when at least 17 entries are free, and the counters are cleared;
otherwise neither, and DROPPED_NOTICES is raised (R180). -/
def periodicReport (s : State) : State :=
  if 17 ≤ s.freeEntries then clearCounters { s with txList := s.txList ++ counterFrames s }
  else bump .droppedNotices s

/-- A report-interval end: the report, and the pass count returns to 0 (R158). -/
def reportEnd (s : State) : State := { periodicReport s with passCount := 0 }

/-- The end of a pass (R158). -/
def endPass (s : State) : State :=
  if s.reportInterval = 0 then s
  else
    let s := { s with passCount := s.passCount + 1 }
    if s.passCount = s.reportInterval then reportEnd s else s

/-- The pointer moves on by one slot; from the last slot of the range it moves to the first, and that
ends a pass (R158). -/
def advancePointer (s : State) : State :=
  if s.pointer = s.rangeLast then endPass { s with pointer := s.rangeFirst }
  else { s with pointer := s.pointer + 1 }

/-- A sweep step's whole action (R158, R159). -/
def sweepStep (s : State) : State := advancePointer (visitSlot s.pointer s)

/-! ## The rows -/

/-- SWEEP_VISIT (R159): taken in SERVICE only (R157). -/
def execSweepVisit (s : State) : Host.Outcome State Fault Refusal :=
  unlessHeld (fun s => if s.service = .service then act sweepStep s else s) s

/-- WAIT_LIMIT_ROUTING (R67). -/
def execWaitLimitRouting (slot : SlotNo) (s : State) : Host.Outcome State Fault Refusal :=
  unlessHeld (act (waitLimitCheck slot)) s

/-- OFFER_EXPIRY (R82): in SINGLE mode only (R159). -/
def execOfferExpiry (slot : SlotNo) (s : State) : Host.Outcome State Fault Refusal :=
  unlessHeld (act (fun s => if s.eff.mode = .single then offerExpiryCheck slot s else s)) s

/-- HOLD_REMINDER (R103). -/
def execHoldReminder (slot : SlotNo) (s : State) : Host.Outcome State Fault Refusal :=
  unlessHeld (act (holdReminderCheck slot)) s

/-- HOLD_RECALL (R103). -/
def execHoldRecall (slot : SlotNo) (s : State) : Host.Outcome State Fault Refusal :=
  unlessHeld (act (holdRecallCheck slot)) s

/-- PARK_EXPIRY (R117). -/
def execParkExpiry (slot : SlotNo) (s : State) : Host.Outcome State Fault Refusal :=
  unlessHeld (act (parkCheck slot)) s

/-- RING_EXPIRY (R134). -/
def execRingExpiry (slot : SlotNo) (s : State) : Host.Outcome State Fault Refusal :=
  unlessHeld (act (ringCheck slot)) s

/-- CAMP_EXPIRY (R139). -/
def execCampExpiry (slot : SlotNo) (s : State) : Host.Outcome State Fault Refusal :=
  unlessHeld (act (campCheck slot)) s

/-- REPORT_INTERVAL_END (R158): none is made while the report interval is 0, nor in STANDBY, where no
pass ends (R180). -/
def execReportIntervalEnd (s : State) : Host.Outcome State Fault Refusal :=
  unlessHeld (act (fun s =>
    if s.service = .service ∧ s.reportInterval ≠ 0 then reportEnd s else s)) s

end Sys2Proof.Machine
end

