-- ==== Sys2Proof/Machine/Physical.lean ====
section
/-! DEFINITION. The reset input, the tick line and the links as such: the rows POWER_ON_RESET,
RESET_ASSERTED, TICK_PULSE, COUNTED_TICK, LINK_LOST, FRAME_ABANDONED, BAD_FRAMES, IDLE,
LEAD_BYTE_RECEIVED, OTHER_KIND_FRAME, SWITCH_FRAME_SENT and CONSOLE_NOTICE_SENT. -/
namespace Sys2Proof.Machine

/-! ## Reset (R175) -/

/-- The power-on value of everything but the model's own queue and draw count. -/
def powerOnState (rate : LineRate) (held : Bool) (s : State) : State :=
  { State.reset with lineRate := rate, resetHeld := held, pending := s.pending, draws := s.draws }

/-- POWER_ON_RESET: the reset input is released and the rate strap has been sampled. -/
def execPowerOnReset (strap : LineRate) (s : State) : Host.Outcome State Fault Refusal :=
  .next (powerOnState strap false s)

/-- RESET_ASSERTED: the reset input holds the part in power-on reset. -/
def execResetAsserted (s : State) : Host.Outcome State Fault Refusal :=
  .next (powerOnState s.lineRate true s)

/-! ## Supervision (R173, R172, R165) -/

/-- The link is silent at this supervision event and its quiet count reaches the loss limit (R173). -/
def State.fallsSilent (s : State) (l : Link) : Bool :=
  !(s.link l).heard && (s.link l).up && s.lossLimit l ≤ (s.link l).quiet + 1

/-- The frame being collected has seen a supervision event before this one (R165). -/
def State.frameOld (s : State) (l : Link) : Bool := (s.link l).receive == .collecting true

/-- A supervision event on a link, less the loss it may find (R173): the heard mark and the quiet count,
and the note that the frame being collected has now seen an event. -/
def supervise (l : Link) (s : State) : State :=
  let u := s.link l
  s.setLink l
    { u with
      heard := false
      quiet := if u.heard then 0 else if u.up then u.quiet + 1 else u.quiet
      receive := if u.receive = .collecting false then .collecting true else u.receive }

/-- A frame being collected is abandoned (R165). -/
def abandonFrame (l : Link) (s : State) : State :=
  if (s.link l).receive = .hunting then s
  else bump .badFrames (s.setLink l { s.link l with receive := .hunting })

/-- What one counted tick can bring beside the count (R164): the loss of a link, an abandoned frame, the
sweep step. -/
inductive TickPart where
  | lose (l : Link)
  | abandon (l : Link)
  | visit
  deriving DecidableEq, Repr

def runPart (part : TickPart) (s : State) : State :=
  match part with
  | .lose l => act (linkLoss l) s
  | .abandon l => abandonFrame l s
  | .visit => if s.service = .service then act sweepStep s else s

/-- The parts of a counted tick that come due on the state the tick finds. -/
def tickParts (s : State) : List TickPart :=
  (allLinks.filter s.fallsSilent).map .lose ++ (allLinks.filter s.frameOld).map .abandon ++
    (if s.service = .service ∧ stepTaken s.stepEdge s.stepBit s.tickCount (s.tickCount + 1) = true
     then [.visit] else [])

/-- Run the parts in order, keeping every state on the way, the last one first. -/
def runParts (parts : List TickPart) (s : State) : List State :=
  parts.foldl (fun trail part => runPart part (trail.headD s) :: trail) [s]

/-- The link's supervision event finds nothing to send: the same all through the tick, or free where the
tick's own parts change it (R172, R164). -/
def idleJudged (draw : Nat) (trail : List State) (last : State) (l : Link) : Bool :=
  let b := last.nothingToSend l
  if trail.all (fun s => s.nothingToSend l == b) then b
  else Config.idleFound draw (match l with | .switch => 0 | .console p => p.val + 1)

/-- An IDLE frame begins on a link (R172). It is in the course of being sent until the link's completion
row says that it is complete (notes/assumptions/4.md). -/
def sendIdle (l : Link) (s : State) : State := s.setLink l { s.link l with idling := true }

/-- A counted tick (R155, R156): the pulse count returns to 0, the tick count rises, every link has its
supervision event, and a sweep step is taken where the tick count's bit changes so (R157). The losses,
the abandoned frames and the step are taken in the order that `order` codes. -/
def countedTickIn (order : Nat) (s : State) : State :=
  let parts := tickParts s
  let t := allLinks.foldl (fun s l => supervise l s)
    { s with pulseCount := 0, tickCount := s.tickCount + 1 }
  let trail := runParts (arrange order parts) t
  let last := trail.headD t
  let t := allLinks.foldl (fun u l => if idleJudged s.draws trail last l then sendIdle l u else u) last
  { t with draws := t.draws + 1 }

def countedTick (s : State) : State := countedTickIn (Config.tickOrder s.draws) s

/-- COUNTED_TICK (R156). -/
def execCountedTick (s : State) : Host.Outcome State Fault Refusal := unlessHeld countedTick s

/-- TICK_PULSE (R155): the pulse that brings the pulse count to the thin-out is a counted tick. -/
def execTickPulse (s : State) : Host.Outcome State Fault Refusal :=
  unlessHeld (fun s =>
    if s.pulseCount + 1 < s.thinOut then { s with pulseCount := s.pulseCount + 1 }
    else countedTick s) s

/-- LINK_LOST (R174): a link that is UP is found silent for its loss limit. A LOST link is not lost
again (R173). -/
def execLinkLost (l : Link) (s : State) : Host.Outcome State Fault Refusal :=
  unlessHeld (fun s => if (s.link l).up then act (linkLoss l) s else s) s

/-! ## Frames as such (R165, R166) -/

/-- FRAME_ABANDONED (R165). -/
def execFrameAbandoned (l : Link) (s : State) : Host.Outcome State Fault Refusal :=
  unlessHeld (abandonFrame l) s

/-- BAD_FRAMES (R165): an invalid frame marks nothing and reaches no block. -/
def execBadFrames (l : Link) (bytes : List Byte) (s : State) : Host.Outcome State Fault Refusal :=
  unlessHeld (fun s =>
    if invalidFrame bytes then bump .badFrames (s.setLink l { s.link l with receive := .hunting })
    else s) s

/-- LEAD_BYTE_RECEIVED (R165): a hunting receive side starts collecting; to a collecting one the byte is
a byte of its frame. -/
def execLeadByteReceived (l : Link) (s : State) : Host.Outcome State Fault Refusal :=
  unlessHeld (fun s =>
    if (s.link l).receive = .hunting then
      s.setLink l { s.link l with receive := .collecting false }
    else s) s

/-- IDLE (R166): taken on every link; it does nothing beyond marking the link heard. -/
def execIdle (l : Link) (len : Nat) (s : State) : Host.Outcome State Fault Refusal :=
  unlessHeld (fun s =>
    let s := receive l s
    if orderLength l Kind.idle = some len then s else notTaken s) s

/-- OTHER_KIND_FRAME (R166): a valid frame of a kind that is no order on its link. -/
def execOtherKindFrame (l : Link) (kind : Byte) (s : State) : Host.Outcome State Fault Refusal :=
  unlessHeld (fun s =>
    let s := receive l s
    if orderLength l kind = none then notTaken s else s) s

/-! ## The transmit sides (R169, R171) -/

/-- The frame in the course of being sent to the switch is complete: an IDLE holds no entry and the head
of the list begins after it (R172); otherwise the entry of the head frame becomes free and the next frame
begins (R169). -/
def switchFrameDone (s : State) : State :=
  if s.switchLink.idling then { s with switchLink := { s.switchLink with idling := false } }
  else { s with txList := s.txList.drop 1 }

/-- SWITCH_FRAME_SENT (R169). That it completes an IDLE too is notes/assumptions/19.md. -/
def execSwitchFrameSent (s : State) : Host.Outcome State Fault Refusal := unlessHeld switchFrameDone s

/-- CONSOLE_NOTICE_SENT (R171): the link is free, so the frame that was being sent, an IDLE included, is
complete, and after it the head pending entry, if any, leaves the set and begins to be sent (R172). A
notice begins at this row alone: one made pending while the link is free stays in the list until then
(notes/assumptions/19.md). -/
def execConsoleNoticeSent (p : PosNo) (s : State) : Host.Outcome State Fault Refusal :=
  unlessHeld (fun s =>
    let s := s.setConsole p
      { pending := (s.console p).pending.drop 1, sending := (s.console p).pending.head? }
    s.setLink (.console p) { s.link (.console p) with idling := false }) s

end Sys2Proof.Machine
end

