-- ==== Sys2Proof/Machine/Plans.lean ====
section
/-! DEFINITION. Chapter 3's orders: the rows PLAN_HOLD, PLAN_WRITE, PLAN_RELEASE, PLAN_ABANDON,
PLAN_SELECT, SELECT, NIGHT and NIGHT_CONSOLE. An order is answered before the recompute or the
re-evaluation that its rule names after the answer (R53, R54, R55; notes/assumptions/14.md). -/
namespace Sys2Proof.Machine

/-! ## Editing (R47 to R53) -/

/-- The staging list holds at most 32 edits (R47). -/
def maxEdits : Nat := 32

/-- PLAN_HOLD (R48). -/
def planHoldOrder (s : State) : State :=
  match s.staging with
  | none => answerSwitch Kind.planHold .accepted { s with staging := some [] }
  | some _ => answerSwitch Kind.planHold .heldAlready s

def execPlanHold (len : Nat) (s : State) : Host.Outcome State Fault Refusal :=
  unlessHeld (switchOrder Kind.planHold len planHoldOrder) s

/-- CLAMPED when clamping changed the value, ACCEPTED otherwise (R49). -/
def clampCode (t : EditTarget) (v : Nat) : ResultCode := if t.clamp v = v then .accepted else .clamped

/-- The check of a write applied at once: a threshold must leave a valid set; a plan field is always
written (R50). -/
def writeAllowed (t : EditTarget) (ps : Plans) : Bool :=
  match t with
  | .threshold _ => ps.thresholds.valid
  | .field _ _ => true

/-- A write applied at once, in STANDBY with no hold open (R50). -/
def writeNow (t : EditTarget) (v : Nat) (s : State) : State :=
  let ps := s.plans.apply { target := t, value := t.clamp v }
  if writeAllowed t ps then
    replan (answerSwitch Kind.planWrite (clampCode t v) { s with plans := ps })
  else answerSwitch Kind.planWrite .badThresholds s

/-- PLAN_WRITE, by the first condition of R49 that holds. -/
def planWriteOrder (target field : Byte) (value : Half) (s : State) : State :=
  match editTargetArg target field with
  | none => answerSwitch Kind.planWrite .badRange s
  | some t =>
    match s.staging with
    | some edits =>
      if maxEdits ≤ edits.length then answerSwitch Kind.planWrite .stageFull s
      else
        answerSwitch Kind.planWrite (clampCode t value.toNat)
          { s with staging := some (edits ++ [{ target := t, value := t.clamp value.toNat }]) }
    | none =>
      if s.service = .standby then writeNow t value.toNat s
      else answerSwitch Kind.planWrite .notHeld s

def execPlanWrite (len : Nat) (target field : Byte) (value : Half) (s : State) :
    Host.Outcome State Fault Refusal :=
  unlessHeld (switchOrder Kind.planWrite len (planWriteOrder target field value)) s

/-- PLAN_RELEASE (R51). -/
def planReleaseOrder (s : State) : State :=
  match s.staging with
  | none => answerSwitch Kind.planRelease .notHeld s
  | some edits =>
    let ps := s.plans.applyAll edits
    if ps.thresholds.valid then
      replan (answerSwitch Kind.planRelease .accepted { s with plans := ps, staging := none })
    else answerSwitch Kind.planRelease .badThresholds { s with staging := none }

def execPlanRelease (len : Nat) (s : State) : Host.Outcome State Fault Refusal :=
  unlessHeld (switchOrder Kind.planRelease len planReleaseOrder) s

/-- PLAN_ABANDON (R52). -/
def planAbandonOrder (s : State) : State :=
  match s.staging with
  | none => answerSwitch Kind.planAbandon .notHeld s
  | some _ => answerSwitch Kind.planAbandon .accepted { s with staging := none }

def execPlanAbandon (len : Nat) (s : State) : Host.Outcome State Fault Refusal :=
  unlessHeld (switchOrder Kind.planAbandon len planAbandonOrder) s

/-! ## The selection (R54) -/

/-- PLAN_SELECT (R54). -/
def planSelectOrder (selection : Byte) (s : State) : State :=
  match selectionArg selection with
  | none => answerSwitch Kind.planSelect .badRange s
  | some v => replan (answerSwitch Kind.planSelect .accepted { s with selection := v })

def execPlanSelect (len : Nat) (selection : Byte) (s : State) : Host.Outcome State Fault Refusal :=
  unlessHeld (switchOrder Kind.planSelect len (planSelectOrder selection)) s

/-- SELECT: the lead is tested before the value (R54). -/
def selectOrder (p : PosNo) (seq selection : Byte) (s : State) : State :=
  if s.lead = some p then
    match selectionArg selection with
    | none => answerConsole p seq Kind.select .badRange none s
    | some v => replan (answerConsole p seq Kind.select .accepted none { s with selection := v })
  else answerConsole p seq Kind.select .notLead none s

def execSelect (p : PosNo) (len : Nat) (seq selection : Byte) (s : State) :
    Host.Outcome State Fault Refusal :=
  unlessHeld (consoleOrder p Kind.select len (selectOrder p seq selection)) s

/-! ## The night setting (R55 to R57) -/

/-- The night setting is written and the flag re-evaluated; a change of the flag re-establishes the
distribution condition, with night routing first when it turned ON (R56, R57, R77). -/
def setNight (v : NightSetting) (s : State) : State :=
  let t := { s with nightSetting := v, nightFlag := nightFlagOf v s.positions }
  if t.nightFlag = s.nightFlag then t else settle t

/-- NIGHT from the switch (R55). -/
def nightOrder (value : Byte) (s : State) : State :=
  match nightArg value with
  | none => answerSwitch Kind.night .badRange s
  | some v => setNight v (answerSwitch Kind.night .accepted s)

def execNight (len : Nat) (value : Byte) (s : State) : Host.Outcome State Fault Refusal :=
  unlessHeld (switchOrder Kind.night len (nightOrder value)) s

/-- NIGHT from a console: the lead is tested before the value (R55). -/
def nightConsoleOrder (p : PosNo) (seq value : Byte) (s : State) : State :=
  if s.lead = some p then
    match nightArg value with
    | none => answerConsole p seq Kind.nightConsole .badRange none s
    | some v => setNight v (answerConsole p seq Kind.nightConsole .accepted none s)
  else answerConsole p seq Kind.nightConsole .notLead none s

def execNightConsole (p : PosNo) (len : Nat) (seq value : Byte) (s : State) :
    Host.Outcome State Fault Refusal :=
  unlessHeld (consoleOrder p Kind.nightConsole len (nightConsoleOrder p seq value)) s

end Sys2Proof.Machine
end

