-- ==== Sys2Proof/Machine/Reports.lean ====
section
/-! DEFINITION. The reports of the switching processor: the rows GONE (section 1.7), PATH_ACK
(chapter 9), LEG_STATE and EXT_FREE (chapter 8) and PICKUP (section 7.3). -/
namespace Sys2Proof.Machine

/-- A report that matches nothing is counted (R15, R116, R127, R128). -/
def stale (s : State) : State := bump .staleReplies s

/-! ## GONE (R15 to R18) -/

/-- The consult record that is open on the loop of a cleared call is closed with LEG_DROP (R17). -/
def closeConsultOf (c : Call) (s : State) : State :=
  match c.home with
  | some { pos := p, loop := some l } => if s.consultOn p l then closeConsult p true s else s
  | _ => s

/-- GONE of the call in a slot. -/
def goneCall (i : SlotNo) (c : Call) (s : State) : State :=
  let s := if c.state.queued then bump .abandoned s else s
  let s := if c.state.seated then closeConsultOf c s else s
  settle (freeSlot i s)

def goneReport (tag : Tag) (s : State) : State :=
  match s.slotOfTag tag with
  | none => stale s
  | some i =>
    match s.call i with
    | none => stale s
    | some c => goneCall i c s

/-- GONE (R15). -/
def execGone (len : Nat) (tag : Tag) (s : State) : Host.Outcome State Fault Refusal :=
  unlessHeld (switchOrder Kind.gone len (goneReport tag)) s

/-! ## PATH_ACK (R148 to R153) -/

/-- The terminal targets: their confirmation ends a DEPARTING call's stay (R143, R149). -/
def Conn.terminal : Conn → Bool
  | .deliver _ _ => true
  | .away _ => true
  | .drop => true
  | _ => false

def Conn.isDeliver : Conn → Bool
  | .deliver _ _ => true
  | _ => false

def Conn.isRing : Conn → Bool
  | .ring _ => true
  | _ => false

/-- DONE of a slot's outstanding request (R149, R150). -/
def ackDone (i : SlotNo) (c : Call) (r : Request) (s : State) : State :=
  let watch := r.target.isRing && c.state == .ringing && c.wanted == r.target
  let s := s.modCall i (fun c =>
    { c with
      confirmed := r.target
      outstanding := none
      ringWatch := if watch then some r.number else c.ringWatch })
  if r.target.terminal && c.state == .departing then
    settle (freeSlot i (if r.target.isDeliver then bump .delivered s else s))
  else issue i s

/-- The consequence of a failed request (R152). -/
def failConsequence (i : SlotNo) (c : Call) (target : Conn) (s : State) : State :=
  match target with
  | .seat p l => if c.state = .talking ∧ c.isHomeAt p l = true then recallNow i .pathFail s else s
  | .ring x =>
    if (c.state = .ringing ∧ c.wanted = .ring x) ∨ c.state = .waiting ∨ c.state = .offered then
      recallNow i .ring s
    else s
  | .deliver _ _ => if c.state = .departing then recallNow i .pathFail s else s
  | .away _ =>
    if c.state = .departing then s.modCall i (fun c => { c with wanted := .drop }) else s
  | .drop => if c.state = .departing then settle (freeSlot i s) else s
  | .hold => s
  | .none => s

/-- FAIL of a slot's outstanding request (R151). -/
def ackFail (i : SlotNo) (c : Call) (r : Request) (s : State) : State :=
  let s := s.modCall i (fun c => { c with outstanding := none })
  let s := placeLow
    (.exception .pathFailed (r.number.setWidth 32) c.tag (BitVec.ofNat 32 i.val))
    (bump .pathFailures s)
  let s := s.modCall i (fun c => { c with retryWait := true })
  issue i (failConsequence i c r.target s)

/-- The record of a position takes a phase; the leg number stays or goes (R127, R128). -/
def setPhase (p : PosNo) (r : Consult) (phase : Phase) (leg : Option ReqNo) (s : State) : State :=
  s.setPos p { s.pos p with consult := some { r with phase := phase, leg := leg } }

/-- An acknowledgement of the leg of an open consult record (R127). -/
def legAck (p : PosNo) (r : Consult) (number : ReqNo) (done : Bool) (s : State) : State :=
  if r.phase = .asked then
    if done then setPhase p r .dialled r.leg s
    else
      placeLow
        (.exception .pathFailed (number.setWidth 32) (BitVec.ofNat 32 p.val) (r.ext.setWidth 32))
        (bump .pathFailures (setPhase p r .failed none s))
  else stale s

/-- A stale PATH_ACK (R153). -/
def staleAck (number : ReqNo) (done : Bool) (s : State) : State :=
  placeLow (.exception .staleReply (number.setWidth 32) (if done then 0 else 1) 0) (stale s)

/-- A taken PATH_ACK, matched by number (R148). -/
def pathAckReport (number : ReqNo) (done : Bool) (s : State) : State :=
  match s.slotOfRequest number with
  | some i =>
    match s.call i with
    | none => s
    | some c =>
      match c.outstanding with
      | none => s
      | some r => if done then ackDone i c r s else ackFail i c r s
  | none =>
    match s.posOfLeg number with
    | some p =>
      match (s.pos p).consult with
      | none => s
      | some r => legAck p r number done s
    | none => staleAck number done s

/-- PATH_ACK (R148). -/
def execPathAck (len : Nat) (number : ReqNo) (outcome : Byte) (s : State) :
    Host.Outcome State Fault Refusal :=
  unlessHeld (switchOrder Kind.pathAck len (fun s =>
    match outcomeArg outcome with
    | none => notTaken s
    | some done => pathAckReport number done s)) s

/-! ## LEG_STATE (R128, R135) -/

/-- The phase that a report on a leg sets (R128). -/
def LegReport.phase : LegReport → Phase
  | .ringing => .ringing
  | .answered => .answered
  | .busy => .busy
  | .unobtainable => .failed
  | .cleared => .cleared

/-- A report on the ring watch of a RINGING call (R135). -/
def watchReport (i : SlotNo) (v : LegReport) (s : State) : State :=
  match v with
  | .answered => settle (freeSlot i (bump .delivered s))
  | .busy => recallNow i .ring s
  | .unobtainable => recallNow i .ring s
  | .ringing => s
  | .cleared => s

/-- A taken LEG_STATE, matched by number (R128). -/
def legReport (number : ReqNo) (v : LegReport) (s : State) : State :=
  match s.posOfLeg number with
  | some p =>
    match (s.pos p).consult with
    | none => s
    | some r => setPhase p r v.phase r.leg s
  | none =>
    match s.slotOfWatch number with
    | some i => watchReport i v s
    | none => stale s

/-- LEG_STATE (R128). -/
def execLegState (len : Nat) (number : ReqNo) (value : Byte) (s : State) :
    Host.Outcome State Fault Refusal :=
  unlessHeld (switchOrder Kind.legState len (fun s =>
    match legReportArg value with
    | none => notTaken s
    | some v => legReport number v s)) s

/-! ## EXT_FREE (R138) and PICKUP (R116) -/

/-- The head of the camp list of an extension (R136). -/
def State.campHead (s : State) (x : Ext) : Option SlotNo :=
  match s.camps.find? (fun e => e.ext == x) with
  | none => none
  | some e => e.list.head?

/-- A taken EXT_FREE (R138). -/
def extFreeReport (x : Ext) (s : State) : State :=
  match s.campHead x with
  | some i => ringAt i x s
  | none => placeDroppable (.unwatch x) s

/-- EXT_FREE (R138). -/
def execExtFree (len : Nat) (ext : Ext) (s : State) : Host.Outcome State Fault Refusal :=
  unlessHeld (switchOrder Kind.extFree len (fun s =>
    if extInRange ext then extFreeReport ext s else notTaken s)) s

/-- A taken PICKUP (R116). -/
def pickupReport (o : OrbitNo) (x : Ext) (s : State) : State :=
  match s.orbitSlot o with
  | none => stale s
  | some i => depart i (some x) (.deliver x none) s

/-- PICKUP (R116). -/
def execPickup (len : Nat) (orbit : Byte) (ext : Ext) (s : State) : Host.Outcome State Fault Refusal :=
  unlessHeld (switchOrder Kind.pickup len (fun s =>
    match orbitArg orbit with
    | none => notTaken s
    | some o => if extInRange ext then pickupReport o ext s else notTaken s)) s

end Sys2Proof.Machine
end

