-- ==== Sys2Proof/Machine/Service.lean ====
section
/-! DEFINITION. Chapter 12 and section 10.6: the rows START, STOP_ORDERLY, STOP_FORCED, RESTART,
POSITION_SET_LEAD_ELIGIBLE, POSITION_SET_REPORT_INTERVAL, TIMING_SET, RANGE_SET, COUNTERS_READ and
STATUS_READ. -/
namespace Sys2Proof.Machine

/-! ## Service states (R176, R177) -/

/-- START (R176). -/
def startOrder (s : State) : State :=
  if s.service = .standby then
    answerSwitch Kind.start .accepted
      { s with service := .service, tickCount := 0, pointer := s.rangeFirst, passCount := 0 }
  else answerSwitch Kind.start .accepted s

def execStart (len : Nat) (s : State) : Host.Outcome State Fault Refusal :=
  unlessHeld (switchOrder Kind.start len startOrder) s

/-- An accepted STOP ORDERLY in SERVICE closes every OPEN position (R96, R177). -/
def closeOpenPosition (c : Position) : Position :=
  if c.state = .opened then { c with state := .closed, lastReason := .closed } else c

/-- STOP ORDERLY (R177). The RESULT is placed at the end of the action. -/
def stopOrderlyNow (s : State) : State :=
  if s.service = .standby then answerSwitch Kind.stop .accepted { s with staging := none }
  else if s.allFree then
    let s := { s with staging := none, service := .standby,
                      positions := s.positions.map closeOpenPosition }
    answerSwitch Kind.stop .accepted (settle (rejudgeGroup s))
  else answerSwitch Kind.stop .callsPresent s

/-- STOP FORCED: a service reset into STANDBY (R177). -/
def stopForcedNow (s : State) : State :=
  answerSwitch Kind.stop .accepted (serviceReset true s)

/-- STOP by its mode byte (R167, R177). -/
def stopOrder (mode : Byte) (s : State) : State :=
  if mode = 0 then stopOrderlyNow s
  else if mode = 1 then stopForcedNow s
  else answerSwitch Kind.stop .badRange s

def execStopOrderly (len : Nat) (mode : Byte) (s : State) : Host.Outcome State Fault Refusal :=
  unlessHeld (switchOrder Kind.stop len (stopOrder mode)) s

def execStopForced (len : Nat) (s : State) : Host.Outcome State Fault Refusal :=
  unlessHeld (switchOrder Kind.stop len (stopOrder 1)) s

/-- RESTART: a service reset that keeps the service state (R177). -/
def restartOrder (s : State) : State := answerSwitch Kind.restart .accepted (serviceReset false s)

def execRestart (len : Nat) (s : State) : Host.Outcome State Fault Refusal :=
  unlessHeld (switchOrder Kind.restart len restartOrder) s

/-! ## Position settings and the report interval (R179) -/

/-- The lead-eligible flag of a position is written and the lead recomputed. -/
def setEligible (p : PosNo) (b : Bool) (s : State) : State :=
  let s := s.setPos p { s.pos p with leadEligible := b }
  { s with lead := leadOf s.positions }

/-- The report interval is written and the pass count set to 0 (R158, R179). -/
def setReportInterval (value : Byte) (s : State) : State :=
  { s with reportInterval := value.toNat, passCount := 0 }

/-- POSITION_SET in STANDBY, by its subject (R179). -/
def positionSetOrder (subject value : Byte) (s : State) : State :=
  if subject = 0x80 then answerSwitch Kind.positionSet .accepted (setReportInterval value s)
  else
    match posArg subject, validArg value with
    | some p, some b => answerSwitch Kind.positionSet .accepted (setEligible p b s)
    | _, _ => answerSwitch Kind.positionSet .badRange s

def execPositionSetLeadEligible (len : Nat) (subject value : Byte) (s : State) :
    Host.Outcome State Fault Refusal :=
  unlessHeld (switchOrder Kind.positionSet len
    (inStandby Kind.positionSet (positionSetOrder subject value))) s

def execPositionSetReportInterval (len : Nat) (value : Byte) (s : State) :
    Host.Outcome State Fault Refusal :=
  unlessHeld (switchOrder Kind.positionSet len
    (inStandby Kind.positionSet (positionSetOrder 0x80 value))) s

/-! ## Timing and range (R161, R162) -/

/-- No field of TIMING_SET was brought into range (R162). -/
def timingInRange (thin bit edge sw con : Byte) : Bool :=
  clampTo 1 128 thin.toNat == thin.toNat && clampTo 0 11 bit.toNat == bit.toNat &&
    edgeInRange edge && lossLimitInRange sw && lossLimitInRange con

/-- TIMING_SET in STANDBY (R162). -/
def timingSetOrder (thin bit edge sw con : Byte) (s : State) : State :=
  answerSwitch Kind.timingSet (if timingInRange thin bit edge sw con then .accepted else .clamped)
    { s with
      thinOut := clampTo 1 128 thin.toNat
      pulseCount := 0
      stepBit := clampTo 0 11 bit.toNat
      stepEdge := edgeArg edge
      switchLossLimit := lossLimitArg sw
      consoleLossLimit := lossLimitArg con }

def execTimingSet (len : Nat) (thinOut stepBit stepEdge switchLimit consoleLimit : Byte) (s : State) :
    Host.Outcome State Fault Refusal :=
  unlessHeld (switchOrder Kind.timingSet len
    (inStandby Kind.timingSet (timingSetOrder thinOut stepBit stepEdge switchLimit consoleLimit))) s

/-- RANGE_SET in STANDBY (R161). -/
def rangeSetOrder (first last : Half) (s : State) : State :=
  if h : last.toNat ≤ 255 ∧ first.toNat + 32 ≤ last.toNat + 1 then
    answerSwitch Kind.rangeSet .accepted
      { s with
        rangeFirst := ⟨first.toNat, by omega⟩
        rangeLast := ⟨last.toNat, by omega⟩
        freeSlots := last.toNat + 1 - first.toNat
        pointer := ⟨first.toNat, by omega⟩ }
  else answerSwitch Kind.rangeSet .badRange s

def execRangeSet (len : Nat) (first last : Half) (s : State) : Host.Outcome State Fault Refusal :=
  unlessHeld (switchOrder Kind.rangeSet len
    (inStandby Kind.rangeSet (rangeSetOrder first last))) s

/-! ## Reading the counters and the status (R180, R181) -/

/-- The two COUNTERS frames of a read are placed together, when at least 2 entries are free; otherwise
the read is counted under DISCARDED_ORDERS. The clearing is done before the discard is counted (R180). -/
def countersAnswer (clear : Bool) (s : State) : State :=
  let t := if clear then clearCounters s else s
  if 2 ≤ s.freeEntries then { t with txList := s.txList ++ counterFrames s }
  else bump .discardedOrders t

/-- COUNTERS_READ (R180). -/
def countersReadOrder (clear : Byte) (s : State) : State :=
  match validArg clear with
  | none => answerSwitch Kind.countersRead .badRange s
  | some b => countersAnswer b s

def execCountersRead (len : Nat) (clear : Byte) (s : State) : Host.Outcome State Fault Refusal :=
  unlessHeld (switchOrder Kind.countersRead len (countersReadOrder clear)) s

/-- STATUS_READ (R181). -/
def statusReadOrder (s : State) : State := placeAnswer (.status s.statusNow) s

def execStatusRead (len : Nat) (s : State) : Host.Outcome State Fault Refusal :=
  unlessHeld (switchOrder Kind.statusRead len statusReadOrder) s

end Sys2Proof.Machine
end

