-- ==== Sys2Proof/Machine/Transfer.lean ====
section
/-! DEFINITION. Chapter 8's orders: the rows CONSULT, JOIN, CANCEL, CAMP and SEND. -/
namespace Sys2Proof.Machine

/-! ## CONSULT (R125) and SEND (R132) -/

/-- The tests that CONSULT and SEND share, in their order: tests 1 to 5 of R125 and all of R132. -/
def callerTests (p : PosNo) (loop : Byte) (x : Ext) (s : State) : Except ResultCode (LoopNo × SlotNo) :=
  match loopArg loop with
  | none => .error .badLoop
  | some l =>
    if extInRange x = false then .error .badRange
    else match s.loopCall p l with
      | none => .error .noCall
      | some (i, c) =>
        if c.state ≠ .talking then .error .wrongState
        else if (s.pos p).consult.isSome then .error .consulting
        else .ok (l, i)

/-- The tests of CONSULT: the last asks for a free entry of the switch transmit list. -/
def consultTests (p : PosNo) (loop : Byte) (x : Ext) (s : State) :
    Except ResultCode (LoopNo × SlotNo) :=
  match callerTests p loop x s with
  | .error code => .error code
  | .ok r => if s.freeEntries = 0 then .error .congested else .ok r

/-- A taken CONSULT (R125): the leg number, the record, LEG_REQ, and the caller HELD. -/
def consultTaken (p : PosNo) (l : LoopNo) (i : SlotNo) (x : Ext) (s : State) : State :=
  let n := s.nextNumber
  let s := { s with reqCounter := n }
  let s := s.setPos p { s.pos p with
    consult := some { loop := l, ext := x, phase := .asked, leg := some n } }
  settle (holdSeated i (placeTested (.legReq n p x) s))

def consultOrder (p : PosNo) (seq loop : Byte) (x : Ext) (s : State) : State :=
  match consultTests p loop x s with
  | .error code => answerConsole p seq Kind.consult code none s
  | .ok (l, i) => consultTaken p l i x (answerConsole p seq Kind.consult .accepted none s)

/-- CONSULT (R125). -/
def execConsult (p : PosNo) (len : Nat) (seq loop : Byte) (ext : Ext) (s : State) :
    Host.Outcome State Fault Refusal :=
  unlessHeld (consoleOrder p Kind.consult len (consultOrder p seq loop ext)) s

def sendOrder (p : PosNo) (seq loop : Byte) (x : Ext) (s : State) : State :=
  match callerTests p loop x s with
  | .error code => answerConsole p seq Kind.send code none s
  | .ok (_, i) => settle (ringAt i x (answerConsole p seq Kind.send .accepted none s))

/-- SEND (R132). -/
def execSend (p : PosNo) (len : Nat) (seq loop : Byte) (ext : Ext) (s : State) :
    Host.Outcome State Fault Refusal :=
  unlessHeld (consoleOrder p Kind.send len (sendOrder p seq loop ext)) s

/-! ## Ending a consult (section 8.4) -/

/-- The tests common to JOIN, CANCEL and CAMP: the loop is 0 to 3, and the record is open on it. The
held caller is the call of that loop. -/
def endTests (p : PosNo) (loop : Byte) (s : State) :
    Except ResultCode (LoopNo × SlotNo × Consult) :=
  match loopArg loop with
  | none => .error .badLoop
  | some l =>
    match (s.pos p).consult, s.loopCall p l with
    | some r, some (i, _) => if r.loop = l then .ok (l, i, r) else .error .noCall
    | _, _ => .error .noCall

/-- A screened transfer (R129): the leg goes to the caller's DELIVER. -/
def joinScreened (p : PosNo) (i : SlotNo) (r : Consult) (s : State) : State :=
  settle (depart i (some r.ext) (.deliver r.ext r.leg) (closeConsult p false s))

/-- An unscreened transfer (R129). -/
def joinUnscreened (p : PosNo) (i : SlotNo) (r : Consult) (s : State) : State :=
  settle (ringAt i r.ext (closeConsult p true s))

/-- JOIN by the phase that stands (R129). -/
def joinOrder (p : PosNo) (seq loop : Byte) (s : State) : State :=
  match endTests p loop s with
  | .error code => answerConsole p seq Kind.join code none s
  | .ok (_, i, r) =>
    let t := answerConsole p seq Kind.join .accepted none s
    match r.phase with
    | .answered => joinScreened p i r t
    | .dialled => joinUnscreened p i r t
    | .ringing => joinUnscreened p i r t
    | .asked => answerConsole p seq Kind.join .wrongState none s
    | .busy => answerConsole p seq Kind.join .wrongState none s
    | .failed => answerConsole p seq Kind.join .wrongState none s
    | .cleared => answerConsole p seq Kind.join .wrongState none s

/-- JOIN (R129). -/
def execJoin (p : PosNo) (len : Nat) (seq loop : Byte) (s : State) :
    Host.Outcome State Fault Refusal :=
  unlessHeld (consoleOrder p Kind.join len (joinOrder p seq loop)) s

/-- CANCEL in any phase (R130). -/
def cancelOrder (p : PosNo) (seq loop : Byte) (s : State) : State :=
  match endTests p loop s with
  | .error code => answerConsole p seq Kind.cancel code none s
  | .ok (l, i, _) =>
    settle (talkAgain p l i (closeConsult p true (answerConsole p seq Kind.cancel .accepted none s)))

/-- CANCEL (R130). -/
def execCancel (p : PosNo) (len : Nat) (seq loop : Byte) (s : State) :
    Host.Outcome State Fault Refusal :=
  unlessHeld (consoleOrder p Kind.cancel len (cancelOrder p seq loop)) s

/-- A camp list holds at most 3 calls, and the camp table at most 16 entries (R136). -/
def maxCampList : Nat := 3
def maxCampEntries : Nat := 16

/-- The tests of CAMP after the common ones (R131): the code that refuses, if any. -/
def campRefusal (r : Consult) (s : State) : Option ResultCode :=
  if r.phase ≠ .busy then some .wrongState
  else match s.camps.find? (fun e => e.ext == r.ext) with
    | some e => if maxCampList ≤ e.list.length then some .campFull else none
    | none =>
      if maxCampEntries ≤ s.camps.length then some .campFull
      else if s.freeEntries = 0 then some .congested
      else none

/-- The entry of an extension, made with its WATCH where there is none (step 1 of R131). -/
def openCamp (x : Ext) (s : State) : State :=
  match s.camps.find? (fun e => e.ext == x) with
  | some _ => s
  | none => placeTested (.watch x) { s with camps := s.camps ++ [{ ext := x, list := [] }] }

/-- The caller leaves its loop and joins the camp list of the extension at its tail (step 3 of R131). -/
def campCall (i : SlotNo) (x : Ext) (s : State) : State :=
  let s := leave i s
  let place := ((s.camps.find? (fun e => e.ext == x)).map (·.list.length)).getD 0 + 1
  let s := s.modCall i (fun c =>
    { c.enter .camped with extension := some x, campOrder := some place })
  want i .hold
    { s with camps := s.camps.map (fun e => if e.ext == x then { e with list := e.list ++ [i] } else e) }

def campTaken (p : PosNo) (i : SlotNo) (r : Consult) (s : State) : State :=
  settle (campCall i r.ext (closeConsult p true (openCamp r.ext s)))

def campOrder (p : PosNo) (seq loop : Byte) (s : State) : State :=
  match endTests p loop s with
  | .error code => answerConsole p seq Kind.camp code none s
  | .ok (_, i, r) =>
    match campRefusal r s with
    | some code => answerConsole p seq Kind.camp code none s
    | none => campTaken p i r (answerConsole p seq Kind.camp .accepted none s)

/-- CAMP (R131). -/
def execCamp (p : PosNo) (len : Nat) (seq loop : Byte) (s : State) :
    Host.Outcome State Fault Refusal :=
  unlessHeld (consoleOrder p Kind.camp len (campOrder p seq loop)) s

end Sys2Proof.Machine
end

