-- ==== Sys2Proof/Machine/Dispatch.lean ====
section
/-! DEFINITION. One arm for each command, in the table's order. -/
namespace Sys2Proof.Machine

/-- The effect of a command on everything but the queue of waiting commands. -/
def exec (i : Instr) (s : State) : Host.Outcome State Fault Refusal :=
  match i with
  | .powerOnReset strap => Sys2Proof.Machine.execPowerOnReset strap s
  | .tickPulse => Sys2Proof.Machine.execTickPulse s
  | .countedTick => Sys2Proof.Machine.execCountedTick s
  | .linkLost l => Sys2Proof.Machine.execLinkLost l s
  | .frameAbandoned l => Sys2Proof.Machine.execFrameAbandoned l s
  | .badFrames l bytes => Sys2Proof.Machine.execBadFrames l bytes s
  | .idle l len => Sys2Proof.Machine.execIdle l len s
  | .switchFrameSent => Sys2Proof.Machine.execSwitchFrameSent s
  | .consoleNoticeSent p => Sys2Proof.Machine.execConsoleNoticeSent p s
  | .arrive len tag group circuit => Sys2Proof.Machine.execArrive len tag group circuit s
  | .gone len tag => Sys2Proof.Machine.execGone len tag s
  | .pathAck len number outcome => Sys2Proof.Machine.execPathAck len number outcome s
  | .legState len number value => Sys2Proof.Machine.execLegState len number value s
  | .extFree len ext => Sys2Proof.Machine.execExtFree len ext s
  | .pickup len orbit ext => Sys2Proof.Machine.execPickup len orbit ext s
  | .start len => Sys2Proof.Machine.execStart len s
  | .stopOrderly len mode => Sys2Proof.Machine.execStopOrderly len mode s
  | .stopForced len => Sys2Proof.Machine.execStopForced len s
  | .restart len => Sys2Proof.Machine.execRestart len s
  | .groupSet len group valid bits base cls night => Sys2Proof.Machine.execGroupSet len group valid bits base cls night s
  | .originSet len index valid override label => Sys2Proof.Machine.execOriginSet len index valid override label s
  | .positionSetLeadEligible len subject value => Sys2Proof.Machine.execPositionSetLeadEligible len subject value s
  | .positionSetReportInterval len value => Sys2Proof.Machine.execPositionSetReportInterval len value s
  | .timingSet len thinOut stepBit stepEdge switchLimit consoleLimit => Sys2Proof.Machine.execTimingSet len thinOut stepBit stepEdge switchLimit consoleLimit s
  | .rangeSet len first last => Sys2Proof.Machine.execRangeSet len first last s
  | .planHold len => Sys2Proof.Machine.execPlanHold len s
  | .planWrite len target field value => Sys2Proof.Machine.execPlanWrite len target field value s
  | .planRelease len => Sys2Proof.Machine.execPlanRelease len s
  | .planAbandon len => Sys2Proof.Machine.execPlanAbandon len s
  | .planSelect len selection => Sys2Proof.Machine.execPlanSelect len selection s
  | .select p len seq selection => Sys2Proof.Machine.execSelect p len seq selection s
  | .night len value => Sys2Proof.Machine.execNight len value s
  | .nightConsole p len seq value => Sys2Proof.Machine.execNightConsole p len seq value s
  | .countersRead len clear => Sys2Proof.Machine.execCountersRead len clear s
  | .statusRead len => Sys2Proof.Machine.execStatusRead len s
  | .openPosition p len seq => Sys2Proof.Machine.execOpen p len seq s
  | .closePosition p len seq => Sys2Proof.Machine.execClose p len seq s
  | .answer p len seq loop slot => Sys2Proof.Machine.execAnswer p len seq loop slot s
  | .pick p len seq slot loop => Sys2Proof.Machine.execPick p len seq slot loop s
  | .hold p len seq loop => Sys2Proof.Machine.execHold p len seq loop s
  | .returnCall p len seq loop => Sys2Proof.Machine.execReturn p len seq loop s
  | .release p len seq loop => Sys2Proof.Machine.execRelease p len seq loop s
  | .park p len seq loop orbit => Sys2Proof.Machine.execPark p len seq loop orbit s
  | .retrieve p len seq orbit loop => Sys2Proof.Machine.execRetrieve p len seq orbit loop s
  | .consult p len seq loop ext => Sys2Proof.Machine.execConsult p len seq loop ext s
  | .join p len seq loop => Sys2Proof.Machine.execJoin p len seq loop s
  | .cancel p len seq loop => Sys2Proof.Machine.execCancel p len seq loop s
  | .camp p len seq loop => Sys2Proof.Machine.execCamp p len seq loop s
  | .send p len seq loop ext => Sys2Proof.Machine.execSend p len seq loop ext s
  | .sweepVisit => Sys2Proof.Machine.execSweepVisit s
  | .waitLimitRouting slot => Sys2Proof.Machine.execWaitLimitRouting slot s
  | .offerExpiry slot => Sys2Proof.Machine.execOfferExpiry slot s
  | .holdReminder slot => Sys2Proof.Machine.execHoldReminder slot s
  | .holdRecall slot => Sys2Proof.Machine.execHoldRecall slot s
  | .parkExpiry slot => Sys2Proof.Machine.execParkExpiry slot s
  | .ringExpiry slot => Sys2Proof.Machine.execRingExpiry slot s
  | .campExpiry slot => Sys2Proof.Machine.execCampExpiry slot s
  | .reportIntervalEnd => Sys2Proof.Machine.execReportIntervalEnd s
  | .resetAsserted => Sys2Proof.Machine.execResetAsserted s
  | .leadByteReceived l => Sys2Proof.Machine.execLeadByteReceived l s
  | .otherKindFrame l kind => Sys2Proof.Machine.execOtherKindFrame l kind s

end Sys2Proof.Machine
end

