-- ==== Sys2Proof/Machine/Frames.lean ====
section
/-! DEFINITION. The bytes of every notice (sections 11.1 and 11.3, R166 to R168, R181, R182): the kind
code and the payload, field by field, high byte first, with 0 for what a notice leaves empty. -/
namespace Sys2Proof.Machine

def byteOf (n : Nat) : Byte := BitVec.ofNat 8 n

/-! ## Numbered values -/

def ResultCode.code : ResultCode → Byte
  | .accepted => 0
  | .clamped => 1
  | .notInService => 2
  | .notInStandby => 3
  | .closed => 4
  | .notLead => 5
  | .badLoop => 6
  | .badOrbit => 7
  | .badSlot => 8
  | .noCall => 9
  | .taken => 10
  | .loopBusy => 11
  | .wrongState => 12
  | .consulting => 13
  | .occupied => 14
  | .parkFull => 15
  | .campFull => 16
  | .congested => 17
  | .notHeld => 18
  | .heldAlready => 19
  | .stageFull => 20
  | .badThresholds => 21
  | .badRange => 22
  | .callsPresent => 23

def ExceptionKind.code : ExceptionKind → Byte
  | .unknownOrigin => 1
  | .duplicateTag => 2
  | .circuitBusy => 3
  | .pathFailed => 4
  | .staleReply => 5

def RejectReason.code : RejectReason → Byte
  | .notInService => 1
  | .duplicateTag => 2
  | .unknownOrigin => 3
  | .circuitBusy => 4
  | .full => 5

def DivertReason.code : DivertReason → Byte
  | .night => 1
  | .overflow => 2

/-- The connection codes of PATH_REQ (section 11.3). NONE is never a target (R143). -/
def Conn.code : Conn → Byte
  | .none => 0
  | .seat _ _ => 1
  | .hold => 2
  | .ring _ => 3
  | .deliver _ _ => 4
  | .away _ => 5
  | .drop => 6

def Lamp.code : Lamp → Byte
  | .empty => 0
  | .connecting => 1
  | .talking => 2
  | .held => 3
  | .heldRemind => 4
  | .asked => 5
  | .dialled => 6
  | .ringing => 7
  | .answered => 8
  | .busy => 9
  | .failed => 10
  | .cleared => 11

/-- The recall reasons: 0 for none, then 1 to 6 (section 11.3). -/
def reasonCode : Option RecallReason → Byte
  | none => 0
  | some .hold => 1
  | some .park => 2
  | some .ring => 3
  | some .camp => 4
  | some .positionLost => 5
  | some .pathFail => 6

def Band.code : Band → Byte
  | .a => 0
  | .ab => 1
  | .b => 2
  | .bc => 3
  | .c => 4

def PosState.code : PosState → Byte
  | .down => 0
  | .closed => 1
  | .opened => 2

def PosReason.code : PosReason → Byte
  | .opened => 0
  | .closed => 1
  | .forced => 2

def NightSetting.code : NightSetting → Byte
  | .manualOff => 0
  | .manualOn => 1
  | .auto => 2

def Selection.code : Selection → Byte
  | .manual .a => 0
  | .manual .b => 1
  | .manual .c => 2
  | .load => 3

def ServiceState.code : ServiceState → Byte
  | .standby => 0
  | .service => 1

def flagCode (b : Bool) : Byte := if b then 1 else 0

/-! ## Notices to the switch -/

/-- The last eight bytes of PATH_REQ: connection code, position, loop, extension, and via-leg or
destination, each 0 where the connection has none (R167). -/
def Conn.fields (c : Conn) : List Byte :=
  c.code ::
    match c with
    | .none => [0, 0, 0, 0, 0, 0, 0]
    | .seat p l => [byteOf p.val, byteOf l.val, 0, 0, 0, 0, 0]
    | .hold => [0, 0, 0, 0, 0, 0, 0]
    | .ring x => [0, 0] ++ bytes3 x ++ [0, 0]
    | .deliver x via => [0, 0] ++ bytes3 x ++ bytes2 (via.getD 0)
    | .away d => [0, 0, 0, 0, 0] ++ bytes2 d
    | .drop => [0, 0, 0, 0, 0, 0, 0]

/-- The payload of STATUS: thirteen items, each a tag and its value, 44 bytes in all (R181). They hold no
item for the oldest age (notes/assumptions/27.md). -/
def Status.payload (st : Status) : List Byte :=
  [1, st.service.code, 2, st.nightSetting.code, 3, flagCode st.nightFlag, 4, st.selection.code,
   5, st.band.code] ++
  (6 :: bytes2 (BitVec.ofNat 16 st.depth)) ++ (7 :: bytes2 (BitVec.ofNat 16 st.freeSlots)) ++
  [8, match st.lead with | some p => byteOf p.val | none => 0xFF] ++
  (9 :: st.positions.toList.map PosState.code) ++
  (10 :: flagCode st.switchUp :: st.consolesUp.toList.map flagCode) ++
  (11 :: bytes2 st.tickCount) ++ [12, byteOf st.pointer.val, 13, byteOf st.staged]

/-- The items of a COUNTERS frame, from a first tag on: each the tag and the value in 4 bytes (R180). -/
def counterItems : Nat → List Nat → List Byte
  | _, [] => []
  | tag, v :: rest => byteOf tag :: bytes4 (BitVec.ofNat 32 v) ++ counterItems (tag + 1) rest

/-- The kind code of a notice to the switch (section 11.3). -/
def SwitchNotice.kind : SwitchNotice → Byte
  | .pathReq .. => 0x40
  | .legReq .. => 0x41
  | .legDrop .. => 0x42
  | .divert .. => 0x43
  | .reject .. => 0x44
  | .watch .. => 0x45
  | .unwatch .. => 0x46
  | .positionAlarm .. => 0x47
  | .exception .. => 0x48
  | .result .. => 0x49
  | .counters .. => 0x4A
  | .status .. => 0x4B

/-- The payload of a notice to the switch (R168). -/
def SwitchNotice.payload : SwitchNotice → List Byte
  | .pathReq n tag target => bytes2 n ++ bytes4 tag ++ target.fields
  | .legReq n p x => bytes2 n ++ [byteOf p.val] ++ bytes3 x
  | .legDrop n => bytes2 n
  | .divert tag dest reason => bytes4 tag ++ bytes2 dest ++ [reason.code]
  | .reject tag reason => bytes4 tag ++ [reason.code]
  | .watch x => bytes3 x
  | .unwatch x => bytes3 x
  | .positionAlarm p up => [byteOf p.val, flagCode up]
  | .exception kind d1 d2 d3 => kind.code :: bytes4 d1 ++ bytes4 d2 ++ bytes4 d3
  | .result kind code => [kind, code.code]
  | .counters part values => byteOf part :: counterItems (9 * (part - 1) + 1) values
  | .status st => st.payload

/-- The frame of a notice to the switch (R165). -/
def SwitchNotice.frame (n : SwitchNotice) : List Byte := frameBytes n.kind n.payload

/-! ## Notices to a console -/

/-- Slot, label and class of a call shown, each 0 where there is none (R167). -/
def callFields : Option CallShown → List Byte
  | none => [0, 0, 0, 0]
  | some c => byteOf c.slot.val :: bytes2 c.label ++ [byteOf c.cls.val]

/-- The kind code of a notice to a console (section 11.3). -/
def ConsoleNotice.kind : ConsoleNotice → Byte
  | .result .. => 0x80
  | .loop .. => 0x81
  | .offer .. => 0x82
  | .queue .. => 0x83
  | .park .. => 0x84
  | .position .. => 0x85

/-- The payload of a notice to a console (R168). -/
def ConsoleNotice.payload : ConsoleNotice → List Byte
  | .result seq kind code orbit =>
    [seq, kind, code.code, match orbit with | some o => byteOf o.val | none => 0]
  | .loop l lamp call mark => [byteOf l.val, lamp.code] ++ callFields call ++ [reasonCode mark]
  | .offer all call reason =>
    (if call.isNone then 0 else if all then 2 else 1) :: callFields call ++ [reasonCode reason]
  | .queue depth oldest band night =>
    bytes2 (BitVec.ofNat 16 depth) ++ [byteOf oldest, band.code, flagCode night]
  | .park items =>
    byteOf items.length :: items.flatMap (fun e => byteOf e.1.val :: bytes2 e.2)
  | .position state lead missCount reason =>
    [state.code, flagCode lead, byteOf missCount, reason.code]

/-- The frame of a notice to a console (R165). -/
def ConsoleNotice.frame (n : ConsoleNotice) : List Byte := frameBytes n.kind n.payload

/-- An IDLE frame (R166, R172). -/
def idleFrame : List Byte := frameBytes Kind.idle []

end Sys2Proof.Machine
end

