-- ==== Sys2Proof/Safety.lean ====
section
/-! DEFINITION. The terms in which claims are made: the laws that the spec states of the part, and what
it means that an action leaves a piece of the part alone. -/
namespace Sys2Proof.Machine

/-! ## Laws of the part -/

/-- The thresholds in force form a valid set (R39). -/
def State.thresholdLaw (s : State) : Prop := s.plans.thresholds.valid = true

/-- The effective plan and the band are those of the selection, the plans and the depth (R40 to R43). -/
structure State.PlanLaw (s : State) : Prop where
  eff : s.eff = planInForce s.selection s.plans s.depth
  band : s.band = bandInForce s.selection s.plans s.depth

/-- The lead is the one that R105 chooses, and the night flag the one that R56 gives. -/
structure State.GroupLaw (s : State) : Prop where
  lead : s.lead = leadOf s.positions
  nightFlag : s.nightFlag = nightFlagOf s.nightSetting s.positions

/-- Every stored score lies in 0 to 4095, every age in 0 to 255, and every offer age and miss count in 0
to 15 (R61). -/
structure State.RangeLaw (s : State) : Prop where
  score : ∀ i c, s.call i = some c → c.score ≤ 4095
  age : ∀ i c, s.call i = some c → c.age ≤ 255
  offerAge : ∀ i c, s.call i = some c → c.offerAge ≤ 15
  missCount : ∀ p, (s.pos p).missCount ≤ 15

/-- In STANDBY every slot is FREE (R175), and no position is OPEN (R176). -/
structure State.StandbyLaw (s : State) : Prop where
  free : s.service = .standby → ∀ i, s.call i = none
  shut : s.service = .standby → ∀ p, (s.pos p).state ≠ .opened

/-- How many slots of the sweep range are FREE. -/
def State.freeInRange (s : State) : Nat :=
  (allSlots.filter (fun i => s.inRange i && (s.call i).isNone)).length

/-- The laws of the Call Register: only slots inside the range are non-FREE (R1), the free-slot count
counts the FREE ones (R2), the tag index names exactly the tags in use (R11), and an origin names a
current slot exactly when that slot holds a call of that origin (R12). -/
structure State.RegisterLaw (s : State) : Prop where
  inRange : ∀ i c, s.call i = some c → s.inRange i = true
  freeSlots : s.freeSlots = s.freeInRange
  tags : ∀ tag i, s.tagIndex.lookup tag = some i ↔ ∃ c, s.call i = some c ∧ c.tag = tag
  origins : ∀ o i, (s.origin o).current = some i ↔ ∃ c, s.call i = some c ∧ c.origin = o

/-- The law of the queue (R58): it holds no slot twice, it lists exactly the WAITING and OFFERED calls,
and it stands in non-increasing order of stored score. -/
structure State.QueueLaw (s : State) : Prop where
  nodup : s.queue.Nodup
  listed : ∀ i, i ∈ s.queue ↔ ∃ c, s.call i = some c ∧ c.state.queued = true
  sorted : s.queue.Pairwise (fun i j => s.storedScore j ≤ s.storedScore i)

/-- The law of R9 for the loops and the orbits, with what ties offers and consults to calls: a loop holds
exactly the TALKING or HELD call whose home names it, an orbit exactly the PARKED call whose orbit names
it, a position is offered only OFFERED calls, and the loop of an open consult holds a HELD call. -/
structure State.PlacesLaw (s : State) : Prop where
  loops : ∀ p l i, ((s.pos p).loop l).slot = some i ↔
    ∃ c, s.call i = some c ∧ c.state.seated = true ∧ c.isHomeAt p l = true
  orbits : ∀ o i, s.orbitSlot o = some i ↔
    ∃ c, s.call i = some c ∧ c.state = .parked ∧ c.orbit = some o
  offers : ∀ p i, (s.pos p).offer = some i → ∃ c, s.call i = some c ∧ c.state = .offered
  consults : ∀ p r, (s.pos p).consult = some r → ∃ i c,
    ((s.pos p).loop r.loop).slot = some i ∧ s.call i = some c ∧ c.state = .held

/-- The law of the camp table (R7, R9, R136): one entry for an extension, no entry empty, a camp list
holds exactly the CAMPED calls of its extension, and a call's camp order is its place in the list. -/
structure State.CampLaw (s : State) : Prop where
  size : s.camps.length ≤ 16
  short : ∀ e ∈ s.camps, e.list.length ≤ 3
  entries : (s.camps.map (·.ext)).Nodup
  filled : ∀ e ∈ s.camps, e.list ≠ [] ∧ e.list.Nodup
  listed : ∀ i x, (∃ e ∈ s.camps, e.ext = x ∧ i ∈ e.list) ↔
    ∃ c, s.call i = some c ∧ c.state = .camped ∧ c.extension = some x
  order : ∀ e ∈ s.camps, ∀ k i c, e.list[k]? = some i → s.call i = some c → c.campOrder = some (k + 1)

/-- What a state must name (R9): every TALKING or HELD call is at home on a loop, every PARKED call names
its orbit and every CAMPED call its extension. With State.PlacesLaw, State.QueueLaw and State.CampLaw every
call of those states is held by exactly the collection that its state names. -/
structure State.HomesLaw (s : State) : Prop where
  seated : ∀ i c, s.call i = some c → c.state.seated = true → ∃ p l, c.isHomeAt p l = true
  parked : ∀ i c, s.call i = some c → c.state = .parked → ∃ o, c.orbit = some o
  camped : ∀ i c, s.call i = some c → c.state = .camped → ∃ x, c.extension = some x

/-- The law of the distributor (R76): in SINGLE mode the slot that a position is offered names that
position, and no two positions hold the same offer; in COMMON mode the slot's offer is ALL. An OFFERED
call is held by a position, and no other call carries an offer. -/
structure State.OfferLaw (s : State) : Prop where
  single : s.eff.mode = .single → ∀ p i c, (s.pos p).offer = some i → s.call i = some c →
    c.offer = some (.one p)
  alone : s.eff.mode = .single → ∀ p q i, (s.pos p).offer = some i → (s.pos q).offer = some i → p = q
  common : s.eff.mode = .common → ∀ p i c, (s.pos p).offer = some i → s.call i = some c →
    c.offer = some .all
  held : ∀ i c, s.call i = some c → c.state = .offered → ∃ p, (s.pos p).offer = some i
  others : ∀ i c, s.call i = some c → c.state ≠ .offered → c.offer = none

/-- The law of the position (R97): at most one of its loops holds a TALKING call. -/
def State.TalkLaw (s : State) : Prop :=
  ∀ p l k i j c d, ((s.pos p).loop l).slot = some i → s.call i = some c → c.state = .talking →
    ((s.pos p).loop k).slot = some j → s.call j = some d → d.state = .talking → l = k

/-- The law of the Path Request Unit (R145): no two live numbers are equal and none is 0; a ring watch
belongs to a RINGING call that has its wanted connection and no outstanding request. -/
structure State.NumberLaw (s : State) : Prop where
  nodup : s.liveNumbers.Nodup
  nonzero : 0 ∉ s.liveNumbers
  watches : ∀ i c n, s.call i = some c → c.ringWatch = some n →
    c.state = .ringing ∧ c.outstanding = none ∧ c.wanted = c.confirmed

/-- The capacities: 64 frames in the switch list (R169), 8 RESULT entries and each subject once in a
console's set (R171), 32 staged edits (R47), and the origin ranges of valid groups lie in the origin table
and are disjoint (R21). -/
structure State.CapacityLaw (s : State) : Prop where
  frames : s.txList.length ≤ 64
  results : ∀ p, s.resultsPending p ≤ 8
  subjects : ∀ p, ((s.console p).pending.filterMap (·.subject)).Nodup
  edits : ∀ es, s.staging = some es → es.length ≤ 32
  origins : ∀ g, (s.group g).valid = true → (s.group g).base + 2 ^ (s.group g).bits ≤ 1024
  disjoint : ∀ g k, g ≠ k → (s.group g).valid = true → (s.group k).valid = true →
    (s.group g).base + 2 ^ (s.group g).bits ≤ (s.group k).base ∨
      (s.group k).base + 2 ^ (s.group k).bits ≤ (s.group g).base

/-- The available list (R74, R75) and the distribution condition (R77 to R81): the list holds each
available position once; in SINGLE mode no WAITING call has a candidate left; in COMMON mode no available
position is shown nothing while a call suits it, and only available positions are shown a call; while the
night flag is ON no WAITING call of a group with a night destination is left. -/
structure State.DistributionLaw (s : State) : Prop where
  members : ∀ p, p ∈ s.available ↔ s.isAvailable p = true
  nodup : s.available.Nodup
  single : s.eff.mode = .single → ∀ i ∈ s.queue, ∀ c, s.call i = some c → c.state = .waiting →
    ∀ p ∈ s.available, s.eff.allows c.cls p = false
  common : s.eff.mode = .common → ∀ p ∈ s.available, (s.pos p).offer = none →
    ∀ i ∈ s.queue, ∀ c, s.call i = some c → c.state.queued = true → s.eff.allows c.cls p = false
  shown : s.eff.mode = .common → ∀ p, (s.pos p).offer ≠ none → p ∈ s.available
  night : s.nightFlag = true → ∀ i ∈ s.queue, ∀ c, s.call i = some c → c.state = .waiting →
    s.nightDestination c.origin = 0

/-- The law of the positions and the console links (R93, R107, R108): a position is DOWN exactly while its
console's link is LOST. -/
def State.LinkLaw (s : State) : Prop :=
  ∀ p, (s.link (.console p)).up = false ↔ (s.pos p).state = .down

/-- Between actions no position's offer is marked as changed (the model's own mark). -/
def State.NewsClear (s : State) : Prop := ∀ p, (s.pos p).offerNews = false

/-! ## Where a command is judged -/

/-- The reset input does not hold the part, so a command of the switch link or of the part's own time is
acted on. -/
def State.Runs (s : State) : Prop := s.resetHeld = false

/-- An order of console p is judged by its owner: the part runs, the link is UP (on a LOST link the
restoration comes first, R108) and fewer than 8 RESULT entries are pending (R171). -/
structure State.Hears (s : State) (p : PosNo) : Prop where
  runs : s.resetHeld = false
  up : (s.link (.console p)).up = true
  room : s.resultsPending p < 8

/-- A link after a valid frame on it: its receive side hunts again, it is heard, and it is UP, with quiet
count 0 where it was LOST (R165, R166, R173). -/
def LinkUnit.hear (u : LinkUnit) : LinkUnit :=
  { u with receive := .hunting, heard := true, up := true, quiet := if u.up then u.quiet else 0 }

/-- The state in which an order of the link is judged: a valid frame has been received on it. -/
def State.hearing (s : State) (l : Link) : State := s.setLink l (s.link l).hear

/-- The RESULT entries pending for a console, in order (R171). -/
def State.results (s : State) (p : PosNo) : List ConsoleNotice :=
  (s.console p).pending.filter (fun n => n.subject.isNone)

/-- The order of the switch has been answered: a RESULT at the tail of the list, or, without a free
entry, a count under DISCARDED_ORDERS (R169, R170). -/
def State.toldSwitch (s : State) (kind : Byte) (code : ResultCode) : State :=
  if s.txList.length < 64 then { s with txList := s.txList ++ [.result kind code] }
  else bump .discardedOrders s

/-- The order of console p has been answered: a RESULT at the tail of its list (R171). -/
def State.toldConsole (s : State) (p : PosNo) (r : ConsoleNotice) : State :=
  { s with consoles := vset s.consoles p { s.console p with pending := (s.console p).pending ++ [r] } }

/-- The end of an action that made no subject pending. -/
def State.ended (s : State) : State := { s with draws := s.draws + 1 }

/-- The issue rule lets a slot that wants w issue a request (R146). -/
def State.admits (s : State) (c : Call) (w : Conn) : Bool :=
  c.outstanding.isNone && w != c.confirmed && !c.retryWait && s.txList.length < 64

/-- The change of a slot's wanted connection to w lets the slot issue a request (R144, R146). -/
def State.asksFor (s : State) (c : Call) (w : Conn) : Bool := c.wanted != w && s.admits c w

/-- The outstanding request of a call whose wanted connection changes to w (R144, R146). -/
def State.requestAfter (s : State) (c : Call) (w : Conn) : Option Request :=
  if s.asksFor c w then some { number := s.nextNumber, target := w } else c.outstanding

/-- The PATH_REQ that goes out at once for that change, if any (R146). -/
def State.requestFor (s : State) (c : Call) (w : Conn) : List SwitchNotice :=
  if s.asksFor c w then [.pathReq s.nextNumber c.tag w] else []

/-- The outstanding request of a call after an attempt of the issue rule with w wanted (R146). -/
def State.issuedAfter (s : State) (c : Call) (w : Conn) : Option Request :=
  if s.admits c w then some { number := s.nextNumber, target := w } else c.outstanding

/-- The PATH_REQ that goes out at that attempt, if any (R146). -/
def State.issuedFor (s : State) (c : Call) (w : Conn) : List SwitchNotice :=
  if s.admits c w then [.pathReq s.nextNumber c.tag w] else []

/-- The state after the call c of slot i has changed its wanted connection to w (R144, R146). -/
def State.afterAsking (s : State) (i : SlotNo) (c : Call) (w : Conn) : State :=
  { s with
    reqCounter := if s.asksFor c w then s.nextNumber else s.reqCounter
    txList := s.txList ++ s.requestFor c w
    slots := vset s.slots i (some { c with wanted := w, outstanding := s.requestAfter c w }) }

/-- The state after the requests of a recall of the call c of slot i (R119, R147): its ring watch has
ended, it wants HOLD, and the issue rule has been attempted. -/
def State.afterRecall (s : State) (i : SlotNo) (c : Call) : State :=
  let u : State := { s with slots := vset s.slots i (some { c with ringWatch := none }) }
  { s with
    reqCounter := if u.admits c .hold then u.nextNumber else s.reqCounter
    txList := s.txList ++ u.issuedFor c .hold
    slots := vset s.slots i
      (some { c with wanted := .hold, ringWatch := none, outstanding := u.issuedAfter c .hold }) }

/-- The state after the requests of the recalls of a position loss, in ascending loop number (R107). -/
def State.afterLoopRecalls (s : State) (p : PosNo) : State :=
  allLoops.foldl (fun u l => match s.loopCall p l with
    | some (i, c) => u.afterRecall i c
    | none => u) s

/-- The state with a LEG_DROP or UNWATCH placed, or, without a free entry, dropped and counted (R170). -/
def State.placing (s : State) (n : Option SwitchNotice) : State :=
  match n with
  | none => s
  | some n =>
    if s.txList.length < 64 then { s with txList := s.txList ++ [n] } else bump .droppedNotices s

/-- The state in which the consult record of position p is r (R124). -/
def State.consultAs (s : State) (p : PosNo) (r : Option Consult) : State :=
  { s with positions := vset s.positions p { s.pos p with consult := r } }

/-- The record d of a call c that a state change (R9) has moved into a state outside the queue, wanting
w: the fields of the old state are cleared, the age is 0, and identity and connection stay. -/
structure Moved (c d : Call) (st : CallState) (w : Conn) : Prop where
  state : d.state = st
  tag : d.tag = c.tag
  origin : d.origin = c.origin
  cls : d.cls = c.cls
  label : d.label = c.label
  age : d.age = 0
  score : d.score = 0
  offer : d.offer = none
  offerAge : d.offerAge = 0
  reminded : d.reminded = false
  home : st.seated = false → d.home = c.home.map (fun h => { h with loop := none })
  confirmed : d.confirmed = c.confirmed
  wanted : d.wanted = w
  ringWatch : d.ringWatch = c.ringWatch
  retryWait : d.retryWait = c.retryWait

/-- The record d of a recalled call c, before distribution (R119): it has entered the queue with its age
at 0, the reason, the preference for its home position, HOLD wanted and no ring watch. -/
structure Recalled (c d : Call) (reason : RecallReason) : Prop where
  tag : d.tag = c.tag
  origin : d.origin = c.origin
  cls : d.cls = c.cls
  label : d.label = c.label
  reason : d.reason = some reason
  home : d.home.map (·.pos) = c.home.map (·.pos)
  extension : d.extension = none
  orbit : d.orbit = none
  campOrder : d.campOrder = none
  reminded : d.reminded = false
  ringWatch : d.ringWatch = none
  confirmed : d.confirmed = c.confirmed
  retryWait : d.retryWait = c.retryWait
  age : d.age = 0

/-- The record d of slot i, recalled with the reason (R119) by the plan in force in s, after the
distribution of its action: it prefers its home position and stands in the queue wanting HOLD, with the
score of its recall, or, while the night flag is ON, it has been routed away from there; an outstanding
request runs on. -/
structure RecalledInto (s t : State) (i : SlotNo) (c d : Call) (reason : RecallReason) : Prop where
  recalled : Recalled c d reason
  preferred : d.preferred = c.home.map (·.pos)
  running : c.outstanding ≠ none → d.outstanding = c.outstanding
  state : d.state = .waiting ∨ d.state = .offered ∨ d.state = .departing
  stays : d.state ≠ .departing → i ∈ t.queue ∧ d.wanted = .hold ∧
    d.score = min 4095 (8 * s.eff.weights[c.cls] + s.eff.bonus)
  routed : d.state = .departing → t.nightFlag = true ∧ i ∉ t.queue ∧ d.score = 0 ∧
    s.nightDestination c.origin ≠ 0 ∧
    d.wanted = .away (s.nightDestination c.origin)

/-- The order of console p has been answered with the code, and nothing else has been done. -/
def State.answering (s : State) (p : PosNo) (seq kind : Byte) (code : ResultCode) : State :=
  ((s.hearing (.console p)).toldConsole p (.result seq kind code none)).ended

/-! ## What an action leaves alone -/

/-- The configuration, the settings and the timebase. -/
structure SettingsKept (s t : State) : Prop where
  service : t.service = s.service
  resetHeld : t.resetHeld = s.resetHeld
  lineRate : t.lineRate = s.lineRate
  switchLossLimit : t.switchLossLimit = s.switchLossLimit
  consoleLossLimit : t.consoleLossLimit = s.consoleLossLimit
  groups : t.groups = s.groups
  rangeFirst : t.rangeFirst = s.rangeFirst
  rangeLast : t.rangeLast = s.rangeLast
  plans : t.plans = s.plans
  selection : t.selection = s.selection
  staging : t.staging = s.staging
  nightSetting : t.nightSetting = s.nightSetting
  thinOut : t.thinOut = s.thinOut
  pulseCount : t.pulseCount = s.pulseCount
  tickCount : t.tickCount = s.tickCount
  stepBit : t.stepBit = s.stepBit
  stepEdge : t.stepEdge = s.stepEdge
  pointer : t.pointer = s.pointer
  passCount : t.passCount = s.passCount
  reportInterval : t.reportInterval = s.reportInterval
  pending : t.pending = s.pending

/-- The tag index, the origin table and the free-slot count. -/
structure RegisterKept (s t : State) : Prop where
  tagIndex : t.tagIndex = s.tagIndex
  origins : t.origins = s.origins
  freeSlots : t.freeSlots = s.freeSlots

/-- The lead and the night flag. -/
structure GroupKept (s t : State) : Prop where
  lead : t.lead = s.lead
  nightFlag : t.nightFlag = s.nightFlag

/-- The request number that a frame is sent under (R145). -/
def SwitchNotice.issued : SwitchNotice → Option ReqNo
  | .pathReq n _ _ => some n
  | .legReq n _ _ => some n
  | _ => none

/-- The request number counter after the frames, from the count k (R145). -/
def counterAfter (k : ReqNo) (frames : List SwitchNotice) : ReqNo :=
  frames.foldl (fun k m => m.issued.getD k) k

/-- The frames placed join the switch list at its tail (R169), and the request number counter moves with
them alone: to the number of the last request among them, and not without one (R145). -/
def FramesJoin (s t : State) : Prop :=
  ∃ sent, t.txList = s.txList ++ sent ∧ t.reqCounter = counterAfter s.reqCounter sent

/-- What an order on a link leaves alone beside the settings: every other link, and the frames in the
course of being sent to the consoles. The link itself has been heard, and frames may join the list. -/
structure TakenOn (l : Link) (s t : State) : Prop where
  settings : SettingsKept s t
  frames : FramesJoin s t
  links : ∀ k, t.link k = (s.hearing l).link k
  sending : ∀ q, (t.console q).sending = (s.console q).sending

/-- What an event of the part's own leaves alone beside the settings: the links, the frames in course and
the RESULT entries. Frames may join the list. -/
structure OwnEvent (s t : State) : Prop where
  settings : SettingsKept s t
  frames : FramesJoin s t
  links : ∀ k, t.link k = s.link k
  sending : ∀ q, (t.console q).sending = (s.console q).sending
  results : ∀ q, t.results q = s.results q

/-- An order of the switch that acts on the register and not on the consoles' RESULT entries. -/
structure TakenFromSwitch (s t : State) : Prop where
  taken : TakenOn .switch s t
  results : ∀ q, t.results q = s.results q

/-- An order of console p that has been answered with r. -/
structure TakenFromConsole (s t : State) (p : PosNo) (r : ConsoleNotice) : Prop where
  taken : TakenOn (.console p) s t
  told : t.results p = s.results p ++ [r]
  results : ∀ q, q ≠ p → t.results q = s.results q

/-- A position but for its offer. -/
structure PositionKept (a b : Position) : Prop where
  state : b.state = a.state
  lastReason : b.lastReason = a.lastReason
  leadEligible : b.leadEligible = a.leadEligible
  loops : b.loops = a.loops
  missCount : b.missCount = a.missCount
  consult : b.consult = a.consult

/-- Two records of one call: its identity, its recall reason, its confirmed connection, its retry wait,
its ring watch and the position of its home. -/
structure SameCall (c d : Call) : Prop where
  tag : d.tag = c.tag
  origin : d.origin = c.origin
  cls : d.cls = c.cls
  label : d.label = c.label
  reason : d.reason = c.reason
  confirmed : d.confirmed = c.confirmed
  retryWait : d.retryWait = c.retryWait
  ringWatch : d.ringWatch = c.ringWatch
  home : d.home.map (·.pos) = c.home.map (·.pos)

/-- A call of the queue that distribution has passed over, offered, withdrawn or routed away, where `dest`
is the night destination of an origin and `night` the night flag. A call that stays in the queue keeps what
it wants and its request; one is routed away only while the flag is ON (R77), and then wants AWAY to the
destination of its origin and may have asked for it (R78, R144). -/
structure Redistributed (night : Bool) (dest : OriginNo → Half) (c d : Call) : Prop where
  same : SameCall c d
  state : d.state = .waiting ∨ d.state = .offered ∨ d.state = .departing
  preferred : d.preferred = c.preferred ∨ d.preferred = none
  stays : d.state ≠ .departing → d.age = c.age ∧ d.score = c.score ∧ d.wanted = c.wanted ∧
    d.outstanding = c.outstanding
  routed : d.state = .departing → night = true ∧ d.age = 0 ∧ d.score = 0 ∧ dest c.origin ≠ 0 ∧
    d.wanted = .away (dest c.origin) ∧ (d.outstanding = c.outstanding ∨
      c.outstanding = none ∧ ∃ n, d.outstanding = some { number := n, target := d.wanted })

/-- What the parts of distribution may make of one slot: a FREE slot stays FREE, a call outside the queue
stays as it is, and a queued call is redistributed. -/
def SlotPassed (s t : State) (i : SlotNo) : Prop :=
  match s.call i with
  | none => t.call i = none
  | some c =>
    if c.state.queued = true then
      ∃ d, t.call i = some d ∧ Redistributed t.nightFlag s.nightDestination c d
    else t.call i = some c

/-- All that goes before the walk or the showing has been done (R43, R75, R77): the plan is that of the
depth, the list holds the available positions, and night routing has nothing to take. -/
structure State.Ready (s : State) : Prop where
  plan : s.selection = .load → s.eff = planInForce .load s.plans s.depth ∧
    s.band = bandInForce .load s.plans s.depth
  listed : ∀ p, p ∈ s.available ↔ s.isAvailable p = true
  night : s.nightFlag = true → ∀ i ∈ s.queue, ∀ c, s.call i = some c → c.state = .waiting →
    s.nightDestination c.origin = 0

/-- The state after one offer of the walk, of the WAITING call c of slot i to position p (R79): the call is
OFFERED to p with offer age 0, its age, score and place kept, and p is off the list. -/
def State.afterOffer (s : State) (p : PosNo) (i : SlotNo) (c : Call) : State :=
  { s with
    slots := vset s.slots i (some { c with
      state := .offered, offer := some (.one p), offerAge := 0, reminded := false, orbit := none
      campOrder := none, extension := none, home := c.home.map (fun h => { h with loop := none }) })
    positions := vset s.positions p { s.pos p with offer := some i, offerNews := true }
    available := s.available.filter (· != p) }

/-- No recompute between s and t has changed the mode or a mask (R44, R45). Under LOAD, night routing takes
the depth through several values, and none of them may change them: an action brings four calls to the
queue at most. -/
def PlanSteady (s t : State) : Prop :=
  plansDiffer s.eff t.eff = false ∧
  (s.selection = .load → t.nightFlag = true → ∀ n, t.depth ≤ n → n ≤ s.depth + 4 →
    plansDiffer s.eff (planInForce .load s.plans n) = false)

/-- The offer of the OFFERED call c of slot i stands, and the call is not routed away (R77, R78, R81). In
SINGLE mode the call is as it was and every position that holds it still does, where each of these is still
OPEN; in COMMON mode it stays OFFERED and shown at every position that is still available. -/
structure OfferStands (s t : State) (i : SlotNo) (c : Call) : Prop where
  single : s.eff.mode = .single → (∀ q, (s.pos q).offer = some i → (t.pos q).state = .opened) →
    t.call i = some c ∧ ∀ q, (s.pos q).offer = some i → (t.pos q).offer = some i
  common : s.eff.mode = .common → ∀ q, (s.pos q).offer = some i → t.isAvailable q = true →
    (t.pos q).offer = some i ∧ ∃ d, t.call i = some d ∧ d.state = .offered ∧
      (d.offer = c.offer ∨ d.offer = some .all)

/-- What distribution as a whole may make of one slot: it ends no offer that it has given, so a WAITING
call keeps its preferred position (R77, R84), and where the mode and the masks stay it leaves the standing
offers alone (R77, R81). -/
structure SlotSettled (s t : State) (i : SlotNo) : Prop where
  passed : SlotPassed s t i
  waited : ∀ c d, s.call i = some c → c.state = .waiting → t.call i = some d →
    d.preferred = c.preferred
  stands : ∀ c, s.call i = some c → c.state = .offered → PlanSteady s t → OfferStands s t i c

/-- What an action that moves the call of slot i leaves of the offers: in SINGLE mode every position keeps
an offer of another call, its loops full or its consult open or not (R85); in COMMON mode a position that
is not available shows nothing (R81). -/
structure OffersKept (s t : State) (i : SlotNo) : Prop where
  single : s.eff.mode = .single → PlanSteady s t → ∀ q, (s.pos q).offer ≠ none →
    (s.pos q).offer ≠ some i → (t.pos q).offer = (s.pos q).offer
  common : t.eff.mode = .common → ∀ q, t.isAvailable q = false → (t.pos q).offer = none

/-- The frame is the PATH_REQ of a call routed away in t, whose night flag is ON: it carries the call's tag,
its AWAY and the number of its outstanding request (R77, R78, R146). -/
def State.routes (t : State) : SwitchNotice → Bool
  | .pathReq n tag (.away x) =>
    t.nightFlag && allSlots.any (fun i => (t.call i).any (fun d =>
      d.state == .departing && d.tag == tag && d.wanted == .away x &&
        d.outstanding == some { number := n, target := .away x }))
  | _ => false

/-- The list has grown by the frames of calls routed away and by no other (R78, R169). -/
def RoutesJoin (t : State) (list : List SwitchNotice) : Prop :=
  ∃ away, away.all t.routes = true ∧ t.txList = list ++ away

/-- The notice is a PATH_REQ. -/
def SwitchNotice.isPathReq : SwitchNotice → Bool
  | .pathReq .. => true
  | _ => false

/-- What the re-establishing of the distribution condition may change (R77): offers, the available list,
the effective plan and its band, queued calls, and requests for the calls routed away. -/
structure Settled (s t : State) : Prop where
  settings : SettingsKept s t
  register : RegisterKept s t
  links : ∀ l, t.link l = s.link l
  consoles : t.consoles = s.consoles
  orbits : t.orbits = s.orbits
  camps : t.camps = s.camps
  counters : t.counters = s.counters
  lead : t.lead = s.lead
  nightFlag : t.nightFlag = s.nightFlag
  draws : t.draws = s.draws
  positions : ∀ p, PositionKept (s.pos p) (t.pos p)
  slots : ∀ i, SlotPassed s t i
  queue : t.queue.Sublist s.queue
  frames : FramesJoin s t
  txList : RoutesJoin t s.txList

/-- What the move of the call in slot i leaves alone: the register's tables, the lead and the night flag,
every other call but for what distribution does, and the state of every position. -/
structure RestKept (s t : State) (i : SlotNo) : Prop where
  register : RegisterKept s t
  group : GroupKept s t
  slots : ∀ j, j ≠ i → SlotSettled s t j
  offers : OffersKept s t i
  positions : ∀ p, (t.pos p).state = (s.pos p).state ∧ (t.pos p).lastReason = (s.pos p).lastReason ∧
    (t.pos p).leadEligible = (s.pos p).leadEligible

/-- The auto-hold that goes with the seating of slot i on loop l of position p (R98): every other TALKING
call of the position is HELD on its loop, and every other call is left to distribution. -/
structure AutoHeld (s t : State) (p : PosNo) (l : LoopNo) (i : SlotNo) : Prop where
  held : ∀ k j e, k ≠ l → ((s.pos p).loop k).slot = some j → s.call j = some e →
    e.state = .talking → ∃ f, t.call j = some f ∧ Moved e f .held .hold ∧ f.home = e.home ∧
      f.reason = e.reason ∧ f.preferred = e.preferred
  others : ∀ j, j ≠ i →
    (∀ k e, k ≠ l → ((s.pos p).loop k).slot = some j → s.call j = some e → e.state ≠ .talking) →
    SlotSettled s t j

/-- No loop of the position but l holds a TALKING call. -/
def State.QuietBut (s : State) (p : PosNo) (l : LoopNo) : Prop :=
  ∀ k j e, k ≠ l → ((s.pos p).loop k).slot = some j → s.call j = some e → e.state ≠ .talking

/-- The requests that go with the move of the call c of slot i into TALKING on loop l of position p, from
the state s (R98, R147): with no other TALKING call the seat's alone; with one, its HOLD comes first. The
frames of calls routed away follow. -/
structure SeatRequests (s t : State) (p : PosNo) (l : LoopNo) (i : SlotNo) (c : Call) : Prop where
  quiet : s.QuietBut p l → (∀ d, t.call i = some d → d.outstanding = s.requestAfter c (.seat p l)) ∧
    RoutesJoin t (s.txList ++ s.requestFor c (.seat p l))
  held : ∀ k j e, k ≠ l → j ≠ i → ((s.pos p).loop k).slot = some j → s.call j = some e →
    e.state = .talking →
    (∀ k' j' e', k' ≠ l → k' ≠ k → ((s.pos p).loop k').slot = some j' → s.call j' = some e' →
      e'.state ≠ .talking) →
    let u := s.afterAsking j e .hold
    (∀ f, t.call j = some f → f.outstanding = s.requestAfter e .hold) ∧
    (∀ d, t.call i = some d → d.outstanding = u.requestAfter c (.seat p l)) ∧
    RoutesJoin t (u.txList ++ u.requestFor c (.seat p l))

/-- The call c of slot i has been seated TALKING on loop l of position p, which was empty (R9, R97, R98). -/
structure SeatedAt (s t : State) (p : PosNo) (l : LoopNo) (i : SlotNo) (c : Call)
    (mark : Option RecallReason) : Prop where
  record : ∃ d, t.call i = some d ∧ Moved c d .talking (.seat p l) ∧
    d.home = some { pos := p, loop := some l } ∧ d.extension = none ∧ d.orbit = none ∧
    d.campOrder = none
  loops : ∀ q k, (t.pos q).loop k =
    if q = p ∧ k = l then { slot := some i, mark := mark } else (s.pos q).loop k
  consults : ∀ q, (t.pos q).consult = (s.pos q).consult
  states : ∀ q, (t.pos q).state = (s.pos q).state
  rest : AutoHeld s t p l i
  offers : OffersKept s t i
  register : RegisterKept s t
  group : GroupKept s t
  camps : t.camps = s.camps
  requests : SeatRequests s t p l i c

/-- The commands that leave the turns of the available list to the judgement of R75 alone: not an ANSWER
(R87), a RESTART (R91), or a tick, which may take several actions. -/
def keepsTurns : Instr → Bool
  | .answer .. => false
  | .restart .. => false
  | .tickPulse => false
  | .countedTick => false
  | _ => true

/-- The turns of the available list (R74, R75): the positions that stay keep their order, and those that
become available join behind them. -/
def TurnsKept (a b : List PosNo) : Prop :=
  ∃ kept joined, b = kept ++ joined ∧ kept.Sublist a ∧ ∀ p ∈ joined, p ∉ a

/-- Slot j stands behind the CAMPED call c of slot i in its camp list (R136). -/
def State.behindInCamp (s : State) (i : SlotNo) (c : Call) (j : SlotNo) : Prop :=
  c.state = .camped ∧ ∃ e ∈ s.camps, c.extension = some e.ext ∧
    j ∈ (e.list.dropWhile (· != i)).drop 1

/-- What the removal of the call c of slot i from its collection makes of the other slots (R137): the camp
orders behind it fall by 1, and every other slot is left to distribution. -/
structure OthersLeft (s t : State) (i : SlotNo) (c : Call) : Prop where
  behind : ∀ j e, j ≠ i → s.behindInCamp i c j → s.call j = some e →
    t.call j = some { e with campOrder := e.campOrder.map (· - 1) }
  others : ∀ j, j ≠ i → ¬ s.behindInCamp i c j → SlotSettled s t j

/-- What that removal makes of the camp table (R136, R137): a camp list loses the call and keeps the others
in their order, an entry goes with its last call, and the other entries stay. -/
structure CampLeft (s t : State) (i : SlotNo) (c : Call) : Prop where
  kept : (c.state ≠ .camped ∨ c.extension = none) → t.camps = s.camps
  listed : ∀ x list, c.state = .camped → c.extension = some x → (⟨x, list⟩ : CampEntry) ∈ s.camps →
    (∀ e, e.ext ≠ x → (e ∈ t.camps ↔ e ∈ s.camps)) ∧ (list = [i] → ∀ e ∈ t.camps, e.ext ≠ x) ∧
      (list ≠ [i] → (⟨x, list.filter (· != i)⟩ : CampEntry) ∈ t.camps)

/-- The call c of slot i has been recalled with the reason (R119) and distribution has followed: it stands
in the queue with the score of its recall, or it has been routed away from there. Its leaving has placed
the frame `left`, if any, or counted it as dropped (R137, R170); then the issue rule has been attempted for
HOLD (R147), and the frames of calls routed away follow. -/
structure RecalledNow (s t : State) (i : SlotNo) (c : Call) (reason : RecallReason)
    (left : Option SwitchNotice) : Prop where
  record : ∃ d, t.call i = some d ∧ RecalledInto s t i c d reason
  slots : OthersLeft s t i c
  counters : t.counters = (bump .recalls (s.placing left)).counters
  requests :
    let u := State.placing { s with slots := vset s.slots i (some { c with ringWatch := none }) } left
    (∀ d, t.call i = some d → d.outstanding = u.issuedAfter c .hold ∨
      d.state = .departing ∧ u.issuedAfter c .hold = none ∧
        ∃ n, d.outstanding = some { number := n, target := d.wanted }) ∧
    RoutesJoin t (u.txList ++ u.issuedFor c .hold)
  register : RegisterKept s t
  group : GroupKept s t
  consults : ∀ q, (t.pos q).consult = (s.pos q).consult
  states : ∀ q, (t.pos q).state = (s.pos q).state ∧ (t.pos q).missCount = (s.pos q).missCount

/-- The recompute that a new selection or new plans in s cause (R43 to R45): the effective plan and band
follow the depth, calls change only as distribution changes them, and nothing is redistributed where the
mode and the masks stay. A change of mode ends every offer (R44). Where the masks changed, no offer stands
outside them, and those inside are kept with their offer age (R45). -/
structure Replanned (s t : State) : Prop where
  eff : t.eff = planInForce s.selection s.plans t.depth
  band : t.band = bandInForce s.selection s.plans t.depth
  register : RegisterKept s t
  group : GroupKept s t
  orbits : t.orbits = s.orbits
  camps : t.camps = s.camps
  positions : ∀ p, PositionKept (s.pos p) (t.pos p)
  slots : ∀ i, SlotSettled s t i
  queue : t.queue.Sublist s.queue
  quiet : plansDiffer s.eff (planInForce s.selection s.plans s.depth) = false →
    t.slots = s.slots ∧ t.queue = s.queue ∧ t.available = s.available ∧
      ∀ p, (t.pos p).offer = (s.pos p).offer
  ended : s.PlacesLaw → s.OfferLaw →
    s.eff.mode ≠ (planInForce s.selection s.plans s.depth).mode →
    ∀ i c, s.call i = some c → c.state = .offered →
      ∃ d, t.call i = some d ∧ d.preferred = none ∧ d.offerAge = 0
  masked : plansDiffer s.eff (planInForce s.selection s.plans s.depth) = true →
    ∀ p i c, (t.pos p).offer = some i → t.call i = some c → t.eff.allows c.cls p = true
  kept : s.PlacesLaw → s.eff.mode = (planInForce s.selection s.plans s.depth).mode →
    (s.selection ≠ .load ∨ s.nightFlag = false) →
    ∀ p i c, (s.eff.mode = .single ∨ s.isAvailable p = true) → (s.pos p).offer = some i →
      s.call i = some c → (planInForce s.selection s.plans s.depth).allows c.cls p = true →
      (t.pos p).offer = some i ∧ ∃ d, t.call i = some d ∧ d.state = .offered ∧
        (s.eff.mode = .single → d.offer = c.offer ∧ d.offerAge = c.offerAge)

/-- An order of the switch has been answered with the code, and the re-establishing of the distribution
condition has then placed requests for the calls it routed away (R78, R169, R170). -/
def AnsweredThen (s t : State) (kind : Byte) (code : ResultCode) : Prop :=
  RoutesJoin t (s.toldSwitch kind code).txList ∧
    t.counters = (s.toldSwitch kind code).counters

/-- The service reset of R178 (R20, R60, R91): every slot is FREE, every collection empty, every consult
closed, every live number forgotten and every offer cleared; the plan, the lead, the night flag and the
available list are formed anew, the full notices are pending, and the RESULT entries are kept. -/
structure ServiceCleared (s t : State) : Prop where
  slots : ∀ i, t.call i = none
  queue : t.queue = []
  depth : t.depth = 0
  oldestAge : t.oldestAge = 0
  tagIndex : t.tagIndex = []
  origins : ∀ o, t.origin o = { s.origin o with current := none }
  freeSlots : t.freeSlots = s.rangeLength
  orbits : ∀ o, t.orbitSlot o = none
  camps : t.camps = []
  staging : t.staging = none
  liveNumbers : t.liveNumbers = []
  reqCounter : t.reqCounter = s.reqCounter
  loops : ∀ p l, (t.pos p).loop l = Loop.empty
  positions : ∀ p, (t.pos p).offer = none ∧ (t.pos p).consult = none ∧
    (t.pos p).missCount = (s.pos p).missCount ∧ (t.pos p).leadEligible = (s.pos p).leadEligible
  eff : t.eff = planInForce s.selection s.plans 0
  band : t.band = bandInForce s.selection s.plans 0
  lead : t.lead = leadOf t.positions
  nightFlag : t.nightFlag = nightFlagOf s.nightSetting t.positions
  available : ∀ p, p ∈ t.available ↔ t.isAvailable p = true
  ascending : t.available.Pairwise (· < ·)
  results : ∀ p, t.results p = s.results p
  notices : ∀ p k, (t.link (.console p)).up = true → t.notice p k ∈ (t.console p).pending

/-- A reset that goes to STANDBY closes the OPEN positions with last reason CLOSED (step 3 of R178). -/
def OpenClosed (s t : State) : Prop :=
  ∀ p, (t.pos p).state = (if (s.pos p).state = .opened then .closed else (s.pos p).state) ∧
    (t.pos p).lastReason = (if (s.pos p).state = .opened then .closed else (s.pos p).lastReason)

/-- The content of a subject of console p is taken anew at the end of an action from `old` to `new`: LOOP,
QUEUE and POSITION when it has changed (R70, R110, R111), PARK when the orbits have (R118), OFFER when the
position's offer was given, cleared or replaced (R76). -/
def Touched (old new : State) (p : PosNo) : Subject → Prop
  | .loop l => old.loopNotice p l ≠ new.loopNotice p l
  | .offer => (new.pos p).offerNews = true
  | .queue => old.queueNotice ≠ new.queueNotice
  | .park => old.orbits ≠ new.orbits
  | .position => old.positionNotice p ≠ new.positionNotice p

/-- The rows that come due at a counted tick: a loss for every link that falls silent, an abandoned frame
for every old one, and the visit of a sweep step that is taken (R156, R157, R165, R173). -/
def State.dueRows (s : State) : List Instr :=
  (allLinks.filter s.fallsSilent).map .linkLost ++ (allLinks.filter s.frameOld).map .frameAbandoned ++
    (if s.service = .service ∧ stepTaken s.stepEdge s.stepBit s.tickCount (s.tickCount + 1) = true
     then [.sweepVisit] else [])

/-- The state in which those rows are taken: the counts of the tick and the supervision of every link. -/
def State.supervised (s : State) : State :=
  allLinks.foldl (fun s l => supervise l s) { s with pulseCount := 0, tickCount := s.tickCount + 1 }

/-- Rows taken one after the other. -/
def takeRows (rows : List Instr) (s : State) : State :=
  rows.foldl (fun s c => match exec c s with | .next t => t | .fault _ => s | .refused _ => s) s

/-- What the end of an action changes (R171): the console sets, the draw count and the marks of changed
offers. RESULT entries and the frames in course stay as they are. -/
structure Announced (s t : State) : Prop where
  state : t = { s with consoles := t.consoles, positions := t.positions, draws := s.draws + 1 }
  positions : ∀ p, t.pos p = { s.pos p with offerNews := false }
  sending : ∀ p, (t.console p).sending = (s.console p).sending
  results : ∀ p, (t.console p).pending.filter (fun n => n.subject.isNone) =
    (s.console p).pending.filter (fun n => n.subject.isNone)

end Sys2Proof.Machine
end

