-- ==== Sys2Proof/WellFormed.lean ====
section
/-! DEFINITION. Which commands name something that can happen on the links: the checks of a command as
syntax. A meaning never needs them (every command has one whatever its operands); the encoding laws do. -/
namespace Sys2Proof

/-- The payload length that an order carries, none for a command that is no order. -/
def Instr.len? : Instr → Option Nat
  | .idle _ n | .arrive n _ _ _ | .gone n _ | .pathAck n _ _ | .legState n _ _ | .extFree n _
  | .pickup n _ _ | .start n | .stopOrderly n _ | .stopForced n | .restart n
  | .groupSet n _ _ _ _ _ _ | .originSet n _ _ _ _ | .positionSetLeadEligible n _ _
  | .positionSetReportInterval n _ | .timingSet n _ _ _ _ _ | .rangeSet n _ _ | .planHold n
  | .planWrite n _ _ _ | .planRelease n | .planAbandon n | .planSelect n _ | .select _ n _ _
  | .night n _ | .nightConsole _ n _ _ | .countersRead n _ | .statusRead n | .openPosition _ n _
  | .closePosition _ n _ | .answer _ n _ _ _ | .pick _ n _ _ _ | .hold _ n _ _ | .returnCall _ n _ _
  | .release _ n _ _ | .park _ n _ _ _ | .retrieve _ n _ _ _ | .consult _ n _ _ _ | .join _ n _ _
  | .cancel _ n _ _ | .camp _ n _ _ | .send _ n _ _ _ => some n
  | .powerOnReset _ | .tickPulse | .countedTick | .linkLost _ | .frameAbandoned _ | .badFrames _ _
  | .switchFrameSent | .consoleNoticeSent _ | .sweepVisit | .waitLimitRouting _ | .offerExpiry _
  | .holdReminder _ | .holdRecall _ | .parkExpiry _ | .ringExpiry _ | .campExpiry _
  | .reportIntervalEnd | .resetAsserted | .leadByteReceived _ | .otherKindFrame _ _ => none

/-- Check 1: a payload has at most 58 bytes (R165). -/
def Instr.lengthFits (i : Instr) : Bool := i.len?.all (· ≤ maxPayload)

/-- Check 2: the bytes of BAD_FRAMES make an invalid frame (R165). -/
def Instr.badFramesInvalid : Instr → Bool
  | .badFrames _ bytes => invalidFrame bytes
  | _ => true

/-- Check 3: the kind of OTHER_KIND_FRAME is no order on its link (R166). -/
def Instr.otherKind : Instr → Bool
  | .otherKindFrame l kind => (orderLength l kind).isNone
  | _ => true

/-- Check 4: the mode byte 1 makes a STOP the row STOP_FORCED (R167). -/
def Instr.stopMode : Instr → Bool
  | .stopOrderly _ mode => mode != 1
  | _ => true

/-- Check 5: the subject 0x80 makes a POSITION_SET the row of the report interval (R179). -/
def Instr.positionSubject : Instr → Bool
  | .positionSetLeadEligible _ subject _ => subject != 0x80
  | _ => true

/-- A well-formed command. -/
def Instr.wf (i : Instr) : Bool :=
  i.lengthFits && i.badFramesInvalid && i.otherKind && i.stopMode && i.positionSubject

/-- The order has the payload length that section 11.3 gives for its kind, so it is taken (R166). -/
def Instr.lengthRight (i : Instr) : Bool :=
  match i.frame, i.len? with
  | some (l, kind, _), some n => orderLength l kind == some n
  | _, _ => false

end Sys2Proof
end

