-- ==== Sys2Proof/Certificates/Slice0/Obligations.lean ====
section
/-! DEFINITION. What the model is claimed to do, each a proposition over every state and every operand
that meets its premises. Where a clause rests on a choice of the model and not on a rule of the spec, the
docstring names the log entry. -/
open Sys2Proof Sys2Proof.Machine

/-! ## The step and reset -/

/-- A step takes the command at the front of the queue and runs it with the queue's rest. That the
commands of all senders wait in one queue is the model's (notes/assumptions/18.md). -/
def Obligations.StepRunsFrontCommand : Prop :=
  ∀ (c : Instr) (rest : List Instr) (s : State), s.pending = c :: rest →
    step s = exec c { s with pending := rest }

/-- In every state every command is answered with a next state, in which the same commands wait. That no
command ends in a fault or a refusal is the model's deduction (notes/assumptions/21.md). -/
def Obligations.EveryCommandCompletes : Prop :=
  ∀ (c : Instr) (s : State), ∃ t, exec c s = .next t ∧ t.pending = s.pending

/-- The power-on values that the rules give (R175 and the rules it sums up). The laws of the part hold
at power-on. The statement rests on the model's reading in notes/assumptions/6.md. -/
def Obligations.PowerOn : Prop :=
  (let s := State.reset
   s.service = .standby ∧ (∀ l, s.link l = LinkUnit.powerOn) ∧ s.switchLossLimit = 32 ∧
   s.consoleLossLimit = 32 ∧ s.txList = [] ∧ (∀ p, (s.console p).pending = []) ∧
   (∀ g, (s.group g).valid = false) ∧ (∀ o, s.origin o = Origin.cleared) ∧ (∀ i, s.call i = none) ∧
   s.rangeFirst.val = 0 ∧ s.rangeLast.val = 63 ∧ s.freeSlots = 64 ∧ s.tagIndex = [] ∧ s.depth = 0 ∧
   s.oldestAge = 0 ∧ s.plans.a = Plan.default ∧ s.plans.b = Plan.default ∧ s.plans.c = Plan.default ∧
   s.plans.thresholds = { t1 := 8, t2 := 16, t3 := 24, t4 := 32 } ∧ s.selection = .manual .a ∧
   s.eff = s.plans.a ∧ s.band = .a ∧ s.staging = none ∧ s.nightSetting = .auto ∧ s.nightFlag = true ∧
   s.available = [] ∧ (∀ p, s.pos p = Position.powerOn) ∧ s.lead = none ∧
   (∀ o, s.orbitSlot o = none) ∧ s.camps = [] ∧ s.reqCounter = 0 ∧ s.thinOut = 1 ∧ s.pulseCount = 0 ∧
   s.tickCount = 0 ∧ s.stepBit = 0 ∧ s.stepEdge = .rise ∧ s.pointer = s.rangeFirst ∧ s.passCount = 0 ∧
   (∀ k, s.count k = 0) ∧ s.reportInterval = 0) ∧
  (State.reset.thresholdLaw ∧ State.reset.GroupLaw ∧ State.reset.RangeLaw ∧ State.reset.StandbyLaw ∧
   State.reset.RegisterLaw ∧ State.reset.QueueLaw ∧ State.reset.PlacesLaw ∧ State.reset.CampLaw ∧
   State.reset.NewsClear ∧ State.reset.PlanLaw ∧ State.reset.HomesLaw ∧ State.reset.OfferLaw ∧
   State.reset.TalkLaw ∧ State.reset.NumberLaw ∧ State.reset.CapacityLaw ∧
   State.reset.DistributionLaw ∧ State.reset.LinkLaw)

/-- The reset input: released, it leaves every piece of state at its power-on value and the rate that
the strap pin selected (R175); asserted, it holds the part there and no pulse, byte or order reaches it.
That the state reads as after power-on already while the input is asserted is notes/assumptions/7.md. -/
def Obligations.ResetInput : Prop :=
  ∀ (s : State) (r : LineRate) (c : Instr),
    exec (.powerOnReset r) s =
      .next { State.reset with lineRate := r, draws := s.draws, pending := s.pending } ∧
    exec .resetAsserted s =
      .next { State.reset with lineRate := s.lineRate, resetHeld := true, draws := s.draws,
                               pending := s.pending } ∧
    (s.resetHeld = true → (∀ r', c ≠ .powerOnReset r') → c ≠ .resetAsserted → exec c s = .next s)

/-! ## The laws that every command keeps -/

/-- The thresholds in force always form a valid set (R39). The lead is the position that R105 chooses and
the night flag follows R56, after every command. A position is DOWN exactly while its console's link is
LOST (R93, R107, R108). Between commands no offer is marked as changed. The mark is the model's own
(notes/assumptions/16.md); statements about whole states assume it clear. -/
def Obligations.SmallLawsKept : Prop :=
  (∀ s t : State, s.thresholdLaw → step s = .next t → t.thresholdLaw) ∧
  (∀ s t : State, s.GroupLaw → step s = .next t → t.GroupLaw) ∧
  (∀ s t : State, s.LinkLaw → step s = .next t → t.LinkLaw) ∧
  (∀ s t : State, s.NewsClear → step s = .next t → t.NewsClear)

/-- Stored scores, ages, offer ages and miss counts stay in their ranges (R61, R4, R82, R83). The switch
list never holds more than 64 frames (R169), a console's set never more than 8 RESULT entries nor a
subject twice (R171), the staging list never more than 32 edits (R47), and the origin ranges of valid
groups stay in the table and disjoint (R21). -/
def Obligations.RangeLawKept : Prop :=
  (∀ s t : State, s.RangeLaw → step s = .next t → t.RangeLaw) ∧
  (∀ s t : State, s.CapacityLaw → step s = .next t → t.CapacityLaw)

/-- The laws of the Call Register (R1, R2, R11, R12) and of STANDBY (R175, R176) are kept together: a
change of the range is safe because every slot is FREE in STANDBY. -/
def Obligations.RegisterLawKept : Prop :=
  ∀ s t : State, s.RegisterLaw → s.StandbyLaw → step s = .next t → t.RegisterLaw ∧ t.StandbyLaw

/-- The law of R9, that every call is held by exactly the collection its state names, with the laws of
the queue (R58), of the consults (R124), of the camp table (R7, R136), of the offers (R76) and of the
loops (R97). First: loops, orbits, queue and camp lists hold exactly the calls that name them. Second:
every call of those states names its loop, orbit or extension. Third: the law of R76, in both modes.
Fourth: at most one loop of a position holds a TALKING call. Each is kept by every command. -/
def Obligations.CollectionLawsKept : Prop :=
  (∀ s t : State, s.PlacesLaw → s.QueueLaw → s.CampLaw → step s = .next t →
    t.PlacesLaw ∧ t.QueueLaw ∧ t.CampLaw) ∧
  (∀ s t : State, s.PlacesLaw → s.QueueLaw → s.CampLaw → s.HomesLaw → step s = .next t → t.HomesLaw) ∧
  (∀ s t : State, s.PlacesLaw → s.QueueLaw → s.CampLaw → s.OfferLaw → step s = .next t → t.OfferLaw) ∧
  (∀ s t : State, s.PlacesLaw → s.QueueLaw → s.CampLaw → s.TalkLaw → step s = .next t → t.TalkLaw)

/-! ## Frames and bytes (R165, R166, R168) -/

/-- Every order of the right length is read back from its own frame (R165, R166), by the layouts of
R168: no bit of it is lost, and the check that the frame carries is the one that the receive side
computes. The kind code of every order and its payload, byte by byte and high byte first (section 11.3,
R168). The length operand and the split of STOP and POSITION_SET into two rows each are the model's
(notes/assumptions/10.md, notes/assumptions/11.md). -/
def Obligations.FramesReadBack : Prop :=
  (∀ (i : Instr) (l : Link) (kind : Byte) (payload : List Byte),
     i.wf = true → i.lengthRight = true → i.frame = some (l, kind, payload) →
       commandOfFrame l (frameBody kind payload) = some i) ∧
  (∀ (l : Link) (a b c d e f g h : Byte),
     let order := fun (i : Instr) (kind : Byte) (payload : List Byte) =>
       i.frame = some (.switch, kind, payload)
     (Instr.idle l 0).frame = some (l, 0x01, []) ∧
     order (.arrive 6 (a ++ b ++ c ++ d) e f) 0x10 [a, b, c, d, e, f] ∧
     order (.gone 4 (a ++ b ++ c ++ d)) 0x11 [a, b, c, d] ∧
     order (.pathAck 3 (a ++ b) c) 0x12 [a, b, c] ∧
     order (.legState 3 (a ++ b) c) 0x13 [a, b, c] ∧
     order (.extFree 3 (a ++ b ++ c)) 0x14 [a, b, c] ∧
     order (.pickup 4 a (b ++ c ++ d)) 0x15 [a, b, c, d] ∧
     order (.start 0) 0x20 [] ∧ order (.stopOrderly 1 a) 0x21 [a] ∧ order (.stopForced 1) 0x21 [1] ∧
     order (.restart 0) 0x22 [] ∧
     order (.groupSet 8 a b c (d ++ e) f (g ++ h)) 0x23 [a, b, c, d, e, f, g, h] ∧
     order (.originSet 6 (a ++ b) c d (e ++ f)) 0x24 [a, b, c, d, e, f] ∧
     order (.positionSetLeadEligible 2 a b) 0x25 [a, b] ∧
     order (.positionSetReportInterval 2 a) 0x25 [0x80, a] ∧
     order (.timingSet 5 a b c d e) 0x26 [a, b, c, d, e] ∧
     order (.rangeSet 4 (a ++ b) (c ++ d)) 0x27 [a, b, c, d] ∧
     order (.planHold 0) 0x28 [] ∧ order (.planWrite 4 a b (c ++ d)) 0x29 [a, b, c, d] ∧
     order (.planRelease 0) 0x2A [] ∧ order (.planAbandon 0) 0x2B [] ∧
     order (.planSelect 1 a) 0x2C [a] ∧ order (.night 1 a) 0x2D [a] ∧
     order (.countersRead 1 a) 0x2E [a] ∧ order (.statusRead 0) 0x2F []) ∧
  (∀ (p : PosNo) (q a b c d e : Byte),
     let order := fun (i : Instr) (kind : Byte) (payload : List Byte) =>
       i.frame = some (.console p, kind, payload)
     order (.openPosition p 1 q) 0x60 [q] ∧ order (.closePosition p 1 q) 0x61 [q] ∧
     (let loop := a; let slot := b; let orbit := c; let value := d
      order (.answer p 3 q loop slot) 0x62 [q, loop, slot] ∧
      order (.pick p 3 q slot loop) 0x63 [q, slot, loop] ∧
      order (.hold p 2 q loop) 0x64 [q, loop] ∧ order (.returnCall p 2 q loop) 0x65 [q, loop] ∧
      order (.release p 2 q loop) 0x66 [q, loop] ∧
      order (.park p 3 q loop orbit) 0x67 [q, loop, orbit] ∧
      order (.retrieve p 3 q orbit loop) 0x68 [q, orbit, loop] ∧
      order (.join p 2 q loop) 0x6A [q, loop] ∧ order (.cancel p 2 q loop) 0x6B [q, loop] ∧
      order (.camp p 2 q loop) 0x6D [q, loop] ∧
      order (.nightConsole p 2 q value) 0x6E [q, value] ∧ order (.select p 2 q value) 0x6F [q, value]) ∧
     order (.consult p 5 q a (c ++ d ++ e)) 0x69 [q, a, c, d, e] ∧
     order (.send p 5 q a (c ++ d ++ e)) 0x6C [q, a, c, d, e])

/-- A valid frame of any other kind is OTHER_KIND_FRAME, whatever its payload (R166); a frame whose check
differs in either byte is BAD_FRAMES, and so is a length byte above 58, at once (R165). Every notice makes
a valid frame of its kind, which the receive side of the other end reads back (R165, R168). The layouts of
the notices, field by field and high byte first (R168, with STATUS by R181 and COUNTERS by R180), and the
numbers sent: connections, lamps, recall reasons, states, reasons, result codes and exception kinds (R168,
R181, R182). That the payload of STATUS is the thirteen items and 44 bytes of R181, without the oldest age
that R69 names, is the model's choice in notes/assumptions/27.md. -/
def Obligations.FramesRead : Prop :=
  (∀ (l : Link) (kind : Byte) (payload : List Byte), payload.length ≤ 58 →
     (orderLength l kind = none →
       commandOfFrame l (frameBody kind payload) = some (.otherKindFrame l kind)) ∧
     ∀ check : Half, check ≠ crc16 (BitVec.ofNat 8 payload.length :: kind :: payload) →
       commandOfFrame l (BitVec.ofNat 8 payload.length :: kind :: payload ++ bytes2 check) =
         some (.badFrames l (BitVec.ofNat 8 payload.length :: kind :: payload ++ bytes2 check))) ∧
  (∀ (l : Link) (len : Byte), 58 < len.toNat → commandOfFrame l [len] = some (.badFrames l [len])) ∧
  crc16 [0x31, 0x32, 0x33, 0x34, 0x35, 0x36, 0x37, 0x38, 0x39] = 0x29B1 ∧
  ((∀ n : SwitchNotice, (∀ part values, n = .counters part values → values.length ≤ 9) →
     validFrame (n.frame.drop 1) = some (n.kind, n.payload)) ∧
   (∀ n : ConsoleNotice, (∀ items, n = .park items → items.length ≤ 16) →
     validFrame (n.frame.drop 1) = some (n.kind, n.payload))) ∧
  (∀ a b c d : Byte,
     bytes2 (a ++ b) = [a, b] ∧ bytes3 (a ++ b ++ c) = [a, b, c] ∧
     bytes4 (a ++ b ++ c ++ d) = [a, b, c, d]) ∧
  (∀ (n via : ReqNo) (tag : Tag) (p : PosNo) (l : LoopNo) (x : Ext) (d : Half),
     let req := fun (c : Conn) => ((SwitchNotice.pathReq n tag c).kind, (SwitchNotice.pathReq n tag c).payload)
     let head := bytes2 n ++ bytes4 tag
     req (.seat p l) = (0x40, head ++ [1, BitVec.ofNat 8 p.val, BitVec.ofNat 8 l.val, 0, 0, 0, 0, 0]) ∧
     req .hold = (0x40, head ++ [2, 0, 0, 0, 0, 0, 0, 0]) ∧
     req (.ring x) = (0x40, head ++ [3, 0, 0] ++ bytes3 x ++ [0, 0]) ∧
     req (.deliver x none) = (0x40, head ++ [4, 0, 0] ++ bytes3 x ++ [0, 0]) ∧
     req (.deliver x (some via)) = (0x40, head ++ [4, 0, 0] ++ bytes3 x ++ bytes2 via) ∧
     req (.away d) = (0x40, head ++ [5, 0, 0, 0, 0, 0] ++ bytes2 d) ∧
     req .drop = (0x40, head ++ [6, 0, 0, 0, 0, 0, 0, 0])) ∧
  (∀ (n : ReqNo) (tag d1 d2 d3 : Tag) (p : PosNo) (x : Ext) (dest : Half) (kind : Byte) (up : Bool)
     (code : ResultCode) (dr : DivertReason) (rr : RejectReason) (ek : ExceptionKind) (vs : Vector Nat 9),
     let sent := fun m : SwitchNotice => (m.kind, m.payload)
     let items := fun (tag : Nat) => (vs.toList.zipIdx tag).flatMap
       (fun e => BitVec.ofNat 8 e.2 :: bytes4 (BitVec.ofNat 32 e.1))
     sent (.legReq n p x) = (0x41, bytes2 n ++ [BitVec.ofNat 8 p.val] ++ bytes3 x) ∧
     sent (.legDrop n) = (0x42, bytes2 n) ∧
     sent (.divert tag dest dr) = (0x43, bytes4 tag ++ bytes2 dest ++ [dr.code]) ∧
     sent (.reject tag rr) = (0x44, bytes4 tag ++ [rr.code]) ∧
     sent (.watch x) = (0x45, bytes3 x) ∧ sent (.unwatch x) = (0x46, bytes3 x) ∧
     sent (.positionAlarm p up) = (0x47, [BitVec.ofNat 8 p.val, if up then 1 else 0]) ∧
     sent (.exception ek d1 d2 d3) = (0x48, [ek.code] ++ bytes4 d1 ++ bytes4 d2 ++ bytes4 d3) ∧
     sent (.result kind code) = (0x49, [kind, code.code]) ∧
     sent (.counters 1 vs.toList) = (0x4A, 1 :: items 1) ∧
     sent (.counters 2 vs.toList) = (0x4A, 2 :: items 10)) ∧
  (∀ st : Status,
     (SwitchNotice.status st).kind = 0x4B ∧ st.payload.length = 44 ∧
     (let b := fun k => st.payload[k]?
      let flag := fun x : Bool => some (if x then (1 : Byte) else 0)
      b 0 = some 1 ∧ b 1 = some (if st.service = .service then 1 else 0) ∧
      b 2 = some 2 ∧ b 3 = some st.nightSetting.code ∧ b 4 = some 3 ∧ b 5 = flag st.nightFlag ∧
      b 6 = some 4 ∧ b 7 = some st.selection.code ∧ b 8 = some 5 ∧ b 9 = some st.band.code ∧
      b 10 = some 6 ∧ (st.payload.drop 11).take 2 = bytes2 (BitVec.ofNat 16 st.depth) ∧
      b 13 = some 7 ∧ (st.payload.drop 14).take 2 = bytes2 (BitVec.ofNat 16 st.freeSlots) ∧
      b 16 = some 8 ∧ (∀ p, st.lead = some p → b 17 = some (BitVec.ofNat 8 p.val)) ∧
      (st.lead = none → b 17 = some 0xFF) ∧
      b 18 = some 9 ∧ (∀ p : PosNo, b (19 + p.val) = some st.positions[p].code) ∧
      b 27 = some 10 ∧ b 28 = flag st.switchUp ∧
      (∀ p : PosNo, b (29 + p.val) = flag st.consolesUp[p]) ∧
      b 37 = some 11 ∧ (st.payload.drop 38).take 2 = bytes2 st.tickCount ∧
      b 40 = some 12 ∧ b 41 = some (BitVec.ofNat 8 st.pointer.val) ∧
      b 42 = some 13 ∧ b 43 = some (BitVec.ofNat 8 st.staged))) ∧
  (∀ (seq kind : Byte) (code : ResultCode) (o : OrbitNo) (l : LoopNo) (lamp : Lamp) (i : SlotNo)
     (label : Half) (k : ClassNo) (why : Option RecallReason) (depth oldest misses : Nat) (band : Band)
     (night lead : Bool) (items : List (OrbitNo × Half)) (st : PosState) (last : PosReason),
     let sent := fun m : ConsoleNotice => (m.kind, m.payload)
     let c : CallShown := { slot := i, label := label, cls := k }
     let call := BitVec.ofNat 8 i.val :: bytes2 label ++ [BitVec.ofNat 8 k.val]
     let flag := fun x : Bool => if x then (1 : Byte) else 0
     sent (.result seq kind code none) = (0x80, [seq, kind, code.code, 0]) ∧
     sent (.result seq kind code (some o)) = (0x80, [seq, kind, code.code, BitVec.ofNat 8 o.val]) ∧
     sent (.loop l lamp none none) = (0x81, [BitVec.ofNat 8 l.val, lamp.code, 0, 0, 0, 0, 0]) ∧
     sent (.loop l lamp (some c) why) =
       (0x81, [BitVec.ofNat 8 l.val, lamp.code] ++ call ++ [reasonCode why]) ∧
     sent (.offer false none none) = (0x82, [0, 0, 0, 0, 0, 0]) ∧
     sent (.offer false (some c) why) = (0x82, [1] ++ call ++ [reasonCode why]) ∧
     sent (.offer true (some c) why) = (0x82, [2] ++ call ++ [reasonCode why]) ∧
     sent (.queue depth oldest band night) =
       (0x83, bytes2 (BitVec.ofNat 16 depth) ++ [BitVec.ofNat 8 oldest, band.code, flag night]) ∧
     sent (.park items) = (0x84, BitVec.ofNat 8 items.length ::
       items.flatMap (fun e => BitVec.ofNat 8 e.1.val :: bytes2 e.2)) ∧
     sent (.position st lead misses last) =
       (0x85, [st.code, flag lead, BitVec.ofNat 8 misses, last.code])) ∧
  (let numbered := fun (n : Nat) (codes : List Byte) => codes = (List.range codes.length).map
     (fun k => BitVec.ofNat 8 (k + n))
   numbered 0 ([ResultCode.accepted, .clamped, .notInService, .notInStandby, .closed, .notLead, .badLoop,
     .badOrbit, .badSlot, .noCall, .taken, .loopBusy, .wrongState, .consulting, .occupied, .parkFull,
     .campFull, .congested, .notHeld, .heldAlready, .stageFull, .badThresholds, .badRange,
     .callsPresent].map ResultCode.code) ∧
   numbered 1 ([ExceptionKind.unknownOrigin, .duplicateTag, .circuitBusy, .pathFailed,
     .staleReply].map ExceptionKind.code) ∧
   numbered 1 ([RejectReason.notInService, .duplicateTag, .unknownOrigin, .circuitBusy,
     .full].map RejectReason.code) ∧
   numbered 1 ([DivertReason.night, .overflow].map DivertReason.code) ∧
   numbered 0 ([Lamp.empty, .connecting, .talking, .held, .heldRemind, .asked, .dialled, .ringing,
     .answered, .busy, .failed, .cleared].map Lamp.code) ∧
   numbered 0 ([none, some RecallReason.hold, some .park, some .ring, some .camp, some .positionLost,
     some .pathFail].map reasonCode) ∧
   numbered 0 ([Band.a, .ab, .b, .bc, .c].map Band.code) ∧
   numbered 0 ([PosState.down, .closed, .opened].map PosState.code) ∧
   numbered 0 ([PosReason.opened, .closed, .forced].map PosReason.code) ∧
   numbered 0 ([NightSetting.manualOff, .manualOn, .auto].map NightSetting.code) ∧
   numbered 0 ([Selection.manual .a, .manual .b, .manual .c, .load].map Selection.code))

/-- The receive side (R165): a lead byte starts collecting on a hunting link and is content on a
collecting one; an invalid or an abandoned frame is counted, marks nothing, and hunting resumes. A frame
on the switch link, or on the link of a console that is UP, marks the link heard. An IDLE does nothing
more; a frame of no order's kind is counted under DISCARDED_ORDERS (R166). The transmit sides: a sent
frame frees its entry of the switch list (R169), unless it is an IDLE, after which the head of the list
begins (R172); and a free console link takes the head of its console's list (R171). That both end an
IDLE in course is notes/assumptions/19.md. The statement rests on the model's reading in
notes/assumptions/4.md, notes/assumptions/9.md and notes/assumptions/17.md. -/
def Obligations.LinkCommands : Prop :=
  (∀ (s : State) (l : Link) (bytes : List Byte), s.Runs →
     ((s.link l).receive = .hunting →
       exec (.leadByteReceived l) s =
         .next (s.setLink l { s.link l with receive := .collecting false })) ∧
     ((s.link l).receive ≠ .hunting → exec (.leadByteReceived l) s = .next s) ∧
     ((s.link l).receive ≠ .hunting →
       exec (.frameAbandoned l) s =
         .next (bump .badFrames (s.setLink l { s.link l with receive := .hunting }))) ∧
     ((s.link l).receive = .hunting → exec (.frameAbandoned l) s = .next s) ∧
     (invalidFrame bytes = true →
       exec (.badFrames l bytes) s =
         .next (bump .badFrames (s.setLink l { s.link l with receive := .hunting }))) ∧
     (invalidFrame bytes = false → exec (.badFrames l bytes) s = .next s)) ∧
  (∀ (s : State) (l : Link) (len : Nat) (kind : Byte), s.Runs →
     (l = .switch ∨ (s.link l).up = true) →
     exec (.idle l 0) s = .next (s.hearing l) ∧
     (len ≠ 0 → exec (.idle l len) s = .next (bump .discardedOrders (s.hearing l))) ∧
     (orderLength l kind = none →
       exec (.otherKindFrame l kind) s = .next (bump .discardedOrders (s.hearing l)))) ∧
  (∀ (s : State) (p : PosNo), s.Runs →
     (s.switchLink.idling = true → exec .switchFrameSent s =
       .next { s with switchLink := { s.switchLink with idling := false } }) ∧
     (s.switchLink.idling = false → exec .switchFrameSent s =
       .next { s with txList := s.txList.drop 1 }) ∧
     exec (.consoleNoticeSent p) s =
       .next { s with
         consoles := vset s.consoles p
           { pending := (s.console p).pending.drop 1, sending := (s.console p).pending.head? }
         consoleLinks := vset s.consoleLinks p { s.link (.console p) with idling := false } })

/-- An order whose payload has the wrong length is not taken: its link is heard, DISCARDED_ORDERS is
raised, and nothing else happens (R166). The same holds of an order, whatever its length, from a console
whose set holds 8 pending RESULT entries (R171). The statement rests on the model's reading in
notes/assumptions/10.md. -/
def Obligations.DiscardedOrders : Prop :=
  ∀ (c : Instr) (s : State) (l : Link) (kind : Byte) (payload : List Byte) (n : Nat),
    s.Runs → (l = .switch ∨ (s.link l).up = true) →
    c.frame = some (l, kind, payload) → c.len? = some n →
    (orderLength l kind ≠ some n → exec c s = .next (bump .discardedOrders (s.hearing l))) ∧
    (∀ p, l = .console p → kind ≠ Kind.idle → 8 ≤ s.resultsPending p →
      exec c s = .next (bump .discardedOrders (s.hearing l)))

/-- Admission to the switch transmit list (R169, R170): EXCEPTION and POSITION_ALARM need 16 free
entries and are dropped and counted without them; the other frames need one. The console's list (R171):
a subject that is pending takes its new content in its place, one that is not joins at the tail, and no
RESULT entry moves. The lamp of a loop (R110): the table's lines in their order. The end of an action:
on a link that is UP exactly the touched subjects become pending, with the content of the new state
(LOOP, QUEUE and POSITION when it changed, PARK with the orbits, OFFER with the offer: R70, R76, R110,
R111, R118); a console whose link is LOST is told nothing. So after every command a console whose link
is UP has pending every content that the command changed, and every content where the command restored
its link (R57, R70, R71, R108). That OFFER goes by the mark of a changed offer is
notes/assumptions/16.md and that PARK goes by the orbits notes/assumptions/24.md. -/
def Obligations.NoticesPlaced : Prop :=
  (∀ (s : State) (n : SwitchNotice),
     (s.txList.length ≤ 48 → placeLow n s = { s with txList := s.txList ++ [n] }) ∧
     (48 < s.txList.length → placeLow n s = bump .droppedNotices s) ∧
     (s.txList.length < 64 →
       placeDroppable n s = { s with txList := s.txList ++ [n] } ∧
       placeAnswer n s = { s with txList := s.txList ++ [n] } ∧
       placeTested n s = { s with txList := s.txList ++ [n] }) ∧
     (64 ≤ s.txList.length →
       placeDroppable n s = bump .droppedNotices s ∧ placeAnswer n s = bump .discardedOrders s)) ∧
  (∀ (list : List ConsoleNotice) (n : ConsoleNotice), n.subject.isSome = true →
     (n.subject ∈ list.map (·.subject) → (pend list n).map (·.subject) = list.map (·.subject)) ∧
     (n.subject ∉ list.map (·.subject) → pend list n = list ++ [n]) ∧
     n ∈ pend list n ∧
     (∀ m ∈ pend list n, m.subject = n.subject → m = n) ∧
     (pend list n).filter (fun m => m.subject.isNone) = list.filter (fun m => m.subject.isNone)) ∧
  (∀ (s : State) (p : PosNo) (l : LoopNo) (i : SlotNo) (c : Call),
     (s.loopCall p l = none → s.lamp p l = .empty) ∧
     (s.loopCall p l = some (i, c) →
       (∀ r, (s.pos p).consult = some r → r.loop = l → s.lamp p l = r.phase.lamp) ∧
       (s.consultOn p l = false →
         (c.state = .talking → c.confirmed = .seat p l → s.lamp p l = .talking) ∧
         (c.state = .talking → c.confirmed ≠ .seat p l → s.lamp p l = .connecting) ∧
         (c.state = .held → c.reminded = false → s.lamp p l = .held) ∧
         (c.state = .held → c.reminded = true → s.lamp p l = .heldRemind)))) ∧
  (∀ (old new : State) (p : PosNo) (k : Subject),
     let t := announce old new
     ((new.link (.console p)).up = false → t.console p = new.console p) ∧
     ((new.link (.console p)).up = true →
       t.notice p k = new.notice p k ∧ t.results p = new.results p ∧
       (t.console p).sending = (new.console p).sending ∧
       (Touched old new p k → new.notice p k ∈ (t.console p).pending ∧
         ∀ n ∈ (t.console p).pending, n.subject = some k → n = new.notice p k) ∧
       (¬ Touched old new p k → ∀ n, n.subject = some k →
         (n ∈ (t.console p).pending ↔ n ∈ (new.console p).pending)))) ∧
  (∀ (c : Instr) (s t : State) (p : PosNo) (k : Subject), s.PlacesLaw → s.QueueLaw → s.CampLaw →
     s.OfferLaw → exec c s = .next t → (t.link (.console p)).up = true →
     ((s.link (.console p)).up = true → s.notice p k ≠ t.notice p k) →
     t.notice p k ∈ (t.console p).pending)

/-! ## Ticks and supervision (R155 to R157, R173) -/

/-- A pulse below the thin-out only counts; the pulse that reaches it is a counted tick (R155). A
counted tick (R156): the pulse count returns to 0, the tick count rises and wraps, and every link has
its supervision event (R173) with the abandoning of an old frame (R165). What holds of the links is the
same in every order in which the tick takes its parts (notes/assumptions/3.md). The tick does what the
rows LINK_LOST, FRAME_ABANDONED and SWEEP_VISIT do, taken in some order, one for each link that falls
silent (R174), each old frame and the step that is due; its own IDLE frames apart, it does nothing else.
The statement rests on the model's reading in notes/assumptions/1.md. -/
def Obligations.Ticks : Prop :=
  (∀ s : State, s.Runs →
     (s.pulseCount + 1 < s.thinOut →
       exec .tickPulse s = .next { s with pulseCount := s.pulseCount + 1 }) ∧
     (s.thinOut ≤ s.pulseCount + 1 → exec .tickPulse s = exec .countedTick s)) ∧
  (∀ s : State, s.Runs →
     ∃ t, exec .countedTick s = .next t ∧ t.pulseCount = 0 ∧ t.tickCount = s.tickCount + 1 ∧
       ∀ l,
         (t.link l).heard = false ∧
         (t.link l).up = ((s.link l).up && !s.fallsSilent l) ∧
         (t.link l).quiet =
           (if (s.link l).heard = true then 0
            else if s.fallsSilent l = true then s.lossLimit l
            else if (s.link l).up = true then (s.link l).quiet + 1 else (s.link l).quiet) ∧
         (t.link l).receive =
           (if (s.link l).receive = .collecting false then .collecting true else .hunting)) ∧
  (∀ s : State, s.Runs →
     ∃ t rows, exec .countedTick s = .next t ∧ List.Perm rows s.dueRows ∧
       let u := takeRows rows s.supervised
       t = { u with
         switchLink := t.switchLink
         consoleLinks := t.consoleLinks
         draws := u.draws + 1 } ∧
       ∀ l, { t.link l with idling := false } = { u.link l with idling := false } ∧
         ((s.link l).idling = true → (t.link l).idling = true))

/-- A counted tick in SERVICE at which a step is due, no link is lost and no frame is abandoned, visits
as the row SWEEP_VISIT does (R157, R164); the links' own fields apart, nothing else happens. A counted
tick that loses no link, abandons no frame and takes no step (in STANDBY, say) changes the counts and
the links and nothing else, and each link with nothing to send sends an IDLE (R172). The counts at which
steps fall (the table of R157), at every tick count, the wrap included. The statement rests on the
model's reading in notes/assumptions/1.md and notes/assumptions/4.md. -/
def Obligations.TickSteps : Prop :=
  (∀ s : State, s.Runs → (∀ l, s.fallsSilent l = false ∧ s.frameOld l = false) →
     s.service = .service → stepTaken s.stepEdge s.stepBit s.tickCount (s.tickCount + 1) = true →
     ∃ t u, exec .countedTick s = .next t ∧
       exec .sweepVisit (allLinks.foldl (fun s l => supervise l s)
         { s with pulseCount := 0, tickCount := s.tickCount + 1 }) = .next u ∧
       t = { u with switchLink := t.switchLink, consoleLinks := t.consoleLinks, draws := u.draws + 1 } ∧
       ∀ l, (t.link l).up = (s.link l).up) ∧
  (∀ s : State, s.Runs → (∀ l, s.fallsSilent l = false ∧ s.frameOld l = false) →
     (s.service = .standby ∨ stepTaken s.stepEdge s.stepBit s.tickCount (s.tickCount + 1) = false) →
     ∃ t, exec .countedTick s = .next t ∧
       t = { s with
         pulseCount := 0
         tickCount := s.tickCount + 1
         switchLink := t.switchLink
         consoleLinks := t.consoleLinks
         draws := s.draws + 1 } ∧
       ∀ l, (t.link l).idling = ((s.link l).idling || s.nothingToSend l) ∧
         (s.nothingToSend l = true → (s.link l).idling = false)) ∧
  (∀ (k : Nat) (n : Half), k ≤ 11 →
     (stepTaken .rise k n (n + 1) = true ↔ (n.toNat + 1) % 2 ^ (k + 1) = 2 ^ k) ∧
     (stepTaken .fall k n (n + 1) = true ↔ (n.toNat + 1) % 2 ^ (k + 1) = 0) ∧
     (stepTaken .either k n (n + 1) = true ↔ (n.toNat + 1) % 2 ^ k = 0))

/-! ## Links lost and restored (R107, R108, R174) -/

/-- The loss of a console link in UP state (R174, R107): the console's pending notices go; every call of
its loops is recalled POSITION_LOST and counted; an open consult is closed with LEG_DROP; the position
is DOWN with no offer, no consult and empty loops; POSITION_ALARM is placed or dropped and
POSITION_LOSSES raised. The frames go out in the order of the steps: first the PATH_REQ HOLD of each
recalled call that issues, in ascending loop number (R119, R147). The other positions keep all but their
offers, the other calls all but what distribution does, and the orbits and camp lists stay. That the row
is taken at any quiet count is notes/assumptions/17.md, and that a recall always attempts the issue rule
is notes/assumptions/13.md. -/
def Obligations.ConsoleLinkLost : Prop :=
  ∀ (s : State) (p : PosNo), s.Runs → (s.link (.console p)).up = true →
    ∃ t, exec (.linkLost (.console p)) s = .next t ∧ SettingsKept s t ∧ RegisterKept s t ∧
      FramesJoin s t ∧
      (t.link (.console p)).up = false ∧ (t.link (.console p)).quiet = s.consoleLossLimit ∧
      (∀ l, l ≠ .console p → t.link l = s.link l) ∧
      (t.console p).pending = [] ∧ (t.console p).sending = (s.console p).sending ∧
      (∀ q, q ≠ p → t.results q = s.results q) ∧
      (t.pos p).state = .down ∧ (t.pos p).lastReason = .closed ∧ (t.pos p).offer = none ∧
      (t.pos p).consult = none ∧ (t.pos p).missCount = (s.pos p).missCount ∧
      t.lead = leadOf t.positions ∧ t.nightFlag = nightFlagOf s.nightSetting t.positions ∧
      t.count .positionLosses = min counterMax (s.count .positionLosses + 1) ∧
      t.orbits = s.orbits ∧ t.camps = s.camps ∧
      (∀ q, q ≠ p → (t.pos q).state = (s.pos q).state ∧ (t.pos q).missCount = (s.pos q).missCount ∧
        (t.pos q).lastReason = (s.pos q).lastReason ∧ (t.pos q).consult = (s.pos q).consult) ∧
      (∃ reqs away, reqs.all SwitchNotice.isPathReq = true ∧ reqs.length ≤ 4 ∧
        (s.PlacesLaw → s.txList ++ reqs = (s.afterLoopRecalls p).txList) ∧
        away.all t.routes = true ∧
        let drops := match (s.pos p).leg with | some n => [SwitchNotice.legDrop n] | none => []
        let dropped := if (s.txList ++ reqs).length < 64 then drops else []
        let alarm := if (s.txList ++ reqs ++ dropped).length ≤ 48
          then [SwitchNotice.positionAlarm p false] else []
        t.txList = s.txList ++ reqs ++ dropped ++ alarm ++ away ∧
        t.count .droppedNotices =
          ((bump .droppedNotices)^[drops.length + 1 - dropped.length - alarm.length] s).count
            .droppedNotices) ∧
      (∀ k, k ≠ .positionLosses → k ≠ .recalls → k ≠ .droppedNotices → t.count k = s.count k) ∧
      (s.PlacesLaw →
        (∀ q, q ≠ p → (t.pos q).loops = (s.pos q).loops) ∧
        (∀ l, (t.pos p).loop l =
          if ((s.pos p).loop l).slot = none then (s.pos p).loop l else Loop.empty) ∧
        t.count .recalls =
          ((bump .recalls)^[(allLoops.filter (fun l => ((s.pos p).loop l).slot.isSome)).length] s).count
            .recalls ∧
        (∀ l i c, ((s.pos p).loop l).slot = some i → s.call i = some c →
          ∃ d, t.call i = some d ∧ RecalledInto s t i c d .positionLost ∧ d.preferred = some p ∧
            d.home.map (·.pos) = some p ∧
            (let running := ((s.afterLoopRecalls p).call i).bind (·.outstanding)
             d.outstanding = running ∨ d.state = .departing ∧ running = none ∧
               ∃ n, d.outstanding = some { number := n, target := d.wanted })) ∧
        (∀ j, (∀ l, ((s.pos p).loop l).slot ≠ some j) → SlotSettled s t j))

/-- The loss of the switch link in UP state (R174): in STANDBY the link is LOST and nothing else
follows; in SERVICE the part goes to STANDBY with the service reset of R178, its OPEN positions CLOSED,
with no frame and no count. A link that is LOST is not lost again. The statement rests on the model's
reading in notes/assumptions/17.md. -/
def Obligations.SwitchLinkLost : Prop :=
  ∀ s : State, s.Runs →
    ((s.link .switch).up = true → s.service = .standby → s.NewsClear →
      exec (.linkLost .switch) s =
        .next (s.setLink .switch
          { s.switchLink with up := false, quiet := s.switchLossLimit }).ended) ∧
    ((s.link .switch).up = true → s.service = .service →
      ∃ t, exec (.linkLost .switch) s = .next t ∧
        t.switchLink = { s.switchLink with up := false, quiet := s.switchLossLimit } ∧
        t.consoleLinks = s.consoleLinks ∧
        SettingsKept { s with service := .standby, staging := none } t ∧
        ServiceCleared s t ∧ OpenClosed s t ∧
        (∀ q, (t.console q).sending = (s.console q).sending) ∧
        t.txList = s.txList ∧ t.counters = s.counters) ∧
    (∀ l, (s.link l).up = false → exec (.linkLost l) s = .next s)

/-- The frame that makes a LOST console link UP restores the position before it is judged (R108, R166):
the command then runs on the restored state. An IDLE on a LOST console link (R108, R173): the link is UP
with quiet count 0, the position is CLOSED with miss count 0, the alarm is placed for the switch or
dropped, and eight notices become pending in the order of R108; no other position's state, no loop and
no consult changes. The statement rests on the model's reading in notes/assumptions/5.md and
notes/assumptions/26.md. -/
def Obligations.RestoredByAFrame : Prop :=
  (∀ (s : State) (p : PosNo) (c : Instr) (kind : Byte) (payload : List Byte), s.Runs →
     (s.link (.console p)).up = false →
     (c.frame = some (.console p, kind, payload) ∨ c = .otherKindFrame (.console p) kind) →
     exec c s = exec c (announce s (restoration p (s.hearing (.console p))))) ∧
  (∀ (s : State) (p : PosNo), s.Runs → (s.link (.console p)).up = false →
     ∃ t, exec (.idle (.console p) 0) s = .next t ∧ SettingsKept s t ∧ RegisterKept s t ∧
       FramesJoin s t ∧
       (∀ k, t.link k = (s.hearing (.console p)).link k) ∧ (t.link (.console p)).up = true ∧
       (t.link (.console p)).quiet = 0 ∧
       (t.pos p).state = .closed ∧ (t.pos p).lastReason = .closed ∧ (t.pos p).missCount = 0 ∧
       t.lead = leadOf t.positions ∧ t.nightFlag = nightFlagOf s.nightSetting t.positions ∧
       (∀ q, (t.pos q).loops = (s.pos q).loops ∧ (t.pos q).consult = (s.pos q).consult) ∧
       (∀ q, q ≠ p → (t.pos q).state = (s.pos q).state ∧ (t.pos q).missCount = (s.pos q).missCount) ∧
       (∃ sent, sent.all t.routes = true ∧
         if s.txList.length + sent.length ≤ 48 then
           t.txList = s.txList ++ sent ++ [.positionAlarm p true] ∧ t.counters = s.counters
         else
           t.txList = s.txList ++ sent ∧
             t.count .droppedNotices = min counterMax (s.count .droppedNotices + 1)) ∧
       (∀ i, SlotSettled s t i) ∧
       ((s.console p).pending = [] →
         (t.console p).pending.map (·.subject) =
           [some .position, some (.loop 0), some (.loop 1), some (.loop 2), some (.loop 3),
            some .offer, some .queue, some .park]))

/-! ## The Call Register and Origin Lookup (chapters 1 and 2) -/

/-- The identity of a call stays until its slot is freed: whatever the command, a slot that holds a call
before and after it holds the same tag, origin, class and label (R3). Only an ARRIVE fills a slot (R10).
A slot is freed by the GONE of its tag, by a PATH_ACK of its own request that confirms a final
connection or fails a DROP, by an ANSWERED of its ring watch (R13), or by a reset: power-on (R175), STOP
FORCED, RESTART and the loss of the switch link in SERVICE (R178), which a tick brings when the link
falls silent. A STOP row with the mode byte 1 is STOP FORCED also where it is written STOP_ORDERLY
(notes/assumptions/11.md), and LINK_LOST is taken at any quiet count (notes/assumptions/17.md). -/
def Obligations.CallsKept : Prop :=
  (∀ (c : Instr) (s t : State) (i : SlotNo) (a b : Call), exec c s = .next t →
     s.call i = some a → t.call i = some b →
     b.tag = a.tag ∧ b.origin = a.origin ∧ b.cls = a.cls ∧ b.label = a.label) ∧
  (∀ (c : Instr) (s t : State) (i : SlotNo), exec c s = .next t →
     s.call i = none → t.call i ≠ none →
     ∃ tag g k, c = .arrive 6 tag g k ∧ s.service = .service ∧ s.lowestFree = some i) ∧
  (∀ (c : Instr) (s t : State) (i : SlotNo) (a : Call), exec c s = .next t →
     s.call i = some a → t.call i = none →
     (∃ tag, c = .gone 4 tag ∧ s.tagIndex.lookup tag = some i ∧ (s.RegisterLaw → a.tag = tag)) ∨
     (∃ r v, c = .pathAck 3 r.number v ∧ a.outstanding = some r ∧ a.state = .departing ∧
       (v = 0 ∧ r.target.terminal = true ∨ v = 1 ∧ r.target = .drop)) ∨
     (∃ n, c = .legState 3 n 2 ∧ a.state = .ringing ∧ a.ringWatch = some n) ∨
     c = .stopForced 1 ∨ c = .stopOrderly 1 1 ∨ c = .restart 0 ∨ (∃ r, c = .powerOnReset r) ∨
     c = .resetAsserted ∨
     (c = .linkLost .switch ∧ s.service = .service ∧ (s.link .switch).up = true) ∨
     ((c = .tickPulse ∨ c = .countedTick) ∧ s.service = .service ∧ s.fallsSilent .switch = true))

/-- The refusals of an ARRIVE, by the first step that holds (R28 to R31, R35, R36): ARRIVALS and REJECTED
are raised, the REJECT is placed and after it the EXCEPTION of the step with its detail values, and
nothing of the arrival is kept. With less than 17 free entries the EXCEPTION is dropped and counted, and
with a full list the REJECT too (R169, R170). The mapping of an arrival
(R26): the group, the circuit below 2^b, and the origin entry base + circuit must all hold; the class is
the override when present and the group's default otherwise. -/
def Obligations.ArrivalsRejected : Prop :=
  (∀ (s : State) (tag : Tag) (group circuit : Byte), s.Runs → s.NewsClear →
     let h := (bump .rejected (bump .arrivals (s.hearing .switch))).ended
     let refused := fun (why : RejectReason) (d : SwitchNotice) =>
       (s.txList.length ≤ 47 →
         exec (.arrive 6 tag group circuit) s =
           .next { h with txList := s.txList ++ [.reject tag why, d] }) ∧
       (47 < s.txList.length → s.txList.length < 64 →
         exec (.arrive 6 tag group circuit) s =
           .next (bump .droppedNotices { h with txList := s.txList ++ [.reject tag why] })) ∧
       (64 ≤ s.txList.length →
         exec (.arrive 6 tag group circuit) s = .next (bump .droppedNotices (bump .discardedOrders h)))
     (s.service = .standby → s.txList.length < 64 →
       exec (.arrive 6 tag group circuit) s =
         .next { h with txList := s.txList ++ [.reject tag .notInService] }) ∧
     (s.service = .standby → 64 ≤ s.txList.length →
       exec (.arrive 6 tag group circuit) s = .next (bump .discardedOrders h)) ∧
     (s.service = .service →
       (∀ j k, s.tagIndex.lookup tag = some j → s.call j = some k →
         refused .duplicateTag
           (.exception .duplicateTag tag (BitVec.ofNat 32 j.val) (BitVec.ofNat 32 k.origin.val))) ∧
       (s.tagIndex.lookup tag = none → mapOrigin s group circuit = none →
         refused .unknownOrigin
           (.exception .unknownOrigin (group.setWidth 32) (circuit.setWidth 32) tag)) ∧
       (∀ e o j, s.tagIndex.lookup tag = none → mapOrigin s group circuit = some (e, o) →
         (s.origin o).current = some j →
         refused .circuitBusy
           (.exception .circuitBusy tag (BitVec.ofNat 32 o.val) (BitVec.ofNat 32 j.val))))) ∧
  (∀ (s : State) (group circuit : Byte) (e : Group) (o : OriginNo),
     (mapOrigin s group circuit = some (e, o) ↔
       ∃ g : GroupNo, g.val = group.toNat ∧ s.group g = e ∧ e.valid = true ∧
         circuit.toNat < 2 ^ e.bits ∧ o.val = e.base + circuit.toNat ∧ (s.origin o).valid = true) ∧
     (∀ k, (s.origin o).override = some k → classOf e (s.origin o) = k) ∧
     ((s.origin o).override = none → classOf e (s.origin o) = e.cls))

/-- The diversions of an ARRIVE and the refusal FULL (R32, R33): with the night flag ON a group with a
night destination is diverted there; an arrival that finds no room overflows to the effective plan's
overflow destination, or is refused without one. With a full list the DIVERT or REJECT is dropped and the
ARRIVE counted under DISCARDED_ORDERS (R170). -/
def Obligations.ArrivalsDiverted : Prop :=
  ∀ (s : State) (tag : Tag) (group circuit : Byte) (e : Group) (o : OriginNo), s.Runs → s.NewsClear →
    s.service = .service → s.tagIndex.lookup tag = none →
    mapOrigin s group circuit = some (e, o) → (s.origin o).current = none →
    let h := (bump .arrivals (s.hearing .switch)).ended
    let full := s.eff.queueLimit ≤ s.depth ∨ s.freeSlots = 0
    let answered := fun (u : State) (n : SwitchNotice) =>
      exec (.arrive 6 tag group circuit) s =
        .next (if s.txList.length < 64 then { u with txList := s.txList ++ [n] }
          else bump .discardedOrders u)
    (s.nightFlag = true → e.night ≠ 0 →
      answered (bump .divertedNight h) (.divert tag e.night .night)) ∧
    ((s.nightFlag = false ∨ e.night = 0) → full → s.eff.overflow ≠ 0 →
      answered (bump .divertedOverflow h) (.divert tag s.eff.overflow .overflow)) ∧
    ((s.nightFlag = false ∨ e.night = 0) → full → s.eff.overflow = 0 →
      answered (bump .rejected h) (.reject tag .full))

/-- An admitted ARRIVE (R10, R34): the lowest-numbered FREE slot of the range takes the call, the tag index
and the origin name it, the free-slot count falls by 1, ARRIVALS and ADMITTED are raised, the score is
the plan's in force at age 0, and distribution follows. The new record wants NONE, with NONE confirmed and
no outstanding request; it stays in the queue and is not routed away. Everything else is left alone. -/
def Obligations.ArrivalsAdmitted : Prop :=
  ∀ (s : State) (tag : Tag) (group circuit : Byte) (e : Group) (o : OriginNo) (i : SlotNo), s.Runs →
    s.service = .service → s.tagIndex.lookup tag = none →
    mapOrigin s group circuit = some (e, o) → (s.origin o).current = none →
    (s.nightFlag = false ∨ e.night = 0) → s.depth < s.eff.queueLimit → s.freeSlots ≠ 0 →
    s.inRange i = true → s.call i = none → (∀ j < i, s.inRange j = true → s.call j ≠ none) →
    let k := classOf e (s.origin o)
    ∃ t, exec (.arrive 6 tag group circuit) s = .next t ∧ TakenFromSwitch s t ∧ GroupKept s t ∧
      t.tagIndex = s.tagIndex ++ [(tag, i)] ∧
      (∀ o', t.origin o' = if o' = o then { s.origin o with current := some i } else s.origin o') ∧
      t.freeSlots = s.freeSlots - 1 ∧ t.counters = (bump .admitted (bump .arrivals s)).counters ∧
      t.orbits = s.orbits ∧ t.camps = s.camps ∧ (∀ p, PositionKept (s.pos p) (t.pos p)) ∧
      RoutesJoin t s.txList ∧ (∀ j, j ≠ i → SlotSettled s t j) ∧
      let record : Call :=
        { state := .waiting, tag := tag, origin := o, cls := k, label := (s.origin o).label, age := 0,
          score := min 4095 (8 * s.eff.weights[k]), reason := none, preferred := none, offer := none,
          offerAge := 0, home := none, reminded := false, orbit := none, extension := none,
          campOrder := none, confirmed := .none, wanted := .none, outstanding := none,
          ringWatch := none, retryWait := false }
      ∃ d, t.call i = some d ∧ Redistributed t.nightFlag s.nightDestination record d ∧ d.preferred = none ∧
        d.home = none ∧ (s.nightFlag = false ∨ s.CapacityLaw → d.state ≠ .departing) ∧
        (d.state ≠ .departing → i ∈ t.queue ∧ d.wanted = .none ∧ d.outstanding = none)

/-- A GONE for a tag that no call has is counted under STALE_REPLIES and has no other effect (R15). A GONE
for a call (R13, R15 to R18): its slot is freed, its tag and its origin link go, its place in whichever
collection held it empties, a consult on its loop is closed with LEG_DROP, and it counts as abandoned from
the queue alone. The camp orders behind it fall by 1, and a camp list it empties goes with an UNWATCH; a
frame that finds no entry is dropped and counted (R18, R136, R137, R170). Every other call and position is
left to the distribution that follows. -/
def Obligations.Gone : Prop :=
  (∀ (s : State) (tag : Tag), s.Runs → s.NewsClear → s.tagIndex.lookup tag = none →
     exec (.gone 4 tag) s = .next (bump .staleReplies (s.hearing .switch)).ended) ∧
  (∀ (s : State) (tag : Tag) (i : SlotNo) (c : Call), s.Runs → s.PlacesLaw → s.QueueLaw → s.CampLaw →
     s.tagIndex.lookup tag = some i → s.call i = some c → c.tag = tag →
     ∃ t, exec (.gone 4 tag) s = .next t ∧ TakenFromSwitch s t ∧ GroupKept s t ∧
       t.call i = none ∧
       OthersLeft s t i c ∧ CampLeft s t i c ∧
       t.tagIndex = s.tagIndex.filter (fun e => e.1 != tag) ∧ t.freeSlots = s.freeSlots + 1 ∧
       (∀ o, t.origin o =
         if o = c.origin then { s.origin o with current := none } else s.origin o) ∧
       i ∉ t.queue ∧ (∀ p, (t.pos p).offer ≠ some i) ∧
       (∀ p l, (t.pos p).loop l =
         if c.state.seated = true ∧ c.isHomeAt p l = true then Loop.empty else (s.pos p).loop l) ∧
       (∀ p, (t.pos p).consult =
         if c.state.seated = true ∧ c.home.map (·.pos) = some p ∧ s.consulting c = true then none
         else (s.pos p).consult) ∧
       (let frames := fun (n : Option SwitchNotice) =>
          RoutesJoin t (s.placing n).txList ∧
          t.count .droppedNotices = (s.placing n).count .droppedNotices
        (∀ p r, c.state.seated = true → c.home.map (·.pos) = some p → s.consulting c = true →
          (s.pos p).consult = some r → frames (r.leg.map .legDrop)) ∧
        (∀ x, c.state = .camped → c.extension = some x → (⟨x, [i]⟩ : CampEntry) ∈ s.camps →
          frames (some (.unwatch x))) ∧
        (∀ x list, c.state = .camped → c.extension = some x → (⟨x, list⟩ : CampEntry) ∈ s.camps →
          list ≠ [i] → frames none) ∧
        (c.state ≠ .camped → (c.state.seated = false ∨ s.consulting c = false) → frames none)) ∧
       (∀ p, (t.pos p).state = (s.pos p).state ∧ (t.pos p).missCount = (s.pos p).missCount) ∧
       (∀ o, t.orbitSlot o = if c.state = .parked ∧ c.orbit = some o then none else s.orbitSlot o) ∧
       (∀ o, t.orbitSlot o ≠ some i) ∧ (∀ e ∈ t.camps, i ∉ e.list) ∧
       t.count .abandoned =
         (if c.state.queued = true then min counterMax (s.count .abandoned + 1)
          else s.count .abandoned) ∧
       (∀ k, k ≠ .abandoned → k ≠ .droppedNotices → t.count k = s.count k))

/-! ## Configuration in STANDBY (R23, R24, R161, R162, R175, R179) -/

/-- In SERVICE every configuration order is refused with NOT_IN_STANDBY and nothing changes (R175).
GROUP_SET in STANDBY (R23): a valid entry whose range is open is written whole, an entry made invalid
takes its power-on values, and any check that fails leaves the entry as it was, with BAD_RANGE.
ORIGIN_SET in STANDBY (R24): the entry takes the flag, the override and the label, or with valid no
their cleared values; the current slot is not written. The statement rests on the model's reading in
notes/assumptions/11.md and notes/assumptions/23.md. -/
def Obligations.Configuration : Prop :=
  (∀ (s : State) (a b c d e : Byte) (x y : Half), s.Runs → s.NewsClear → s.service = .service →
     let refused := fun kind => (((s.hearing .switch).toldSwitch kind .notInStandby).ended)
     exec (.groupSet 8 a b c x d y) s = .next (refused Kind.groupSet) ∧
     exec (.originSet 6 x a b y) s = .next (refused Kind.originSet) ∧
     exec (.positionSetLeadEligible 2 a b) s = .next (refused Kind.positionSet) ∧
     exec (.positionSetReportInterval 2 a) s = .next (refused Kind.positionSet) ∧
     exec (.timingSet 5 a b c d e) s = .next (refused Kind.timingSet) ∧
     exec (.rangeSet 4 x y) s = .next (refused Kind.rangeSet)) ∧
  (∀ (s : State) (group valid bits : Byte) (base : Half) (cls : Byte) (night : Half), s.Runs →
     s.NewsClear → s.service = .standby →
     let isOpen := fun g : GroupNo =>
       bits.toNat ≤ 7 ∧ base.toNat + 2 ^ bits.toNat ≤ 1024 ∧
       ∀ k, k ≠ g → (s.group k).valid = true →
         base.toNat + 2 ^ bits.toNat ≤ (s.group k).base ∨
         (s.group k).base + 2 ^ (s.group k).bits ≤ base.toNat
     let answered := fun (u : State) (code : ResultCode) =>
       exec (.groupSet 8 group valid bits base cls night) s =
         .next ((u.hearing .switch).toldSwitch Kind.groupSet code).ended
     (∀ (g : GroupNo) (k : ClassNo), g.val = group.toNat → valid = 1 → k.val = cls.toNat → isOpen g →
       answered
         { s with groups := (vset s.groups g
           { valid := true, bits := bits.toNat, base := base.toNat, cls := k, night := night }) }
         .accepted) ∧
     (∀ g : GroupNo, g.val = group.toNat → valid = 0 →
       answered { s with groups := vset s.groups g Group.cleared } .accepted) ∧
     ((64 ≤ group.toNat ∨ 1 < valid.toNat ∨ (valid = 1 ∧ 8 ≤ cls.toNat) ∨
       ∃ g : GroupNo, g.val = group.toNat ∧ valid = 1 ∧ ¬ isOpen g) → answered s .badRange)) ∧
  (∀ (s : State) (index : Half) (valid override : Byte) (label : Half), s.Runs → s.NewsClear →
     s.service = .standby →
     let answered := fun (u : State) (code : ResultCode) =>
       exec (.originSet 6 index valid override label) s =
         .next ((u.hearing .switch).toldSwitch Kind.originSet code).ended
     (∀ (o : OriginNo) (k : Option ClassNo), o.val = index.toNat → valid = 1 →
       (override = 0xFF ∧ k = none ∨ ∃ n, k = some n ∧ n.val = override.toNat) →
       answered
         { s with origins := (vset s.origins o
           { valid := true, override := k, label := label, current := (s.origin o).current }) }
         .accepted) ∧
     (∀ o : OriginNo, o.val = index.toNat → valid = 0 → (override = 0xFF ∨ override.toNat < 8) →
       answered
         { s with origins := (vset s.origins o
           { valid := false, override := none, label := 0, current := (s.origin o).current }) }
         .accepted) ∧
     ((1024 ≤ index.toNat ∨ 1 < valid.toNat ∨ (8 ≤ override.toNat ∧ override ≠ 0xFF)) →
       answered s .badRange))

/-- POSITION_SET in STANDBY (R179): a position's lead-eligible flag is written and the lead recomputed,
or the report interval is written and the pass count set to 0; any other subject, and a flag byte above
1, is BAD_RANGE. TIMING_SET in STANDBY (R162): every field is written, brought into its range where it
lies outside, the pulse count returns to 0, and the answer says whether any field was brought into
range. The statement rests on the model's reading in notes/assumptions/11.md and
notes/assumptions/23.md. -/
def Obligations.PositionAndTimingSets : Prop :=
  (∀ (s : State) (subject value : Byte), s.Runs → s.NewsClear → s.service = .standby →
     (∀ (p : PosNo) (b : Bool), p.val = subject.toNat → value.toNat = b.toNat →
       ∃ t, exec (.positionSetLeadEligible 2 subject value) s = .next t ∧ TakenFromSwitch s t ∧
         RegisterKept s t ∧ AnsweredThen s t Kind.positionSet .accepted ∧
         t.pos p = { s.pos p with leadEligible := b } ∧ (∀ q, q ≠ p → t.pos q = s.pos q) ∧
         t.lead = leadOf t.positions ∧ t.nightFlag = s.nightFlag ∧ t.slots = s.slots ∧
         t.queue = s.queue ∧ t.available = s.available ∧ t.orbits = s.orbits ∧ t.camps = s.camps) ∧
     (subject ≠ 0x80 → (8 ≤ subject.toNat ∨ 1 < value.toNat) →
       exec (.positionSetLeadEligible 2 subject value) s =
         .next ((s.hearing .switch).toldSwitch Kind.positionSet .badRange).ended) ∧
     exec (.positionSetReportInterval 2 value) s =
       .next (({ s with reportInterval := value.toNat, passCount := 0 }.hearing .switch).toldSwitch
         Kind.positionSet .accepted).ended) ∧
  (∀ (s : State) (thin bit edge sw con : Byte), s.Runs → s.NewsClear → s.service = .standby →
     let thin' := if thin = 0 then 1 else if 128 < thin.toNat then 128 else thin.toNat
     let bit' := if 11 < bit.toNat then 11 else bit.toNat
     let edge' : StepEdge := if edge = 1 then .fall else if edge = 2 then .either else .rise
     let limit := fun b : Byte => if b = 16 then 16 else if b = 32 then 32 else 64
     let kept := thin' = thin.toNat ∧ bit' = bit.toNat ∧ edge.toNat ≤ 2 ∧ limit sw = sw.toNat ∧
       limit con = con.toNat
     ∀ code, (kept → code = .accepted) → (¬ kept → code = .clamped) →
       exec (.timingSet 5 thin bit edge sw con) s =
         .next (({ s with
           thinOut := thin', pulseCount := 0, stepBit := bit', stepEdge := edge',
           switchLossLimit := limit sw, consoleLossLimit := limit con }.hearing .switch).toldSwitch
             Kind.timingSet code).ended)

/-- RANGE_SET, whole (R161): the refusals in SERVICE and of a bad range, the new range with its free-slot
count and pointer, and that a service reset, START and STOP keep the range of power-on. -/
def Obligations.RangeSet : Prop :=
  (∀ (s : State) (first last : Half), s.Runs → s.NewsClear →
    let answered := fun (u : State) (code : ResultCode) =>
      exec (.rangeSet 4 first last) s =
        .next ((u.hearing .switch).toldSwitch Kind.rangeSet code).ended
    (s.service = .service → answered s .notInStandby) ∧
    (s.service = .standby → (255 < last.toNat ∨ (last.toNat : Int) - first.toNat + 1 < 32) →
      answered s .badRange) ∧
    (∀ f l : SlotNo, s.service = .standby → f.val = first.toNat → l.val = last.toNat →
      f.val + 32 ≤ l.val + 1 →
      answered { s with
        rangeFirst := f, rangeLast := l, freeSlots := l.val - f.val + 1, pointer := f } .accepted)) ∧
  (∀ (s t : State) (first last : Half), s.StandbyLaw → s.service = .standby →
    exec (.rangeSet 4 first last) s = .next t → ∀ i, t.call i = none) ∧
  (∀ (s t : State) (mode : Byte) (n : Nat),
    (exec (.start n) s = .next t ∨ exec (.stopOrderly n mode) s = .next t ∨
      exec (.stopForced n) s = .next t ∨ exec (.restart n) s = .next t ∨
      exec (.linkLost .switch) s = .next t) →
    t.rangeFirst = s.rangeFirst ∧ t.rangeLast = s.rangeLast) ∧
  State.reset.rangeFirst.val = 0 ∧ State.reset.rangeLast.val = 63

/-! ## Distribution plans and night service (chapter 3) -/

/-- The band of a depth (R41), whole: the table, the pure band at a depth equal to a threshold, the band
under MANUAL, the depth as the number of WAITING and OFFERED calls, and where the band is shown. The
effective plan (R42), whole: in a pure band the plan itself; in a blend the ten blended values, each
between the two plans' values and equal to them where they agree, and every other field the lower plan's.
-/
def Obligations.BandsAndBlends : Prop :=
  ((∀ (t : Thresholds) (d : Nat), t.valid = true →
     (bandOf t d = .a ↔ d ≤ t.t1) ∧ (bandOf t d = .ab ↔ t.t1 < d ∧ d < t.t2) ∧
     (bandOf t d = .b ↔ t.t2 ≤ d ∧ d ≤ t.t3) ∧ (bandOf t d = .bc ↔ t.t3 < d ∧ d < t.t4) ∧
     (bandOf t d = .c ↔ t.t4 ≤ d) ∧
     (t.t2 = t.t1 + 1 → bandOf t d ≠ .ab) ∧ (t.t4 = t.t3 + 1 → bandOf t d ≠ .bc)) ∧
   (∀ (ps : Plans) (d : Nat), bandInForce .load ps d = bandOf ps.thresholds d ∧
     bandInForce (.manual .a) ps d = .a ∧ bandInForce (.manual .b) ps d = .b ∧
     bandInForce (.manual .c) ps d = .c) ∧
   (∀ s : State, s.QueueLaw →
     s.depth = (allSlots.filter
       (fun i => ((s.call i).map (fun c => c.state.queued)).getD false)).length) ∧
   (∀ s : State, s.statusNow.band = s.band ∧
     s.queueNotice = .queue s.depth s.oldestAge s.band s.nightFlag)) ∧
  ((∀ (ps : Plans) (d : Nat), planOfBand ps d .a = ps.a ∧ planOfBand ps d .b = ps.b ∧
     planOfBand ps d .c = ps.c ∧
     planOfBand ps d .ab = blend ps.a ps.b ps.thresholds.t1 ps.thresholds.t2 d ∧
     planOfBand ps d .bc = blend ps.b ps.c ps.thresholds.t3 ps.thresholds.t4 d) ∧
   (∀ (sel : Selection) (ps : Plans) (d : Nat),
     planInForce sel ps d = planOfBand ps d (bandInForce sel ps d)) ∧
   (∀ (l u : Plan) (lo hi d : Nat), lo < d → d < hi →
     (∀ k : ClassNo, (blend l u lo hi d).weights[k] =
       (l.weights[k] * (hi - d) + u.weights[k] * (d - lo)) / (hi - lo)) ∧
     (blend l u lo hi d).gain = (l.gain * (hi - d) + u.gain * (d - lo)) / (hi - lo) ∧
     (blend l u lo hi d).bonus = (l.bonus * (hi - d) + u.bonus * (d - lo)) / (hi - lo) ∧
     blend l u lo hi d = { l with
       weights := (blend l u lo hi d).weights
       gain := (blend l u lo hi d).gain
       bonus := (blend l u lo hi d).bonus } ∧
     (∀ k : ClassNo, min l.weights[k] u.weights[k] ≤ (blend l u lo hi d).weights[k] ∧
       (blend l u lo hi d).weights[k] ≤ max l.weights[k] u.weights[k]) ∧
     min l.gain u.gain ≤ (blend l u lo hi d).gain ∧ (blend l u lo hi d).gain ≤ max l.gain u.gain ∧
     min l.bonus u.bonus ≤ (blend l u lo hi d).bonus ∧
     (blend l u lo hi d).bonus ≤ max l.bonus u.bonus))

/-- The selection (R40), whole: its power-on value, the orders that change it and no others, and the plan
in force: after every command the effective plan and the band are those of the selection, the plans and
the depth, which is the named plan, whole, at every depth under MANUAL and the band's plan under LOAD. -/
def Obligations.SelectionRule : Prop :=
  (State.reset.selection = .manual .a ∧ State.reset.PlanLaw) ∧
  (∀ (c : Instr) (s t : State), exec c s = .next t → t.selection ≠ s.selection →
    (∃ b, c = .planSelect 1 b) ∨ (∃ p q b, c = .select p 2 q b) ∨ (∃ r, c = .powerOnReset r) ∨
      c = .resetAsserted) ∧
  (∀ s t : State, s.PlacesLaw → s.QueueLaw → s.CampLaw → s.PlanLaw → step s = .next t → t.PlanLaw) ∧
  (∀ (ps : Plans) (d : Nat), planInForce (.manual .a) ps d = ps.a ∧
    planInForce (.manual .b) ps d = ps.b ∧ planInForce (.manual .c) ps d = ps.c ∧
    planInForce .load ps d = planOfBand ps d (bandOf ps.thresholds d))

/-- PLAN_HOLD (R48): it opens a closed list, empty, and is refused HELD_ALREADY with the list kept when
one is open; and an open list is closed only by the events that the rule names. Among them are the
model's readings of three: RESET_ASSERTED already leaves the power-on values (notes/assumptions/7.md), a
STOP row with the mode byte 1 is STOP FORCED also where it is written STOP_ORDERLY
(notes/assumptions/11.md), and LINK_LOST is taken at any quiet count (notes/assumptions/17.md). A tick
closes the list only where the switch link falls silent in SERVICE (R174, R178). -/
def Obligations.PlanHold : Prop :=
  ∀ (s : State) (edits : List Edit),
    (s.Runs → s.NewsClear → s.staging = none →
      exec (.planHold 0) s =
        .next (({ s with staging := some [] }.hearing .switch).toldSwitch Kind.planHold .accepted).ended) ∧
    (s.Runs → s.NewsClear → s.staging = some edits →
      exec (.planHold 0) s =
        .next ((s.hearing .switch).toldSwitch Kind.planHold .heldAlready).ended) ∧
    (∀ (c : Instr) (t : State), s.staging = some edits → exec c s = .next t → t.staging = none →
      c = .planRelease 0 ∨ c = .planAbandon 0 ∨
      (c = .stopOrderly 1 0 ∧ (s.service = .standby ∨ s.allFree = true)) ∨
      c = .stopForced 1 ∨ c = .stopOrderly 1 1 ∨ c = .restart 0 ∨
      (c = .linkLost .switch ∧ s.service = .service ∧ (s.link .switch).up = true) ∨
      ((c = .tickPulse ∨ c = .countedTick) ∧ s.service = .service ∧ s.fallsSilent .switch = true) ∨
      (∃ r, c = .powerOnReset r) ∨ c = .resetAsserted)

/-- The targets of PLAN_WRITE by number (R167), the edit range of each field (R38), and what an edit
writes. PLAN_WRITE with the list open, and where it is refused (R47, R49): the first condition that holds
decides, and the value is clamped to its target's range as the edit is taken. PLAN_WRITE in STANDBY with
the list closed (R50): the clamped value is written and the effective plan recomputed; a threshold that
would leave an invalid set is refused and kept. The statement rests on the model's reading in
notes/assumptions/14.md. -/
def Obligations.PlanWrite : Prop :=
  ((∀ (n : Fin 3) (k : ClassNo) (b : Byte),
      let name := #v[PlanName.a, .b, .c][n]
      let g := fun b : Byte => editTargetArg (BitVec.ofNat 8 n.val) b
      g 0 = some (.field name .mode) ∧ g (BitVec.ofNat 8 (1 + k.val)) = some (.field name (.mask k)) ∧
      g (BitVec.ofNat 8 (9 + k.val)) = some (.field name (.weight k)) ∧
      g 17 = some (.field name .gain) ∧ g 18 = some (.field name .bonus) ∧
      g 19 = some (.field name .offerLimit) ∧ g 20 = some (.field name .missLimit) ∧
      g 21 = some (.field name .holdLimit) ∧ g 22 = some (.field name .parkLimit) ∧
      g 23 = some (.field name .ringLimit) ∧ g 24 = some (.field name .campLimit) ∧
      g 25 = some (.field name .waitLimit) ∧ g 26 = some (.field name .queueLimit) ∧
      g 27 = some (.field name .overflow) ∧ (27 < b.toNat → g b = none)) ∧
    (∀ (k : Fin 4) (b c : Byte), editTargetArg 3 (BitVec.ofNat 8 k.val) = some (.threshold k) ∧
      (3 < b.toNat → editTargetArg 3 b = none) ∧ (3 < c.toNat → editTargetArg c b = none))) ∧
  ((∀ (n : PlanName) (f : PlanField),
      (EditTarget.field n f).range = match f with
        | .mode => (0, 1) | .mask _ => (0, 255) | .weight _ => (0, 255) | .gain => (0, 255)
        | .bonus => (0, 255) | .offerLimit => (1, 15) | .missLimit => (0, 15) | .holdLimit => (1, 255)
        | .parkLimit => (1, 255) | .ringLimit => (1, 255) | .campLimit => (1, 255)
        | .waitLimit => (0, 255) | .queueLimit => (1, 256) | .overflow => (0, 65535)) ∧
    (∀ k : Fin 4, (EditTarget.threshold k).range = (0, 256)) ∧
    (∀ (ps : Plans) (n m : PlanName) (f : PlanField) (v : Nat),
      let qs := ps.apply { target := .field n f, value := v }
      qs.thresholds = ps.thresholds ∧ (m ≠ n → qs.get m = ps.get m) ∧
      qs.get n = match f with
        | .mode => { ps.get n with mode := if v = 0 then .single else .common }
        | .mask k => { ps.get n with masks := vset (ps.get n).masks k (BitVec.ofNat 8 v) }
        | .weight k => { ps.get n with weights := vset (ps.get n).weights k v }
        | .gain => { ps.get n with gain := v } | .bonus => { ps.get n with bonus := v }
        | .offerLimit => { ps.get n with offerLimit := v }
        | .missLimit => { ps.get n with missLimit := v }
        | .holdLimit => { ps.get n with holdLimit := v }
        | .parkLimit => { ps.get n with parkLimit := v }
        | .ringLimit => { ps.get n with ringLimit := v }
        | .campLimit => { ps.get n with campLimit := v }
        | .waitLimit => { ps.get n with waitLimit := v }
        | .queueLimit => { ps.get n with queueLimit := v }
        | .overflow => { ps.get n with overflow := BitVec.ofNat 16 v }) ∧
    (∀ (ps : Plans) (k : Fin 4) (v : Nat),
      let t := ps.thresholds
      ps.apply { target := .threshold k, value := v } = { ps with
        thresholds := #v[{ t with t1 := v }, { t with t2 := v }, { t with t3 := v }, { t with t4 := v }][k] })) ∧
  (∀ (s : State) (target field : Byte) (value : Half), s.Runs → s.NewsClear →
     let answered := fun (u : State) (code : ResultCode) =>
       exec (.planWrite 4 target field value) s =
         .next ((u.hearing .switch).toldSwitch Kind.planWrite code).ended
     (editTargetArg target field = none → answered s .badRange) ∧
     (∀ g edits, editTargetArg target field = some g → s.staging = some edits →
       (32 ≤ edits.length → answered s .stageFull) ∧
       (edits.length < 32 →
         let v := max g.range.1 (min g.range.2 value.toNat)
         ∀ code, (v = value.toNat → code = .accepted) → (v ≠ value.toNat → code = .clamped) →
           answered { s with staging := some (edits ++ [{ target := g, value := v }]) } code)) ∧
     (∀ g, editTargetArg target field = some g → s.staging = none → s.service = .service →
       answered s .notHeld)) ∧
  (∀ (s : State) (target field : Byte) (value : Half) (g : EditTarget), s.Runs →
     s.service = .standby → s.staging = none → editTargetArg target field = some g →
     let v := max g.range.1 (min g.range.2 value.toNat)
     let ps := s.plans.apply { target := g, value := v }
     (((∃ n f, g = .field n f) ∨ ps.thresholds.valid = true) →
       ∀ code, (v = value.toNat → code = .accepted) → (v ≠ value.toNat → code = .clamped) →
         ∃ t, exec (.planWrite 4 target field value) s = .next t ∧
           TakenFromSwitch { s with plans := ps } t ∧ AnsweredThen s t Kind.planWrite code ∧
           Replanned { s with plans := ps } t) ∧
     (∀ k, g = .threshold k → ps.thresholds.valid = false → s.NewsClear →
       exec (.planWrite 4 target field value) s =
         .next ((s.hearing .switch).toldSwitch Kind.planWrite .badThresholds).ended))

/-- PLAN_RELEASE and PLAN_ABANDON (R51, R52): the edits are applied as one batch, oldest first, and the
effective plan recomputed once; an invalid set of thresholds discards the whole batch; an abandoned list
is emptied and closed; without an open list both are refused NOT_HELD. The statement rests on the
model's reading in notes/assumptions/14.md. -/
def Obligations.PlanReleaseAndAbandon : Prop :=
  ∀ s : State, s.Runs →
    let answered := fun (c : Instr) (kind : Byte) (u : State) (code : ResultCode) =>
      exec c s = .next ((u.hearing .switch).toldSwitch kind code).ended
    (s.NewsClear → s.staging = none →
      answered (.planRelease 0) Kind.planRelease s .notHeld ∧
      answered (.planAbandon 0) Kind.planAbandon s .notHeld) ∧
    (∀ edits, s.staging = some edits →
      let ps := edits.foldl Plans.apply s.plans
      (ps.thresholds.valid = true →
        ∃ t, exec (.planRelease 0) s = .next t ∧
          TakenFromSwitch { s with plans := ps, staging := none } t ∧
          AnsweredThen s t Kind.planRelease .accepted ∧
          Replanned { s with plans := ps, staging := none } t) ∧
      (s.NewsClear → ps.thresholds.valid = false →
        answered (.planRelease 0) Kind.planRelease { s with staging := none } .badThresholds) ∧
      (s.NewsClear → answered (.planAbandon 0) Kind.planAbandon { s with staging := none } .accepted))

/-- PLAN_SELECT and SELECT (R54): a taken order writes the selection and recomputes the effective plan;
a SELECT from any position but the lead is refused NOT_LEAD, whatever it carries; a value above 3 is
BAD_RANGE. The statement rests on the model's reading in notes/assumptions/14.md. -/
def Obligations.SelectionOrders : Prop :=
  ∀ (s : State) (p : PosNo) (seq b : Byte) (v : Selection), s.Runs →
    let taken := [((0 : Byte), Selection.manual .a), (1, .manual .b), (2, .manual .c), (3, .load)]
    let refused := fun code =>
      exec (.select p 2 seq b) s =
        .next ((s.hearing (.console p)).toldConsole p (.result seq Kind.select code none)).ended
    ((b, v) ∈ taken →
      ∃ t, exec (.planSelect 1 b) s = .next t ∧ TakenFromSwitch { s with selection := v } t ∧
        AnsweredThen s t Kind.planSelect .accepted ∧ Replanned { s with selection := v } t) ∧
    (s.NewsClear → 3 < b.toNat →
      exec (.planSelect 1 b) s =
        .next ((s.hearing .switch).toldSwitch Kind.planSelect .badRange).ended) ∧
    (s.Hears p →
      (s.lead = some p → (b, v) ∈ taken →
        ∃ t, exec (.select p 2 seq b) s = .next t ∧
          TakenFromConsole { s with selection := v } t p (.result seq Kind.select .accepted none) ∧
          Replanned { s with selection := v } t ∧ RoutesJoin t s.txList ∧ t.counters = s.counters) ∧
      (s.NewsClear → s.lead = some p → 3 < b.toNat → refused .badRange) ∧
      (s.NewsClear → s.lead ≠ some p → refused .notLead))

/-- NIGHT from the switch and from the lead's console (R55 to R57, R78): a taken order writes the
setting and re-evaluates the flag. When the flag stays nothing else happens; when it turns ON, every
WAITING call of a group with a night destination departs for it. No OFFERED call is routed: while the
plan's mode and masks stay, it stays OFFERED in the queue with its offer. With the flag OFF no call
leaves the queue. The statement rests on the model's reading in notes/assumptions/14.md. -/
def Obligations.NightOrders : Prop :=
  ∀ (s : State) (p : PosNo) (seq b : Byte) (v : NightSetting), s.Runs →
    let taken := [((0 : Byte), NightSetting.manualOff), (1, .manualOn), (2, .auto)]
    let flag := nightFlagOf v s.positions
    let judged := fun t : State =>
      t.nightFlag = flag ∧ t.lead = s.lead ∧ RegisterKept s t ∧ t.orbits = s.orbits ∧
      t.camps = s.camps ∧ (∀ q, PositionKept (s.pos q) (t.pos q)) ∧
      (∀ i, SlotSettled s t i) ∧
      (flag = s.nightFlag → t.slots = s.slots ∧ t.queue = s.queue ∧ t.available = s.available) ∧
      (flag = false → t.queue = s.queue ∧ ∀ i c, s.call i = some c → c.state.queued = true →
        ∃ d, t.call i = some d ∧ d.state.queued = true) ∧
      (flag = true → s.nightFlag = false → s.QueueLaw → ∀ i c, s.call i = some c →
        c.state = .waiting → s.nightDestination c.origin ≠ 0 →
        ∃ d, t.call i = some d ∧ d.state = .departing ∧ d.wanted = .away (s.nightDestination c.origin)) ∧
      (PlanSteady s t → ∀ i c q, s.call i = some c → c.state = .offered → (s.pos q).offer = some i →
        (s.eff.mode = .single ∨ s.isAvailable q = true) →
        (t.pos q).offer = some i ∧ (i ∈ s.queue → i ∈ t.queue) ∧
          ∃ d, t.call i = some d ∧ d.state = .offered ∧ (s.eff.mode = .single → d = c))
    let refused := fun code =>
      exec (.nightConsole p 2 seq b) s =
        .next ((s.hearing (.console p)).toldConsole p (.result seq Kind.nightConsole code none)).ended
    ((b, v) ∈ taken →
      ∃ t, exec (.night 1 b) s = .next t ∧ TakenFromSwitch { s with nightSetting := v } t ∧
        AnsweredThen s t Kind.night .accepted ∧ judged t) ∧
    (s.NewsClear → 2 < b.toNat →
      exec (.night 1 b) s = .next ((s.hearing .switch).toldSwitch Kind.night .badRange).ended) ∧
    (s.Hears p →
      (s.lead = some p → (b, v) ∈ taken →
        ∃ t, exec (.nightConsole p 2 seq b) s = .next t ∧
          TakenFromConsole { s with nightSetting := v } t p
            (.result seq Kind.nightConsole .accepted none) ∧ judged t ∧ RoutesJoin t s.txList ∧
          t.counters = s.counters) ∧
      (s.NewsClear → s.lead = some p → 2 < b.toNat → refused .badRange) ∧
      (s.NewsClear → s.lead ≠ some p → refused .notLead))

/-! ## The queue (chapter 4) -/

/-- The score (R61, R62): 8 times the weight of the class, the age times the gain in thirty-seconds, and
the bonus where there is a recall reason, at most 4095. For values in their ranges the sum of the three
terms never passes 4327 and the score never 4095; an older call of a class never scores lower, and a
recall adds exactly the bonus where the score does not saturate. Placement (R63): the call stands once,
behind every entry ahead of the first that scores strictly lower, and the other entries keep their
order. The depth counts the queue, and the oldest age is the largest age in it, or 0 when it is empty
(R69). -/
def Obligations.ScoreAndPlacement : Prop :=
  (∀ (e : Plan) (c : Call),
     scoreOf e c = min 4095 (8 * e.weights[c.cls] + c.age * e.gain / 32 +
       (if c.reason = none then 0 else e.bonus)) ∧
     scoreOf e c ≤ 4095 ∧
     (e.weights[c.cls] ≤ 255 → e.gain ≤ 255 → e.bonus ≤ 255 → c.age ≤ 255 →
       8 * e.weights[c.cls] + c.age * e.gain / 32 + e.bonus ≤ 4327) ∧
     (∀ a, c.age ≤ a → scoreOf e c ≤ scoreOf e { c with age := a }) ∧
     scoreOf e { c with age := 0, reason := none } = min 4095 (8 * e.weights[c.cls]) ∧
     (∀ r, scoreOf e { c with reason := some r } =
       min 4095 (8 * e.weights[c.cls] + c.age * e.gain / 32 + e.bonus))) ∧
  (∀ (s : State) (i : SlotNo),
     ∃ ahead behind, (place i s).queue = ahead ++ i :: behind ∧
       s.queue.filter (· != i) = ahead ++ behind ∧ i ∉ ahead ∧ i ∉ behind ∧
       (∀ j ∈ ahead, s.storedScore i ≤ s.storedScore j) ∧
       (∀ j, behind.head? = some j → s.storedScore j < s.storedScore i) ∧
       (s.queue.Pairwise (fun j k => s.storedScore k ≤ s.storedScore j) →
         (place i s).queue.Pairwise (fun j k => s.storedScore k ≤ s.storedScore j)) ∧
       place i s = { s with queue := (place i s).queue }) ∧
  (∀ s : State, s.QueueLaw →
     s.depth = s.queue.length ∧
     (∀ i ∈ s.queue, ∀ c, s.call i = some c → c.age ≤ s.oldestAge) ∧
     (s.queue ≠ [] → ∃ i c, i ∈ s.queue ∧ s.call i = some c ∧ c.age = s.oldestAge) ∧
     (s.queue = [] → s.oldestAge = 0))

/-- Wait-limit routing (R67): a WAITING call at the wait limit departs for the overflow destination and
is counted; where the test does not hold nothing happens. The statement rests on the model's reading in
notes/assumptions/13.md and notes/assumptions/17.md. -/
def Obligations.WaitLimitRouting : Prop :=
  ∀ (s : State) (i : SlotNo) (c : Call), s.Runs → s.call i = some c →
    (c.state = .waiting → s.eff.waitLimit ≠ 0 → s.eff.waitLimit ≤ c.age → s.eff.overflow ≠ 0 →
      ∃ t d, exec (.waitLimitRouting i) s = .next t ∧ OwnEvent s t ∧ RestKept s t i ∧
        t.orbits = s.orbits ∧ t.camps = s.camps ∧ (∀ p, PositionKept (s.pos p) (t.pos p)) ∧
        t.counters = (bump .divertedOverflow s).counters ∧ i ∉ t.queue ∧
        t.call i = some d ∧ Moved c d .departing (.away s.eff.overflow) ∧ d.extension = none ∧
        d.reason = c.reason ∧ d.outstanding = s.requestAfter c (.away s.eff.overflow) ∧
        RoutesJoin t (s.txList ++ s.requestFor c (.away s.eff.overflow))) ∧
    (s.NewsClear → (c.state ≠ .waiting ∨ s.eff.waitLimit = 0 ∨ c.age < s.eff.waitLimit ∨
      s.eff.overflow = 0) → exec (.waitLimitRouting i) s = .next s.ended)

/-! ## Distribution and the offers (chapter 5) -/

/-- The distribution condition stands after every re-establishing (R74, R75, R77 to R81): the available
list holds exactly the available positions; in SINGLE mode no WAITING call has a candidate left, in
COMMON mode no available position is shown nothing while a call suits it; and while the night flag is ON
no WAITING call of a group with a night destination is left. While the plan's mode and masks stay, the
standing offers are left alone and no OFFERED call is routed away. By day no call is routed away. In
SINGLE mode all that goes before the walk comes first; then the first WAITING call from the head of the
queue that has a candidate is offered to its choice, and the walk goes on from there, until no WAITING
call has one (R79). In COMMON mode a showing that begins is of the first listed call in the position's
mask (R81). The walk's choice (R79, R80): a position of the available list in the mask of the call's
class, the preferred position when it is one of them, and the one longest available otherwise. Where the
list and the condition hold before a command, they hold after it: no command leaves a call
undistributed. The turns of the list (R75): a position that stays available keeps its place, and those
that become available join at the tail, several at once in ascending order. So it is after every command
but an ANSWER, which moves its position (R87), a RESTART, which forms the list anew (R91), and a tick,
which may take several actions; among the laws that it rests on is that of the positions and their links
(R107, R108), whose keeping SmallLawsKept states. That the positions of several rounds of one
re-establishing join round by round is notes/assumptions/28.md. -/
def Obligations.Distribution : Prop :=
  (∀ s : State,
     let t := settle s
     (∀ p, p ∈ t.available ↔ t.isAvailable p = true) ∧
     (s.available.Nodup → t.available.Nodup) ∧
     (t.eff.mode = .single → ∀ i ∈ t.queue, ∀ c, t.call i = some c → c.state = .waiting →
       ∀ p ∈ t.available, t.eff.allows c.cls p = false) ∧
     (t.eff.mode = .common → ∀ p ∈ t.available, (t.pos p).offer = none →
       ∀ i ∈ t.queue, ∀ c, t.call i = some c → c.state.queued = true →
         t.eff.allows c.cls p = false) ∧
     (t.eff.mode = .common → ∀ p, (t.pos p).offer ≠ none → p ∈ t.available) ∧
     (t.nightFlag = true → ∀ i ∈ t.queue, ∀ c, t.call i = some c → c.state = .waiting →
       t.nightDestination c.origin = 0) ∧
     (∀ i, SlotSettled s t i) ∧
     (s.selection = .load → t.eff = planInForce .load t.plans t.depth ∧
       t.band = bandInForce .load t.plans t.depth) ∧
     ((∀ p ∈ s.available, s.eff.mode = .common ∨ (s.pos p).offer = none) →
       TurnsKept s.available t.available ∧
       (s.selection ≠ .load ∨ s.nightFlag = false →
         (t.available.filter (fun p => !s.available.contains p)).Pairwise (· < ·))) ∧
     (s.nightFlag = false → t.queue = s.queue ∧ t.txList = s.txList) ∧
     (t.eff.mode = .single → ∃ u : State, u.Ready ∧ t = settle u ∧ Settled s u ∧
       (∀ p, (u.pos p).offer = none ∨ (u.pos p).offer = (s.pos p).offer) ∧
       (∀ i c d, s.call i = some c → c.state = .waiting → u.call i = some d → d.state ≠ .offered) ∧
       ((∀ p ∈ s.available, s.eff.mode = .common ∨ (s.pos p).offer = none) →
         TurnsKept s.available u.available ∧
         (s.selection ≠ .load ∨ s.nightFlag = false →
           (u.available.filter (fun p => !s.available.contains p)).Pairwise (· < ·)))) ∧
     (s.Ready → s.eff.mode = .single →
       (∀ ahead i behind c p, s.queue = ahead ++ i :: behind → s.call i = some c → c.state = .waiting →
         (∀ j ∈ ahead, ∀ e, s.call j = some e → e.state = .waiting → chooseCandidate s e = none) →
         chooseCandidate s c = some p → t = settle (s.afterOffer p i c)) ∧
       ((∀ i ∈ s.queue, ∀ c, s.call i = some c → c.state = .waiting → chooseCandidate s c = none) →
         t = s)) ∧
     (t.eff.mode = .common → ∀ p i, (t.pos p).offer = some i → (s.pos p).offer ≠ some i →
       ∃ ahead behind d, t.queue = ahead ++ i :: behind ∧ t.call i = some d ∧ d.state = .offered ∧
         d.offer = some .all ∧ d.offerAge = 0 ∧ t.eff.allows d.cls p = true ∧
         ∀ j ∈ ahead, ∀ e, t.call j = some e → e.state.queued = true →
           t.eff.allows e.cls p = false)) ∧
  (∀ (s : State) (c : Call),
     (chooseCandidate s c = none ↔ ∀ p ∈ s.available, s.eff.allows c.cls p = false) ∧
     (∀ q, c.preferred = some q → q ∈ s.available → s.eff.allows c.cls q = true →
       chooseCandidate s c = some q) ∧
     (∀ p ahead behind, s.available = ahead ++ p :: behind → s.eff.allows c.cls p = true →
       (∀ q ∈ ahead, s.eff.allows c.cls q = false) →
       (∀ q, c.preferred = some q → q ∉ s.available ∨ s.eff.allows c.cls q = false) →
       chooseCandidate s c = some p)) ∧
  (∀ s t : State, s.PlacesLaw → s.QueueLaw → s.CampLaw → s.StandbyLaw → s.DistributionLaw →
     step s = .next t → t.DistributionLaw) ∧
  (∀ (c : Instr) (s t : State), s.PlacesLaw → s.QueueLaw → s.CampLaw → s.OfferLaw → s.StandbyLaw →
     s.PlanLaw → s.DistributionLaw → s.LinkLaw → s.GroupLaw → keepsTurns c = true →
     exec c s = .next t → TurnsKept s.available t.available)

/-- The tests of ANSWER (R86), whole: the first that fails refuses the order with its code and changes no
state; a slot that is FREE or outside the range is refused TAKEN, and in STANDBY every ANSWER CLOSED. -/
def Obligations.AnswerTests : Prop :=
  ∀ (s : State) (p : PosNo) (seq loop slot : Byte), s.Hears p → s.NewsClear →
    let refused := fun code =>
      exec (.answer p 3 seq loop slot) s = .next (s.answering p seq Kind.answer code)
    ((s.pos p).state ≠ .opened → refused .closed) ∧
    ((s.pos p).state = .opened → 4 ≤ loop.toNat → refused .badLoop) ∧
    (∀ l : LoopNo, (s.pos p).state = .opened → l.val = loop.toNat →
      (((s.pos p).loop l).slot ≠ none → refused .loopBusy) ∧
      (((s.pos p).loop l).slot = none → (s.pos p).consult ≠ none → refused .consulting) ∧
      (((s.pos p).loop l).slot = none → (s.pos p).consult = none →
        (s.pos p).offer ≠ some (slotArg slot) → refused .taken) ∧
      (((s.pos p).loop l).slot = none → (s.pos p).consult = none → s.PlacesLaw → s.RegisterLaw →
        (s.call (slotArg slot) = none ∨ s.inRange (slotArg slot) = false) → refused .taken)) ∧
    (s.StandbyLaw → s.service = .standby → refused .closed)

/-- A taken ANSWER (R87): every offer of the call ends, the call is seated with its recall reason moved
to the loop's mark, the position's miss count is 0, ANSWERED is raised, and distribution follows. A
position that is still available stands at the tail of the available list, behind the others in their
order. The statement rests on the model's reading in notes/assumptions/13.md. -/
def Obligations.AnswerSeats : Prop :=
  ∀ (s : State) (p : PosNo) (seq loop slot : Byte) (l : LoopNo) (c : Call), s.Hears p →
    s.PlacesLaw → (s.pos p).state = .opened → l.val = loop.toNat →
    ((s.pos p).loop l).slot = none → (s.pos p).consult = none →
    (s.pos p).offer = some (slotArg slot) → s.call (slotArg slot) = some c →
    ∃ t, exec (.answer p 3 seq loop slot) s = .next t ∧
      TakenFromConsole s t p (.result seq Kind.answer .accepted none) ∧
      SeatedAt s t p l (slotArg slot) c c.reason ∧
      (∀ d, t.call (slotArg slot) = some d → d.reason = none ∧ d.preferred = none) ∧
      slotArg slot ∉ t.queue ∧ (∀ q, (t.pos q).offer ≠ some (slotArg slot)) ∧
      (t.pos p).missCount = 0 ∧ (∀ q, q ≠ p → (t.pos q).missCount = (s.pos q).missCount) ∧
      t.orbits = s.orbits ∧ t.counters = (bump .answered s).counters ∧
      (s.OfferLaw → s.DistributionLaw →
        TurnsKept (s.available.filter (· != p)) t.available ∧
        (s.selection ≠ .load → ∀ q ∈ t.available, q ≠ p → q ∈ s.available))

/-- PICK (R88): the tests in their order, and the seating of any queued call, offered or not; the miss
count stays and PICKED is raised. In SINGLE mode the position keeps an offer of another call though its last
loop fills (R85); in COMMON mode a position that is no longer available shows nothing (R81). The statement rests on the model's reading in notes/assumptions/13.md.
-/
def Obligations.PickSeats : Prop :=
  ∀ (s : State) (p : PosNo) (seq slot loop : Byte), s.Hears p →
    let refused := fun code =>
      exec (.pick p 3 seq slot loop) s = .next (s.answering p seq Kind.pick code)
    let i := slotArg slot
    (s.NewsClear → 4 ≤ loop.toNat → refused .badLoop) ∧
    (∀ l : LoopNo, l.val = loop.toNat →
      (s.NewsClear → s.inRange i = false → refused .badSlot) ∧
      (s.NewsClear → s.inRange i = true → ((s.pos p).loop l).slot ≠ none → refused .loopBusy) ∧
      (s.NewsClear → s.inRange i = true → ((s.pos p).loop l).slot = none →
        (s.pos p).consult ≠ none → refused .consulting) ∧
      (s.NewsClear → s.inRange i = true → ((s.pos p).loop l).slot = none →
        (s.pos p).consult = none → (∀ c, s.call i = some c → c.state.queued = false) →
        refused .noCall) ∧
      (∀ c, s.PlacesLaw → s.inRange i = true → ((s.pos p).loop l).slot = none →
        (s.pos p).consult = none → s.call i = some c → c.state.queued = true →
        ∃ t, exec (.pick p 3 seq slot loop) s = .next t ∧
          TakenFromConsole s t p (.result seq Kind.pick .accepted none) ∧
          SeatedAt s t p l i c c.reason ∧
          (∀ d, t.call i = some d → d.reason = none ∧ d.preferred = none) ∧
          i ∉ t.queue ∧ (∀ q, (t.pos q).offer ≠ some i) ∧
          (∀ q, (t.pos q).missCount = (s.pos q).missCount) ∧ t.orbits = s.orbits ∧
          t.counters = (bump .picked s).counters))

/-- Offer expiry (R82 to R84) in SINGLE mode: below the offer limit the offer age rises and the offer
stands; at the limit the offer is withdrawn, the miss counted, and a position at the miss limit forced
CLOSED. In COMMON mode, and of a call that is not offered to one position, none is taken. The withdrawal
at one position, in either mode (R84): the position's offer is absent, the call's preference is cleared,
and the call is WAITING unless another position still shows it; the miss count, the counters and the
queue stay. The withdrawals of a recompute: a change of mode ends every offer of the part (R44), and a
change of masks under one mode ends exactly the offers whose position has left the mask (R45). That the
loss of one of several showings clears the preference is notes/assumptions/15.md. The statement rests on
the model's reading in notes/assumptions/17.md. -/
def Obligations.OfferExpiry : Prop :=
  (∀ (s : State) (i : SlotNo) (c : Call) (p : PosNo), s.Runs → s.call i = some c →
       let n := min 15 (c.offerAge + 1)
       let miss := min 15 ((s.pos p).missCount + 1)
       let forced := s.eff.missLimit ≠ 0 ∧ s.eff.missLimit ≤ miss ∧ (s.pos p).state = .opened
       (s.NewsClear → (s.eff.mode = .common ∨ c.state ≠ .offered ∨ ∀ q, c.offer ≠ some (.one q)) →
         exec (.offerExpiry i) s = .next s.ended) ∧
       (s.NewsClear → s.eff.mode = .single → c.state = .offered → c.offer = some (.one p) →
         n < s.eff.offerLimit →
         exec (.offerExpiry i) s =
           .next { s with slots := vset s.slots i (some { c with offerAge := n }) }.ended) ∧
       (s.eff.mode = .single → c.state = .offered → c.offer = some (.one p) → s.eff.offerLimit ≤ n →
         (∀ q, (s.pos q).offer = some i ↔ q = p) →
         ∃ t d, exec (.offerExpiry i) s = .next t ∧ OwnEvent s t ∧ RegisterKept s t ∧
           t.counters = (bump .missedOffers s).counters ∧ t.orbits = s.orbits ∧ t.camps = s.camps ∧
           (t.pos p).missCount = miss ∧ (t.pos p).loops = (s.pos p).loops ∧
           (t.pos p).consult = (s.pos p).consult ∧
           (forced → (t.pos p).state = .closed ∧ (t.pos p).lastReason = .forced ∧
             t.lead = leadOf t.positions ∧ t.nightFlag = nightFlagOf s.nightSetting t.positions ∧
             (t.pos p).offer = none) ∧
           (¬ forced → (t.pos p).state = (s.pos p).state ∧ (t.pos p).lastReason = (s.pos p).lastReason ∧
             GroupKept s t) ∧
           (∀ q, q ≠ p → PositionKept (s.pos q) (t.pos q)) ∧
           t.call i = some d ∧ Redistributed t.nightFlag s.nightDestination c d ∧ d.preferred = none ∧
           d.offerAge = 0 ∧ RoutesJoin t s.txList ∧ (∀ j, j ≠ i → SlotSettled s t j))) ∧
  (∀ (s : State) (p : PosNo) (i : SlotNo) (c : Call), (s.pos p).offer = some i → s.call i = some c →
     c.state = .offered →
     let t := withdrawAt p s
     let shown := ∃ q, q ≠ p ∧ (s.pos q).offer = some i
     t = { s with slots := t.slots, positions := t.positions } ∧
     t.pos p = { s.pos p with offer := none, offerNews := true } ∧ (∀ q, q ≠ p → t.pos q = s.pos q) ∧
     (∀ j, j ≠ i → t.call j = s.call j) ∧
     (shown → t.call i = some { c with preferred := none }) ∧
     (¬ shown → ∃ d, t.call i = some d ∧ d.state = .waiting ∧ d.offer = none ∧ d.offerAge = 0 ∧
       d.preferred = none ∧ d.age = c.age ∧ d.score = c.score ∧ SameCall c d)) ∧
  (∀ s : State, s.PlacesLaw → s.OfferLaw →
     let e := planInForce s.selection s.plans s.depth
     let t := recompute s
     let stays := fun p => (s.pos p).offer.all (fun i => (s.call i).any (fun c => e.allows c.cls p))
     let ended := fun (c d : Call) => d.state = .waiting ∧ d.offer = none ∧ d.offerAge = 0 ∧
       d.preferred = none ∧ d.age = c.age ∧ d.score = c.score ∧ SameCall c d
     t = { s with eff := e, band := t.band, slots := t.slots, positions := t.positions } ∧
     (∀ p, PositionKept (s.pos p) (t.pos p)) ∧
     (∀ i, (∀ c, s.call i = some c → c.state ≠ .offered) → t.call i = s.call i) ∧
     (s.eff.mode ≠ e.mode → (∀ p, (t.pos p).offer = none) ∧
       ∀ i c, s.call i = some c → c.state = .offered → ∃ d, t.call i = some d ∧ ended c d) ∧
     (s.eff.mode = e.mode → s.eff.masks ≠ e.masks →
       (∀ p, (t.pos p).offer = if stays p = true then (s.pos p).offer else none) ∧
       ∀ i c, s.call i = some c → c.state = .offered →
         ((∀ p, (s.pos p).offer = some i → stays p = true) → t.call i = some c) ∧
         ((∃ p, (s.pos p).offer = some i ∧ stays p = true) →
           (∃ p, (s.pos p).offer = some i ∧ stays p = false) →
           t.call i = some { c with preferred := none }) ∧
         ((∀ p, (s.pos p).offer = some i → stays p = false) →
           ∃ d, t.call i = some d ∧ ended c d)) ∧
     (s.eff.mode = e.mode → s.eff.masks = e.masks → t.slots = s.slots ∧ t.positions = s.positions))

/-! ## Positions and loops (chapter 6) -/

/-- OPEN and CLOSE (R94 to R96): OPEN is refused in STANDBY, opens the position and clears its miss count
in SERVICE; CLOSE closes an OPEN position, whose offer is withdrawn without a miss, and leaves a CLOSED
one as it is. The lead, the night flag and distribution follow; the loops keep their calls. -/
def Obligations.OpenAndClose : Prop :=
  ∀ (s : State) (p : PosNo) (seq : Byte), s.Hears p →
    let moved := fun (t : State) (st : PosState) (why : PosReason) (misses : Nat) =>
      RegisterKept s t ∧ (t.pos p).state = st ∧ (t.pos p).lastReason = why ∧
      (t.pos p).missCount = misses ∧ (t.pos p).loops = (s.pos p).loops ∧
      (t.pos p).consult = (s.pos p).consult ∧ (t.pos p).leadEligible = (s.pos p).leadEligible ∧
      (∀ q, q ≠ p → PositionKept (s.pos q) (t.pos q)) ∧ t.lead = leadOf t.positions ∧
      t.nightFlag = nightFlagOf s.nightSetting t.positions ∧ t.orbits = s.orbits ∧
      t.camps = s.camps ∧ t.counters = s.counters ∧ RoutesJoin t s.txList ∧ (∀ i, SlotSettled s t i)
    (s.NewsClear → s.service = .standby →
      exec (.openPosition p 1 seq) s = .next (s.answering p seq Kind.openPosition .notInService)) ∧
    (s.service = .service → (s.pos p).state ≠ .opened →
      ∃ t, exec (.openPosition p 1 seq) s = .next t ∧
        TakenFromConsole s t p (.result seq Kind.openPosition .accepted none) ∧
        moved t .opened .opened 0) ∧
    (s.service = .service → (s.pos p).state = .opened → s.GroupLaw →
      ∃ t, exec (.openPosition p 1 seq) s = .next t ∧
        TakenFromConsole s t p (.result seq Kind.openPosition .accepted none) ∧
        moved t .opened (s.pos p).lastReason 0 ∧ t.slots = s.slots ∧ t.queue = s.queue ∧
        t.available = s.available ∧ t.txList = s.txList) ∧
    ((s.pos p).state = .opened →
      ∃ t, exec (.closePosition p 1 seq) s = .next t ∧
        TakenFromConsole s t p (.result seq Kind.closePosition .accepted none) ∧
        moved t .closed .closed (s.pos p).missCount ∧ (t.pos p).offer = none) ∧
    (s.NewsClear → (s.pos p).state ≠ .opened →
      exec (.closePosition p 1 seq) s = .next (s.answering p seq Kind.closePosition .accepted))

/-- HOLD and RETURN (R98 to R100): the refusals in their order; HOLD holds the TALKING call on its loop;
RETURN brings a HELD call back to TALKING there and holds any other TALKING call of the position, whose
HOLD goes out before its SEAT (R147). No call is routed away. The statement rests on the model's reading
in notes/assumptions/13.md. -/
def Obligations.HoldAndReturn : Prop :=
  ∀ (s : State) (p : PosNo) (seq loop : Byte), s.Hears p →
    let holdRefused := fun code =>
      exec (.hold p 2 seq loop) s = .next (s.answering p seq Kind.hold code)
    let returnRefused := fun code =>
      exec (.returnCall p 2 seq loop) s = .next (s.answering p seq Kind.returnCall code)
    let still := fun t : State =>
      t.queue = s.queue ∧ t.available = s.available ∧ t.counters = s.counters ∧
      t.orbits = s.orbits ∧ t.camps = s.camps ∧ GroupKept s t ∧ RegisterKept s t ∧
      (∀ q, PositionKept (s.pos q) (t.pos q) ∧ (t.pos q).offer = (s.pos q).offer)
    (s.NewsClear → 4 ≤ loop.toNat → holdRefused .badLoop ∧ returnRefused .badLoop) ∧
    (∀ l : LoopNo, l.val = loop.toNat →
      (s.NewsClear → s.loopCall p l = none → holdRefused .noCall ∧ returnRefused .noCall) ∧
      (∀ i c, s.loopCall p l = some (i, c) →
        (s.NewsClear → c.state ≠ .talking → holdRefused .wrongState) ∧
        (s.NewsClear → c.state = .talking → returnRefused .wrongState) ∧
        (s.NewsClear → c.state ≠ .talking → s.consultOn p l = true → returnRefused .consulting) ∧
        (c.state = .talking →
          ∃ t d, exec (.hold p 2 seq loop) s = .next t ∧
            TakenFromConsole s t p (.result seq Kind.hold .accepted none) ∧ still t ∧
            t.call i = some d ∧ Moved c d .held .hold ∧ d.home = c.home ∧ d.reason = c.reason ∧
            d.outstanding = s.requestAfter c .hold ∧ (∀ j, j ≠ i → t.call j = s.call j) ∧
            t.txList = s.txList ++ s.requestFor c .hold) ∧
        (s.PlacesLaw → c.state ≠ .talking → s.consultOn p l = false →
          ∃ t d, exec (.returnCall p 2 seq loop) s = .next t ∧
            TakenFromConsole s t p (.result seq Kind.returnCall .accepted none) ∧ still t ∧
            t.call i = some d ∧ Moved c d .talking (.seat p l) ∧ d.home = c.home ∧
            d.reason = c.reason ∧ AutoHeld s t p l i ∧ SeatRequests s t p l i c ∧
            (t.txList.drop s.txList.length).all (fun m => !t.routes m) = true)))

/-- RELEASE (R101): the refusals in their order; the call departs for DROP, its loop empties, DROPPED is
raised and distribution follows. The statement rests on the model's reading in notes/assumptions/13.md.
-/
def Obligations.Release : Prop :=
  ∀ (s : State) (p : PosNo) (seq loop : Byte), s.Hears p →
    let refused := fun code =>
      exec (.release p 2 seq loop) s = .next (s.answering p seq Kind.release code)
    (s.NewsClear → 4 ≤ loop.toNat → refused .badLoop) ∧
    (∀ l : LoopNo, l.val = loop.toNat →
      (s.NewsClear → s.loopCall p l = none → refused .noCall) ∧
      (∀ i c, s.loopCall p l = some (i, c) →
        (s.NewsClear → s.consultOn p l = true → refused .consulting) ∧
        (s.consultOn p l = false → c.state.seated = true → c.isHomeAt p l = true →
          ∃ t d, exec (.release p 2 seq loop) s = .next t ∧
            TakenFromConsole s t p (.result seq Kind.release .accepted none) ∧ RestKept s t i ∧
            t.call i = some d ∧ Moved c d .departing .drop ∧ d.extension = none ∧
            d.reason = c.reason ∧ d.outstanding = s.requestAfter c .drop ∧
            (∀ q k, (t.pos q).loop k = if q = p ∧ k = l then Loop.empty else (s.pos q).loop k) ∧
            (∀ q, (t.pos q).consult = (s.pos q).consult ∧
              (t.pos q).missCount = (s.pos q).missCount) ∧
            t.orbits = s.orbits ∧ t.camps = s.camps ∧ t.counters = (bump .dropped s).counters ∧
            RoutesJoin t (s.txList ++ s.requestFor c .drop))))

/-- The hold check (R103) by its two rows: a HELD call at the hold limit, not consulting, is first
reminded with its age at 0 and nothing else changed, and once reminded is recalled with reason HOLD from
its loop, its PATH_REQ HOLD following where one issues (R119, R147); below the limit, or while consulting,
neither stage does anything. The statement rests on the model's reading in notes/assumptions/13.md and
notes/assumptions/17.md. -/
def Obligations.HoldCheck : Prop :=
  ∀ (s : State) (i : SlotNo) (c : Call), s.Runs → s.call i = some c →
    let due := c.state = .held ∧ s.consulting c = false ∧ s.eff.holdLimit ≤ c.age
    (s.NewsClear → (¬ due ∨ c.reminded = true) → exec (.holdReminder i) s = .next s.ended) ∧
    (s.NewsClear → (¬ due ∨ c.reminded = false) → exec (.holdRecall i) s = .next s.ended) ∧
    (s.NewsClear → due → c.reminded = false →
      ∃ t, exec (.holdReminder i) s = .next t ∧ OwnEvent s t ∧
        t = { s with
          slots := vset s.slots i (some { c with reminded := true, age := 0 })
          consoles := t.consoles
          draws := s.draws + 1 }) ∧
    (due → c.reminded = true →
      ∃ t, exec (.holdRecall i) s = .next t ∧ OwnEvent s t ∧ RecalledNow s t i c .hold none ∧
        t.orbits = s.orbits ∧ t.camps = s.camps ∧
        ∀ q k, (t.pos q).loop k =
          if c.isHomeAt q k = true then Loop.empty else (s.pos q).loop k)

/-! ## Park orbits and recall (chapter 7) -/

/-- PARK (R113, R114): the refusals in their order; the call goes to the orbit named, or with ANY to the
lowest-numbered empty one, which the RESULT names; its loop empties. RETRIEVE (R115): the refusals in
their order; the parked call is seated on the empty loop named, its orbit empties, its recall reason and
preference stay, and no counter is raised. The position's offer stands in SINGLE mode (R85). The
statement rests on the model's reading in notes/assumptions/13.md. -/
def Obligations.ParkAndRetrieve : Prop :=
  (∀ (s : State) (p : PosNo) (seq loop orbit : Byte), s.Hears p →
     let refused := fun code =>
       exec (.park p 3 seq loop orbit) s = .next (s.answering p seq Kind.park code)
     (s.NewsClear → 4 ≤ loop.toNat → refused .badLoop) ∧
     (∀ l : LoopNo, l.val = loop.toNat →
       (s.NewsClear → s.loopCall p l = none → refused .noCall) ∧
       (∀ i c, s.loopCall p l = some (i, c) →
         (s.NewsClear → s.consultOn p l = true → refused .consulting) ∧
         (s.NewsClear → s.consultOn p l = false → orbit = 0xFF → (∀ o, s.orbitSlot o ≠ none) →
           refused .parkFull) ∧
         (s.NewsClear → s.consultOn p l = false → orbit ≠ 0xFF → 16 ≤ orbit.toNat →
           refused .badOrbit) ∧
         (∀ o : OrbitNo, s.NewsClear → s.consultOn p l = false → o.val = orbit.toNat →
           s.orbitSlot o ≠ none → refused .occupied) ∧
         (∀ o : OrbitNo, s.consultOn p l = false → c.state.seated = true → c.isHomeAt p l = true →
           s.orbitSlot o = none →
           (o.val = orbit.toNat ∨ orbit = 0xFF ∧ ∀ o' < o, s.orbitSlot o' ≠ none) →
           ∃ t d, exec (.park p 3 seq loop orbit) s = .next t ∧
             TakenFromConsole s t p (.result seq Kind.park .accepted (some o)) ∧ RestKept s t i ∧
             t.call i = some d ∧ Moved c d .parked .hold ∧ d.orbit = some o ∧ d.extension = none ∧
             d.reason = c.reason ∧ d.outstanding = s.requestAfter c .hold ∧
             (∀ o', t.orbitSlot o' = if o' = o then some i else s.orbitSlot o') ∧
             (∀ q k, (t.pos q).loop k = if q = p ∧ k = l then Loop.empty else (s.pos q).loop k) ∧
             (∀ q, (t.pos q).consult = (s.pos q).consult ∧
               (t.pos q).missCount = (s.pos q).missCount) ∧
             t.camps = s.camps ∧ t.counters = s.counters ∧
             RoutesJoin t (s.txList ++ s.requestFor c .hold))))) ∧
  (∀ (s : State) (p : PosNo) (seq orbit loop : Byte), s.Hears p →
     let refused := fun code =>
       exec (.retrieve p 3 seq orbit loop) s = .next (s.answering p seq Kind.retrieve code)
     (s.NewsClear → 4 ≤ loop.toNat → refused .badLoop) ∧
     (∀ l : LoopNo, l.val = loop.toNat →
       (s.NewsClear → 16 ≤ orbit.toNat → refused .badOrbit) ∧
       (∀ o : OrbitNo, o.val = orbit.toNat →
         (s.NewsClear → ((s.pos p).loop l).slot ≠ none → refused .loopBusy) ∧
         (s.NewsClear → ((s.pos p).loop l).slot = none → (s.pos p).consult ≠ none →
           refused .consulting) ∧
         (s.NewsClear → ((s.pos p).loop l).slot = none → (s.pos p).consult = none →
           s.orbitSlot o = none → refused .noCall) ∧
         (∀ i c, s.PlacesLaw → ((s.pos p).loop l).slot = none → (s.pos p).consult = none →
           s.orbitSlot o = some i → s.call i = some c →
           ∃ t, exec (.retrieve p 3 seq orbit loop) s = .next t ∧
             TakenFromConsole s t p (.result seq Kind.retrieve .accepted none) ∧
             SeatedAt s t p l i c none ∧
             (∀ d, t.call i = some d → d.reason = c.reason ∧ d.preferred = c.preferred) ∧
             (∀ o', t.orbitSlot o' = if o' = o then none else s.orbitSlot o') ∧
             (∀ q, (t.pos q).missCount = (s.pos q).missCount) ∧ t.counters = s.counters))))

/-- PICKUP (R116): out-of-range operands are not taken and counted; an empty orbit is a stale report;
the call of an occupied orbit departs for DELIVER to the extension reported, and its orbit empties. The
statement rests on the model's reading in notes/assumptions/13.md. -/
def Obligations.Pickup : Prop :=
  ∀ (s : State) (orbit : Byte) (x : Ext), s.Runs →
    (s.NewsClear → (16 ≤ orbit.toNat ∨ 999999 < x.toNat) →
      exec (.pickup 4 orbit x) s = .next (bump .discardedOrders (s.hearing .switch)).ended) ∧
    (∀ o : OrbitNo, o.val = orbit.toNat → x.toNat ≤ 999999 →
      (s.NewsClear → s.orbitSlot o = none →
        exec (.pickup 4 orbit x) s = .next (bump .staleReplies (s.hearing .switch)).ended) ∧
      (∀ i c, s.orbitSlot o = some i → s.call i = some c → c.state = .parked → c.orbit = some o →
        ∃ t d, exec (.pickup 4 orbit x) s = .next t ∧ TakenFromSwitch s t ∧ RegisterKept s t ∧
          GroupKept s t ∧ t.call i = some d ∧ Moved c d .departing (.deliver x none) ∧
          d.extension = some x ∧ d.orbit = none ∧ d.reason = c.reason ∧
          d.outstanding = s.requestAfter c (.deliver x none) ∧
          (∀ j, j ≠ i → t.call j = s.call j) ∧
          (∀ o', t.orbitSlot o' = if o' = o then none else s.orbitSlot o') ∧
          (∀ q, PositionKept (s.pos q) (t.pos q) ∧ (t.pos q).offer = (s.pos q).offer) ∧
          t.queue = s.queue ∧ t.camps = s.camps ∧ t.counters = s.counters ∧
          t.txList = s.txList ++ s.requestFor c (.deliver x none)))

/-- The park, ring and camp checks (R117, R134, R139, R119): a call of the state at its limit is
recalled with the reason and leaves its orbit, its watch or its camp list; below the limit, and of a
call in another state, nothing happens. The camp list keeps its other calls, whose orders behind the
recalled one fall by 1, and an entry that it empties goes with an UNWATCH, placed or dropped and counted
(R136, R137, R170). The PATH_REQ HOLD of the recall follows where one issues (R147). The statement rests
on the model's reading in notes/assumptions/13.md and notes/assumptions/17.md. -/
def Obligations.ExpiryRecalls : Prop :=
  ∀ (s : State) (i : SlotNo) (c : Call), s.Runs → s.call i = some c →
    (s.NewsClear →
      (¬ (c.state = .parked ∧ s.eff.parkLimit ≤ c.age) → exec (.parkExpiry i) s = .next s.ended) ∧
      (¬ (c.state = .ringing ∧ s.eff.ringLimit ≤ c.age) → exec (.ringExpiry i) s = .next s.ended) ∧
      (¬ (c.state = .camped ∧ s.eff.campLimit ≤ c.age) → exec (.campExpiry i) s = .next s.ended)) ∧
    (c.state = .parked → s.eff.parkLimit ≤ c.age →
      ∃ t, exec (.parkExpiry i) s = .next t ∧ OwnEvent s t ∧ RecalledNow s t i c .park none ∧
        t.camps = s.camps ∧ (∀ q, (t.pos q).loops = (s.pos q).loops) ∧
        ∀ o, t.orbitSlot o = if c.orbit = some o then none else s.orbitSlot o) ∧
    (c.state = .ringing → s.eff.ringLimit ≤ c.age →
      ∃ t, exec (.ringExpiry i) s = .next t ∧ OwnEvent s t ∧ RecalledNow s t i c .ring none ∧
        t.camps = s.camps ∧ t.orbits = s.orbits ∧ ∀ q, (t.pos q).loops = (s.pos q).loops) ∧
    (c.state = .camped → s.eff.campLimit ≤ c.age → s.CampLaw →
      ∃ t, exec (.campExpiry i) s = .next t ∧ OwnEvent s t ∧ CampLeft s t i c ∧
        t.orbits = s.orbits ∧ (∀ q, (t.pos q).loops = (s.pos q).loops) ∧
        (∀ e ∈ t.camps, i ∉ e.list) ∧
        (c.extension = none → RecalledNow s t i c .camp none) ∧
        (∀ x list, c.extension = some x → (⟨x, list⟩ : CampEntry) ∈ s.camps →
          RecalledNow s t i c .camp (if list = [i] then some (.unwatch x) else none)))

/-! ## Transfer and camp-on (chapter 8) -/

/-- The caller's tests of CONSULT and SEND in their order (R125, R132), each refusing with its code. A
taken CONSULT (R125, R147): the next request number becomes the leg number of the record, opened in
phase ASKED; LEG_REQ goes out first; and the caller is HELD on its loop, its PATH_REQ HOLD following
where the list has room. In SINGLE mode the position keeps its offer (R85), in COMMON mode it shows
nothing (R81). A taken SEND (R132, R133): the call leaves its loop and rings the extension. The
statement rests on the model's reading in notes/assumptions/13.md. -/
def Obligations.ConsultAndSend : Prop :=
  (∀ (s : State) (p : PosNo) (seq loop : Byte) (x : Ext), s.Hears p → s.NewsClear →
     let refused := fun code =>
       exec (.consult p 5 seq loop x) s = .next (s.answering p seq Kind.consult code) ∧
       exec (.send p 5 seq loop x) s = .next (s.answering p seq Kind.send code)
     (4 ≤ loop.toNat → refused .badLoop) ∧
     (∀ l : LoopNo, l.val = loop.toNat →
       (999999 < x.toNat → refused .badRange) ∧
       (x.toNat ≤ 999999 → s.loopCall p l = none → refused .noCall) ∧
       (∀ i c, x.toNat ≤ 999999 → s.loopCall p l = some (i, c) →
         (c.state ≠ .talking → refused .wrongState) ∧
         (c.state = .talking → (s.pos p).consult ≠ none → refused .consulting) ∧
         (c.state = .talking → (s.pos p).consult = none → 64 ≤ s.txList.length →
           exec (.consult p 5 seq loop x) s = .next (s.answering p seq Kind.consult .congested))))) ∧
  (∀ (s : State) (p : PosNo) (seq loop : Byte) (x : Ext) (l : LoopNo) (i : SlotNo) (c : Call),
     s.Hears p → l.val = loop.toNat → x.toNat ≤ 999999 → s.loopCall p l = some (i, c) →
     c.state = .talking → (s.pos p).consult = none → s.txList.length < 64 →
     ∃ t d, exec (.consult p 5 seq loop x) s = .next t ∧
       TakenFromConsole s t p (.result seq Kind.consult .accepted none) ∧ RestKept s t i ∧
       (∀ q, (t.pos q).consult =
         if q = p then some { loop := l, ext := x, phase := .asked, leg := some s.nextNumber }
         else (s.pos q).consult) ∧
       (s.eff.mode = .single → PlanSteady s t → (t.pos p).offer = (s.pos p).offer) ∧
       (t.eff.mode = .common → (t.pos p).offer = none) ∧
       t.call i = some d ∧ Moved c d .held .hold ∧ d.home = c.home ∧ d.reason = c.reason ∧
       (let u := { s.consultAs p
            (some { loop := l, ext := x, phase := .asked, leg := some s.nextNumber }) with
          reqCounter := s.nextNumber
          txList := s.txList ++ [SwitchNotice.legReq s.nextNumber p x] }
        d.outstanding = u.requestAfter c .hold ∧
          RoutesJoin t (u.txList ++ u.requestFor c .hold)) ∧
       (∀ q, (t.pos q).loops = (s.pos q).loops ∧ (t.pos q).missCount = (s.pos q).missCount) ∧
       t.orbits = s.orbits ∧ t.camps = s.camps ∧ t.counters = s.counters) ∧
  (∀ (s : State) (p : PosNo) (seq loop : Byte) (x : Ext) (l : LoopNo) (i : SlotNo) (c : Call),
     s.Hears p → l.val = loop.toNat → x.toNat ≤ 999999 → s.loopCall p l = some (i, c) →
     c.state = .talking → c.isHomeAt p l = true → (s.pos p).consult = none →
     ∃ t d, exec (.send p 5 seq loop x) s = .next t ∧
       TakenFromConsole s t p (.result seq Kind.send .accepted none) ∧ RestKept s t i ∧
       t.call i = some d ∧ Moved c d .ringing (.ring x) ∧ d.extension = some x ∧
       d.reason = c.reason ∧ d.outstanding = s.requestAfter c (.ring x) ∧
       (∀ q k, (t.pos q).loop k = if q = p ∧ k = l then Loop.empty else (s.pos q).loop k) ∧
       (∀ q, (t.pos q).consult = (s.pos q).consult ∧ (t.pos q).missCount = (s.pos q).missCount) ∧
       t.orbits = s.orbits ∧ t.camps = s.camps ∧ t.counters = s.counters ∧
       RoutesJoin t (s.txList ++ s.requestFor c (.ring x)))

/-- JOIN (R129): BAD_LOOP, NO_CALL without the record on the loop, WRONG_STATE in four phases; ANSWERED
hands the leg to the caller's DELIVER with no LEG_DROP; DIALLED and RINGING drop the leg and ring the
extension for the caller. CANCEL (R130): in any phase the record closes with LEG_DROP, and the caller is
TALKING again on its loop, any other TALKING call of the position being held. The frames and the numbers
that follow (R147): a LEG_DROP, where one is due, is placed first or dropped and counted, and then the
requests of the calls that move. That the issue rule is attempted where the action changes the wanted
connection is notes/assumptions/13.md. -/
def Obligations.JoinAndCancel : Prop :=
  (∀ (s : State) (p : PosNo) (seq loop : Byte), s.Hears p →
     let refused := fun code =>
       exec (.join p 2 seq loop) s = .next (s.answering p seq Kind.join code)
     (s.NewsClear → 4 ≤ loop.toNat → refused .badLoop) ∧
     (∀ l : LoopNo, l.val = loop.toNat →
       (s.NewsClear → (s.consultOn p l = false ∨ s.loopCall p l = none) → refused .noCall) ∧
       (∀ i c r, s.loopCall p l = some (i, c) → (s.pos p).consult = some r → r.loop = l →
         (s.NewsClear → (r.phase = .asked ∨ r.phase = .busy ∨ r.phase = .failed ∨ r.phase = .cleared) →
           refused .wrongState) ∧
         ((r.phase = .answered ∨ r.phase = .dialled ∨ r.phase = .ringing) →
           c.state.seated = true → c.isHomeAt p l = true →
           ∃ t d, exec (.join p 2 seq loop) s = .next t ∧
             TakenFromConsole s t p (.result seq Kind.join .accepted none) ∧ RestKept s t i ∧
             (∀ q, (t.pos q).consult = if q = p then none else (s.pos q).consult) ∧
             t.call i = some d ∧ d.extension = some r.ext ∧ d.reason = c.reason ∧
             (let asks := fun (u : State) (w : Conn) =>
                d.outstanding = u.requestAfter c w ∧ t.counters = u.counters ∧
                  RoutesJoin t (u.txList ++ u.requestFor c w)
              (r.phase = .answered → Moved c d .departing (.deliver r.ext r.leg) ∧
                asks (s.consultAs p none) (.deliver r.ext r.leg)) ∧
              (r.phase ≠ .answered → Moved c d .ringing (.ring r.ext) ∧
                asks ((s.consultAs p none).placing (r.leg.map .legDrop)) (.ring r.ext))) ∧
             (∀ q k, (t.pos q).loop k = if q = p ∧ k = l then Loop.empty else (s.pos q).loop k) ∧
             t.orbits = s.orbits ∧ t.camps = s.camps)))) ∧
  (∀ (s : State) (p : PosNo) (seq loop : Byte), s.Hears p →
     let refused := fun code =>
       exec (.cancel p 2 seq loop) s = .next (s.answering p seq Kind.cancel code)
     (s.NewsClear → 4 ≤ loop.toNat → refused .badLoop) ∧
     (∀ l : LoopNo, l.val = loop.toNat →
       (s.NewsClear → (s.consultOn p l = false ∨ s.loopCall p l = none) → refused .noCall) ∧
       (∀ i c r, s.loopCall p l = some (i, c) → (s.pos p).consult = some r → r.loop = l → s.PlacesLaw →
         ∃ t d, exec (.cancel p 2 seq loop) s = .next t ∧
           TakenFromConsole s t p (.result seq Kind.cancel .accepted none) ∧ RegisterKept s t ∧
           GroupKept s t ∧ (∀ q, (t.pos q).consult = if q = p then none else (s.pos q).consult) ∧
           t.call i = some d ∧ Moved c d .talking (.seat p l) ∧ d.home = c.home ∧
           d.reason = c.reason ∧ AutoHeld s t p l i ∧
           (let u := (s.consultAs p none).placing (r.leg.map .legDrop)
            SeatRequests u t p l i c ∧ t.counters = u.counters) ∧
           (∀ q, (t.pos q).loops = (s.pos q).loops ∧ (t.pos q).state = (s.pos q).state ∧
             (t.pos q).missCount = (s.pos q).missCount) ∧
           t.orbits = s.orbits ∧ t.camps = s.camps)))

/-- CAMP (R131, R136): the refusals in their order; the caller leaves its loop and joins the camp list of
the extension at its tail, a new entry sending WATCH before the LEG_DROP (R147), which is dropped and
counted where the list is full (R170). That the issue rule is attempted where the action changes the
wanted connection is notes/assumptions/13.md. -/
def Obligations.Camp : Prop :=
  ∀ (s : State) (p : PosNo) (seq loop : Byte), s.Hears p →
    let refused := fun code =>
      exec (.camp p 2 seq loop) s = .next (s.answering p seq Kind.camp code)
    (s.NewsClear → 4 ≤ loop.toNat → refused .badLoop) ∧
    (∀ l : LoopNo, l.val = loop.toNat →
      (s.NewsClear → (s.consultOn p l = false ∨ s.loopCall p l = none) → refused .noCall) ∧
      (∀ i c r, s.loopCall p l = some (i, c) → (s.pos p).consult = some r → r.loop = l →
        (s.NewsClear → r.phase ≠ .busy → refused .wrongState) ∧
        (∀ e ∈ s.camps, s.NewsClear → s.CampLaw → r.phase = .busy → e.ext = r.ext →
          3 ≤ e.list.length → refused .campFull) ∧
        (s.NewsClear → r.phase = .busy → (∀ e ∈ s.camps, e.ext ≠ r.ext) →
          (16 ≤ s.camps.length → refused .campFull) ∧
          (s.camps.length < 16 → 64 ≤ s.txList.length → refused .congested)) ∧
        (∀ before, s.CampLaw → s.PlacesLaw → r.phase = .busy →
          ((⟨r.ext, before⟩ : CampEntry) ∈ s.camps ∧ before.length < 3 ∨
            (∀ e ∈ s.camps, e.ext ≠ r.ext) ∧ before = [] ∧ s.camps.length < 16 ∧
              s.txList.length < 64) →
          ∃ t d, exec (.camp p 2 seq loop) s = .next t ∧
            TakenFromConsole s t p (.result seq Kind.camp .accepted none) ∧ RestKept s t i ∧
            (∀ q, (t.pos q).consult = if q = p then none else (s.pos q).consult) ∧
            t.call i = some d ∧ Moved c d .camped .hold ∧ d.extension = some r.ext ∧
            d.campOrder = some (before.length + 1) ∧ d.reason = c.reason ∧
            (⟨r.ext, before ++ [i]⟩ : CampEntry) ∈ t.camps ∧
            (∀ e, e.ext ≠ r.ext → (e ∈ t.camps ↔ e ∈ s.camps)) ∧
            (let watch := if before = [] then [SwitchNotice.watch r.ext] else []
             let u := State.placing { s.consultAs p none with txList := s.txList ++ watch }
               (r.leg.map .legDrop)
             d.outstanding = u.requestAfter c .hold ∧ t.counters = u.counters ∧
               RoutesJoin t (u.txList ++ u.requestFor c .hold)) ∧
            (∀ q k, (t.pos q).loop k = if q = p ∧ k = l then Loop.empty else (s.pos q).loop k) ∧
            t.orbits = s.orbits)))

/-- LEG_STATE (R128, R135): on a live leg it sets the phase after the value from any phase; on the ring
watch of a RINGING call it delivers, recalls or has no effect; any other number is stale, and a value
outside 1 to 5 is not taken. The PATH_REQ HOLD of a recall follows where one issues (R119, R147); that the
issue rule is attempted there is notes/assumptions/13.md. -/
def Obligations.LegReports : Prop :=
  ∀ (s : State) (n : ReqNo) (value : Byte), s.Runs →
    (s.NewsClear → (value = 0 ∨ 5 < value.toNat) →
      exec (.legState 3 n value) s = .next (bump .discardedOrders (s.hearing .switch)).ended) ∧
    (∀ (v : LegReport) (phase : Phase), (value, v, phase) ∈
      [((1 : Byte), LegReport.ringing, Phase.ringing), (2, .answered, .answered), (3, .busy, .busy),
        (4, .unobtainable, .failed), (5, .cleared, .cleared)] →
      (∀ p r, (s.pos p).consult = some r → (∀ q, (s.pos q).leg = some n ↔ q = p) →
        ∃ t, exec (.legState 3 n value) s = .next t ∧ TakenFromSwitch s t ∧
          (s.NewsClear → t = { s.hearing .switch with
            positions := vset s.positions p
              { s.pos p with consult := some { r with phase := phase } }
            consoles := t.consoles
            draws := s.draws + 1 })) ∧
      (s.NewsClear → (∀ q, (s.pos q).leg ≠ some n) →
        (∀ i c, s.call i = some c → c.state = .ringing → c.ringWatch ≠ some n) →
        exec (.legState 3 n value) s = .next (bump .staleReplies (s.hearing .switch)).ended) ∧
      (∀ i c, (∀ q, (s.pos q).leg ≠ some n) → s.call i = some c → c.state = .ringing →
        c.ringWatch = some n →
        (∀ j e, s.call j = some e → e.state = .ringing → e.ringWatch = some n → j = i) →
        (s.NewsClear → (v = .ringing ∨ v = .cleared) →
          exec (.legState 3 n value) s = .next (s.hearing .switch).ended) ∧
        (v = .answered → ∃ t, exec (.legState 3 n value) s = .next t ∧ TakenFromSwitch s t ∧
          GroupKept s t ∧ t.call i = none ∧ t.freeSlots = s.freeSlots + 1 ∧
          t.tagIndex = s.tagIndex.filter (fun e => e.1 != c.tag) ∧
          (∀ o, t.origin o =
            if o = c.origin then { s.origin o with current := none } else s.origin o) ∧
          t.counters = (bump .delivered s).counters ∧ RoutesJoin t s.txList ∧
          (∀ q, PositionKept (s.pos q) (t.pos q)) ∧ t.orbits = s.orbits ∧ t.camps = s.camps ∧
          (∀ j, j ≠ i → SlotSettled s t j)) ∧
        ((v = .busy ∨ v = .unobtainable) →
          ∃ t, exec (.legState 3 n value) s = .next t ∧ TakenFromSwitch s t ∧
            RecalledNow s t i c .ring none ∧ t.camps = s.camps ∧ t.orbits = s.orbits ∧
            ∀ q, (t.pos q).loops = (s.pos q).loops)))

/-- EXT_FREE (R138, R137): an extension above 999999 is not taken; without an entry UNWATCH is placed or
dropped; with one the head of its camp list rings the extension, the calls behind it move up, and an
emptied entry goes with an UNWATCH, placed or dropped and counted; the PATH_REQ RING follows it. That the
issue rule is attempted where the action changes the wanted connection is notes/assumptions/13.md. -/
def Obligations.ExtensionFree : Prop :=
  ∀ (s : State) (x : Ext), s.Runs →
    (s.NewsClear → 999999 < x.toNat →
      exec (.extFree 3 x) s = .next (bump .discardedOrders (s.hearing .switch)).ended) ∧
    (s.NewsClear → x.toNat ≤ 999999 → (∀ e ∈ s.camps, e.ext ≠ x) →
      (s.txList.length < 64 → exec (.extFree 3 x) s =
        .next { s.hearing .switch with txList := s.txList ++ [SwitchNotice.unwatch x] }.ended) ∧
      (64 ≤ s.txList.length → exec (.extFree 3 x) s =
        .next (bump .droppedNotices (s.hearing .switch)).ended)) ∧
    (∀ i behind c, s.CampLaw → x.toNat ≤ 999999 → (⟨x, i :: behind⟩ : CampEntry) ∈ s.camps →
      s.call i = some c →
      ∃ t d, exec (.extFree 3 x) s = .next t ∧ TakenFromSwitch s t ∧ RegisterKept s t ∧
        GroupKept s t ∧ t.call i = some d ∧ Moved c d .ringing (.ring x) ∧
        d.extension = some x ∧ d.campOrder = none ∧ d.reason = c.reason ∧
        (∀ j e, j ≠ i → s.call j = some e →
          t.call j = some { e with
            campOrder := if j ∈ behind then e.campOrder.map (· - 1) else e.campOrder }) ∧
        (behind ≠ [] → (⟨x, behind⟩ : CampEntry) ∈ t.camps) ∧
        (behind = [] → ∀ e ∈ t.camps, e.ext ≠ x) ∧
        (let u := s.placing (if behind = [] then some (.unwatch x) else none)
         d.outstanding = u.requestAfter c (.ring x) ∧ t.counters = u.counters ∧
           t.txList = u.txList ++ u.requestFor c (.ring x)) ∧
        (∀ e, e.ext ≠ x → (e ∈ t.camps ↔ e ∈ s.camps)) ∧
        (∀ q, PositionKept (s.pos q) (t.pos q) ∧ (t.pos q).offer = (s.pos q).offer) ∧
        t.queue = s.queue ∧ t.orbits = s.orbits)

/-! ## Path requests (chapter 9) -/

/-- Request numbers and the issue rule (R145, R146): the number given is not 0 and not live, and every
number passed over on the way up from the counter was 0 or live; a request issues exactly when the five
conditions hold. The law of R145 is kept by every command: no two live numbers are equal, none is 0, and
a slot never has a ring watch beside an outstanding request. Whatever the command, the counter moves
only with the requests that it places, to the number of the last of them; the power-on reset alone sets
it otherwise. -/
def Obligations.NumbersAndIssues : Prop :=
  (∀ (s : State) (i : SlotNo) (c : Call),
       s.nextNumber ≠ 0 ∧ s.nextNumber ∉ s.liveNumbers ∧
       (∃ k : Nat, s.nextNumber = s.reqCounter + BitVec.ofNat 16 (k + 1) ∧
         ∀ j ≤ k, j ≠ 0 → s.reqCounter + BitVec.ofNat 16 j = 0 ∨
           s.reqCounter + BitVec.ofNat 16 j ∈ s.liveNumbers) ∧
       (s.call i = some c →
         (c.outstanding = none → c.wanted ≠ c.confirmed → c.retryWait = false →
           s.txList.length < 64 →
           issue i s = { s with
             reqCounter := s.nextNumber
             txList := s.txList ++ [.pathReq s.nextNumber c.tag c.wanted]
             slots := vset s.slots i
               (some { c with outstanding := some { number := s.nextNumber, target := c.wanted } }) }) ∧
         ((c.outstanding ≠ none ∨ c.wanted = c.confirmed ∨ c.retryWait = true ∨
           64 ≤ s.txList.length) → issue i s = s))) ∧
  (∀ s t : State, s.PlacesLaw → s.QueueLaw → s.CampLaw → s.NumberLaw → step s = .next t → t.NumberLaw) ∧
  (∀ (c : Instr) (s t : State), exec c s = .next t → (∀ r, c ≠ .powerOnReset r) → c ≠ .resetAsserted →
    (c ≠ .switchFrameSent → FramesJoin s t) ∧
    (c = .switchFrameSent → t.reqCounter = s.reqCounter ∧
      (t.txList = s.txList ∨ t.txList = s.txList.drop 1)))

/-- A PATH_ACK DONE (R149, R150): the target is confirmed and the request cleared; a confirmed RING of a
call still RINGING for it starts the ring watch; a terminal target frees the DEPARTING call, counting
DELIVERED for DELIVER alone; otherwise the issue rule is attempted. -/
def Obligations.PathDone : Prop :=
  ∀ (s : State) (n : ReqNo) (i : SlotNo) (c : Call) (target : Conn), s.Runs →
    s.call i = some c → c.outstanding = some { number := n, target := target } →
    (∀ j e, s.call j = some e → e.outstanding.map (·.number) = some n → j = i) →
    let done := { c with
      confirmed := target, outstanding := none,
      ringWatch := if target.isRing = true ∧ c.state = .ringing ∧ c.wanted = target then some n
        else c.ringWatch }
    let ends := c.state = .departing ∧ target.terminal = true
    (¬ ends → ∃ t d, exec (.pathAck 3 n 0) s = .next t ∧ TakenFromSwitch s t ∧ RegisterKept s t ∧
      GroupKept s t ∧ t.call i = some d ∧ { d with outstanding := none } = done ∧
      (∀ j, j ≠ i → t.call j = s.call j) ∧
      (∀ q, PositionKept (s.pos q) (t.pos q) ∧ (t.pos q).offer = (s.pos q).offer) ∧
      t.queue = s.queue ∧ t.orbits = s.orbits ∧ t.camps = s.camps ∧ t.counters = s.counters ∧
      (if c.wanted ≠ target ∧ c.retryWait = false ∧ s.txList.length < 64 then
        let m := { s with slots := vset s.slots i (some done) }.nextNumber
        d.outstanding = some { number := m, target := c.wanted } ∧
          t.txList = s.txList ++ [.pathReq m c.tag c.wanted]
      else d.outstanding = none ∧ t.txList = s.txList)) ∧
    (ends → ∃ t, exec (.pathAck 3 n 0) s = .next t ∧ TakenFromSwitch s t ∧ GroupKept s t ∧
      t.call i = none ∧ t.freeSlots = s.freeSlots + 1 ∧
      t.tagIndex = s.tagIndex.filter (fun e => e.1 != c.tag) ∧
      (∀ o, t.origin o =
        if o = c.origin then { s.origin o with current := none } else s.origin o) ∧
      (∀ j, j ≠ i → SlotSettled s t j) ∧ RoutesJoin t s.txList ∧
      (∀ q, PositionKept (s.pos q) (t.pos q)) ∧ t.orbits = s.orbits ∧ t.camps = s.camps ∧
      t.counters = (if target.isDeliver = true then bump .delivered s else s).counters)

/-- A PATH_ACK FAIL (R151, R152): the request is cleared, PATH_FAILURES raised, the EXCEPTION placed, or,
with less than 16 free entries, dropped and counted (R170); the call waits for its visit, and the
consequence follows from the target and the state. -/
def Obligations.PathFail : Prop :=
  ∀ (s : State) (n : ReqNo) (i : SlotNo) (c : Call) (target : Conn), s.Runs →
    s.call i = some c → c.outstanding = some { number := n, target := target } →
    (∀ j e, s.call j = some e → e.outstanding.map (·.number) = some n → j = i) →
    let failed := { c with outstanding := none, retryWait := true }
    let told := SwitchNotice.exception .pathFailed (n.setWidth 32) c.tag (BitVec.ofNat 32 i.val)
    let sent := if s.txList.length ≤ 48 then s.txList ++ [told] else s.txList
    let counted := fun u : State =>
      if s.txList.length ≤ 48 then bump .pathFailures u else bump .droppedNotices (bump .pathFailures u)
    let recalls := fun (reason : RecallReason) =>
      ∃ t d, exec (.pathAck 3 n 1) s = .next t ∧ TakenFromSwitch s t ∧ GroupKept s t ∧
        RegisterKept s t ∧ RoutesJoin t sent ∧
        t.call i = some d ∧ RecalledInto s t i failed d reason ∧ d.outstanding = none ∧
        (∀ j, j ≠ i → SlotSettled s t j) ∧
        (∀ q k, (t.pos q).loop k =
          if c.state.seated = true ∧ c.isHomeAt q k = true then Loop.empty else (s.pos q).loop k) ∧
        (∀ q, (t.pos q).state = (s.pos q).state ∧ (t.pos q).lastReason = (s.pos q).lastReason ∧
          (t.pos q).missCount = (s.pos q).missCount ∧ (t.pos q).consult = (s.pos q).consult) ∧
        t.orbits = s.orbits ∧ t.camps = s.camps ∧
        t.count .recalls = min counterMax (s.count .recalls + 1) ∧
        (∀ k, k ≠ .recalls → t.count k = (counted s).count k)
    let only := fun (d : Call) => s.NewsClear →
      exec (.pathAck 3 n 1) s = .next { (counted (s.hearing .switch)).ended with
        slots := vset s.slots i (some d)
        txList := sent }
    ((∃ p l, target = .seat p l ∧ c.state = .talking ∧ c.isHomeAt p l = true) →
      recalls .pathFail) ∧
    ((∃ x, target = .ring x ∧ c.state = .ringing ∧ c.wanted = .ring x) → recalls .ring) ∧
    ((∃ x, target = .ring x) → (c.state = .waiting ∨ c.state = .offered) →
      recalls .ring) ∧
    ((∃ x v, target = .deliver x v) → c.state = .departing → recalls .pathFail) ∧
    ((∃ d, target = .away d) → c.state = .departing → only { failed with wanted := .drop }) ∧
    (target = .hold → only failed) ∧
    ((∃ p l, target = .seat p l ∧ (c.state ≠ .talking ∨ c.isHomeAt p l = false)) → only failed) ∧
    ((∃ x, target = .ring x ∧ c.state ≠ .waiting ∧ c.state ≠ .offered ∧
      (c.state ≠ .ringing ∨ c.wanted ≠ .ring x)) → only failed) ∧
    (target = .drop → c.state = .departing →
      ∃ t, exec (.pathAck 3 n 1) s = .next t ∧ TakenFromSwitch s t ∧ GroupKept s t ∧ t.call i = none ∧
        t.freeSlots = s.freeSlots + 1 ∧ t.counters = (counted s).counters ∧ RoutesJoin t sent ∧
        t.tagIndex = s.tagIndex.filter (fun e => e.1 != c.tag) ∧
        (∀ o, t.origin o =
          if o = c.origin then { s.origin o with current := none } else s.origin o) ∧
        (∀ q, PositionKept (s.pos q) (t.pos q)) ∧ t.orbits = s.orbits ∧ t.camps = s.camps ∧
        (∀ j, j ≠ i → SlotSettled s t j))

/-- A PATH_ACK that matches no outstanding request (R127, R148, R153): an outcome byte above 1 is not
taken; a live leg in phase ASKED is DIALLED or FAILED, in any other phase the reply is stale; any other
number is stale and reported. -/
def Obligations.OtherAcknowledgements : Prop :=
  ∀ (s : State) (n : ReqNo) (outcome : Byte), s.Runs → s.NewsClear →
    let h := s.hearing .switch
    (1 < outcome.toNat →
      exec (.pathAck 3 n outcome) s = .next (bump .discardedOrders h).ended) ∧
    (outcome.toNat ≤ 1 → (∀ i c, s.call i = some c → c.outstanding.map (·.number) ≠ some n) →
      ((∀ q, (s.pos q).leg ≠ some n) →
        let notice := SwitchNotice.exception .staleReply (n.setWidth 32) (outcome.setWidth 32) 0
        (s.txList.length ≤ 48 → exec (.pathAck 3 n outcome) s =
          .next { (bump .staleReplies h).ended with txList := s.txList ++ [notice] }) ∧
        (48 < s.txList.length → exec (.pathAck 3 n outcome) s =
          .next (bump .droppedNotices (bump .staleReplies h)).ended)) ∧
      (∀ p r, (s.pos p).consult = some r → (∀ q, (s.pos q).leg = some n ↔ q = p) →
        (r.phase ≠ .asked →
          exec (.pathAck 3 n outcome) s = .next (bump .staleReplies h).ended) ∧
        (r.phase = .asked →
          let told := outcome = 1 ∧ s.txList.length ≤ 48
          let failed := bump .pathFailures h
          ∃ t, exec (.pathAck 3 n outcome) s = .next t ∧ TakenFromSwitch s t ∧
            t = { (if outcome = 0 then h else if told then failed else bump .droppedNotices failed) with
              positions := vset s.positions p
                { s.pos p with
                  consult := some
                    (if outcome = 0 then { r with phase := .dialled }
                     else { r with phase := .failed, leg := none }) }
              txList := s.txList ++ (if told then
                [.exception .pathFailed (n.setWidth 32) (BitVec.ofNat 32 p.val) (r.ext.setWidth 32)]
                else [])
              consoles := t.consoles
              draws := s.draws + 1 })))

/-! ## The sweep (chapter 10) -/

/-- The pointer and the pass (R157, R158): in STANDBY a sweep visit does nothing; in SERVICE the pointer
moves on by one slot, and from the last slot of the range to the first, which ends a pass; the pass
count counts passes up to the report interval and returns to 0 there. The visit that ends the pass which
reaches the interval makes the periodic report itself, after all that the visit does otherwise: both
COUNTERS frames are placed and the counters cleared, or, with fewer than 17 free entries, DROPPED_NOTICES
is raised (R180). A visit of a slot that holds a
call (R159, R66): retry wait is cleared, the issue rule attempted, the age raised in the states that
age, a queued call rescored for its new age, and the check of the state's owner taken at its limit. Of a
queued call, where the laws of distribution hold (R66, R67, R82, R83): a WAITING call at the wait limit
is routed away and counted and any other stays WAITING; an OFFERED call in SINGLE mode has its offer age
raised, and at the offer limit loses its offer with a miss; in COMMON mode it keeps its offer. The
statement rests on the model's reading in notes/assumptions/17.md. -/
def Obligations.Sweep : Prop :=
  (∀ s : State, s.Runs →
     (s.service = .standby → exec .sweepVisit s = .next s) ∧
     (s.service = .service → ∃ t, exec .sweepVisit s = .next t ∧ (∀ l, t.link l = s.link l) ∧
       (s.pointer ≠ s.rangeLast → t.pointer = s.pointer + 1 ∧ t.passCount = s.passCount) ∧
       (s.pointer = s.rangeLast → t.pointer = s.rangeFirst ∧
         t.passCount =
           if s.reportInterval = 0 then s.passCount
           else if s.passCount + 1 = s.reportInterval then 0 else s.passCount + 1) ∧
       (s.call s.pointer = none → s.NewsClear → s.pointer ≠ s.rangeLast →
         t = { s with pointer := s.pointer + 1, draws := s.draws + 1 }))) ∧
  (∀ s : State, s.Runs → s.service = .service → s.pointer = s.rangeLast → s.reportInterval ≠ 0 →
     ∃ u, exec .sweepVisit { s with reportInterval := 0 } = .next u ∧
       let ended := { u with reportInterval := s.reportInterval }
       let frames := [SwitchNotice.counters 1 (u.counters.toList.take 9),
         .counters 2 (u.counters.toList.drop 9)]
       (s.passCount + 1 ≠ s.reportInterval →
         exec .sweepVisit s = .next { ended with passCount := s.passCount + 1 }) ∧
       (s.passCount + 1 = s.reportInterval → u.txList.length ≤ 47 →
         exec .sweepVisit s = .next { ended with
           passCount := 0, txList := u.txList ++ frames, counters := Vector.replicate 18 0 }) ∧
       (s.passCount + 1 = s.reportInterval → 47 < u.txList.length →
         exec .sweepVisit s = .next { bump .droppedNotices ended with passCount := 0 })) ∧
  (∀ (s : State) (c : Call), s.Runs → s.service = .service → s.call s.pointer = some c →
     let i := s.pointer
     let age := min 255 (c.age + 1)
     let ready := { c with retryWait := false }
     let asks := c.outstanding = none ∧ c.wanted ≠ c.confirmed ∧ s.txList.length < 64
     let visited := fun (t : State) (older : Nat) =>
       ∃ d, t.call i = some d ∧ { d with outstanding := c.outstanding } = { ready with age := older } ∧
         d.outstanding =
           (if asks then some { number := s.nextNumber, target := c.wanted } else c.outstanding) ∧
         (∀ j, j ≠ i → t.call j = s.call j) ∧ t.queue = s.queue ∧ t.orbits = s.orbits ∧
         t.camps = s.camps
     let recalled := fun (t : State) (reason : RecallReason) =>
       ∃ d, t.call i = some d ∧ RecalledInto s t i ready d reason
     ∃ t, exec .sweepVisit s = .next t ∧
       ((c.state = .talking ∨ c.state = .departing) → visited t c.age) ∧
       (c.state = .held → s.consulting c = true → visited t c.age) ∧
       (c.state = .held → s.consulting c = false →
         (age < s.eff.holdLimit → visited t age) ∧
         (s.eff.holdLimit ≤ age → c.reminded = true → recalled t .hold) ∧
         (s.eff.holdLimit ≤ age → c.reminded = false →
           ∃ d, t.call i = some d ∧ d.state = .held ∧ d.reminded = true ∧ d.age = 0)) ∧
       (c.state = .parked →
         (age < s.eff.parkLimit → visited t age) ∧ (s.eff.parkLimit ≤ age → recalled t .park)) ∧
       (c.state = .ringing →
         (age < s.eff.ringLimit → visited t age) ∧ (s.eff.ringLimit ≤ age → recalled t .ring)) ∧
       (c.state = .camped →
         (age < s.eff.campLimit → visited t age) ∧ (s.eff.campLimit ≤ age → recalled t .camp)) ∧
       (c.state.queued = true → ∃ d, t.call i = some d ∧ SameCall ready d ∧
         (d.state = .departing ∨
           (d.state = .waiting ∨ d.state = .offered) ∧ d.age = age ∧
           d.score = min 4095 (8 * s.eff.weights[c.cls] + age * s.eff.gain / 32 +
             (if c.reason.isSome then s.eff.bonus else 0))))) ∧
  (∀ (s : State) (c : Call), s.Runs → s.service = .service → s.call s.pointer = some c →
     s.QueueLaw → s.PlacesLaw → s.OfferLaw → s.PlanLaw → s.DistributionLaw →
     let i := s.pointer
     let due := s.eff.waitLimit ≠ 0 ∧ s.eff.waitLimit ≤ min 255 (c.age + 1) ∧ s.eff.overflow ≠ 0
     let n := min 15 (c.offerAge + 1)
     ∃ t, exec .sweepVisit s = .next t ∧
       (c.state = .waiting → due → i ∉ t.queue ∧
         (∃ d, t.call i = some d ∧ d.state = .departing ∧ d.wanted = .away s.eff.overflow) ∧
         (s.pointer ≠ s.rangeLast →
           t.count .divertedOverflow = min counterMax (s.count .divertedOverflow + 1))) ∧
       (c.state = .waiting → ¬ due → i ∈ t.queue ∧ ∃ d, t.call i = some d ∧ d.state = .waiting) ∧
       (c.state = .offered → s.eff.mode = .common →
         ∃ d, t.call i = some d ∧ d.state = .offered ∧ d.offer = some .all ∧ d.offerAge = c.offerAge) ∧
       (∀ p, c.state = .offered → s.eff.mode = .single → c.offer = some (.one p) →
         (n < s.eff.offerLimit → (t.pos p).offer = some i ∧ (t.pos p).missCount = (s.pos p).missCount ∧
           ∃ d, t.call i = some d ∧ d.state = .offered ∧ d.offer = some (.one p) ∧ d.offerAge = n) ∧
         (s.eff.offerLimit ≤ n →
           (t.pos p).missCount = min 15 ((s.pos p).missCount + 1) ∧
           (s.pointer ≠ s.rangeLast →
             t.count .missedOffers = min counterMax (s.count .missedOffers + 1)) ∧
           ∃ d, t.call i = some d ∧ d.preferred = none ∧ d.offerAge = 0)))

/-! ## Service states, counters and status (chapter 12) -/

/-- COUNTERS_READ and the periodic report (R158, R180): a read is answered with both frames when 2
entries are free and clears the counters when asked, answered or not; a report needs 17 free entries and
then clears them, and otherwise raises DROPPED_NOTICES; the pass count returns to 0 either way; in STANDBY
none is made.
STATUS_READ (R181): the thirteen items as they stand and the oldest age (R69), or, with no free entry, a
discarded order. That the notice carries the oldest age, which the thirteen items of R181 leave out of its
payload, is the model's choice in notes/assumptions/27.md. The statement rests also on the model's reading
in notes/assumptions/17.md. -/
def Obligations.Reports : Prop :=
  (∀ (s : State) (clear : Byte), s.Runs → s.NewsClear →
     let h := s.hearing .switch
     let zero := Vector.replicate 18 0
     let frames := [SwitchNotice.counters 1 (s.counters.toList.take 9),
       .counters 2 (s.counters.toList.drop 9)]
     let left := if clear = 1 then { h with counters := zero } else h
     (1 < clear.toNat → exec (.countersRead 1 clear) s =
       .next (h.toldSwitch Kind.countersRead .badRange).ended) ∧
     (clear.toNat ≤ 1 → s.txList.length ≤ 62 →
       exec (.countersRead 1 clear) s = .next { left with txList := s.txList ++ frames }.ended) ∧
     (clear.toNat ≤ 1 → 62 < s.txList.length →
       exec (.countersRead 1 clear) s = .next (bump .discardedOrders left).ended) ∧
     ((s.service = .standby ∨ s.reportInterval = 0) →
       exec .reportIntervalEnd s = .next s.ended) ∧
     (s.service = .service → s.reportInterval ≠ 0 → s.txList.length ≤ 47 →
       exec .reportIntervalEnd s =
         .next { s with txList := s.txList ++ frames, counters := zero, passCount := 0 }.ended) ∧
     (s.service = .service → s.reportInterval ≠ 0 → 47 < s.txList.length →
       exec .reportIntervalEnd s = .next { bump .droppedNotices s with passCount := 0 }.ended)) ∧
  (∀ s : State, s.Runs → s.NewsClear →
     let h := s.hearing .switch
     let status : Status :=
       { service := s.service, nightSetting := s.nightSetting, nightFlag := s.nightFlag,
         selection := s.selection, band := s.band, depth := s.queue.length, oldestAge := s.oldestAge,
         freeSlots := s.freeSlots, lead := s.lead, positions := s.positions.map (·.state), switchUp := true,
         consolesUp := s.consoleLinks.map (·.up), tickCount := s.tickCount, pointer := s.pointer,
         staged := match s.staging with | some edits => edits.length | none => 0 }
     (s.txList.length < 64 → exec (.statusRead 0) s =
       .next { h with txList := s.txList ++ [SwitchNotice.status status] }.ended) ∧
     (64 ≤ s.txList.length → exec (.statusRead 0) s = .next (bump .discardedOrders h).ended))

/-- START and STOP ORDERLY (R176, R177, R96): START makes the part SERVICE with the tick count and the
pass count 0 and the pointer at the first slot, and changes nothing in SERVICE; STOP ORDERLY is refused
while any slot holds a call, and otherwise closes the staging list and every OPEN position; a STOP byte
that is neither is BAD_RANGE. The statement rests on the model's reading in notes/assumptions/11.md and
notes/assumptions/14.md. -/
def Obligations.StartAndStop : Prop :=
  ∀ (s : State) (mode : Byte), s.Runs →
    let told := fun (u : State) kind code => ((u.hearing .switch).toldSwitch kind code).ended
    (s.NewsClear → s.service = .standby → exec (.start 0) s =
      .next (told { s with
        service := .service, tickCount := 0, pointer := s.rangeFirst, passCount := 0 }
        Kind.start .accepted)) ∧
    (s.NewsClear → s.service = .service →
      exec (.start 0) s = .next (told s Kind.start .accepted)) ∧
    (s.NewsClear → 1 < mode.toNat →
      exec (.stopOrderly 1 mode) s = .next (told s Kind.stop .badRange)) ∧
    (s.NewsClear → s.service = .standby →
      exec (.stopOrderly 1 0) s = .next (told { s with staging := none } Kind.stop .accepted)) ∧
    (s.NewsClear → s.service = .service → (∃ i, s.call i ≠ none) →
      exec (.stopOrderly 1 0) s = .next (told s Kind.stop .callsPresent)) ∧
    (s.service = .service → (∀ i, s.call i = none) →
      ∃ t, exec (.stopOrderly 1 0) s = .next t ∧
        TakenFromSwitch { s with service := .standby, staging := none } t ∧ RegisterKept s t ∧
        (∀ i, t.call i = none) ∧
        (∀ p, (t.pos p).state = (if (s.pos p).state = .opened then .closed else (s.pos p).state) ∧
          (t.pos p).lastReason =
            (if (s.pos p).state = .opened then .closed else (s.pos p).lastReason) ∧
          (t.pos p).missCount = (s.pos p).missCount ∧ (t.pos p).loops = (s.pos p).loops) ∧
        t.lead = leadOf t.positions ∧ t.nightFlag = nightFlagOf s.nightSetting t.positions ∧
        t.txList = (s.toldSwitch Kind.stop .accepted).txList ∧
        t.counters = (s.toldSwitch Kind.stop .accepted).counters ∧ t.tickCount = s.tickCount ∧
        t.pointer = s.pointer ∧ t.passCount = s.passCount)

/-- STOP FORCED and RESTART make a service reset (R178, R20, R60): every slot is FREE and every
collection empty, no frame goes out and nothing is counted; the settings, the counters and the list are
kept; and STOP FORCED makes the part STANDBY with its OPEN positions CLOSED, while RESTART keeps both.
The statement rests on the model's reading in notes/assumptions/14.md. -/
def Obligations.ServiceResets : Prop :=
  ∀ s : State, s.Runs →
    let answered := fun (t : State) (kind : Byte) =>
      t.txList = (s.toldSwitch kind .accepted).txList ∧
      t.counters = (s.toldSwitch kind .accepted).counters
    (∃ t, exec (.stopForced 1) s = .next t ∧ ServiceCleared s t ∧ answered t Kind.stop ∧
      TakenOn .switch { s with service := .standby, staging := none } t ∧ OpenClosed s t) ∧
    (∃ t, exec (.restart 0) s = .next t ∧ ServiceCleared s t ∧ answered t Kind.restart ∧
      TakenOn .switch { s with staging := none } t ∧
      ∀ p, (t.pos p).state = (s.pos p).state ∧ (t.pos p).lastReason = (s.pos p).lastReason)
end

