-- ==== Sys2Proof/Laws/State.lean ====
section
/-! SUPPORT. The small lemmas of the state: what each table update reads as, and one lemma per field for
each update, so that no proof unfolds a record update. -/
namespace Sys2Proof.Machine

/-! ## Tables -/

@[simp] theorem vset_get {α : Type} {n : Nat} (v : Vector α n) (i j : Fin n) (a : α) :
    (vset v i a)[j.val] = if i = j then a else v[j.val] := by
  simp only [vset, Vector.getElem_set, Fin.ext_iff]

@[simp] theorem vset_self {α : Type} {n : Nat} (v : Vector α n) (i : Fin n) : vset v i v[i.val] = v := by
  simp [vset]

theorem vset_vset {α : Type} {n : Nat} (v : Vector α n) (i : Fin n) (a b : α) :
    vset (vset v i a) i b = vset v i b := by
  simp [vset]

/-! ## What a lookup reads after an update -/

variable (s : State)

@[simp] theorem setCall_call (i j : SlotNo) (c : Option Call) :
    (s.setCall i c).call j = if i = j then c else s.call j := by
  simp [State.setCall, State.call]

@[simp] theorem modCall_call (i j : SlotNo) (f : Call → Call) :
    (s.modCall i f).call j = if i = j then (s.call j).map f else s.call j := by
  by_cases h : i = j
  · subst h; simp [State.modCall]
  · simp [State.modCall, h]

@[simp] theorem setPos_pos (p q : PosNo) (c : Position) :
    (s.setPos p c).pos q = if p = q then c else s.pos q := by
  simp [State.setPos, State.pos]

@[simp] theorem setLoop_pos (p q : PosNo) (l : LoopNo) (x : Loop) :
    (s.setLoop p l x).pos q =
      if p = q then { s.pos p with loops := vset (s.pos p).loops l x } else s.pos q := by
  simp [State.setLoop]

@[simp] theorem setConsole_console (p q : PosNo) (c : ConsoleSet) :
    (s.setConsole p c).console q = if p = q then c else s.console q := by
  simp [State.setConsole, State.console]

@[simp] theorem setLink_link (l m : Link) (u : LinkUnit) :
    (s.setLink l u).link m = if l = m then u else s.link m := by
  cases l <;> cases m <;> simp [State.setLink, State.link]

@[simp] theorem bump_count (c d : Counter) :
    (bump c s).count d = if c = d then min counterMax (s.count d + 1) else s.count d := by
  by_cases h : c = d
  · subst h; simp [bump, State.count]
  · have hi : c.index ≠ d.index := by
      intro he; apply h; revert he; cases c <;> cases d <;> decide
    simp [bump, State.count, h, hi]

theorem setPos_self (p : PosNo) : s.setPos p (s.pos p) = s := by
  simp [State.setPos, State.pos, vset_self]

theorem setConsole_self (p : PosNo) : s.setConsole p (s.console p) = s := by
  simp [State.setConsole, State.console, vset_self]

theorem setLink_self (l : Link) : s.setLink l (s.link l) = s := by
  cases l <;> simp [State.setLink, State.link, vset_self]

/-! ## Fields after `setCall` -/

@[simp] theorem setCall_service (i : SlotNo) (c : Option Call) : (s.setCall i c).service = s.service := rfl
@[simp] theorem setCall_resetHeld (i : SlotNo) (c : Option Call) : (s.setCall i c).resetHeld = s.resetHeld := rfl
@[simp] theorem setCall_lineRate (i : SlotNo) (c : Option Call) : (s.setCall i c).lineRate = s.lineRate := rfl
@[simp] theorem setCall_switchLink (i : SlotNo) (c : Option Call) : (s.setCall i c).switchLink = s.switchLink := rfl
@[simp] theorem setCall_consoleLinks (i : SlotNo) (c : Option Call) : (s.setCall i c).consoleLinks = s.consoleLinks := rfl
@[simp] theorem setCall_switchLossLimit (i : SlotNo) (c : Option Call) : (s.setCall i c).switchLossLimit = s.switchLossLimit := rfl
@[simp] theorem setCall_consoleLossLimit (i : SlotNo) (c : Option Call) : (s.setCall i c).consoleLossLimit = s.consoleLossLimit := rfl
@[simp] theorem setCall_txList (i : SlotNo) (c : Option Call) : (s.setCall i c).txList = s.txList := rfl
@[simp] theorem setCall_consoles (i : SlotNo) (c : Option Call) : (s.setCall i c).consoles = s.consoles := rfl
@[simp] theorem setCall_groups (i : SlotNo) (c : Option Call) : (s.setCall i c).groups = s.groups := rfl
@[simp] theorem setCall_origins (i : SlotNo) (c : Option Call) : (s.setCall i c).origins = s.origins := rfl
@[simp] theorem setCall_rangeFirst (i : SlotNo) (c : Option Call) : (s.setCall i c).rangeFirst = s.rangeFirst := rfl
@[simp] theorem setCall_rangeLast (i : SlotNo) (c : Option Call) : (s.setCall i c).rangeLast = s.rangeLast := rfl
@[simp] theorem setCall_freeSlots (i : SlotNo) (c : Option Call) : (s.setCall i c).freeSlots = s.freeSlots := rfl
@[simp] theorem setCall_tagIndex (i : SlotNo) (c : Option Call) : (s.setCall i c).tagIndex = s.tagIndex := rfl
@[simp] theorem setCall_queue (i : SlotNo) (c : Option Call) : (s.setCall i c).queue = s.queue := rfl
@[simp] theorem setCall_plans (i : SlotNo) (c : Option Call) : (s.setCall i c).plans = s.plans := rfl
@[simp] theorem setCall_selection (i : SlotNo) (c : Option Call) : (s.setCall i c).selection = s.selection := rfl
@[simp] theorem setCall_eff (i : SlotNo) (c : Option Call) : (s.setCall i c).eff = s.eff := rfl
@[simp] theorem setCall_band (i : SlotNo) (c : Option Call) : (s.setCall i c).band = s.band := rfl
@[simp] theorem setCall_staging (i : SlotNo) (c : Option Call) : (s.setCall i c).staging = s.staging := rfl
@[simp] theorem setCall_nightSetting (i : SlotNo) (c : Option Call) : (s.setCall i c).nightSetting = s.nightSetting := rfl
@[simp] theorem setCall_nightFlag (i : SlotNo) (c : Option Call) : (s.setCall i c).nightFlag = s.nightFlag := rfl
@[simp] theorem setCall_available (i : SlotNo) (c : Option Call) : (s.setCall i c).available = s.available := rfl
@[simp] theorem setCall_positions (i : SlotNo) (c : Option Call) : (s.setCall i c).positions = s.positions := rfl
@[simp] theorem setCall_lead (i : SlotNo) (c : Option Call) : (s.setCall i c).lead = s.lead := rfl
@[simp] theorem setCall_orbits (i : SlotNo) (c : Option Call) : (s.setCall i c).orbits = s.orbits := rfl
@[simp] theorem setCall_camps (i : SlotNo) (c : Option Call) : (s.setCall i c).camps = s.camps := rfl
@[simp] theorem setCall_reqCounter (i : SlotNo) (c : Option Call) : (s.setCall i c).reqCounter = s.reqCounter := rfl
@[simp] theorem setCall_thinOut (i : SlotNo) (c : Option Call) : (s.setCall i c).thinOut = s.thinOut := rfl
@[simp] theorem setCall_pulseCount (i : SlotNo) (c : Option Call) : (s.setCall i c).pulseCount = s.pulseCount := rfl
@[simp] theorem setCall_tickCount (i : SlotNo) (c : Option Call) : (s.setCall i c).tickCount = s.tickCount := rfl
@[simp] theorem setCall_stepBit (i : SlotNo) (c : Option Call) : (s.setCall i c).stepBit = s.stepBit := rfl
@[simp] theorem setCall_stepEdge (i : SlotNo) (c : Option Call) : (s.setCall i c).stepEdge = s.stepEdge := rfl
@[simp] theorem setCall_pointer (i : SlotNo) (c : Option Call) : (s.setCall i c).pointer = s.pointer := rfl
@[simp] theorem setCall_passCount (i : SlotNo) (c : Option Call) : (s.setCall i c).passCount = s.passCount := rfl
@[simp] theorem setCall_counters (i : SlotNo) (c : Option Call) : (s.setCall i c).counters = s.counters := rfl
@[simp] theorem setCall_reportInterval (i : SlotNo) (c : Option Call) : (s.setCall i c).reportInterval = s.reportInterval := rfl
@[simp] theorem setCall_draws (i : SlotNo) (c : Option Call) : (s.setCall i c).draws = s.draws := rfl
@[simp] theorem setCall_pending (i : SlotNo) (c : Option Call) : (s.setCall i c).pending = s.pending := rfl

/-! ## Fields after `modCall` -/

@[simp] theorem modCall_service (i : SlotNo) (f : Call → Call) : (s.modCall i f).service = s.service := rfl
@[simp] theorem modCall_resetHeld (i : SlotNo) (f : Call → Call) : (s.modCall i f).resetHeld = s.resetHeld := rfl
@[simp] theorem modCall_lineRate (i : SlotNo) (f : Call → Call) : (s.modCall i f).lineRate = s.lineRate := rfl
@[simp] theorem modCall_switchLink (i : SlotNo) (f : Call → Call) : (s.modCall i f).switchLink = s.switchLink := rfl
@[simp] theorem modCall_consoleLinks (i : SlotNo) (f : Call → Call) : (s.modCall i f).consoleLinks = s.consoleLinks := rfl
@[simp] theorem modCall_switchLossLimit (i : SlotNo) (f : Call → Call) : (s.modCall i f).switchLossLimit = s.switchLossLimit := rfl
@[simp] theorem modCall_consoleLossLimit (i : SlotNo) (f : Call → Call) : (s.modCall i f).consoleLossLimit = s.consoleLossLimit := rfl
@[simp] theorem modCall_txList (i : SlotNo) (f : Call → Call) : (s.modCall i f).txList = s.txList := rfl
@[simp] theorem modCall_consoles (i : SlotNo) (f : Call → Call) : (s.modCall i f).consoles = s.consoles := rfl
@[simp] theorem modCall_groups (i : SlotNo) (f : Call → Call) : (s.modCall i f).groups = s.groups := rfl
@[simp] theorem modCall_origins (i : SlotNo) (f : Call → Call) : (s.modCall i f).origins = s.origins := rfl
@[simp] theorem modCall_rangeFirst (i : SlotNo) (f : Call → Call) : (s.modCall i f).rangeFirst = s.rangeFirst := rfl
@[simp] theorem modCall_rangeLast (i : SlotNo) (f : Call → Call) : (s.modCall i f).rangeLast = s.rangeLast := rfl
@[simp] theorem modCall_freeSlots (i : SlotNo) (f : Call → Call) : (s.modCall i f).freeSlots = s.freeSlots := rfl
@[simp] theorem modCall_tagIndex (i : SlotNo) (f : Call → Call) : (s.modCall i f).tagIndex = s.tagIndex := rfl
@[simp] theorem modCall_queue (i : SlotNo) (f : Call → Call) : (s.modCall i f).queue = s.queue := rfl
@[simp] theorem modCall_plans (i : SlotNo) (f : Call → Call) : (s.modCall i f).plans = s.plans := rfl
@[simp] theorem modCall_selection (i : SlotNo) (f : Call → Call) : (s.modCall i f).selection = s.selection := rfl
@[simp] theorem modCall_eff (i : SlotNo) (f : Call → Call) : (s.modCall i f).eff = s.eff := rfl
@[simp] theorem modCall_band (i : SlotNo) (f : Call → Call) : (s.modCall i f).band = s.band := rfl
@[simp] theorem modCall_staging (i : SlotNo) (f : Call → Call) : (s.modCall i f).staging = s.staging := rfl
@[simp] theorem modCall_nightSetting (i : SlotNo) (f : Call → Call) : (s.modCall i f).nightSetting = s.nightSetting := rfl
@[simp] theorem modCall_nightFlag (i : SlotNo) (f : Call → Call) : (s.modCall i f).nightFlag = s.nightFlag := rfl
@[simp] theorem modCall_available (i : SlotNo) (f : Call → Call) : (s.modCall i f).available = s.available := rfl
@[simp] theorem modCall_positions (i : SlotNo) (f : Call → Call) : (s.modCall i f).positions = s.positions := rfl
@[simp] theorem modCall_lead (i : SlotNo) (f : Call → Call) : (s.modCall i f).lead = s.lead := rfl
@[simp] theorem modCall_orbits (i : SlotNo) (f : Call → Call) : (s.modCall i f).orbits = s.orbits := rfl
@[simp] theorem modCall_camps (i : SlotNo) (f : Call → Call) : (s.modCall i f).camps = s.camps := rfl
@[simp] theorem modCall_reqCounter (i : SlotNo) (f : Call → Call) : (s.modCall i f).reqCounter = s.reqCounter := rfl
@[simp] theorem modCall_thinOut (i : SlotNo) (f : Call → Call) : (s.modCall i f).thinOut = s.thinOut := rfl
@[simp] theorem modCall_pulseCount (i : SlotNo) (f : Call → Call) : (s.modCall i f).pulseCount = s.pulseCount := rfl
@[simp] theorem modCall_tickCount (i : SlotNo) (f : Call → Call) : (s.modCall i f).tickCount = s.tickCount := rfl
@[simp] theorem modCall_stepBit (i : SlotNo) (f : Call → Call) : (s.modCall i f).stepBit = s.stepBit := rfl
@[simp] theorem modCall_stepEdge (i : SlotNo) (f : Call → Call) : (s.modCall i f).stepEdge = s.stepEdge := rfl
@[simp] theorem modCall_pointer (i : SlotNo) (f : Call → Call) : (s.modCall i f).pointer = s.pointer := rfl
@[simp] theorem modCall_passCount (i : SlotNo) (f : Call → Call) : (s.modCall i f).passCount = s.passCount := rfl
@[simp] theorem modCall_counters (i : SlotNo) (f : Call → Call) : (s.modCall i f).counters = s.counters := rfl
@[simp] theorem modCall_reportInterval (i : SlotNo) (f : Call → Call) : (s.modCall i f).reportInterval = s.reportInterval := rfl
@[simp] theorem modCall_draws (i : SlotNo) (f : Call → Call) : (s.modCall i f).draws = s.draws := rfl
@[simp] theorem modCall_pending (i : SlotNo) (f : Call → Call) : (s.modCall i f).pending = s.pending := rfl

/-! ## Fields after `setPos` -/

@[simp] theorem setPos_service (p : PosNo) (c : Position) : (s.setPos p c).service = s.service := rfl
@[simp] theorem setPos_resetHeld (p : PosNo) (c : Position) : (s.setPos p c).resetHeld = s.resetHeld := rfl
@[simp] theorem setPos_lineRate (p : PosNo) (c : Position) : (s.setPos p c).lineRate = s.lineRate := rfl
@[simp] theorem setPos_switchLink (p : PosNo) (c : Position) : (s.setPos p c).switchLink = s.switchLink := rfl
@[simp] theorem setPos_consoleLinks (p : PosNo) (c : Position) : (s.setPos p c).consoleLinks = s.consoleLinks := rfl
@[simp] theorem setPos_switchLossLimit (p : PosNo) (c : Position) : (s.setPos p c).switchLossLimit = s.switchLossLimit := rfl
@[simp] theorem setPos_consoleLossLimit (p : PosNo) (c : Position) : (s.setPos p c).consoleLossLimit = s.consoleLossLimit := rfl
@[simp] theorem setPos_txList (p : PosNo) (c : Position) : (s.setPos p c).txList = s.txList := rfl
@[simp] theorem setPos_consoles (p : PosNo) (c : Position) : (s.setPos p c).consoles = s.consoles := rfl
@[simp] theorem setPos_groups (p : PosNo) (c : Position) : (s.setPos p c).groups = s.groups := rfl
@[simp] theorem setPos_origins (p : PosNo) (c : Position) : (s.setPos p c).origins = s.origins := rfl
@[simp] theorem setPos_slots (p : PosNo) (c : Position) : (s.setPos p c).slots = s.slots := rfl
@[simp] theorem setPos_rangeFirst (p : PosNo) (c : Position) : (s.setPos p c).rangeFirst = s.rangeFirst := rfl
@[simp] theorem setPos_rangeLast (p : PosNo) (c : Position) : (s.setPos p c).rangeLast = s.rangeLast := rfl
@[simp] theorem setPos_freeSlots (p : PosNo) (c : Position) : (s.setPos p c).freeSlots = s.freeSlots := rfl
@[simp] theorem setPos_tagIndex (p : PosNo) (c : Position) : (s.setPos p c).tagIndex = s.tagIndex := rfl
@[simp] theorem setPos_queue (p : PosNo) (c : Position) : (s.setPos p c).queue = s.queue := rfl
@[simp] theorem setPos_plans (p : PosNo) (c : Position) : (s.setPos p c).plans = s.plans := rfl
@[simp] theorem setPos_selection (p : PosNo) (c : Position) : (s.setPos p c).selection = s.selection := rfl
@[simp] theorem setPos_eff (p : PosNo) (c : Position) : (s.setPos p c).eff = s.eff := rfl
@[simp] theorem setPos_band (p : PosNo) (c : Position) : (s.setPos p c).band = s.band := rfl
@[simp] theorem setPos_staging (p : PosNo) (c : Position) : (s.setPos p c).staging = s.staging := rfl
@[simp] theorem setPos_nightSetting (p : PosNo) (c : Position) : (s.setPos p c).nightSetting = s.nightSetting := rfl
@[simp] theorem setPos_nightFlag (p : PosNo) (c : Position) : (s.setPos p c).nightFlag = s.nightFlag := rfl
@[simp] theorem setPos_available (p : PosNo) (c : Position) : (s.setPos p c).available = s.available := rfl
@[simp] theorem setPos_lead (p : PosNo) (c : Position) : (s.setPos p c).lead = s.lead := rfl
@[simp] theorem setPos_orbits (p : PosNo) (c : Position) : (s.setPos p c).orbits = s.orbits := rfl
@[simp] theorem setPos_camps (p : PosNo) (c : Position) : (s.setPos p c).camps = s.camps := rfl
@[simp] theorem setPos_reqCounter (p : PosNo) (c : Position) : (s.setPos p c).reqCounter = s.reqCounter := rfl
@[simp] theorem setPos_thinOut (p : PosNo) (c : Position) : (s.setPos p c).thinOut = s.thinOut := rfl
@[simp] theorem setPos_pulseCount (p : PosNo) (c : Position) : (s.setPos p c).pulseCount = s.pulseCount := rfl
@[simp] theorem setPos_tickCount (p : PosNo) (c : Position) : (s.setPos p c).tickCount = s.tickCount := rfl
@[simp] theorem setPos_stepBit (p : PosNo) (c : Position) : (s.setPos p c).stepBit = s.stepBit := rfl
@[simp] theorem setPos_stepEdge (p : PosNo) (c : Position) : (s.setPos p c).stepEdge = s.stepEdge := rfl
@[simp] theorem setPos_pointer (p : PosNo) (c : Position) : (s.setPos p c).pointer = s.pointer := rfl
@[simp] theorem setPos_passCount (p : PosNo) (c : Position) : (s.setPos p c).passCount = s.passCount := rfl
@[simp] theorem setPos_counters (p : PosNo) (c : Position) : (s.setPos p c).counters = s.counters := rfl
@[simp] theorem setPos_reportInterval (p : PosNo) (c : Position) : (s.setPos p c).reportInterval = s.reportInterval := rfl
@[simp] theorem setPos_draws (p : PosNo) (c : Position) : (s.setPos p c).draws = s.draws := rfl
@[simp] theorem setPos_pending (p : PosNo) (c : Position) : (s.setPos p c).pending = s.pending := rfl

/-! ## Fields after `setLoop` -/

@[simp] theorem setLoop_service (p : PosNo) (l : LoopNo) (x : Loop) : (s.setLoop p l x).service = s.service := rfl
@[simp] theorem setLoop_resetHeld (p : PosNo) (l : LoopNo) (x : Loop) : (s.setLoop p l x).resetHeld = s.resetHeld := rfl
@[simp] theorem setLoop_lineRate (p : PosNo) (l : LoopNo) (x : Loop) : (s.setLoop p l x).lineRate = s.lineRate := rfl
@[simp] theorem setLoop_switchLink (p : PosNo) (l : LoopNo) (x : Loop) : (s.setLoop p l x).switchLink = s.switchLink := rfl
@[simp] theorem setLoop_consoleLinks (p : PosNo) (l : LoopNo) (x : Loop) : (s.setLoop p l x).consoleLinks = s.consoleLinks := rfl
@[simp] theorem setLoop_switchLossLimit (p : PosNo) (l : LoopNo) (x : Loop) : (s.setLoop p l x).switchLossLimit = s.switchLossLimit := rfl
@[simp] theorem setLoop_consoleLossLimit (p : PosNo) (l : LoopNo) (x : Loop) : (s.setLoop p l x).consoleLossLimit = s.consoleLossLimit := rfl
@[simp] theorem setLoop_txList (p : PosNo) (l : LoopNo) (x : Loop) : (s.setLoop p l x).txList = s.txList := rfl
@[simp] theorem setLoop_consoles (p : PosNo) (l : LoopNo) (x : Loop) : (s.setLoop p l x).consoles = s.consoles := rfl
@[simp] theorem setLoop_groups (p : PosNo) (l : LoopNo) (x : Loop) : (s.setLoop p l x).groups = s.groups := rfl
@[simp] theorem setLoop_origins (p : PosNo) (l : LoopNo) (x : Loop) : (s.setLoop p l x).origins = s.origins := rfl
@[simp] theorem setLoop_slots (p : PosNo) (l : LoopNo) (x : Loop) : (s.setLoop p l x).slots = s.slots := rfl
@[simp] theorem setLoop_rangeFirst (p : PosNo) (l : LoopNo) (x : Loop) : (s.setLoop p l x).rangeFirst = s.rangeFirst := rfl
@[simp] theorem setLoop_rangeLast (p : PosNo) (l : LoopNo) (x : Loop) : (s.setLoop p l x).rangeLast = s.rangeLast := rfl
@[simp] theorem setLoop_freeSlots (p : PosNo) (l : LoopNo) (x : Loop) : (s.setLoop p l x).freeSlots = s.freeSlots := rfl
@[simp] theorem setLoop_tagIndex (p : PosNo) (l : LoopNo) (x : Loop) : (s.setLoop p l x).tagIndex = s.tagIndex := rfl
@[simp] theorem setLoop_queue (p : PosNo) (l : LoopNo) (x : Loop) : (s.setLoop p l x).queue = s.queue := rfl
@[simp] theorem setLoop_plans (p : PosNo) (l : LoopNo) (x : Loop) : (s.setLoop p l x).plans = s.plans := rfl
@[simp] theorem setLoop_selection (p : PosNo) (l : LoopNo) (x : Loop) : (s.setLoop p l x).selection = s.selection := rfl
@[simp] theorem setLoop_eff (p : PosNo) (l : LoopNo) (x : Loop) : (s.setLoop p l x).eff = s.eff := rfl
@[simp] theorem setLoop_band (p : PosNo) (l : LoopNo) (x : Loop) : (s.setLoop p l x).band = s.band := rfl
@[simp] theorem setLoop_staging (p : PosNo) (l : LoopNo) (x : Loop) : (s.setLoop p l x).staging = s.staging := rfl
@[simp] theorem setLoop_nightSetting (p : PosNo) (l : LoopNo) (x : Loop) : (s.setLoop p l x).nightSetting = s.nightSetting := rfl
@[simp] theorem setLoop_nightFlag (p : PosNo) (l : LoopNo) (x : Loop) : (s.setLoop p l x).nightFlag = s.nightFlag := rfl
@[simp] theorem setLoop_available (p : PosNo) (l : LoopNo) (x : Loop) : (s.setLoop p l x).available = s.available := rfl
@[simp] theorem setLoop_lead (p : PosNo) (l : LoopNo) (x : Loop) : (s.setLoop p l x).lead = s.lead := rfl
@[simp] theorem setLoop_orbits (p : PosNo) (l : LoopNo) (x : Loop) : (s.setLoop p l x).orbits = s.orbits := rfl
@[simp] theorem setLoop_camps (p : PosNo) (l : LoopNo) (x : Loop) : (s.setLoop p l x).camps = s.camps := rfl
@[simp] theorem setLoop_reqCounter (p : PosNo) (l : LoopNo) (x : Loop) : (s.setLoop p l x).reqCounter = s.reqCounter := rfl
@[simp] theorem setLoop_thinOut (p : PosNo) (l : LoopNo) (x : Loop) : (s.setLoop p l x).thinOut = s.thinOut := rfl
@[simp] theorem setLoop_pulseCount (p : PosNo) (l : LoopNo) (x : Loop) : (s.setLoop p l x).pulseCount = s.pulseCount := rfl
@[simp] theorem setLoop_tickCount (p : PosNo) (l : LoopNo) (x : Loop) : (s.setLoop p l x).tickCount = s.tickCount := rfl
@[simp] theorem setLoop_stepBit (p : PosNo) (l : LoopNo) (x : Loop) : (s.setLoop p l x).stepBit = s.stepBit := rfl
@[simp] theorem setLoop_stepEdge (p : PosNo) (l : LoopNo) (x : Loop) : (s.setLoop p l x).stepEdge = s.stepEdge := rfl
@[simp] theorem setLoop_pointer (p : PosNo) (l : LoopNo) (x : Loop) : (s.setLoop p l x).pointer = s.pointer := rfl
@[simp] theorem setLoop_passCount (p : PosNo) (l : LoopNo) (x : Loop) : (s.setLoop p l x).passCount = s.passCount := rfl
@[simp] theorem setLoop_counters (p : PosNo) (l : LoopNo) (x : Loop) : (s.setLoop p l x).counters = s.counters := rfl
@[simp] theorem setLoop_reportInterval (p : PosNo) (l : LoopNo) (x : Loop) : (s.setLoop p l x).reportInterval = s.reportInterval := rfl
@[simp] theorem setLoop_draws (p : PosNo) (l : LoopNo) (x : Loop) : (s.setLoop p l x).draws = s.draws := rfl
@[simp] theorem setLoop_pending (p : PosNo) (l : LoopNo) (x : Loop) : (s.setLoop p l x).pending = s.pending := rfl

/-! ## Fields after `setConsole` -/

@[simp] theorem setConsole_service (p : PosNo) (c : ConsoleSet) : (s.setConsole p c).service = s.service := rfl
@[simp] theorem setConsole_resetHeld (p : PosNo) (c : ConsoleSet) : (s.setConsole p c).resetHeld = s.resetHeld := rfl
@[simp] theorem setConsole_lineRate (p : PosNo) (c : ConsoleSet) : (s.setConsole p c).lineRate = s.lineRate := rfl
@[simp] theorem setConsole_switchLink (p : PosNo) (c : ConsoleSet) : (s.setConsole p c).switchLink = s.switchLink := rfl
@[simp] theorem setConsole_consoleLinks (p : PosNo) (c : ConsoleSet) : (s.setConsole p c).consoleLinks = s.consoleLinks := rfl
@[simp] theorem setConsole_switchLossLimit (p : PosNo) (c : ConsoleSet) : (s.setConsole p c).switchLossLimit = s.switchLossLimit := rfl
@[simp] theorem setConsole_consoleLossLimit (p : PosNo) (c : ConsoleSet) : (s.setConsole p c).consoleLossLimit = s.consoleLossLimit := rfl
@[simp] theorem setConsole_txList (p : PosNo) (c : ConsoleSet) : (s.setConsole p c).txList = s.txList := rfl
@[simp] theorem setConsole_groups (p : PosNo) (c : ConsoleSet) : (s.setConsole p c).groups = s.groups := rfl
@[simp] theorem setConsole_origins (p : PosNo) (c : ConsoleSet) : (s.setConsole p c).origins = s.origins := rfl
@[simp] theorem setConsole_slots (p : PosNo) (c : ConsoleSet) : (s.setConsole p c).slots = s.slots := rfl
@[simp] theorem setConsole_rangeFirst (p : PosNo) (c : ConsoleSet) : (s.setConsole p c).rangeFirst = s.rangeFirst := rfl
@[simp] theorem setConsole_rangeLast (p : PosNo) (c : ConsoleSet) : (s.setConsole p c).rangeLast = s.rangeLast := rfl
@[simp] theorem setConsole_freeSlots (p : PosNo) (c : ConsoleSet) : (s.setConsole p c).freeSlots = s.freeSlots := rfl
@[simp] theorem setConsole_tagIndex (p : PosNo) (c : ConsoleSet) : (s.setConsole p c).tagIndex = s.tagIndex := rfl
@[simp] theorem setConsole_queue (p : PosNo) (c : ConsoleSet) : (s.setConsole p c).queue = s.queue := rfl
@[simp] theorem setConsole_plans (p : PosNo) (c : ConsoleSet) : (s.setConsole p c).plans = s.plans := rfl
@[simp] theorem setConsole_selection (p : PosNo) (c : ConsoleSet) : (s.setConsole p c).selection = s.selection := rfl
@[simp] theorem setConsole_eff (p : PosNo) (c : ConsoleSet) : (s.setConsole p c).eff = s.eff := rfl
@[simp] theorem setConsole_band (p : PosNo) (c : ConsoleSet) : (s.setConsole p c).band = s.band := rfl
@[simp] theorem setConsole_staging (p : PosNo) (c : ConsoleSet) : (s.setConsole p c).staging = s.staging := rfl
@[simp] theorem setConsole_nightSetting (p : PosNo) (c : ConsoleSet) : (s.setConsole p c).nightSetting = s.nightSetting := rfl
@[simp] theorem setConsole_nightFlag (p : PosNo) (c : ConsoleSet) : (s.setConsole p c).nightFlag = s.nightFlag := rfl
@[simp] theorem setConsole_available (p : PosNo) (c : ConsoleSet) : (s.setConsole p c).available = s.available := rfl
@[simp] theorem setConsole_positions (p : PosNo) (c : ConsoleSet) : (s.setConsole p c).positions = s.positions := rfl
@[simp] theorem setConsole_lead (p : PosNo) (c : ConsoleSet) : (s.setConsole p c).lead = s.lead := rfl
@[simp] theorem setConsole_orbits (p : PosNo) (c : ConsoleSet) : (s.setConsole p c).orbits = s.orbits := rfl
@[simp] theorem setConsole_camps (p : PosNo) (c : ConsoleSet) : (s.setConsole p c).camps = s.camps := rfl
@[simp] theorem setConsole_reqCounter (p : PosNo) (c : ConsoleSet) : (s.setConsole p c).reqCounter = s.reqCounter := rfl
@[simp] theorem setConsole_thinOut (p : PosNo) (c : ConsoleSet) : (s.setConsole p c).thinOut = s.thinOut := rfl
@[simp] theorem setConsole_pulseCount (p : PosNo) (c : ConsoleSet) : (s.setConsole p c).pulseCount = s.pulseCount := rfl
@[simp] theorem setConsole_tickCount (p : PosNo) (c : ConsoleSet) : (s.setConsole p c).tickCount = s.tickCount := rfl
@[simp] theorem setConsole_stepBit (p : PosNo) (c : ConsoleSet) : (s.setConsole p c).stepBit = s.stepBit := rfl
@[simp] theorem setConsole_stepEdge (p : PosNo) (c : ConsoleSet) : (s.setConsole p c).stepEdge = s.stepEdge := rfl
@[simp] theorem setConsole_pointer (p : PosNo) (c : ConsoleSet) : (s.setConsole p c).pointer = s.pointer := rfl
@[simp] theorem setConsole_passCount (p : PosNo) (c : ConsoleSet) : (s.setConsole p c).passCount = s.passCount := rfl
@[simp] theorem setConsole_counters (p : PosNo) (c : ConsoleSet) : (s.setConsole p c).counters = s.counters := rfl
@[simp] theorem setConsole_reportInterval (p : PosNo) (c : ConsoleSet) : (s.setConsole p c).reportInterval = s.reportInterval := rfl
@[simp] theorem setConsole_draws (p : PosNo) (c : ConsoleSet) : (s.setConsole p c).draws = s.draws := rfl
@[simp] theorem setConsole_pending (p : PosNo) (c : ConsoleSet) : (s.setConsole p c).pending = s.pending := rfl

/-! ## Fields after `bump` -/

@[simp] theorem bump_service (c : Counter) : (bump c s).service = s.service := rfl
@[simp] theorem bump_resetHeld (c : Counter) : (bump c s).resetHeld = s.resetHeld := rfl
@[simp] theorem bump_lineRate (c : Counter) : (bump c s).lineRate = s.lineRate := rfl
@[simp] theorem bump_switchLink (c : Counter) : (bump c s).switchLink = s.switchLink := rfl
@[simp] theorem bump_consoleLinks (c : Counter) : (bump c s).consoleLinks = s.consoleLinks := rfl
@[simp] theorem bump_switchLossLimit (c : Counter) : (bump c s).switchLossLimit = s.switchLossLimit := rfl
@[simp] theorem bump_consoleLossLimit (c : Counter) : (bump c s).consoleLossLimit = s.consoleLossLimit := rfl
@[simp] theorem bump_txList (c : Counter) : (bump c s).txList = s.txList := rfl
@[simp] theorem bump_consoles (c : Counter) : (bump c s).consoles = s.consoles := rfl
@[simp] theorem bump_groups (c : Counter) : (bump c s).groups = s.groups := rfl
@[simp] theorem bump_origins (c : Counter) : (bump c s).origins = s.origins := rfl
@[simp] theorem bump_slots (c : Counter) : (bump c s).slots = s.slots := rfl
@[simp] theorem bump_rangeFirst (c : Counter) : (bump c s).rangeFirst = s.rangeFirst := rfl
@[simp] theorem bump_rangeLast (c : Counter) : (bump c s).rangeLast = s.rangeLast := rfl
@[simp] theorem bump_freeSlots (c : Counter) : (bump c s).freeSlots = s.freeSlots := rfl
@[simp] theorem bump_tagIndex (c : Counter) : (bump c s).tagIndex = s.tagIndex := rfl
@[simp] theorem bump_queue (c : Counter) : (bump c s).queue = s.queue := rfl
@[simp] theorem bump_plans (c : Counter) : (bump c s).plans = s.plans := rfl
@[simp] theorem bump_selection (c : Counter) : (bump c s).selection = s.selection := rfl
@[simp] theorem bump_eff (c : Counter) : (bump c s).eff = s.eff := rfl
@[simp] theorem bump_band (c : Counter) : (bump c s).band = s.band := rfl
@[simp] theorem bump_staging (c : Counter) : (bump c s).staging = s.staging := rfl
@[simp] theorem bump_nightSetting (c : Counter) : (bump c s).nightSetting = s.nightSetting := rfl
@[simp] theorem bump_nightFlag (c : Counter) : (bump c s).nightFlag = s.nightFlag := rfl
@[simp] theorem bump_available (c : Counter) : (bump c s).available = s.available := rfl
@[simp] theorem bump_positions (c : Counter) : (bump c s).positions = s.positions := rfl
@[simp] theorem bump_lead (c : Counter) : (bump c s).lead = s.lead := rfl
@[simp] theorem bump_orbits (c : Counter) : (bump c s).orbits = s.orbits := rfl
@[simp] theorem bump_camps (c : Counter) : (bump c s).camps = s.camps := rfl
@[simp] theorem bump_reqCounter (c : Counter) : (bump c s).reqCounter = s.reqCounter := rfl
@[simp] theorem bump_thinOut (c : Counter) : (bump c s).thinOut = s.thinOut := rfl
@[simp] theorem bump_pulseCount (c : Counter) : (bump c s).pulseCount = s.pulseCount := rfl
@[simp] theorem bump_tickCount (c : Counter) : (bump c s).tickCount = s.tickCount := rfl
@[simp] theorem bump_stepBit (c : Counter) : (bump c s).stepBit = s.stepBit := rfl
@[simp] theorem bump_stepEdge (c : Counter) : (bump c s).stepEdge = s.stepEdge := rfl
@[simp] theorem bump_pointer (c : Counter) : (bump c s).pointer = s.pointer := rfl
@[simp] theorem bump_passCount (c : Counter) : (bump c s).passCount = s.passCount := rfl
@[simp] theorem bump_reportInterval (c : Counter) : (bump c s).reportInterval = s.reportInterval := rfl
@[simp] theorem bump_draws (c : Counter) : (bump c s).draws = s.draws := rfl
@[simp] theorem bump_pending (c : Counter) : (bump c s).pending = s.pending := rfl

/-! ## Fields after `enlist` -/

@[simp] theorem enlist_service (n : SwitchNotice) : (enlist n s).service = s.service := rfl
@[simp] theorem enlist_resetHeld (n : SwitchNotice) : (enlist n s).resetHeld = s.resetHeld := rfl
@[simp] theorem enlist_lineRate (n : SwitchNotice) : (enlist n s).lineRate = s.lineRate := rfl
@[simp] theorem enlist_switchLink (n : SwitchNotice) : (enlist n s).switchLink = s.switchLink := rfl
@[simp] theorem enlist_consoleLinks (n : SwitchNotice) : (enlist n s).consoleLinks = s.consoleLinks := rfl
@[simp] theorem enlist_switchLossLimit (n : SwitchNotice) : (enlist n s).switchLossLimit = s.switchLossLimit := rfl
@[simp] theorem enlist_consoleLossLimit (n : SwitchNotice) : (enlist n s).consoleLossLimit = s.consoleLossLimit := rfl
@[simp] theorem enlist_consoles (n : SwitchNotice) : (enlist n s).consoles = s.consoles := rfl
@[simp] theorem enlist_groups (n : SwitchNotice) : (enlist n s).groups = s.groups := rfl
@[simp] theorem enlist_origins (n : SwitchNotice) : (enlist n s).origins = s.origins := rfl
@[simp] theorem enlist_slots (n : SwitchNotice) : (enlist n s).slots = s.slots := rfl
@[simp] theorem enlist_rangeFirst (n : SwitchNotice) : (enlist n s).rangeFirst = s.rangeFirst := rfl
@[simp] theorem enlist_rangeLast (n : SwitchNotice) : (enlist n s).rangeLast = s.rangeLast := rfl
@[simp] theorem enlist_freeSlots (n : SwitchNotice) : (enlist n s).freeSlots = s.freeSlots := rfl
@[simp] theorem enlist_tagIndex (n : SwitchNotice) : (enlist n s).tagIndex = s.tagIndex := rfl
@[simp] theorem enlist_queue (n : SwitchNotice) : (enlist n s).queue = s.queue := rfl
@[simp] theorem enlist_plans (n : SwitchNotice) : (enlist n s).plans = s.plans := rfl
@[simp] theorem enlist_selection (n : SwitchNotice) : (enlist n s).selection = s.selection := rfl
@[simp] theorem enlist_eff (n : SwitchNotice) : (enlist n s).eff = s.eff := rfl
@[simp] theorem enlist_band (n : SwitchNotice) : (enlist n s).band = s.band := rfl
@[simp] theorem enlist_staging (n : SwitchNotice) : (enlist n s).staging = s.staging := rfl
@[simp] theorem enlist_nightSetting (n : SwitchNotice) : (enlist n s).nightSetting = s.nightSetting := rfl
@[simp] theorem enlist_nightFlag (n : SwitchNotice) : (enlist n s).nightFlag = s.nightFlag := rfl
@[simp] theorem enlist_available (n : SwitchNotice) : (enlist n s).available = s.available := rfl
@[simp] theorem enlist_positions (n : SwitchNotice) : (enlist n s).positions = s.positions := rfl
@[simp] theorem enlist_lead (n : SwitchNotice) : (enlist n s).lead = s.lead := rfl
@[simp] theorem enlist_orbits (n : SwitchNotice) : (enlist n s).orbits = s.orbits := rfl
@[simp] theorem enlist_camps (n : SwitchNotice) : (enlist n s).camps = s.camps := rfl
@[simp] theorem enlist_reqCounter (n : SwitchNotice) : (enlist n s).reqCounter = s.reqCounter := rfl
@[simp] theorem enlist_thinOut (n : SwitchNotice) : (enlist n s).thinOut = s.thinOut := rfl
@[simp] theorem enlist_pulseCount (n : SwitchNotice) : (enlist n s).pulseCount = s.pulseCount := rfl
@[simp] theorem enlist_tickCount (n : SwitchNotice) : (enlist n s).tickCount = s.tickCount := rfl
@[simp] theorem enlist_stepBit (n : SwitchNotice) : (enlist n s).stepBit = s.stepBit := rfl
@[simp] theorem enlist_stepEdge (n : SwitchNotice) : (enlist n s).stepEdge = s.stepEdge := rfl
@[simp] theorem enlist_pointer (n : SwitchNotice) : (enlist n s).pointer = s.pointer := rfl
@[simp] theorem enlist_passCount (n : SwitchNotice) : (enlist n s).passCount = s.passCount := rfl
@[simp] theorem enlist_counters (n : SwitchNotice) : (enlist n s).counters = s.counters := rfl
@[simp] theorem enlist_reportInterval (n : SwitchNotice) : (enlist n s).reportInterval = s.reportInterval := rfl
@[simp] theorem enlist_draws (n : SwitchNotice) : (enlist n s).draws = s.draws := rfl
@[simp] theorem enlist_pending (n : SwitchNotice) : (enlist n s).pending = s.pending := rfl

/-! ## Fields after `setLink` -/

@[simp] theorem setLink_service (l : Link) (u : LinkUnit) : (s.setLink l u).service = s.service := by
  cases l <;> rfl
@[simp] theorem setLink_resetHeld (l : Link) (u : LinkUnit) : (s.setLink l u).resetHeld = s.resetHeld := by
  cases l <;> rfl
@[simp] theorem setLink_lineRate (l : Link) (u : LinkUnit) : (s.setLink l u).lineRate = s.lineRate := by
  cases l <;> rfl
@[simp] theorem setLink_switchLossLimit (l : Link) (u : LinkUnit) : (s.setLink l u).switchLossLimit = s.switchLossLimit := by
  cases l <;> rfl
@[simp] theorem setLink_consoleLossLimit (l : Link) (u : LinkUnit) : (s.setLink l u).consoleLossLimit = s.consoleLossLimit := by
  cases l <;> rfl
@[simp] theorem setLink_txList (l : Link) (u : LinkUnit) : (s.setLink l u).txList = s.txList := by
  cases l <;> rfl
@[simp] theorem setLink_consoles (l : Link) (u : LinkUnit) : (s.setLink l u).consoles = s.consoles := by
  cases l <;> rfl
@[simp] theorem setLink_groups (l : Link) (u : LinkUnit) : (s.setLink l u).groups = s.groups := by
  cases l <;> rfl
@[simp] theorem setLink_origins (l : Link) (u : LinkUnit) : (s.setLink l u).origins = s.origins := by
  cases l <;> rfl
@[simp] theorem setLink_slots (l : Link) (u : LinkUnit) : (s.setLink l u).slots = s.slots := by
  cases l <;> rfl
@[simp] theorem setLink_rangeFirst (l : Link) (u : LinkUnit) : (s.setLink l u).rangeFirst = s.rangeFirst := by
  cases l <;> rfl
@[simp] theorem setLink_rangeLast (l : Link) (u : LinkUnit) : (s.setLink l u).rangeLast = s.rangeLast := by
  cases l <;> rfl
@[simp] theorem setLink_freeSlots (l : Link) (u : LinkUnit) : (s.setLink l u).freeSlots = s.freeSlots := by
  cases l <;> rfl
@[simp] theorem setLink_tagIndex (l : Link) (u : LinkUnit) : (s.setLink l u).tagIndex = s.tagIndex := by
  cases l <;> rfl
@[simp] theorem setLink_queue (l : Link) (u : LinkUnit) : (s.setLink l u).queue = s.queue := by
  cases l <;> rfl
@[simp] theorem setLink_plans (l : Link) (u : LinkUnit) : (s.setLink l u).plans = s.plans := by
  cases l <;> rfl
@[simp] theorem setLink_selection (l : Link) (u : LinkUnit) : (s.setLink l u).selection = s.selection := by
  cases l <;> rfl
@[simp] theorem setLink_eff (l : Link) (u : LinkUnit) : (s.setLink l u).eff = s.eff := by
  cases l <;> rfl
@[simp] theorem setLink_band (l : Link) (u : LinkUnit) : (s.setLink l u).band = s.band := by
  cases l <;> rfl
@[simp] theorem setLink_staging (l : Link) (u : LinkUnit) : (s.setLink l u).staging = s.staging := by
  cases l <;> rfl
@[simp] theorem setLink_nightSetting (l : Link) (u : LinkUnit) : (s.setLink l u).nightSetting = s.nightSetting := by
  cases l <;> rfl
@[simp] theorem setLink_nightFlag (l : Link) (u : LinkUnit) : (s.setLink l u).nightFlag = s.nightFlag := by
  cases l <;> rfl
@[simp] theorem setLink_available (l : Link) (u : LinkUnit) : (s.setLink l u).available = s.available := by
  cases l <;> rfl
@[simp] theorem setLink_positions (l : Link) (u : LinkUnit) : (s.setLink l u).positions = s.positions := by
  cases l <;> rfl
@[simp] theorem setLink_lead (l : Link) (u : LinkUnit) : (s.setLink l u).lead = s.lead := by
  cases l <;> rfl
@[simp] theorem setLink_orbits (l : Link) (u : LinkUnit) : (s.setLink l u).orbits = s.orbits := by
  cases l <;> rfl
@[simp] theorem setLink_camps (l : Link) (u : LinkUnit) : (s.setLink l u).camps = s.camps := by
  cases l <;> rfl
@[simp] theorem setLink_reqCounter (l : Link) (u : LinkUnit) : (s.setLink l u).reqCounter = s.reqCounter := by
  cases l <;> rfl
@[simp] theorem setLink_thinOut (l : Link) (u : LinkUnit) : (s.setLink l u).thinOut = s.thinOut := by
  cases l <;> rfl
@[simp] theorem setLink_pulseCount (l : Link) (u : LinkUnit) : (s.setLink l u).pulseCount = s.pulseCount := by
  cases l <;> rfl
@[simp] theorem setLink_tickCount (l : Link) (u : LinkUnit) : (s.setLink l u).tickCount = s.tickCount := by
  cases l <;> rfl
@[simp] theorem setLink_stepBit (l : Link) (u : LinkUnit) : (s.setLink l u).stepBit = s.stepBit := by
  cases l <;> rfl
@[simp] theorem setLink_stepEdge (l : Link) (u : LinkUnit) : (s.setLink l u).stepEdge = s.stepEdge := by
  cases l <;> rfl
@[simp] theorem setLink_pointer (l : Link) (u : LinkUnit) : (s.setLink l u).pointer = s.pointer := by
  cases l <;> rfl
@[simp] theorem setLink_passCount (l : Link) (u : LinkUnit) : (s.setLink l u).passCount = s.passCount := by
  cases l <;> rfl
@[simp] theorem setLink_counters (l : Link) (u : LinkUnit) : (s.setLink l u).counters = s.counters := by
  cases l <;> rfl
@[simp] theorem setLink_reportInterval (l : Link) (u : LinkUnit) : (s.setLink l u).reportInterval = s.reportInterval := by
  cases l <;> rfl
@[simp] theorem setLink_draws (l : Link) (u : LinkUnit) : (s.setLink l u).draws = s.draws := by
  cases l <;> rfl
@[simp] theorem setLink_pending (l : Link) (u : LinkUnit) : (s.setLink l u).pending = s.pending := by
  cases l <;> rfl

/-! ## Lookups that an update leaves alone -/

@[simp] theorem setPos_call (p : PosNo) (c : Position) (j : SlotNo) : (s.setPos p c).call j = s.call j := rfl
@[simp] theorem setLoop_call (p : PosNo) (l : LoopNo) (x : Loop) (j : SlotNo) : (s.setLoop p l x).call j = s.call j := rfl
@[simp] theorem setConsole_call (p : PosNo) (c : ConsoleSet) (j : SlotNo) : (s.setConsole p c).call j = s.call j := rfl
@[simp] theorem bump_call (c : Counter) (j : SlotNo) : (bump c s).call j = s.call j := rfl
@[simp] theorem enlist_call (n : SwitchNotice) (j : SlotNo) : (enlist n s).call j = s.call j := rfl
@[simp] theorem setCall_pos (i : SlotNo) (c : Option Call) (q : PosNo) : (s.setCall i c).pos q = s.pos q := rfl
@[simp] theorem modCall_pos (i : SlotNo) (f : Call → Call) (q : PosNo) : (s.modCall i f).pos q = s.pos q := rfl
@[simp] theorem setConsole_pos (p : PosNo) (c : ConsoleSet) (q : PosNo) : (s.setConsole p c).pos q = s.pos q := rfl
@[simp] theorem bump_pos (c : Counter) (q : PosNo) : (bump c s).pos q = s.pos q := rfl
@[simp] theorem enlist_pos (n : SwitchNotice) (q : PosNo) : (enlist n s).pos q = s.pos q := rfl
@[simp] theorem setCall_console (i : SlotNo) (c : Option Call) (q : PosNo) : (s.setCall i c).console q = s.console q := rfl
@[simp] theorem modCall_console (i : SlotNo) (f : Call → Call) (q : PosNo) : (s.modCall i f).console q = s.console q := rfl
@[simp] theorem setPos_console (p : PosNo) (c : Position) (q : PosNo) : (s.setPos p c).console q = s.console q := rfl
@[simp] theorem setLoop_console (p : PosNo) (l : LoopNo) (x : Loop) (q : PosNo) : (s.setLoop p l x).console q = s.console q := rfl
@[simp] theorem bump_console (c : Counter) (q : PosNo) : (bump c s).console q = s.console q := rfl
@[simp] theorem enlist_console (n : SwitchNotice) (q : PosNo) : (enlist n s).console q = s.console q := rfl
@[simp] theorem setCall_link (i : SlotNo) (c : Option Call) (m : Link) : (s.setCall i c).link m = s.link m := by cases m <;> rfl
@[simp] theorem modCall_link (i : SlotNo) (f : Call → Call) (m : Link) : (s.modCall i f).link m = s.link m := by cases m <;> rfl
@[simp] theorem setPos_link (p : PosNo) (c : Position) (m : Link) : (s.setPos p c).link m = s.link m := by cases m <;> rfl
@[simp] theorem setLoop_link (p : PosNo) (l : LoopNo) (x : Loop) (m : Link) : (s.setLoop p l x).link m = s.link m := by cases m <;> rfl
@[simp] theorem setConsole_link (p : PosNo) (c : ConsoleSet) (m : Link) : (s.setConsole p c).link m = s.link m := by cases m <;> rfl
@[simp] theorem bump_link (c : Counter) (m : Link) : (bump c s).link m = s.link m := by cases m <;> rfl
@[simp] theorem enlist_link (n : SwitchNotice) (m : Link) : (enlist n s).link m = s.link m := by cases m <;> rfl
@[simp] theorem setCall_origin (i : SlotNo) (c : Option Call) (o : OriginNo) : (s.setCall i c).origin o = s.origin o := rfl
@[simp] theorem modCall_origin (i : SlotNo) (f : Call → Call) (o : OriginNo) : (s.modCall i f).origin o = s.origin o := rfl
@[simp] theorem setPos_origin (p : PosNo) (c : Position) (o : OriginNo) : (s.setPos p c).origin o = s.origin o := rfl
@[simp] theorem setLoop_origin (p : PosNo) (l : LoopNo) (x : Loop) (o : OriginNo) : (s.setLoop p l x).origin o = s.origin o := rfl
@[simp] theorem setConsole_origin (p : PosNo) (c : ConsoleSet) (o : OriginNo) : (s.setConsole p c).origin o = s.origin o := rfl
@[simp] theorem bump_origin (c : Counter) (o : OriginNo) : (bump c s).origin o = s.origin o := rfl
@[simp] theorem enlist_origin (n : SwitchNotice) (o : OriginNo) : (enlist n s).origin o = s.origin o := rfl
@[simp] theorem setCall_orbitSlot (i : SlotNo) (c : Option Call) (o : OrbitNo) : (s.setCall i c).orbitSlot o = s.orbitSlot o := rfl
@[simp] theorem modCall_orbitSlot (i : SlotNo) (f : Call → Call) (o : OrbitNo) : (s.modCall i f).orbitSlot o = s.orbitSlot o := rfl
@[simp] theorem setPos_orbitSlot (p : PosNo) (c : Position) (o : OrbitNo) : (s.setPos p c).orbitSlot o = s.orbitSlot o := rfl
@[simp] theorem setLoop_orbitSlot (p : PosNo) (l : LoopNo) (x : Loop) (o : OrbitNo) : (s.setLoop p l x).orbitSlot o = s.orbitSlot o := rfl
@[simp] theorem setConsole_orbitSlot (p : PosNo) (c : ConsoleSet) (o : OrbitNo) : (s.setConsole p c).orbitSlot o = s.orbitSlot o := rfl
@[simp] theorem bump_orbitSlot (c : Counter) (o : OrbitNo) : (bump c s).orbitSlot o = s.orbitSlot o := rfl
@[simp] theorem enlist_orbitSlot (n : SwitchNotice) (o : OrbitNo) : (enlist n s).orbitSlot o = s.orbitSlot o := rfl
@[simp] theorem setCall_count (i : SlotNo) (c : Option Call) (d : Counter) : (s.setCall i c).count d = s.count d := rfl
@[simp] theorem modCall_count (i : SlotNo) (f : Call → Call) (d : Counter) : (s.modCall i f).count d = s.count d := rfl
@[simp] theorem setPos_count (p : PosNo) (c : Position) (d : Counter) : (s.setPos p c).count d = s.count d := rfl
@[simp] theorem setLoop_count (p : PosNo) (l : LoopNo) (x : Loop) (d : Counter) : (s.setLoop p l x).count d = s.count d := rfl
@[simp] theorem setConsole_count (p : PosNo) (c : ConsoleSet) (d : Counter) : (s.setConsole p c).count d = s.count d := rfl
@[simp] theorem enlist_count (n : SwitchNotice) (d : Counter) : (enlist n s).count d = s.count d := rfl
@[simp] theorem setLink_call (l : Link) (u : LinkUnit) (j : SlotNo) : (s.setLink l u).call j = s.call j := by cases l <;> rfl
@[simp] theorem setLink_pos (l : Link) (u : LinkUnit) (q : PosNo) : (s.setLink l u).pos q = s.pos q := by cases l <;> rfl
@[simp] theorem setLink_console (l : Link) (u : LinkUnit) (q : PosNo) : (s.setLink l u).console q = s.console q := by cases l <;> rfl
@[simp] theorem setLink_origin (l : Link) (u : LinkUnit) (o : OriginNo) : (s.setLink l u).origin o = s.origin o := by cases l <;> rfl
@[simp] theorem setLink_orbitSlot (l : Link) (u : LinkUnit) (o : OrbitNo) : (s.setLink l u).orbitSlot o = s.orbitSlot o := by cases l <;> rfl
@[simp] theorem setLink_count (l : Link) (u : LinkUnit) (d : Counter) : (s.setLink l u).count d = s.count d := by cases l <;> rfl
@[simp] theorem setLink_lossLimit (l : Link) (u : LinkUnit) (m : Link) : (s.setLink l u).lossLimit m = s.lossLimit m := by cases l <;> cases m <;> rfl

end Sys2Proof.Machine
end

