-- ==== Sys2Proof/Laws/Distribution.lean ====
section
/-! SUPPORT. What the re-establishing of the distribution condition can do: each of its parts, and the
whole, is `Settled`. -/
namespace Sys2Proof.Machine

/-! ## Composition -/

theorem SettingsKept.refl (s : State) : SettingsKept s s := by constructor <;> rfl

theorem SettingsKept.trans {s t u : State} (h : SettingsKept s t) (k : SettingsKept t u) :
    SettingsKept s u := by
  constructor
  all_goals first
    | exact k.service.trans h.service
    | exact k.resetHeld.trans h.resetHeld
    | exact k.lineRate.trans h.lineRate
    | exact k.switchLossLimit.trans h.switchLossLimit
    | exact k.consoleLossLimit.trans h.consoleLossLimit
    | exact k.groups.trans h.groups
    | exact k.rangeFirst.trans h.rangeFirst
    | exact k.rangeLast.trans h.rangeLast
    | exact k.plans.trans h.plans
    | exact k.selection.trans h.selection
    | exact k.staging.trans h.staging
    | exact k.nightSetting.trans h.nightSetting
    | exact k.thinOut.trans h.thinOut
    | exact k.pulseCount.trans h.pulseCount
    | exact k.tickCount.trans h.tickCount
    | exact k.stepBit.trans h.stepBit
    | exact k.stepEdge.trans h.stepEdge
    | exact k.pointer.trans h.pointer
    | exact k.passCount.trans h.passCount
    | exact k.reportInterval.trans h.reportInterval
    | exact k.pending.trans h.pending

theorem RegisterKept.refl (s : State) : RegisterKept s s := ⟨rfl, rfl, rfl⟩

theorem RegisterKept.trans {s t u : State} (h : RegisterKept s t) (k : RegisterKept t u) :
    RegisterKept s u :=
  ⟨k.tagIndex.trans h.tagIndex, k.origins.trans h.origins, k.freeSlots.trans h.freeSlots⟩

theorem PositionKept.refl (a : Position) : PositionKept a a := ⟨rfl, rfl, rfl, rfl, rfl, rfl⟩

theorem PositionKept.trans {a b c : Position} (h : PositionKept a b) (k : PositionKept b c) :
    PositionKept a c :=
  ⟨k.state.trans h.state, k.lastReason.trans h.lastReason, k.leadEligible.trans h.leadEligible,
    k.loops.trans h.loops, k.missCount.trans h.missCount, k.consult.trans h.consult⟩

theorem SameCall.refl (c : Call) : SameCall c c := ⟨rfl, rfl, rfl, rfl, rfl, rfl, rfl, rfl, rfl⟩

theorem SameCall.trans {c d e : Call} (h : SameCall c d) (k : SameCall d e) : SameCall c e :=
  ⟨k.tag.trans h.tag, k.origin.trans h.origin, k.cls.trans h.cls, k.label.trans h.label,
    k.reason.trans h.reason, k.confirmed.trans h.confirmed, k.retryWait.trans h.retryWait,
    k.ringWatch.trans h.ringWatch, k.home.trans h.home⟩

theorem queued_iff (st : CallState) : st.queued = true ↔ st = .waiting ∨ st = .offered := by
  cases st <;> simp [CallState.queued]

theorem Redistributed.refl (night : Bool) (dest : OriginNo → Half) {c : Call}
    (h : c.state.queued = true) : Redistributed night dest c c := by
  rcases (queued_iff _).1 h with h | h
  · exact ⟨.refl c, .inl h, .inl rfl, fun _ => ⟨rfl, rfl, rfl, rfl⟩, fun hd => by rw [h] at hd; cases hd⟩
  · exact ⟨.refl c, .inr (.inl h), .inl rfl, fun _ => ⟨rfl, rfl, rfl, rfl⟩,
      fun hd => by rw [h] at hd; cases hd⟩

theorem Redistributed.trans {night : Bool} {dest : OriginNo → Half} {c d e : Call}
    (h : Redistributed night dest c d) (hd : d.state.queued = true) (k : Redistributed night dest d e) :
    Redistributed night dest c e := by
  have hn : d.state ≠ .departing := by rintro hx; rw [hx] at hd; cases hd
  obtain ⟨ha, hs, hw, ho⟩ := h.stays hn
  refine ⟨h.same.trans k.same, k.state, ?_, fun he => ?_, fun he => ?_⟩
  · rcases k.preferred with hp | hp
    · rw [hp]; exact h.preferred
    · exact .inr hp
  · obtain ⟨ha', hs', hw', ho'⟩ := k.stays he
    exact ⟨ha'.trans ha, hs'.trans hs, hw'.trans hw, ho'.trans ho⟩
  · have := k.routed he
    rwa [h.same.origin, ho] at this

/-- A slot whose record is the same in both states is passed over. -/
theorem SlotPassed.of_eq {s t : State} {i : SlotNo} (h : t.call i = s.call i) : SlotPassed s t i := by
  unfold SlotPassed
  rw [h]
  cases hc : s.call i with
  | none => rfl
  | some c =>
    by_cases hq : c.state.queued = true
    · simp only [hq, if_true]; exact ⟨c, rfl, .refl _ _ hq⟩
    · simp [hq]

theorem SlotPassed.refl (s : State) (i : SlotNo) : SlotPassed s s i := .of_eq rfl

theorem nightDestination_eq {s t : State} (h : t.groups = s.groups) :
    t.nightDestination = s.nightDestination := by
  funext o; simp only [State.nightDestination, h]

theorem SlotPassed.trans {s t u : State} {i : SlotNo} (hg : t.groups = s.groups)
    (hn : u.nightFlag = t.nightFlag) (h : SlotPassed s t i) (k : SlotPassed t u i) : SlotPassed s u i := by
  unfold SlotPassed at h k ⊢
  rw [nightDestination_eq hg] at k
  rw [hn] at k ⊢
  cases hc : s.call i with
  | none => rw [hc] at h; rw [show t.call i = none from h] at k; exact k
  | some x =>
    rw [hc] at h
    by_cases hx : x.state.queued = true
    · simp only [hx, if_true] at h ⊢
      obtain ⟨d, hd, hr⟩ := h
      rw [hd] at k
      by_cases hq : d.state.queued = true
      · simp only [hq, if_true] at k
        obtain ⟨e, he, hk⟩ := k
        exact ⟨e, he, hr.trans hq hk⟩
      · simp only [hq] at k
        exact ⟨d, k, hr⟩
    · simp only [hx] at h ⊢
      rw [show t.call i = some x from h] at k
      simpa [hx] using k

/-- A call outside the queue is passed over as it is. -/
theorem SlotPassed.outside {s t : State} {i : SlotNo} {c : Call} (h : SlotPassed s t i)
    (hc : s.call i = some c) (hq : c.state.queued = false) : t.call i = some c := by
  simpa [SlotPassed, hc, hq] using h

theorem counterAfter_append (k : ReqNo) (x y : List SwitchNotice) :
    counterAfter k (x ++ y) = counterAfter (counterAfter k x) y := List.foldl_append

theorem FramesJoin.refl (s : State) : FramesJoin s s := ⟨[], by simp, rfl⟩

theorem FramesJoin.trans {s t u : State} (h : FramesJoin s t) (k : FramesJoin t u) : FramesJoin s u := by
  obtain ⟨x, hx, nx⟩ := h
  obtain ⟨y, hy, ny⟩ := k
  exact ⟨x ++ y, by rw [hy, hx, List.append_assoc], by rw [counterAfter_append, ← nx, ny]⟩

/-- Where no frame is placed the counter stays. -/
theorem FramesJoin.of_eq {s t : State} (h : t.txList = s.txList) (k : t.reqCounter = s.reqCounter) :
    FramesJoin s t := ⟨[], by simp [h], by simp [k, counterAfter]⟩

theorem RoutesJoin.of_eq {t : State} {l : List SwitchNotice} (h : t.txList = l) : RoutesJoin t l :=
  ⟨[], rfl, by simp [h]⟩

/-- The frame of a call routed away stays one while the call stays as it is. -/
theorem routes_mono {t u : State} (hn : u.nightFlag = t.nightFlag) (h : ∀ i, SlotPassed t u i) {m : SwitchNotice}
    (hm : t.routes m = true) : u.routes m = true := by
  unfold State.routes at hm ⊢
  split at hm
  · rw [Bool.and_eq_true] at hm ⊢
    obtain ⟨i, hi, hr⟩ := List.any_eq_true.1 hm.2
    refine ⟨hn.trans hm.1, List.any_eq_true.2 ⟨i, hi, ?_⟩⟩
    cases hc : t.call i with
    | none => rw [hc] at hr; cases hr
    | some d =>
      have hr' := hr
      rw [hc] at hr'
      simp only [Option.any_some, Bool.and_eq_true, beq_iff_eq] at hr'
      rw [(h i).outside hc (by rw [hr'.1.1.1]; rfl), ← hc]
      exact hr
  · cases hm

theorem Settled.refl (s : State) : Settled s s :=
  ⟨.refl s, .refl s, fun _ => rfl, rfl, rfl, rfl, rfl, rfl, rfl, rfl, fun _ => .refl _, fun _ => .refl _ _,
    .refl _, .refl s, .of_eq rfl⟩

theorem Settled.trans {s t u : State} (h : Settled s t) (k : Settled t u) : Settled s u := by
  obtain ⟨x, ax, hx⟩ := h.txList
  obtain ⟨y, ay, hy⟩ := k.txList
  have ax' : x.all u.routes = true :=
    List.all_eq_true.2 fun m hm => routes_mono k.nightFlag k.slots (List.all_eq_true.1 ax m hm)
  exact ⟨h.settings.trans k.settings, h.register.trans k.register,
    fun l => (k.links l).trans (h.links l), k.consoles.trans h.consoles, k.orbits.trans h.orbits,
    k.camps.trans h.camps, k.counters.trans h.counters, k.lead.trans h.lead,
    k.nightFlag.trans h.nightFlag, k.draws.trans h.draws,
    fun p => (h.positions p).trans (k.positions p),
    fun i => (h.slots i).trans h.settings.groups k.nightFlag (k.slots i),
    k.queue.trans h.queue, h.frames.trans k.frames, x ++ y, by rw [List.all_append, ax', ay]; rfl,
    by rw [hy, hx, List.append_assoc]⟩

/-- A fold of settling steps settles. -/
theorem Settled.foldl {α : Type} {f : State → α → State} (hf : ∀ s a, Settled s (f s a)) (l : List α)
    (s : State) : Settled s (l.foldl f s) := by
  induction l generalizing s with
  | nil => exact .refl s
  | cons a l ih => exact (hf s a).trans (ih _)

/-! ## The parts -/

theorem setOffer_settled (p : PosNo) (o : Option SlotNo) (s : State) : Settled s (setOffer p o s) := by
  refine ⟨by constructor <;> rfl, ⟨rfl, rfl, rfl⟩, fun l => by simp [setOffer], rfl, rfl, rfl, rfl, rfl,
    rfl, rfl, fun q => ?_, fun i => .of_eq ?_, .refl _, .of_eq rfl rfl, .of_eq rfl⟩
  · by_cases h : p = q
    · subst h; simp only [setOffer, setPos_pos, if_true]; exact ⟨rfl, rfl, rfl, rfl, rfl, rfl⟩
    · simp only [setOffer, setPos_pos, h, if_false]; exact .refl _
  · rfl

/-- A change of one queued call's record that redistributes it settles. -/
theorem modCall_settled (i : SlotNo) (f : Call → Call) (s : State)
    (hf : ∀ c, s.call i = some c →
      f c = c ∨ c.state.queued = true ∧ Redistributed s.nightFlag s.nightDestination c (f c)) :
    Settled s (s.modCall i f) := by
  refine ⟨by constructor <;> rfl, ⟨rfl, rfl, rfl⟩, fun l => by simp, rfl, rfl, rfl, rfl, rfl,
    rfl, rfl, fun q => .refl _, fun j => ?_, .refl _, .of_eq rfl rfl, .of_eq rfl⟩
  by_cases h : i = j
  · subst h
    cases hc : s.call i with
    | none => exact .of_eq (by simp [hc])
    | some c =>
      rcases hf c hc with he | ⟨hq, hr⟩
      · exact .of_eq (by simp [hc, he])
      · simp only [SlotPassed, hc, hq, if_true, modCall_call, Option.map_some]; exact ⟨f c, rfl, hr⟩
  · exact .of_eq (by simp [h])

theorem enter_queued (night : Bool) (dest : OriginNo → Half) {c : Call} {st : CallState} (hc : c.state.queued = true)
    (hs : st.queued = true) : Redistributed night dest c (c.enter st) := by
  have hn : st.seated = false := by cases st <;> simp_all [CallState.queued, CallState.seated]
  refine ⟨⟨rfl, rfl, rfl, rfl, rfl, rfl, rfl, rfl, ?_⟩, ?_, .inl rfl, fun _ => ?_, fun hd => ?_⟩
  · simp only [Call.enter, hn]; cases c.home <;> rfl
  · rcases (queued_iff st).1 hs with h | h
    · exact .inl h
    · exact .inr (.inl h)
  · simp [Call.enter, hc, hs]
  · have : st = .departing := hd
    subst this; cases hs

theorem modOffered_settled (i : SlotNo) (f : Call → Call) (s : State)
    (hf : ∀ c, c.state = .offered → Redistributed s.nightFlag s.nightDestination c (f c)) :
    Settled s (modOffered i f s) := by
  apply modCall_settled
  intro c _
  by_cases h : c.state = .offered
  · simp only [h, if_true]
    exact .inr ⟨(queued_iff _).2 (.inr rfl), hf c h⟩
  · simp [h]

theorem withdrawAt_settled (p : PosNo) (s : State) : Settled s (withdrawAt p s) := by
  unfold withdrawAt
  cases (s.pos p).offer with
  | none => exact .refl s
  | some i =>
    have h1 := setOffer_settled p none s
    have h2 : Settled (setOffer p none s)
        (modOffered i (fun c => { c with preferred := none }) (setOffer p none s)) :=
      modOffered_settled i _ _ fun c hc =>
        ⟨⟨rfl, rfl, rfl, rfl, rfl, rfl, rfl, rfl, rfl⟩, .inr (.inl hc), .inr rfl,
          fun _ => ⟨rfl, rfl, rfl, rfl⟩, fun hd => by rw [show c.state = .departing from hd] at hc; cases hc⟩
    dsimp only
    split
    · exact h1.trans h2
    · refine (h1.trans h2).trans (modOffered_settled i _ _ fun c hc => ?_)
      exact enter_queued _ _ ((queued_iff _).2 (.inr hc)) rfl

theorem withdrawAll_settled (s : State) : Settled s (withdrawAll s) :=
  Settled.foldl (fun s p => withdrawAt_settled p s) _ s

theorem withdrawMasked_settled (s : State) : Settled s (withdrawMasked s) := by
  refine Settled.foldl (fun s p => ?_) _ s
  cases (s.pos p).offer with
  | none => exact .refl s
  | some i =>
    cases hc : s.call i with
    | none => simp only [hc]; exact .refl s
    | some c =>
      simp only [hc]
      split
      · exact .refl s
      · exact withdrawAt_settled p s

theorem withdrawCall_settled (i : SlotNo) (s : State) : Settled s (withdrawCall i s) := by
  refine Settled.foldl (fun s p => ?_) _ s
  by_cases h : (s.pos p).offer = some i
  · simp only [h, if_true]; exact withdrawAt_settled p s
  · simp only [h, if_false]; exact .refl s

theorem endOffers_settled (i : SlotNo) (s : State) : Settled s (endOffers i s) := by
  refine Settled.foldl (fun s p => ?_) _ s
  by_cases h : (s.pos p).offer = some i
  · simp only [h, if_true]; exact setOffer_settled p none s
  · simp only [h, if_false]; exact .refl s

/-- Writing the effective plan, its band or the available list settles. -/
theorem settled_of_fields (s : State) (e : Plan) (bd : Band) (av : List PosNo) :
    Settled s { s with eff := e, band := bd, available := av } :=
  ⟨by constructor <;> rfl, ⟨rfl, rfl, rfl⟩, fun l => by cases l <;> rfl, rfl, rfl, rfl, rfl, rfl, rfl,
    rfl, fun _ => .refl _, fun _ => .of_eq rfl, .refl _, .of_eq rfl rfl, .of_eq rfl⟩

theorem recompute_settled (s : State) : Settled s (recompute s) := by
  have h := settled_of_fields s (planInForce s.selection s.plans s.depth)
    (bandInForce s.selection s.plans s.depth) s.available
  unfold recompute
  dsimp only
  split
  · exact h.trans (withdrawAll_settled _)
  · split
    · exact h.trans (withdrawMasked_settled _)
    · exact h

theorem recomputeUnderLoad_settled (s : State) : Settled s (recomputeUnderLoad s) := by
  unfold recomputeUnderLoad
  split
  · exact recompute_settled s
  · exact .refl s

theorem rejudge_settled (s : State) : Settled s (rejudge s) := settled_of_fields s s.eff s.band _

theorem dropShowings_settled (s : State) : Settled s (dropShowings s) := by
  unfold dropShowings
  split
  · refine Settled.foldl (fun s p => ?_) _ s
    split
    · exact .refl s
    · exact withdrawAt_settled p s
  · exact .refl s

/-! ## Night routing -/

/-- What the issue rule does: nothing, or the next number, one PATH_REQ for the wanted connection, and
the outstanding request (R146). -/
theorem issue_cases (i : SlotNo) (s : State) :
    issue i s = s ∨ ∃ c, s.call i = some c ∧ s.mayIssue c = true ∧
      issue i s = { s with
        reqCounter := s.nextNumber
        txList := s.txList ++ [.pathReq s.nextNumber c.tag c.wanted]
        slots := vset s.slots i
          (some { c with outstanding := some { number := s.nextNumber, target := c.wanted } }) } := by
  unfold issue
  cases hc : s.call i with
  | none => exact .inl rfl
  | some c =>
    dsimp only
    by_cases h : s.mayIssue c = true
    · refine .inr ⟨c, rfl, h, ?_⟩
      rw [if_pos h]
      have : (s.slots[i.val] : Option Call) = some c := hc
      simp [State.modCall, State.setCall, State.call, enlist, this]
    · exact .inl (if_neg h)

/-- A WAITING call routed away to the night destination of its origin (R78). -/
theorem depart_away_settled (i : SlotNo) (s : State) (c : Call) (hc : s.call i = some c)
    (hw : c.state = .waiting) (hd : s.nightDestination c.origin ≠ 0) (hn : s.nightFlag = true) :
    Settled s (depart i none (.away (s.nightDestination c.origin)) s) := by
  obtain ⟨d, hdd⟩ : ∃ d, d = s.nightDestination c.origin := ⟨_, rfl⟩
  rw [← hdd] at hd ⊢
  have hleave : leave i s = { s with queue := s.queue.filter (· != i) } := by
    simp [leave, hc, hw]
  have hcq : c.state.queued = true := by rw [hw]; rfl
  -- the record after the state change, with its request kept or made for it
  have hrec : ∀ o, (o = c.outstanding ∨ c.outstanding = none ∧
        ∃ n, o = some { number := n, target := .away d }) →
      Redistributed s.nightFlag s.nightDestination c
        { c.enter .departing with extension := none, wanted := .away d, outstanding := o } := by
    intro o ho
    refine ⟨⟨rfl, rfl, rfl, rfl, rfl, rfl, rfl, rfl, ?_⟩, .inr (.inr rfl), .inl rfl,
      fun h => absurd rfl h, fun _ => ?_⟩
    · simp only [Call.enter, CallState.seated]; cases c.home <;> rfl
    · rw [← hdd]
      exact ⟨hn, by simp [Call.enter, CallState.queued], rfl, hd, rfl, ho⟩
  -- the state after the state change
  let t : State := { s with queue := s.queue.filter (· != i) }.modCall i
    (fun c => { c.enter .departing with extension := none })
  have htc : t.call i = some { c.enter .departing with extension := none } := by
    have : ({ s with queue := s.queue.filter (· != i) } : State).call i = some c := hc
    simp [t, this]
  -- the state with a record for the slot, a counter and a list settles
  have key : ∀ (r : Call) (n : ReqNo) (sent : List SwitchNotice),
      Redistributed s.nightFlag s.nightDestination c r → n = counterAfter s.reqCounter sent →
      ∀ u : State, u = {
        s with
        queue := s.queue.filter (· != i)
        reqCounter := n
        txList := s.txList ++ sent
        slots := vset s.slots i (some r) } → sent.all u.routes = true → Settled s u := by
    rintro r n sent hr hn u rfl ha
    refine ⟨by constructor <;> rfl, ⟨rfl, rfl, rfl⟩, fun l => by cases l <;> rfl, rfl, rfl, rfl, rfl,
      rfl, rfl, rfl, fun _ => .refl _, fun j => ?_, List.filter_sublist, ⟨sent, rfl, hn⟩, sent, ha, rfl⟩
    by_cases h : i = j
    · subst h
      simp only [SlotPassed, hc, hcq, if_true]
      exact ⟨r, by simp [State.call], hr⟩
    · exact .of_eq (by simp [State.call, h])
  have hslot : (s.slots[i.val] : Option Call) = some c := hc
  unfold depart
  rw [hleave]
  change Settled s (want i (.away d) t)
  unfold want
  rw [htc]
  dsimp only
  by_cases hsame : (c.enter .departing).wanted = .away d
  · rw [if_pos hsame]
    refine key { c.enter .departing with extension := none } s.reqCounter [] ?_ rfl _ ?_ rfl
    · have := hrec c.outstanding (.inl rfl)
      have hw' : c.wanted = .away d := hsame
      rw [← hw'] at this
      exact this
    · simp [t, State.modCall, State.setCall, State.call, hslot]
  · rw [if_neg hsame]
    let r : Call := { c.enter .departing with extension := none, wanted := .away d }
    have hu : t.modCall i (fun c => { c with wanted := .away d }) =
        { s with queue := s.queue.filter (· != i), slots := vset s.slots i (some r) } := by
      simp [t, r, State.modCall, State.setCall, State.call, hslot, vset_vset]
    rw [hu]
    rcases issue_cases i { s with queue := s.queue.filter (· != i), slots := vset s.slots i (some r) }
      with h | ⟨e, he, hmay, h⟩
    · rw [h]
      exact key r s.reqCounter [] (hrec c.outstanding (.inl rfl)) rfl _ (by simp) rfl
    · have her : e = r := by simpa [State.call] using he.symm
      subst her
      have hnone : c.outstanding = none := by
        simp only [State.mayIssue, Bool.and_eq_true, Option.isNone_iff_eq_none] at hmay
        exact hmay.1.1.1
      rw [h]
      generalize State.nextNumber { s with
        queue := s.queue.filter (· != i), slots := vset s.slots i (some r) } = n
      refine key _ n [.pathReq n r.tag r.wanted]
        (hrec (some { number := n, target := .away d }) (.inr ⟨hnone, n, rfl⟩)) rfl _
        (by rw [vset_vset]) ?_
      simp only [List.all_cons, List.all_nil, Bool.and_true, State.routes, r, hn, Bool.true_and]
      exact List.any_eq_true.2 ⟨i, List.mem_finRange i, by simp [State.call, Call.enter]⟩

theorem nightRoute_settled (s : State) (hn : s.nightFlag = true) : Settled s (nightRoute s) := by
  unfold nightRoute
  generalize s.queue = l
  induction l generalizing s with
  | nil => exact .refl s
  | cons i l ih =>
    rw [List.foldl_cons]
    cases hc : s.call i with
    | none => exact ih s hn
    | some c =>
      dsimp only
      split
      · rename_i h
        have hd := depart_away_settled i s c hc h.1 h.2 hn
        exact hd.trans (ih _ (hd.nightFlag.trans hn))
      · exact ih s hn

/-! ## Offers and showings -/

theorem offerTo_settled (p : PosNo) (i : SlotNo) (s : State)
    (hq : ∀ c, s.call i = some c → c.state.queued = true) : Settled s (offerTo p i s) := by
  have h1 : Settled s (s.modCall i (fun c => { c.enter .offered with offer := some (.one p) })) :=
    modCall_settled i _ s fun c hc => .inr ⟨hq c hc,
      have h := enter_queued s.nightFlag s.nightDestination (hq c hc) (st := .offered) rfl
      ⟨⟨h.same.tag, h.same.origin, h.same.cls, h.same.label, h.same.reason, h.same.confirmed,
        h.same.retryWait, h.same.ringWatch, h.same.home⟩, h.state, h.preferred, h.stays, h.routed⟩⟩
  exact (h1.trans (setOffer_settled p (some i) _)).trans (settled_of_fields _ _ _ _)

theorem showTo_settled (p : PosNo) (i : SlotNo) (s : State)
    (hq : ∀ c, s.call i = some c → c.state.queued = true) : Settled s (showTo p i s) := by
  have h1 : Settled s (s.modCall i (fun c => { c.enter .offered with offer := some .all })) :=
    modCall_settled i _ s fun c hc => .inr ⟨hq c hc,
      have h := enter_queued s.nightFlag s.nightDestination (hq c hc) (st := .offered) rfl
      ⟨⟨h.same.tag, h.same.origin, h.same.cls, h.same.label, h.same.reason, h.same.confirmed,
        h.same.retryWait, h.same.ringWatch, h.same.home⟩, h.state, h.preferred, h.stays, h.routed⟩⟩
  exact h1.trans (setOffer_settled p (some i) _)

theorem walk_settled (s : State) : Settled s (walk s) := by
  unfold walk
  generalize s.queue = l
  refine Settled.foldl (fun s i => ?_) l s
  cases hc : s.call i with
  | none => exact .refl s
  | some c =>
    dsimp only
    split
    · rename_i hw
      cases chooseCandidate s c with
      | none => exact .refl s
      | some p =>
        refine offerTo_settled p i s fun d hd => ?_
        have : d = c := by simpa [hd] using hc
        subst this; rw [hw]; rfl
    · exact .refl s

theorem firstFor_queued {s : State} {p : PosNo} {i : SlotNo} (h : firstFor s p = some i) :
    ∃ c, s.call i = some c ∧ c.state.queued = true ∧ s.eff.allows c.cls p = true := by
  have := List.find?_some h
  cases hc : s.call i with
  | none => simp [hc] at this
  | some c => exact ⟨c, rfl, by simpa [hc] using this⟩

theorem showing_settled (s : State) : Settled s (showing s) := by
  unfold showing
  generalize s.available = l
  refine Settled.foldl (fun s p => ?_) l s
  split
  · exact .refl s
  · cases hf : firstFor s p with
    | none => exact .refl s
    | some i =>
      obtain ⟨c, hc, hq, _⟩ := firstFor_queued hf
      refine showTo_settled p i s fun d hd => ?_
      have : d = c := by simpa [hd] using hc
      subst this; exact hq

theorem distribute_settled (s : State) : Settled s (distribute s) := by
  unfold distribute
  split
  · exact walk_settled s
  · exact showing_settled s

theorem settleWith_settled (fuel : Nat) (s : State) : Settled s (settleWith fuel s) := by
  induction fuel generalizing s with
  | zero => exact .refl s
  | succ fuel ih =>
    unfold settleWith
    have h1 := ((recomputeUnderLoad_settled s).trans (rejudge_settled _)).trans (dropShowings_settled _)
    have h2 : Settled (dropShowings (rejudge (recomputeUnderLoad s)))
        (if (dropShowings (rejudge (recomputeUnderLoad s))).nightFlag
          then nightRoute (dropShowings (rejudge (recomputeUnderLoad s)))
          else dropShowings (rejudge (recomputeUnderLoad s))) := by
      split
      · rename_i hn; exact nightRoute_settled _ hn
      · exact .refl _
    dsimp only
    generalize (if (dropShowings (rejudge (recomputeUnderLoad s))).nightFlag = true
      then nightRoute (dropShowings (rejudge (recomputeUnderLoad s)))
      else dropShowings (rejudge (recomputeUnderLoad s))) = t at h2 ⊢
    split
    · exact (h1.trans h2).trans (ih t)
    · exact (h1.trans h2).trans (distribute_settled t)

/-- All that the re-establishing of the distribution condition can do (R77). -/
theorem settle_settled (s : State) : Settled s (settle s) := settleWith_settled _ s

theorem replan_settled (s : State) : Settled s (replan s) := by
  unfold replan
  dsimp only
  split
  · exact (recompute_settled s).trans (settle_settled _)
  · exact recompute_settled s

/-! ## Preferred positions

Before the walk or the showing no call becomes OFFERED, and in it every call keeps its preference: so
distribution as a whole clears the preference of an OFFERED call alone. -/

/-- A call that is not OFFERED is not offered and keeps its preferred position. -/
def Unoffered (s t : State) : Prop :=
  ∀ i c, s.call i = some c → c.state ≠ .offered →
    ∃ d, t.call i = some d ∧ d.state ≠ .offered ∧ d.preferred = c.preferred

/-- Every call keeps its preferred position. -/
def Preferring (s t : State) : Prop :=
  ∀ i c, s.call i = some c → ∃ d, t.call i = some d ∧ d.preferred = c.preferred

theorem Unoffered.of_eq {s t : State} (h : t.slots = s.slots) : Unoffered s t :=
  fun i c hc hn => ⟨c, by rw [State.call, h]; exact hc, hn, rfl⟩

theorem Unoffered.trans {s t u : State} (h : Unoffered s t) (k : Unoffered t u) : Unoffered s u := by
  intro i c hc hn
  obtain ⟨d, hd, hdn, hp⟩ := h i c hc hn
  obtain ⟨e, he, hen, hq⟩ := k i d hd hdn
  exact ⟨e, he, hen, hq.trans hp⟩

theorem Unoffered.foldl {α : Type} {f : State → α → State} (hf : ∀ s a, Unoffered s (f s a)) (l : List α)
    (s : State) : Unoffered s (l.foldl f s) := by
  induction l generalizing s with
  | nil => exact .of_eq rfl
  | cons a l ih => exact (hf s a).trans (ih _)

theorem Preferring.of_eq {s t : State} (h : t.slots = s.slots) : Preferring s t :=
  fun i c hc => ⟨c, by rw [State.call, h]; exact hc, rfl⟩

theorem Preferring.trans {s t u : State} (h : Preferring s t) (k : Preferring t u) : Preferring s u := by
  intro i c hc
  obtain ⟨d, hd, hp⟩ := h i c hc
  obtain ⟨e, he, hq⟩ := k i d hd
  exact ⟨e, he, hq.trans hp⟩

theorem Preferring.foldl {α : Type} {f : State → α → State} (hf : ∀ s a, Preferring s (f s a))
    (l : List α) (s : State) : Preferring s (l.foldl f s) := by
  induction l generalizing s with
  | nil => exact .of_eq rfl
  | cons a l ih => exact (hf s a).trans (ih _)

theorem modCall_preferring (i : SlotNo) (f : Call → Call) (s : State)
    (hf : ∀ c, (f c).preferred = c.preferred) : Preferring s (s.modCall i f) := by
  intro j c hc
  by_cases h : i = j
  · subst h; exact ⟨f c, by simp [hc], hf c⟩
  · exact ⟨c, by simp [h, hc], rfl⟩

theorem modCall_unoffered (i : SlotNo) (f : Call → Call) (s : State)
    (hf : ∀ c, c.state ≠ .offered → (f c).state ≠ .offered ∧ (f c).preferred = c.preferred) :
    Unoffered s (s.modCall i f) := by
  intro j c hc hn
  by_cases h : i = j
  · subst h; exact ⟨f c, by simp [hc], hf c hn⟩
  · exact ⟨c, by simp [h, hc], hn, rfl⟩

theorem modOffered_unoffered (i : SlotNo) (f : Call → Call) (s : State) :
    Unoffered s (modOffered i f s) := by
  intro j c hc hn
  refine ⟨c, ?_, hn, rfl⟩
  by_cases h : i = j
  · subst h; simp [modOffered, hc, hn]
  · simp [modOffered, h, hc]

theorem withdrawAt_unoffered (p : PosNo) (s : State) : Unoffered s (withdrawAt p s) := by
  unfold withdrawAt
  split
  · exact .of_eq rfl
  · rename_i i _
    have h := (Unoffered.of_eq (t := setOffer p none s) rfl).trans
      (modOffered_unoffered i (fun c => { c with preferred := none }) _)
    dsimp only
    split
    · exact h
    · exact h.trans (modOffered_unoffered _ _ _)

theorem recompute_unoffered (s : State) : Unoffered s (recompute s) := by
  have h : Unoffered s
      { s with
        eff := planInForce s.selection s.plans s.depth
        band := bandInForce s.selection s.plans s.depth } := .of_eq rfl
  unfold recompute
  dsimp only
  split
  · exact h.trans (.foldl (fun s p => withdrawAt_unoffered p s) _ _)
  · split
    · refine h.trans (.foldl (fun s p => ?_) _ _)
      split
      · exact .of_eq rfl
      · split
        · exact .of_eq rfl
        · split
          · exact .of_eq rfl
          · exact withdrawAt_unoffered p s
    · exact h

theorem dropShowings_unoffered (s : State) : Unoffered s (dropShowings s) := by
  unfold dropShowings
  split
  · refine .foldl (fun s p => ?_) _ s
    split
    · exact .of_eq rfl
    · exact withdrawAt_unoffered p s
  · exact .of_eq rfl

/-- A change of what is wanted changes no state of a call and no preference. -/
theorem want_unoffered (i : SlotNo) (w : Conn) (s : State) : Unoffered s (want i w s) := by
  have hissue : ∀ s : State, Unoffered s (issue i s) := by
    intro s
    rcases issue_cases i s with h | ⟨c, hc, _, h⟩
    · rw [h]; exact .of_eq rfl
    · rw [h]
      intro j d hd hn
      by_cases hij : i = j
      · subst hij
        rw [hc] at hd; cases hd
        exact ⟨{ c with outstanding := some { number := s.nextNumber, target := c.wanted } },
          by simp [State.call], hn, rfl⟩
      · exact ⟨d, by rw [← hd]; simp [State.call, hij], hn, rfl⟩
  unfold want
  split
  · exact .of_eq rfl
  · split
    · exact .of_eq rfl
    · exact (modCall_unoffered i (fun c => { c with wanted := w }) s fun _ h => ⟨h, rfl⟩).trans
        (hissue _)

theorem nightRoute_unoffered (s : State) : Unoffered s (nightRoute s) := by
  unfold nightRoute
  generalize s.queue = l
  refine .foldl (fun s i => ?_) l s
  cases hc : s.call i with
  | none => exact .of_eq rfl
  | some c =>
    dsimp only
    split
    · rename_i h
      have hleave : leave i s = { s with queue := s.queue.filter (· != i) } := by simp [leave, hc, h.1]
      unfold depart
      rw [hleave]
      exact ((Unoffered.of_eq (t := { s with queue := s.queue.filter (· != i) }) rfl).trans
        (modCall_unoffered i (fun c => { c.enter .departing with extension := none }) _
          fun _ _ => ⟨by simp [Call.enter], rfl⟩)).trans (want_unoffered _ _ _)
    · exact .of_eq rfl

theorem distribute_preferring (s : State) : Preferring s (distribute s) := by
  unfold distribute
  split
  · refine .foldl (fun s i => ?_) _ s
    split
    · exact .of_eq rfl
    · split
      · split
        · exact (modCall_preferring i (fun c => { c.enter .offered with offer := some (.one _) }) s
            fun _ => rfl).trans (.of_eq rfl)
        · exact .of_eq rfl
      · exact .of_eq rfl
  · refine .foldl (fun s p => ?_) _ s
    split
    · exact .of_eq rfl
    · split
      · exact (modCall_preferring _ (fun c => { c.enter .offered with offer := some .all }) s
          fun _ => rfl).trans (.of_eq rfl)
      · exact .of_eq rfl

theorem settleWith_waited (fuel : Nat) (s : State) : ∀ i c, s.call i = some c → c.state ≠ .offered →
    ∃ d, (settleWith fuel s).call i = some d ∧ d.preferred = c.preferred := by
  induction fuel generalizing s with
  | zero => exact fun i c hc _ => ⟨c, hc, rfl⟩
  | succ fuel ih =>
    have h0 : Unoffered s (recomputeUnderLoad s) := by
      unfold recomputeUnderLoad
      split
      · exact recompute_unoffered s
      · exact .of_eq rfl
    have h1 := (h0.trans (.of_eq (t := rejudge (recomputeUnderLoad s)) rfl)).trans
      (dropShowings_unoffered _)
    unfold settleWith
    generalize dropShowings (rejudge (recomputeUnderLoad s)) = u at h1 ⊢
    have h2 : Unoffered u (if u.nightFlag = true then nightRoute u else u) := by
      split
      · exact nightRoute_unoffered u
      · exact .of_eq rfl
    dsimp only
    generalize (if u.nightFlag = true then nightRoute u else u) = t at h2 ⊢
    intro i c hc hn
    obtain ⟨d, hd, hdn, hp⟩ := (h1.trans h2) i c hc hn
    split
    · obtain ⟨e, he, hq⟩ := ih t i d hd hdn
      exact ⟨e, he, hq.trans hp⟩
    · obtain ⟨e, he, hq⟩ := distribute_preferring t i d hd
      exact ⟨e, he, hq.trans hp⟩

end Sys2Proof.Machine
end

