-- ==== Sys2Proof/Laws/Actions.lean ====
section
/-! SUPPORT. What surrounds the work of an order: the receipt of its frame, its answer, and the end of the
action, when the console sets take the notices of what has changed. -/
namespace Sys2Proof.Machine

/-! ## Arrangements -/

/-- An arrangement holds what its list holds. -/
theorem arrange_perm {α : Type} (n : Nat) (l : List α) : (arrange n l).Perm l := by
  induction l generalizing n with
  | nil => exact .refl _
  | cons x l ih =>
    cases l with
    | nil => exact .refl _
    | cons y rest =>
      have h := ih (n / (rest.length + 2))
      refine (List.perm_insertIdx x _ ?_).trans (.cons x h)
      have hl : (arrange (n / (rest.length + 2)) (y :: rest)).length = rest.length + 1 := by
        simpa using h.length_eq
      rw [hl]
      have := Nat.mod_lt n (show 0 < rest.length + 2 by omega)
      omega

/-! ## The console transmit sets (R171) -/

/-- A console notice without a subject is a RESULT. -/
def resultsOf (l : List ConsoleNotice) : List ConsoleNotice := l.filter (fun n => n.subject.isNone)

theorem notice_subject (s : State) (p : PosNo) (k : Subject) : (s.notice p k).subject = some k := by
  cases k with
  | loop l =>
    simp only [State.notice, State.loopNotice]
    split <;> rfl
  | offer =>
    simp only [State.notice, State.offerNotice]
    split
    · rfl
    · split <;> rfl
  | queue => rfl
  | park => rfl
  | position => rfl

/-- A subject made pending leaves the RESULT entries as they are. -/
theorem pend_results (l : List ConsoleNotice) (n : ConsoleNotice) (hn : n.subject.isNone = false) :
    resultsOf (pend l n) = resultsOf l := by
  have hns : n.subject ≠ none := by intro h; rw [h] at hn; cases hn
  unfold pend resultsOf
  split
  · clear * - hn hns
    induction l with
    | nil => rfl
    | cons m l ih =>
      simp only [beq_iff_eq] at ih
      by_cases h : m.subject = n.subject
      · simp [h, hn, ih]
      · simp [h, List.filter_cons, ih]
  · simp [List.filter_append, hn]

/-- What making subjects pending for console p changes: that console's pending list alone. -/
theorem makePending_spec (p : PosNo) (ks : List Subject) (s : State) :
    ∃ l, makePending p ks s = s.setConsole p { s.console p with pending := l } ∧
      resultsOf l = resultsOf (s.console p).pending := by
  refine ⟨_, rfl, ?_⟩
  generalize (s.console p).pending = l
  induction ks generalizing l with
  | nil => rfl
  | cons k ks ih =>
    rw [List.foldl_cons, ih]
    exact pend_results l _ (by rw [notice_subject]; rfl)

/-- The console sets differ in subject entries alone. -/
structure OnlySubjects (s t : State) : Prop where
  state : t = { s with consoles := t.consoles }
  sending : ∀ p, (t.console p).sending = (s.console p).sending
  results : ∀ p, resultsOf (t.console p).pending = resultsOf (s.console p).pending

theorem OnlySubjects.refl (s : State) : OnlySubjects s s := ⟨rfl, fun _ => rfl, fun _ => rfl⟩

theorem OnlySubjects.trans {s t u : State} (h : OnlySubjects s t) (k : OnlySubjects t u) :
    OnlySubjects s u :=
  ⟨by rw [k.state, h.state], fun p => (k.sending p).trans (h.sending p),
    fun p => (k.results p).trans (h.results p)⟩

theorem makePending_onlySubjects (p : PosNo) (ks : List Subject) (s : State) :
    OnlySubjects s (makePending p ks s) := by
  obtain ⟨l, hl, hr⟩ := makePending_spec p ks s
  rw [hl]
  refine ⟨rfl, fun q => ?_, fun q => ?_⟩
  · by_cases h : p = q
    · subst h; simp
    · simp [h]
  · by_cases h : p = q
    · subst h; simpa using hr
    · simp [h]

/-! ## The end of an action -/

theorem announce_onlySubjects (old new : State) :
    OnlySubjects new (allPos.foldl (fun s p => announceTo old new p s) new) := by
  have h : ∀ (l : List PosNo) (s : State),
      OnlySubjects s (l.foldl (fun s p => announceTo old new p s) s) := by
    intro l
    induction l with
    | nil => exact .refl
    | cons p l ih =>
      intro s
      refine OnlySubjects.trans ?_ (ih _)
      show OnlySubjects s (announceTo old new p s)
      unfold announceTo
      split
      · exact makePending_onlySubjects p _ s
      · exact .refl s
  exact h _ _

/-- All that the end of an action can do. -/
theorem announce_announced (old new : State) : Announced new (announce old new) := by
  have h := announce_onlySubjects old new
  unfold announce
  generalize allPos.foldl (fun s p => announceTo old new p s) new = u at h
  obtain ⟨hs, hsend, hres⟩ := h
  refine ⟨?_, fun p => ?_, fun p => hsend p, fun p => hres p⟩
  · rw [hs]; rfl
  · rw [hs]; simp [endAction, State.pos]

theorem act_announced (f : State → State) (s : State) : Announced (f s) (act f s) :=
  announce_announced s (f s)

namespace Announced
variable {s t : State} (h : Announced s t)
include h

theorem call (i : SlotNo) : t.call i = s.call i := by rw [h.state]; rfl
theorem link (l : Link) : t.link l = s.link l := by rw [h.state]; cases l <;> rfl
theorem origin (o : OriginNo) : t.origin o = s.origin o := by rw [h.state]; rfl
theorem orbitSlot (o : OrbitNo) : t.orbitSlot o = s.orbitSlot o := by rw [h.state]; rfl
theorem count (c : Counter) : t.count c = s.count c := by rw [h.state]; rfl
theorem settings : SettingsKept s t := by rw [h.state]; constructor <;> rfl
theorem register : RegisterKept s t := by rw [h.state]; exact ⟨rfl, rfl, rfl⟩
theorem newsClear : t.NewsClear := fun p => by rw [h.positions]
theorem loop (p : PosNo) (l : LoopNo) : (t.pos p).loop l = (s.pos p).loop l := by
  rw [h.positions]; rfl
theorem queue : t.queue = s.queue := by rw [h.state]
theorem frames : FramesJoin s t := .of_eq (by rw [h.state]) (by rw [h.state])
theorem txList : t.txList = s.txList := by rw [h.state]
theorem counters : t.counters = s.counters := by rw [h.state]
theorem orbits : t.orbits = s.orbits := by rw [h.state]
theorem camps : t.camps = s.camps := by rw [h.state]
theorem lead : t.lead = s.lead := by rw [h.state]
theorem nightFlag : t.nightFlag = s.nightFlag := by rw [h.state]
theorem eff : t.eff = s.eff := by rw [h.state]
theorem band : t.band = s.band := by rw [h.state]
theorem available : t.available = s.available := by rw [h.state]
theorem reqCounter : t.reqCounter = s.reqCounter := by rw [h.state]
theorem slots : t.slots = s.slots := by rw [h.state]

end Announced

/-! ## An action that changes nothing the consoles are shown -/

theorem arrange_nil {α : Type} (n : Nat) : arrange n ([] : List α) = [] := rfl

theorem makePending_nil (p : PosNo) (s : State) : makePending p [] s = s := setConsole_self s p

/-- When no console's subjects have changed, the end of an action only takes the next draw. -/
theorem announce_quiet {old new : State} (h : ∀ p, changedSubjects old new p = [])
    (hn : new.NewsClear) : announce old new = { new with draws := new.draws + 1 } := by
  have hp : ∀ p, pendingOrder old new p = [] := by
    intro p; simp [pendingOrder, h p, arrange_nil]
  have hf : ∀ (l : List PosNo), l.foldl (fun s p => announceTo old new p s) new = new := by
    intro l
    induction l with
    | nil => rfl
    | cons p l ih =>
      have : announceTo old new p new = new := by
        unfold announceTo
        split
        · rw [hp, makePending_nil]
        · rfl
      rw [List.foldl_cons, this, ih]
  unfold announce
  rw [hf]
  unfold endAction
  have hm : new.positions.map (fun c => { c with offerNews := false }) = new.positions := by
    ext i hi
    simp only [Vector.getElem_map]
    have := hn ⟨i, hi⟩
    simp only [State.pos, Fin.getElem_fin] at this
    rw [← this]
  rw [hm]

/-- The subjects of a console have not changed where all that its notices show is as it was. -/
theorem changedSubjects_same {old new : State} (hs : new.slots = old.slots)
    (hp : new.positions = old.positions) (ho : new.orbits = old.orbits) (hq : new.queue = old.queue)
    (hl : new.lead = old.lead) (hb : new.band = old.band) (hf : new.nightFlag = old.nightFlag)
    (hn : new.NewsClear) (p : PosNo) : changedSubjects old new p = [] := by
  have hc : ∀ i, new.call i = old.call i := fun i => by simp only [State.call, hs]
  have hpos : ∀ q, new.pos q = old.pos q := fun q => by simp only [State.pos, hp]
  have hloop : ∀ l, new.loopCall p l = old.loopCall p l := fun l => by
    simp only [State.loopCall, hpos, hc]
  have hlamp : ∀ l, new.lamp p l = old.lamp p l := fun l => by
    simp only [State.lamp, hloop, hpos]
  have hnot : ∀ k, k ≠ .offer → k ≠ .park → old.notice p k = new.notice p k := by
    intro k h1 h2
    cases k with
    | loop l => simp only [State.notice, State.loopNotice, hloop, hlamp, hpos]
    | offer => exact absurd rfl h1
    | queue =>
      have ha : old.storedAge = new.storedAge := by funext i; simp [State.storedAge, hc]
      simp only [State.notice, State.queueNotice, State.depth, State.oldestAge, hq, hb, hf, ha]
    | park => exact absurd rfl h2
    | position => simp only [State.notice, State.positionNotice, hpos, hl]
  simp only [changedSubjects, List.filter_eq_nil_iff]
  intro k _
  cases k with
  | offer => simp [hn p]
  | park => simp [ho]
  | loop l => simp [hnot (.loop l) (by simp) (by simp)]
  | queue => simp [hnot .queue (by simp) (by simp)]
  | position => simp [hnot .position (by simp) (by simp)]

/-! ## Receipt (R165, R166, R173) -/

theorem receive_switch (s : State) :
    receive .switch s = s.setLink .switch (s.link .switch).hear := rfl

theorem receive_up {s : State} {p : PosNo} (h : (s.link (.console p)).up = true) :
    receive (.console p) s = s.setLink (.console p) (s.link (.console p)).hear := by
  simp [receive, LinkUnit.hear, h]

theorem receive_down {s : State} {p : PosNo} (h : (s.link (.console p)).up = false) :
    receive (.console p) s =
      announce s (restoration p (s.setLink (.console p) (s.link (.console p)).hear)) := by
  simp [receive, LinkUnit.hear, h]

/-! ## Answers (R169, R170, R171) -/

theorem answerSwitch_room {s : State} (kind : Byte) (code : ResultCode) (h : s.txList.length < 64) :
    answerSwitch kind code s = { s with txList := s.txList ++ [.result kind code] } := by
  exact if_pos (show 1 ≤ 64 - s.txList.length by omega)

theorem answerSwitch_full {s : State} (kind : Byte) (code : ResultCode) (h : 64 ≤ s.txList.length) :
    answerSwitch kind code s = bump .discardedOrders s := by
  exact if_neg (show ¬ 1 ≤ 64 - s.txList.length by omega)

/-- All that placing a frame can do: the frame joins the list, or one counter is raised, or nothing
changes. -/
theorem placeLow_cases (n : SwitchNotice) (s : State) :
    placeLow n s = enlist n s ∨ placeLow n s = bump .droppedNotices s := by
  unfold placeLow; split <;> simp

theorem placeDroppable_cases (n : SwitchNotice) (s : State) :
    placeDroppable n s = enlist n s ∨ placeDroppable n s = bump .droppedNotices s := by
  unfold placeDroppable; split <;> simp

theorem placeAnswer_cases (n : SwitchNotice) (s : State) :
    placeAnswer n s = enlist n s ∨ placeAnswer n s = bump .discardedOrders s := by
  unfold placeAnswer; split <;> simp

theorem placeTested_cases (n : SwitchNotice) (s : State) :
    placeTested n s = enlist n s ∨ placeTested n s = s := by
  unfold placeTested; split <;> simp

/-- An order of the switch of the right length, while the part runs. -/
theorem switchOrder_taken {s : State} {kind : Byte} {len : Nat} {f : State → State}
    (hl : orderLength .switch kind = some len) :
    switchOrder kind len f s = act f (receive .switch s) := by
  simp [switchOrder, hl]

theorem switchOrder_wrong {s : State} {kind : Byte} {len : Nat} {f : State → State}
    (hl : orderLength .switch kind ≠ some len) :
    switchOrder kind len f s = bump .discardedOrders (receive .switch s) := by
  simp [switchOrder, hl]

theorem resultsPending_setLink (s : State) (l : Link) (u : LinkUnit) (p : PosNo) :
    (s.setLink l u).resultsPending p = s.resultsPending p := by
  simp [State.resultsPending]

/-- An order of a console that its owner judges. -/
theorem consoleOrder_taken {s : State} {p : PosNo} {kind : Byte} {len : Nat} {f : State → State}
    (h : s.Hears p) (hl : orderLength (.console p) kind = some len) :
    consoleOrder p kind len f s = act f (s.setLink (.console p) (s.link (.console p)).hear) := by
  simp only [consoleOrder, receive_up h.up]
  rw [if_pos ⟨hl, by rw [resultsPending_setLink]; exact h.room⟩]

end Sys2Proof.Machine
end

