-- ==== Sys2Proof/Laws/Moves.lean ====
section
/-! SUPPORT. What the operations that move one call do: each is written out as the record update it is,
so that whatever the update does not name is seen to be unchanged. -/
namespace Sys2Proof.Machine

/-! ## Request numbers (R145) -/

theorem flatMap_set_same {α β : Type} (f : α → List β) :
    ∀ (l : List α) (i : Nat) (a b : α), l[i]? = some a → f b = f a →
      (l.set i b).flatMap f = l.flatMap f
  | [], i, a, b, h, _ => by simp at h
  | x :: l, 0, a, b, h, hf => by
    have : x = a := by simpa using h
    subst this; simp [hf]
  | x :: l, i + 1, a, b, h, hf => by
    have h' : l[i]? = some a := by simpa using h
    simp [flatMap_set_same f l i a b h' hf]

/-- A change of a record that keeps its numbers keeps the set of live numbers. -/
theorem liveNumbers_vset (s : State) (i : SlotNo) (c d : Call) (hc : s.call i = some c)
    (h : d.numbers = c.numbers) :
    State.liveNumbers { s with slots := vset s.slots i (some d) } = s.liveNumbers := by
  unfold State.liveNumbers
  congr 1
  have hl : (vset s.slots i (some d)).toList = s.slots.toList.set i.val (some d) := by
    simp [vset, Vector.toList_set]
  dsimp only
  rw [hl]
  refine flatMap_set_same _ _ _ (some c) _ ?_ h
  have hi : i.val < 256 := i.isLt
  have : s.slots[i.val] = some c := hc
  rw [← this]
  simp

theorem nextNumber_vset (s : State) (i : SlotNo) (c d : Call) (hc : s.call i = some c)
    (h : d.numbers = c.numbers) :
    State.nextNumber { s with slots := vset s.slots i (some d) } = s.nextNumber := by
  unfold State.nextNumber
  rw [liveNumbers_vset s i c d hc h]

/-! ## The wanted connection (R144, R146) -/

theorem vset_same_call (s : State) (i : SlotNo) (c : Call) (hc : s.call i = some c) :
    vset s.slots i (some c) = s.slots := by
  have : s.slots[i.val] = some c := hc
  rw [← this, vset_self]

theorem modCall_eq {s : State} {i : SlotNo} {c : Call} (hc : s.call i = some c) (f : Call → Call) :
    s.modCall i f = { s with slots := vset s.slots i (some (f c)) } := by
  simp only [State.modCall, State.setCall, hc, Option.map_some]

theorem modCall_none {s : State} {i : SlotNo} (hc : s.call i = none) (f : Call → Call) :
    s.modCall i f = s := by
  have : s.slots[i.val] = none := hc
  simp only [State.modCall, State.setCall, hc, Option.map_none]
  rw [← this, vset_self]

/-- All that naming a wanted connection does. -/
theorem want_eq {s : State} {i : SlotNo} {c : Call} (hc : s.call i = some c) (w : Conn) :
    want i w s = { s with
      slots := vset s.slots i (some { c with wanted := w, outstanding := s.requestAfter c w })
      reqCounter := if s.asksFor c w then s.nextNumber else s.reqCounter
      txList := if s.asksFor c w then s.txList ++ [.pathReq s.nextNumber c.tag w] else s.txList } := by
  unfold want
  rw [hc]
  dsimp only
  by_cases hw : c.wanted = w
  · have ha : s.asksFor c w = false := by simp [State.asksFor, hw]
    subst hw
    simp [State.requestAfter, ha, vset_same_call s i c hc]
  · rw [if_neg hw, modCall_eq hc]
    have hcall : State.call { s with slots := vset s.slots i (some { c with wanted := w }) } i =
        some { c with wanted := w } := by simp [State.call]
    have hn := nextNumber_vset s i c { c with wanted := w } hc rfl
    have hmay : State.mayIssue { s with slots := vset s.slots i (some { c with wanted := w }) }
        { c with wanted := w } = s.asksFor c w := by
      have hlen : 1 ≤ 64 - s.txList.length ↔ s.txList.length < 64 := by omega
      change (c.outstanding.isNone && w != c.confirmed && !c.retryWait &&
        decide (1 ≤ 64 - s.txList.length)) = _
      simp [hlen, State.asksFor, State.admits, hw]
    unfold issue
    rw [hcall]
    dsimp only
    rw [hmay, hn]
    by_cases ha : s.asksFor c w = true
    · simp only [ha, if_true, State.requestAfter]
      rw [modCall_eq (c := { c with wanted := w }) (by simp [enlist, State.call])]
      simp [enlist, vset_vset]
    · simp [ha, State.requestAfter]

theorem want_none {s : State} {i : SlotNo} (hc : s.call i = none) (w : Conn) : want i w s = s := by
  simp [want, hc]

/-! ## Leaving a collection (R9) -/

theorem leave_none {s : State} {i : SlotNo} (hc : s.call i = none) : leave i s = s := by
  simp [leave, hc]

theorem leave_queued {s : State} {i : SlotNo} {c : Call} (hc : s.call i = some c)
    (hq : c.state.queued = true) : leave i s = { s with queue := s.queue.filter (· != i) } := by
  rcases (queued_iff _).1 hq with h | h <;> simp [leave, hc, h]

theorem seated_iff (st : CallState) : st.seated = true ↔ st = .talking ∨ st = .held := by
  cases st <;> simp [CallState.seated]

theorem leave_seated {s : State} {i : SlotNo} {c : Call} {p : PosNo} {l : LoopNo}
    (hc : s.call i = some c) (hq : c.state.seated = true) (hh : c.isHomeAt p l = true) :
    leave i s = s.setLoop p l Loop.empty := by
  have hh' : c.home = some { pos := p, loop := some l } := by simpa [Call.isHomeAt] using hh
  rcases (seated_iff _).1 hq with h | h <;> simp [leave, hc, h, leave.leaveLoop, hh']

theorem leave_parked {s : State} {i : SlotNo} {c : Call} {o : OrbitNo} (hc : s.call i = some c)
    (hq : c.state = .parked) (ho : c.orbit = some o) :
    leave i s = { s with orbits := vset s.orbits o none } := by
  simp [leave, hc, hq, ho]

theorem leave_placeless {s : State} {i : SlotNo} {c : Call} (hc : s.call i = some c)
    (hq : c.state = .ringing ∨ c.state = .departing) : leave i s = s := by
  rcases hq with h | h <;> simp [leave, hc, h]

theorem leave_camped {s : State} {i : SlotNo} {c : Call} {x : Ext} (hc : s.call i = some c)
    (hq : c.state = .camped) (hx : c.extension = some x) : leave i s = leaveCamp i x s := by
  simp [leave, hc, hq, hx]

/-! ## Moves of one call that has left its collection -/

/-- The record of a call that becomes DEPARTING. -/
def Call.departed (c : Call) (x : Option Ext) (w : Conn) (o : Option Request) : Call :=
  { c.enter .departing with extension := x, wanted := w, outstanding := o }

/-- The record of a call that becomes RINGING. -/
def Call.rung (c : Call) (x : Ext) (o : Option Request) : Call :=
  { c.enter .ringing with extension := some x, wanted := .ring x, outstanding := o }

/-- The record of a seated call that becomes HELD. -/
def Call.holding (c : Call) (o : Option Request) : Call :=
  { c.enter .held with wanted := .hold, outstanding := o }

/-- The record of a HELD call that becomes TALKING on its own loop. -/
def Call.talkingAt (c : Call) (p : PosNo) (l : LoopNo) (o : Option Request) : Call :=
  { c.enter .talking with wanted := .seat p l, outstanding := o }

/-- The update that a wanted connection w makes to a state t whose slot i was given the record d. -/
def State.asked (t : State) (i : SlotNo) (c d : Call) (w : Conn) : State :=
  { t with
    slots := vset t.slots i (some d)
    reqCounter := if t.asksFor c w then t.nextNumber else t.reqCounter
    txList := if t.asksFor c w then t.txList ++ [.pathReq t.nextNumber c.tag w] else t.txList }

/-- A change of slot i's record that keeps the connection fields, and then a new wanted connection. -/
theorem want_modCall {t : State} {i : SlotNo} {c : Call} (hc : t.call i = some c) (f : Call → Call)
    (w : Conn) (htag : (f c).tag = c.tag) (hwanted : (f c).wanted = c.wanted)
    (hconf : (f c).confirmed = c.confirmed) (hout : (f c).outstanding = c.outstanding)
    (hretry : (f c).retryWait = c.retryWait) (hring : (f c).ringWatch = c.ringWatch) :
    want i w (t.modCall i f) =
      t.asked i c { f c with wanted := w, outstanding := t.requestAfter c w } w := by
  rw [modCall_eq hc]
  have hcall : State.call { t with slots := vset t.slots i (some (f c)) } i = some (f c) := by
    simp [State.call]
  rw [want_eq hcall]
  have hnum : (f c).numbers = c.numbers := by simp [Call.numbers, hout, hring]
  have hn := nextNumber_vset t i c (f c) hc hnum
  have ha : State.asksFor { t with slots := vset t.slots i (some (f c)) } (f c) w = t.asksFor c w := by
    simp [State.asksFor, State.admits, hwanted, hconf, hout, hretry]
  simp only [State.requestAfter, ha, hn, hout, htag, State.asked, vset_vset]

theorem depart_eq {s t : State} {i : SlotNo} {c : Call} (hl : leave i s = t) (hc : t.call i = some c)
    (x : Option Ext) (w : Conn) :
    depart i x w s = t.asked i c (c.departed x w (t.requestAfter c w)) w := by
  unfold depart
  rw [hl]
  exact want_modCall hc _ w rfl rfl rfl rfl rfl rfl

theorem ringAt_eq {s t : State} {i : SlotNo} {c : Call} (hl : leave i s = t) (hc : t.call i = some c)
    (x : Ext) :
    ringAt i x s = t.asked i c (c.rung x (t.requestAfter c (.ring x))) (.ring x) := by
  unfold ringAt
  rw [hl]
  exact want_modCall hc _ _ rfl rfl rfl rfl rfl rfl

theorem holdSeated_eq {s : State} {i : SlotNo} {c : Call} (hc : s.call i = some c) :
    holdSeated i s = s.asked i c (c.holding (s.requestAfter c .hold)) .hold :=
  want_modCall hc _ _ rfl rfl rfl rfl rfl rfl

/-! ## What `asked` leaves alone -/

section asked
variable (t : State) (i : SlotNo) (c d : Call) (w : Conn)

@[simp] theorem asked_call (j : SlotNo) :
    (t.asked i c d w).call j = if i = j then some d else t.call j := by
  simp [State.asked, State.call]

@[simp] theorem asked_pos (p : PosNo) : (t.asked i c d w).pos p = t.pos p := rfl
@[simp] theorem asked_console (p : PosNo) : (t.asked i c d w).console p = t.console p := rfl
@[simp] theorem asked_link (l : Link) : (t.asked i c d w).link l = t.link l := by cases l <;> rfl
@[simp] theorem asked_origin (o : OriginNo) : (t.asked i c d w).origin o = t.origin o := rfl
@[simp] theorem asked_orbitSlot (o : OrbitNo) : (t.asked i c d w).orbitSlot o = t.orbitSlot o := rfl
@[simp] theorem asked_count (k : Counter) : (t.asked i c d w).count k = t.count k := rfl
@[simp] theorem asked_queue : (t.asked i c d w).queue = t.queue := rfl
@[simp] theorem asked_camps : (t.asked i c d w).camps = t.camps := rfl
@[simp] theorem asked_orbits : (t.asked i c d w).orbits = t.orbits := rfl
@[simp] theorem asked_counters : (t.asked i c d w).counters = t.counters := rfl
@[simp] theorem asked_lead : (t.asked i c d w).lead = t.lead := rfl
@[simp] theorem asked_nightFlag : (t.asked i c d w).nightFlag = t.nightFlag := rfl
@[simp] theorem asked_positions : (t.asked i c d w).positions = t.positions := rfl
@[simp] theorem asked_consoles : (t.asked i c d w).consoles = t.consoles := rfl
theorem asked_settings : SettingsKept t (t.asked i c d w) := by constructor <;> rfl
theorem asked_register : RegisterKept t (t.asked i c d w) := ⟨rfl, rfl, rfl⟩

/-- The frames that `asked` places: none, or the PATH_REQ of the slot. -/
theorem asked_txList : ∃ sent, (t.asked i c d w).txList = t.txList ++ sent ∧
    (sent = [] ∨ sent = [.pathReq t.nextNumber c.tag w]) := by
  unfold State.asked
  by_cases h : t.asksFor c w = true
  · exact ⟨[.pathReq t.nextNumber c.tag w], by simp [h], .inr rfl⟩
  · exact ⟨[], by simp [h], .inl rfl⟩

theorem asked_frames : FramesJoin t (t.asked i c d w) := by
  unfold State.asked
  by_cases h : t.asksFor c w = true
  · exact ⟨[.pathReq t.nextNumber c.tag w], by simp [h], by simp [h, counterAfter, SwitchNotice.issued]⟩
  · exact .of_eq (by simp [h]) (by simp [h])

end asked

/-! ## The auto-hold (R98) -/

/-- What holding calls changes: records, the request counter and the switch list. -/
structure OnlyRecords (s t : State) : Prop where
  state : t = { s with slots := t.slots, reqCounter := t.reqCounter, txList := t.txList }
  frames : FramesJoin s t

theorem OnlyRecords.refl (s : State) : OnlyRecords s s := ⟨rfl, .refl s⟩

theorem OnlyRecords.trans {s t u : State} (h : OnlyRecords s t) (k : OnlyRecords t u) :
    OnlyRecords s u :=
  ⟨by rw [k.state, h.state], h.frames.trans k.frames⟩

theorem asked_onlyRecords (t : State) (i : SlotNo) (c d : Call) (w : Conn) :
    OnlyRecords t (t.asked i c d w) := ⟨rfl, asked_frames t i c d w⟩

theorem holdSeated_onlyRecords (i : SlotNo) (s : State) : OnlyRecords s (holdSeated i s) := by
  cases hc : s.call i with
  | none => rw [holdSeated, modCall_none hc, want_none hc]; exact .refl s
  | some c => rw [holdSeated_eq hc]; exact asked_onlyRecords _ _ _ _ _

/-- One step of the auto-hold: loop k of position p, where l is the loop of the call that moves. -/
def autoHoldAt (p : PosNo) (l k : LoopNo) (s : State) : State :=
  if k = l then s
  else match s.loopCall p k with
    | none => s
    | some (j, c) => if c.state = .talking then holdSeated j s else s

theorem autoHold_eq (p : PosNo) (l : LoopNo) (s : State) :
    autoHold p l s = allLoops.foldl (fun s k => autoHoldAt p l k s) s := rfl

theorem autoHoldAt_onlyRecords (p : PosNo) (l k : LoopNo) (s : State) :
    OnlyRecords s (autoHoldAt p l k s) := by
  unfold autoHoldAt
  split
  · exact .refl s
  · split
    · exact .refl s
    · split
      · exact holdSeated_onlyRecords _ s
      · exact .refl s

/-- All that the auto-hold changes beside the records of the calls it holds. -/
theorem autoHold_onlyRecords (p : PosNo) (l : LoopNo) (s : State) : OnlyRecords s (autoHold p l s) := by
  rw [autoHold_eq]
  have h : ∀ (ks : List LoopNo) (s : State),
      OnlyRecords s (ks.foldl (fun s k => autoHoldAt p l k s) s) := by
    intro ks
    induction ks with
    | nil => exact .refl
    | cons k ks ih => exact fun s => (autoHoldAt_onlyRecords p l k s).trans (ih _)
  exact h _ s

/-- The record of slot j after one step of the auto-hold: untouched, or HELD where it was TALKING on
loop k. -/
theorem autoHoldAt_call (p : PosNo) (l k : LoopNo) (s : State) (j : SlotNo) :
    (autoHoldAt p l k s).call j = s.call j ∨
      k ≠ l ∧ ((s.pos p).loop k).slot = some j ∧
        ∃ c o, s.call j = some c ∧ c.state = .talking ∧
          (autoHoldAt p l k s).call j = some (c.holding o) := by
  unfold autoHoldAt
  by_cases hk : k = l
  · exact .inl (by rw [if_pos hk])
  · rw [if_neg hk]
    cases hl : s.loopCall p k with
    | none => exact .inl rfl
    | some e =>
      obtain ⟨i, c⟩ := e
      dsimp only
      by_cases ht : c.state = .talking
      · rw [if_pos ht]
        have hs : ((s.pos p).loop k).slot = some i ∧ s.call i = some c := by
          unfold State.loopCall at hl
          cases hsl : ((s.pos p).loop k).slot with
          | none => simp [hsl] at hl
          | some i' =>
            rw [hsl] at hl
            cases hci : s.call i' with
            | none => simp [hci] at hl
            | some c' =>
              simp only [hci, Option.map_some, Option.some.injEq, Prod.mk.injEq] at hl
              obtain ⟨rfl, rfl⟩ := hl
              exact ⟨rfl, hci⟩
        rw [holdSeated_eq hs.2]
        by_cases hij : i = j
        · subst hij
          exact .inr ⟨hk, hs.1, c, s.requestAfter c .hold, hs.2, ht, by simp⟩
        · exact .inl (by simp [hij])
      · rw [if_neg ht]; exact .inl rfl

/-- The record of a slot after the auto-hold: untouched, or HELD where it was TALKING on another loop of
the position. -/
theorem autoHold_call (p : PosNo) (l : LoopNo) (s : State) (j : SlotNo) :
    (autoHold p l s).call j = s.call j ∨
      (∃ k, k ≠ l ∧ ((s.pos p).loop k).slot = some j) ∧
        ∃ c o, s.call j = some c ∧ c.state = .talking ∧
          (autoHold p l s).call j = some (c.holding o) := by
  rw [autoHold_eq]
  have h : ∀ (ks : List LoopNo) (s : State),
      (ks.foldl (fun s k => autoHoldAt p l k s) s).call j = s.call j ∨
      (∃ k, k ≠ l ∧ ((s.pos p).loop k).slot = some j) ∧
        ∃ c o, s.call j = some c ∧ c.state = .talking ∧
          (ks.foldl (fun s k => autoHoldAt p l k s) s).call j = some (c.holding o) := by
    intro ks
    induction ks with
    | nil => exact fun s => .inl rfl
    | cons k ks ih =>
      intro s
      rw [List.foldl_cons]
      have hpos : ((autoHoldAt p l k s).pos p) = s.pos p := by
        rw [(autoHoldAt_onlyRecords p l k s).state]; rfl
      rcases ih (autoHoldAt p l k s) with h2 | ⟨hk2, c, o, hc, ht, hr⟩
      · rcases autoHoldAt_call p l k s j with h1 | ⟨hkl, hsl, c, o, hc, ht, hr⟩
        · exact .inl (h2.trans h1)
        · exact .inr ⟨⟨k, hkl, hsl⟩, c, o, hc, ht, h2.trans hr⟩
      · rw [hpos] at hk2
        rcases autoHoldAt_call p l k s j with h1 | ⟨_, _, c', o', _, _, hr'⟩
        · exact .inr ⟨hk2, c, o, by rw [← h1]; exact hc, ht, hr⟩
        · rw [hr'] at hc
          have : c = c'.holding o' := by simpa using hc.symm
          subst this
          cases ht
  exact h _ s

/-- Every TALKING call on another loop of the position is HELD by the auto-hold, when no slot stands on
two loops. -/
theorem autoHold_holds (p : PosNo) (l k : LoopNo) (s : State) (j : SlotNo) (c : Call) (hk : k ≠ l)
    (hl : ((s.pos p).loop k).slot = some j) (hc : s.call j = some c) (ht : c.state = .talking) :
    ∃ o, (autoHold p l s).call j = some (c.holding o) := by
  have h : ∀ (ks : List LoopNo) (s : State), k ∈ ks → ((s.pos p).loop k).slot = some j →
      s.call j = some c → ∃ o, (ks.foldl (fun s k => autoHoldAt p l k s) s).call j = some (c.holding o) := by
    intro ks
    induction ks with
    | nil => intro s hm; cases hm
    | cons k' ks ih =>
      intro s hm hsl hcall
      rw [List.foldl_cons]
      have hpos : ((autoHoldAt p l k' s).pos p) = s.pos p := by
        rw [(autoHoldAt_onlyRecords p l k' s).state]; rfl
      -- once HELD, the record stays as it is
      have hstay : ∀ (ks : List LoopNo) (u : State) (o : Option Request),
          u.call j = some (c.holding o) →
          (ks.foldl (fun s k => autoHoldAt p l k s) u).call j = some (c.holding o) := by
        intro ks
        induction ks with
        | nil => exact fun u o hu => hu
        | cons k2 ks ih2 =>
          intro u o hu
          rw [List.foldl_cons]
          refine ih2 _ o ?_
          rcases autoHoldAt_call p l k2 u j with h1 | ⟨_, _, c', o', hc', ht', _⟩
          · rw [h1]; exact hu
          · rw [hu] at hc'
            have : c' = c.holding o := by simpa using hc'.symm
            subst this; cases ht'
      rcases autoHoldAt_call p l k' s j with h1 | ⟨_, _, c', o', hc', _, hr⟩
      · rcases List.mem_cons.1 hm with rfl | hm'
        · exfalso
          unfold autoHoldAt at h1
          have hlc : s.loopCall p k = some (j, c) := by simp [State.loopCall, hsl, hcall]
          rw [if_neg hk, hlc] at h1
          dsimp only at h1
          rw [if_pos ht, holdSeated_eq hcall, asked_call, if_pos rfl, hcall] at h1
          have hst := congrArg (fun x => x.map Call.state) h1
          simp [Call.holding, Call.enter, ht] at hst
        · exact ih _ hm' (by rw [hpos]; exact hsl) (by rw [h1]; exact hcall)
      · rw [hcall] at hc'
        have : c' = c := by simpa using hc'.symm
        subst this
        exact ⟨o', hstay ks _ o' hr⟩
  rw [autoHold_eq]
  exact h _ s (by clear * -; revert k; decide) hl hc

end Sys2Proof.Machine
end

