-- ==== Sys2Proof/Laws/Offers.lean ====
section
/-! SUPPORT. The standing offers: what the re-establishing of the distribution condition leaves of them
while the plan's mode and masks stay, and so what it makes of one slot. -/
namespace Sys2Proof.Machine

/-! ## The plan in force and the queue -/

/-- A state with the same queue and the same effective plan. -/
structure PlanKept (s t : State) : Prop where
  queue : t.queue = s.queue
  eff : t.eff = s.eff

theorem PlanKept.refl (s : State) : PlanKept s s := ⟨rfl, rfl⟩

theorem PlanKept.trans {s t u : State} (h : PlanKept s t) (k : PlanKept t u) : PlanKept s u :=
  ⟨k.queue.trans h.queue, k.eff.trans h.eff⟩

theorem PlanKept.foldl {α : Type} {f : State → α → State} (hf : ∀ s a, PlanKept s (f s a)) (l : List α)
    (s : State) : PlanKept s (l.foldl f s) := by
  induction l generalizing s with
  | nil => exact .refl s
  | cons a l ih => exact (hf s a).trans (ih _)

theorem withdrawAt_plan (p : PosNo) (s : State) : PlanKept s (withdrawAt p s) := by
  unfold withdrawAt
  split
  · exact .refl s
  · dsimp only
    split <;> exact ⟨rfl, rfl⟩

theorem distribute_plan (s : State) : PlanKept s (distribute s) := by
  unfold distribute
  split
  · refine .foldl (fun s i => ?_) _ s
    split
    · exact .refl s
    · split
      · split
        · exact ⟨rfl, rfl⟩
        · exact .refl s
      · exact .refl s
  · refine .foldl (fun s p => ?_) _ s
    split
    · exact .refl s
    · split
      · exact ⟨rfl, rfl⟩
      · exact .refl s

theorem dropShowings_plan (s : State) : PlanKept s (dropShowings s) := by
  unfold dropShowings
  split
  · refine .foldl (fun s p => ?_) _ s
    split
    · exact .refl s
    · exact withdrawAt_plan p s
  · exact .refl s

/-- The recompute takes the plan that the selection and the depth put in force, and moves no call in the
queue (R43). -/
theorem recompute_plan (s : State) :
    (recompute s).eff = planInForce s.selection s.plans s.depth ∧ (recompute s).queue = s.queue := by
  have h : PlanKept
      { s with
        eff := planInForce s.selection s.plans s.depth
        band := bandInForce s.selection s.plans s.depth } (recompute s) := by
    unfold recompute
    dsimp only
    split
    · exact .foldl (fun s p => withdrawAt_plan p s) _ _
    · split
      · refine .foldl (fun s p => ?_) _ _
        split
        · exact .refl s
        · split
          · exact .refl s
          · split
            · exact .refl s
            · exact withdrawAt_plan p s
      · exact .refl _
  exact ⟨h.eff, h.queue⟩

theorem plansDiffer_false {a b : Plan} :
    plansDiffer a b = false ↔ a.mode = b.mode ∧ a.masks = b.masks := by
  simp [plansDiffer]

/-- A recompute that changes neither the mode nor a mask withdraws nothing (R44, R45). -/
theorem recompute_steady {s : State}
    (h : plansDiffer s.eff (planInForce s.selection s.plans s.depth) = false) :
    recompute s = { s with
      eff := planInForce s.selection s.plans s.depth
      band := bandInForce s.selection s.plans s.depth } := by
  obtain ⟨hm, hk⟩ := plansDiffer_false.1 h
  unfold recompute
  simp [hm, hk]

/-! ## Night routing and the other calls -/

/-- What the routing of the call in slot i leaves alone. -/
structure Apart (i : SlotNo) (s t : State) : Prop where
  positions : t.positions = s.positions
  available : t.available = s.available
  eff : t.eff = s.eff
  others : ∀ j, i ≠ j → t.call j = s.call j

theorem want_apart (i : SlotNo) (w : Conn) (s : State) : Apart i s (want i w s) := by
  have hissue : ∀ s : State, Apart i s (issue i s) := by
    intro s
    rcases issue_cases i s with h | ⟨c, _, _, h⟩
    · rw [h]; exact ⟨rfl, rfl, rfl, fun _ _ => rfl⟩
    · rw [h]; exact ⟨rfl, rfl, rfl, fun j hj => by simp [State.call, hj]⟩
  unfold want
  split
  · exact ⟨rfl, rfl, rfl, fun _ _ => rfl⟩
  · split
    · exact ⟨rfl, rfl, rfl, fun _ _ => rfl⟩
    · have h := hissue (s.modCall i (fun c => { c with wanted := w }))
      exact ⟨h.positions, h.available, h.eff, fun j hj => by rw [h.others j hj]; simp [hj]⟩

theorem depart_waiting_apart {i : SlotNo} {s : State} {c : Call} (hc : s.call i = some c)
    (hw : c.state = .waiting) (w : Conn) : Apart i s (depart i none w s) := by
  have hleave : leave i s = { s with queue := s.queue.filter (· != i) } := by simp [leave, hc, hw]
  unfold depart
  rw [hleave]
  have h := want_apart i w (State.modCall { s with queue := s.queue.filter (· != i) } i
    (fun c => { c.enter .departing with extension := none }))
  exact ⟨h.positions, h.available, h.eff, fun j hj => by
    rw [h.others j hj, modCall_call, if_neg hj]; rfl⟩

theorem nightRoute_eff (s : State) : (nightRoute s).eff = s.eff := by
  unfold nightRoute
  generalize s.queue = l
  induction l generalizing s with
  | nil => rfl
  | cons j l ih =>
    rw [List.foldl_cons, ih]
    cases hj : s.call j with
    | none => rfl
    | some e =>
      dsimp only
      split
      · rename_i hw; exact (depart_waiting_apart hj hw.1 _).eff
      · rfl

/-! ## Standing offers -/

/-- The call c of slot i is OFFERED in the mode and held by every position of P; in COMMON mode each of
these is available. -/
structure Standing (m : Mode) (i : SlotNo) (c : Call) (P : PosNo → Prop) (s : State) : Prop where
  mode : s.eff.mode = m
  record : ∃ d, s.call i = some d ∧ d.state = .offered ∧ (m = .single → d = c) ∧
    (d.offer = c.offer ∨ d.offer = some .all)
  offers : ∀ q, P q → (s.pos q).offer = some i
  available : m = .common → ∀ q, P q → s.isAvailable q = true

/-- In COMMON mode availability does not hang on the offer (R74). -/
theorem isAvailable_common {s t : State} {q : PosNo} (h : PositionKept (s.pos q) (t.pos q))
    (hs : s.eff.mode = .common) (ht : t.eff.mode = .common) : t.isAvailable q = s.isAvailable q := by
  simp [State.isAvailable, Position.hasEmptyLoop, Position.loop, hs, ht, h.state, h.loops, h.consult]

/-- A step that leaves the record, the offers and the plan's mode leaves the standing offer. -/
theorem Standing.of_eq {m : Mode} {i : SlotNo} {c : Call} {P : PosNo → Prop} {s t : State}
    (h : Standing m i c P s) (hm : t.eff.mode = s.eff.mode) (hc : t.call i = s.call i)
    (hp : t.positions = s.positions) : Standing m i c P t := by
  have hpos : ∀ q, t.pos q = s.pos q := fun q => by simp only [State.pos, hp]
  refine ⟨hm.trans h.mode, by rw [hc]; exact h.record, fun q hq => by rw [hpos]; exact h.offers q hq,
    fun hcm q hq => ?_⟩
  rw [isAvailable_common (by rw [hpos]; exact .refl _) (h.mode.trans hcm) ((hm.trans h.mode).trans hcm)]
  exact h.available hcm q hq

/-- The withdrawal at a position that is not available leaves a showing elsewhere (R81, R84). -/
theorem withdrawAt_standing {i : SlotNo} {c : Call} {P : PosNo → Prop} {s : State} {p q : PosNo}
    (h : Standing .common i c P s) (hq : P q) (hp : s.isAvailable p = false) :
    Standing .common i c P (withdrawAt p s) := by
  have hne : ∀ k, P k → p ≠ k := by
    rintro k hk rfl
    rw [h.available rfl p hk] at hp; cases hp
  have hk := withdrawAt_plan p s
  have hs := withdrawAt_settled p s
  have hoffers : ∀ k, P k → ((withdrawAt p s).pos k).offer = some i := by
    intro k hk
    rw [← h.offers k hk]
    unfold withdrawAt
    split
    · rfl
    · dsimp only
      split <;> simp [modOffered, setOffer, hne k hk]
  refine ⟨by rw [hk.eff]; exact h.mode, ?_, hoffers, fun _ k hk' => ?_⟩
  · obtain ⟨d, hd, hst, _, ho⟩ := h.record
    unfold withdrawAt
    split
    · exact ⟨d, hd, hst, fun hx => (by cases hx), ho⟩
    · rename_i j _
      have hset : (setOffer p none s).call i = some d := hd
      by_cases hj : j = i
      · subst hj
        have hshown : (modOffered j (fun c => { c with preferred := none })
            (setOffer p none s)).shownAnywhere j = true := by
          refine List.any_eq_true.2 ⟨q, List.mem_finRange q, ?_⟩
          simp [modOffered, setOffer, hne q hq, h.offers q hq]
        dsimp only
        rw [if_pos hshown]
        exact ⟨{ d with preferred := none }, by simp [modOffered, hset, hst], hst,
          fun hx => (by cases hx), ho⟩
      · refine ⟨d, ?_, hst, fun hx => (by cases hx), ho⟩
        dsimp only
        split <;> simp [modOffered, hj, hset]
  · rw [isAvailable_common (hs.positions k) h.mode (by rw [hk.eff]; exact h.mode)]
    exact h.available rfl k hk'

theorem dropShowings_standing {m : Mode} {i : SlotNo} {c : Call} {P : PosNo → Prop} {s : State}
    (h : Standing m i c P s) (hP : m = .common → ∃ q, P q) : Standing m i c P (dropShowings s) := by
  unfold dropShowings
  split
  · rename_i hm
    have : m = .common := h.mode.symm.trans hm
    subst this
    obtain ⟨q, hq⟩ := hP rfl
    clear hm
    generalize allPos = l
    induction l generalizing s with
    | nil => exact h
    | cons p l ih =>
      rw [List.foldl_cons]
      refine ih ?_
      split
      · exact h
      · rename_i hp
        exact withdrawAt_standing h hq (by simpa using hp)
  · exact h

/-- No position of the available list holds the slot's offer: after the judgement of availability in
SINGLE mode (R74). -/
def Unheld (m : Mode) (i : SlotNo) (s : State) : Prop :=
  m = .single → ∀ p ∈ s.available, (s.pos p).offer ≠ some i

theorem nightRoute_standing {m : Mode} {i : SlotNo} {c : Call} {P : PosNo → Prop} {s : State}
    (h : Standing m i c P s) (hu : Unheld m i s) :
    Standing m i c P (nightRoute s) ∧ Unheld m i (nightRoute s) := by
  unfold nightRoute
  generalize s.queue = l
  induction l generalizing s with
  | nil => exact ⟨h, hu⟩
  | cons j l ih =>
    rw [List.foldl_cons]
    cases hj : s.call j with
    | none => exact ih h hu
    | some e =>
      dsimp only
      split
      · rename_i hw
        have ha := depart_waiting_apart hj hw.1 (.away (s.nightDestination e.origin))
        have hji : j ≠ i := by
          rintro rfl
          obtain ⟨d, hd, hst, _⟩ := h.record
          rw [hj] at hd; cases hd
          rw [hw.1] at hst; cases hst
        refine ih (h.of_eq (by rw [ha.eff]) (ha.others i hji) ha.positions) ?_
        intro hm p hp
        simp only [State.pos, ha.positions]
        exact hu hm p (by rwa [ha.available] at hp)
      · exact ih h hu

theorem chooseCandidate_mem {s : State} {c : Call} {p : PosNo} (h : chooseCandidate s c = some p) :
    p ∈ s.available := by
  have hd : ∀ x, (s.available.filter (fun p => s.eff.allows c.cls p)).head? = some x →
      x ∈ s.available := fun x hx => (List.mem_filter.1 (List.mem_of_mem_head? hx)).1
  unfold chooseCandidate at h
  dsimp only at h
  split at h
  · split at h
    · rename_i hc
      cases h
      exact (List.mem_filter.1 (List.contains_iff_mem.1 hc)).1
    · exact hd p h
  · exact hd p h

theorem walk_standing {i : SlotNo} {c : Call} {P : PosNo → Prop} {s : State}
    (h : Standing .single i c P s) (hu : Unheld .single i s) : Standing .single i c P (walk s) := by
  unfold walk
  generalize s.queue = l
  induction l generalizing s with
  | nil => exact h
  | cons j l ih =>
    rw [List.foldl_cons]
    cases hj : s.call j with
    | none => exact ih h hu
    | some e =>
      dsimp only
      split
      · rename_i hw
        cases hp : chooseCandidate s e with
        | none => exact ih h hu
        | some p =>
          obtain ⟨d, hd, hst, heq, ho⟩ := h.record
          have hji : j ≠ i := by
            rintro rfl
            rw [hj] at hd; cases hd
            rw [hw] at hst; cases hst
          have hfree := hu rfl p (chooseCandidate_mem hp)
          refine ih ⟨h.mode, ⟨d, ?_, hst, heq, ho⟩, fun q hq => ?_, fun hx => (by cases hx)⟩ ?_
          · have : (offerTo p j s).call i =
                (s.modCall j (fun c => { c.enter .offered with offer := some (.one p) })).call i := rfl
            rw [this, modCall_call, if_neg hji]; exact hd
          · have hpq : p ≠ q := by rintro rfl; exact hfree (h.offers p hq)
            have : (offerTo p j s).pos q =
                (setOffer p (some j)
                  (s.modCall j (fun c => { c.enter .offered with offer := some (.one p) }))).pos q := rfl
            rw [this]
            simpa [setOffer, hpq] using h.offers q hq
          · intro _ k hk
            have hk' : k ∈ s.available ∧ k ≠ p := by
              have : k ∈ s.available.filter (· != p) := hk
              simpa using this
            have : (offerTo p j s).pos k =
                (setOffer p (some j)
                  (s.modCall j (fun c => { c.enter .offered with offer := some (.one p) }))).pos k := rfl
            rw [this]
            simpa [setOffer, Ne.symm hk'.2] using hu rfl k hk'.1
      · exact ih h hu

theorem showing_standing {i : SlotNo} {c : Call} {P : PosNo → Prop} {s : State}
    (h : Standing .common i c P s) : Standing .common i c P (showing s) := by
  unfold showing
  generalize s.available = l
  induction l generalizing s with
  | nil => exact h
  | cons p l ih =>
    rw [List.foldl_cons]
    split
    · exact ih h
    · rename_i hp
      cases hf : firstFor s p with
      | none => exact ih h
      | some j =>
        obtain ⟨e, he, heq, _⟩ := firstFor_queued hf
        have hs := showTo_settled p j s fun d hd => by
          rw [he] at hd; cases hd; exact heq
        have hpq : ∀ q, P q → p ≠ q := by
          rintro q hq rfl
          rw [h.offers p hq] at hp; exact hp rfl
        refine ih ⟨h.mode, ?_, fun q hq => ?_, fun _ q hq => ?_⟩
        · obtain ⟨d, hd, hst, hx, ho⟩ := h.record
          have hcall : (showTo p j s).call i =
              (s.modCall j (fun c => { c.enter .offered with offer := some .all })).call i := rfl
          rw [hcall, modCall_call]
          by_cases hji : j = i
          · subst hji
            rw [if_pos rfl, hd]
            exact ⟨_, rfl, rfl, fun hx => (by cases hx), .inr rfl⟩
          · rw [if_neg hji]; exact ⟨d, hd, hst, hx, ho⟩
        · have := h.offers q hq
          simpa [showTo, setOffer, hpq q hq] using this
        · rw [isAvailable_common (hs.positions q) h.mode h.mode]
          exact h.available rfl q hq

theorem distribute_standing {m : Mode} {i : SlotNo} {c : Call} {P : PosNo → Prop} {s : State}
    (h : Standing m i c P s) (hu : Unheld m i s) : Standing m i c P (distribute s) := by
  unfold distribute
  split
  · rename_i hm
    have : m = .single := h.mode.symm.trans hm
    subst this; exact walk_standing h hu
  · rename_i hm
    have : m = .common := h.mode.symm.trans hm
    subst this; exact showing_standing h

/-- The judgement of availability leaves the standing offers, and lists no position of SINGLE mode that
holds one (R74, R75). -/
theorem rejudge_standing {m : Mode} {i : SlotNo} {c : Call} {P : PosNo → Prop} {s : State}
    (h : Standing m i c P s) : Standing m i c P (rejudge s) ∧ Unheld m i (rejudge s) := by
  refine ⟨h.of_eq rfl rfl rfl, fun hm p hp hx => ?_⟩
  have ha : s.isAvailable p = true := by
    simp only [rejudge, List.mem_append, List.mem_filter] at hp
    rcases hp with hp | hp
    · exact hp.2
    · simp only [Bool.and_eq_true] at hp; exact hp.2.1
  have hmode : s.eff.mode = .single := h.mode.trans hm
  have hx' : (s.pos p).offer = some i := hx
  simp [State.isAvailable, hmode, hx'] at ha

/-- While no depth on the way changes the mode or a mask, the re-establishing leaves a standing offer
(R77, R81). -/
theorem settleWith_standing {m : Mode} {i : SlotNo} {c : Call} {P : PosNo → Prop} (fuel : Nat) {s : State}
    (h : Standing m i c P s) (hP : m = .common → ∃ q, P q)
    (hsteady : s.selection = .load → ∀ n, (settleWith fuel s).depth ≤ n → n ≤ s.depth →
      plansDiffer s.eff (planInForce .load s.plans n) = false) :
    Standing m i c P (settleWith fuel s) := by
  induction fuel generalizing s with
  | zero => exact h
  | succ fuel ih =>
    have hdepth : (settleWith (fuel + 1) s).depth ≤ s.depth :=
      (settleWith_settled (fuel + 1) s).queue.length_le
    have hrec : Standing m i c P (recomputeUnderLoad s) := by
      unfold recomputeUnderLoad
      split
      · rename_i hl
        have hd := hsteady hl s.depth hdepth (Nat.le_refl _)
        rw [← hl] at hd
        rw [recompute_steady hd]
        exact h.of_eq (plansDiffer_false.1 hd).1.symm rfl rfl
      · exact h
    have heff : s.selection = .load →
        (recomputeUnderLoad s).eff = planInForce .load s.plans s.depth := by
      intro hl
      rw [recomputeUnderLoad, if_pos hl, (recompute_plan s).1, hl]
    obtain ⟨h1, hu1⟩ := rejudge_standing hrec
    have h2 := dropShowings_standing h1 hP
    have hu2 : Unheld m i (dropShowings (rejudge (recomputeUnderLoad s))) := by
      intro hm
      have : dropShowings (rejudge (recomputeUnderLoad s)) = rejudge (recomputeUnderLoad s) := by
        unfold dropShowings
        rw [if_neg (by rw [h1.mode, hm]; decide)]
      rw [this]; exact hu1 hm
    have hset := ((recomputeUnderLoad_settled s).trans (rejudge_settled _)).trans (dropShowings_settled _)
    have heff2 : s.selection = .load →
        (dropShowings (rejudge (recomputeUnderLoad s))).eff = planInForce .load s.plans s.depth := by
      intro hl
      rw [(dropShowings_plan _).eff]; exact heff hl
    unfold settleWith at hsteady ⊢
    dsimp only at hsteady ⊢
    generalize dropShowings (rejudge (recomputeUnderLoad s)) = u at *
    have h3 : Standing m i c P (if u.nightFlag = true then nightRoute u else u) ∧
        Unheld m i (if u.nightFlag = true then nightRoute u else u) := by
      split
      · exact nightRoute_standing h2 hu2
      · exact ⟨h2, hu2⟩
    have hset3 : Settled u (if u.nightFlag = true then nightRoute u else u) := by
      split
      · rename_i hn; exact nightRoute_settled u hn
      · exact .refl u
    have heff3 : (if u.nightFlag = true then nightRoute u else u).eff = u.eff := by
      split
      · exact nightRoute_eff u
      · rfl
    generalize (if u.nightFlag = true then nightRoute u else u) = t at *
    split
    · rename_i hcond
      rw [if_pos hcond] at hsteady
      have hall := hset.trans hset3
      have hsel : s.selection = .load := by rw [← hall.settings.selection]; exact hcond.1
      refine ih h3.1 fun _ n hn hle => ?_
      have hle' : n ≤ s.depth := Nat.le_trans hle hall.queue.length_le
      obtain ⟨a, b⟩ := plansDiffer_false.1 (hsteady hsel n hn hle')
      obtain ⟨a', b'⟩ := plansDiffer_false.1 (hsteady hsel s.depth
        (Nat.le_trans (settleWith_settled fuel t).queue.length_le hall.queue.length_le) (Nat.le_refl _))
      rw [heff3, heff2 hsel, hall.settings.plans]
      exact plansDiffer_false.2 ⟨a'.symm.trans a, b'.symm.trans b⟩
    · exact distribute_standing h3.1 h3.2

/-- The plan after a re-establishing that goes through one depth: by day, or not under LOAD (R43, R77). -/
theorem settleWith_plan {fuel : Nat} {s : State} (h : s.selection ≠ .load ∨ s.nightFlag = false) :
    (settleWith (fuel + 1) s).eff = (recomputeUnderLoad s).eff ∧
      (s.nightFlag = false → (settleWith (fuel + 1) s).depth = s.depth) := by
  have hset := ((recomputeUnderLoad_settled s).trans (rejudge_settled _)).trans (dropShowings_settled _)
  have heff : (dropShowings (rejudge (recomputeUnderLoad s))).eff = (recomputeUnderLoad s).eff :=
    (dropShowings_plan _).eff
  have hqueue : (dropShowings (rejudge (recomputeUnderLoad s))).queue = s.queue := by
    rw [(dropShowings_plan _).queue]
    change (recomputeUnderLoad s).queue = s.queue
    unfold recomputeUnderLoad
    split
    · exact (recompute_plan s).2
    · rfl
  unfold settleWith
  dsimp only
  generalize dropShowings (rejudge (recomputeUnderLoad s)) = u at *
  rcases h with h | h
  · have h3 : (if u.nightFlag = true then nightRoute u else u).selection ≠ .load := by
      have : Settled u (if u.nightFlag = true then nightRoute u else u) := by
        split
        · rename_i hn; exact nightRoute_settled u hn
        · exact .refl u
      rw [this.settings.selection, hset.settings.selection]; exact h
    rw [if_neg (fun hx => h3 hx.1), (distribute_plan _).eff]
    constructor
    · rw [← heff]
      split
      · exact nightRoute_eff u
      · rfl
    · intro hn
      rw [show u.nightFlag = false from hset.nightFlag.trans hn]
      simp [State.depth, (distribute_plan u).queue, hqueue]
  · rw [show u.nightFlag = false from hset.nightFlag.trans h]
    simp [State.depth, (distribute_plan u).queue, (distribute_plan u).eff, heff, hqueue]

/-- A standing offer stands after the re-establishing (R77, R81). -/
theorem settle_standing {m : Mode} {i : SlotNo} {c : Call} {P : PosNo → Prop} {s : State}
    (h : Standing m i c P s) (hP : m = .common → ∃ q, P q) (hsteady : PlanSteady s (settle s)) :
    Standing m i c P (settle s) := by
  refine settleWith_standing _ h hP fun hl n hn hle => ?_
  cases hnight : s.nightFlag with
  | true =>
    exact hsteady.2 hl ((settle_settled s).nightFlag.trans hnight) n hn (Nat.le_trans hle (by omega))
  | false =>
    obtain ⟨he, hd⟩ := settleWith_plan (fuel := s.depth) (.inr hnight)
    have hn' : n = s.depth := Nat.le_antisymm hle (by rw [← hd hnight]; exact hn)
    have he' : (settle s).eff = planInForce .load s.plans s.depth := by
      rw [show (settle s).eff = (recomputeUnderLoad s).eff from he, recomputeUnderLoad, if_pos hl,
        (recompute_plan s).1, hl]
    rw [hn', ← he']
    exact hsteady.1

/-- After a change of the selection or of the plans that keeps the mode and the masks, the recompute and
what follows leave a standing offer (R43 to R45). -/
theorem replan_standing {m : Mode} {i : SlotNo} {c : Call} {P : PosNo → Prop} {s : State}
    (h : Standing m i c P s) (hsteady : PlanSteady s (replan s)) : Standing m i c P (replan s) := by
  obtain ⟨heff, hqueue⟩ := recompute_plan s
  have hrec := recompute_settled s
  by_cases hd : plansDiffer s.eff (recompute s).eff = true
  · exfalso
    have hx : replan s = settle (recompute s) := by simp [replan, hd]
    rw [hx] at hsteady
    have hset := settle_settled (recompute s)
    have hdepth : (settle (recompute s)).depth ≤ s.depth := by
      have := hset.queue.length_le
      rwa [hqueue] at this
    suffices plansDiffer s.eff (recompute s).eff = false by rw [hd] at this; cases this
    by_cases hl : s.selection = .load
    · cases hn : s.nightFlag with
      | true =>
        have := hsteady.2 hl (by rw [hset.nightFlag, hrec.nightFlag, hn]) s.depth hdepth (by omega)
        rwa [heff, hl]
      | false =>
        have he := (settleWith_plan (fuel := (recompute s).depth) (s := recompute s)
          (.inr (by rw [hrec.nightFlag, hn]))).1
        have hl' : (recompute s).selection = .load := hrec.settings.selection.trans hl
        rw [recomputeUnderLoad, if_pos hl', (recompute_plan (recompute s)).1] at he
        have hs := hsteady.1
        rw [show (settle (recompute s)).eff = _ from he, hrec.settings.selection, hrec.settings.plans,
          State.depth, hqueue] at hs
        rw [heff]; exact hs
    · have hl' : (recompute s).selection ≠ .load := by rw [hrec.settings.selection]; exact hl
      have he := (settleWith_plan (fuel := (recompute s).depth) (s := recompute s) (.inl hl')).1
      rw [recomputeUnderLoad, if_neg hl'] at he
      have hs := hsteady.1
      rwa [show (settle (recompute s)).eff = _ from he] at hs
  · have hd' : plansDiffer s.eff (recompute s).eff = false := by simpa using hd
    have hx : replan s = recompute s := by simp [replan, hd']
    rw [heff] at hd'
    rw [hx, recompute_steady hd']
    exact h.of_eq (plansDiffer_false.1 hd').1.symm rfl rfl

/-! ## The walk -/

theorem nightRoute_ready {s : State} (h : s.Ready) (hn : s.nightFlag = true) : nightRoute s = s := by
  have key : ∀ l : List SlotNo, (∀ i ∈ l, i ∈ s.queue) → l.foldl (fun s i =>
      match s.call i with
      | none => s
      | some c =>
        let d := s.nightDestination c.origin
        if c.state = .waiting ∧ d ≠ 0 then depart i none (.away d) s else s) s = s := by
    intro l
    induction l with
    | nil => exact fun _ => rfl
    | cons i l ih =>
      intro hl
      rw [List.foldl_cons]
      have hi := h.night hn i (hl i (List.mem_cons_self ..))
      cases hc : s.call i with
      | none => exact ih fun j hj => hl j (List.mem_cons_of_mem _ hj)
      | some c =>
        dsimp only
        rw [if_neg fun hx => hx.2 (hi c hc hx.1)]
        exact ih fun j hj => hl j (List.mem_cons_of_mem _ hj)
  exact key s.queue fun _ hi => hi

/-- Where all that goes before it has been done, the re-establishing in SINGLE mode is the walk alone
(R77, R79). -/
theorem settle_of_ready {s : State} (h : s.Ready) (hm : s.eff.mode = .single) : settle s = walk s := by
  have h1 : recomputeUnderLoad s = s := by
    unfold recomputeUnderLoad
    split
    · rename_i hl
      obtain ⟨he, hb⟩ := h.plan hl
      have he' : planInForce s.selection s.plans s.depth = s.eff := by rw [hl]; exact he.symm
      have hb' : bandInForce s.selection s.plans s.depth = s.band := by rw [hl]; exact hb.symm
      rw [recompute_steady (by rw [he']; exact plansDiffer_false.2 ⟨rfl, rfl⟩), he', hb']
    · rfl
  have hkept : s.available.filter s.isAvailable = s.available :=
    List.filter_eq_self.2 fun p hp => (h.listed p).1 hp
  have h2 : rejudge s = s := by
    have hnew : allPos.filter (fun p => s.isAvailable p && !s.available.contains p) = [] := by
      rw [List.filter_eq_nil_iff]
      intro p _ hp
      rw [Bool.and_eq_true] at hp
      have := (h.listed p).2 hp.1
      simp [this] at hp
    simp only [rejudge, hkept, hnew, List.append_nil]
  have h3 : dropShowings s = s := by
    unfold dropShowings
    rw [if_neg (by rw [hm]; decide)]
  have h4 : (if s.nightFlag = true then nightRoute s else s) = s := by
    split
    · rename_i hn; exact nightRoute_ready h hn
    · rfl
  have hd : distribute s = walk s := by
    unfold distribute; rw [hm]
  unfold settle settleWith
  rw [h1, h2, h3]
  dsimp only
  rw [h4, if_neg (fun hx => Nat.lt_irrefl _ hx.2), hd]

/-! ## One slot -/

/-- Where a standing offer stays standing, the offers stand in both modes. -/
theorem offerStands_of {s t : State} {i : SlotNo} {c : Call} (hc : s.call i = some c)
    (ho : c.state = .offered) (hset : Settled s t) (hmode : t.eff.mode = s.eff.mode)
    (h : ∀ m P, Standing m i c P s → (m = .common → ∃ q, P q) → Standing m i c P t) :
    OfferStands s t i c := by
  constructor
  · intro hm _
    have := h .single (fun q => (s.pos q).offer = some i)
      ⟨hm, ⟨c, hc, ho, fun _ => rfl, .inl rfl⟩, fun _ hq => hq, fun hx => (by cases hx)⟩
      (fun hx => by cases hx)
    obtain ⟨d, hd, _, hdc, _⟩ := this.record
    exact ⟨by rw [hd, hdc rfl], this.offers⟩
  · intro hm q hq ha
    have hsa : s.isAvailable q = true := by
      rw [← isAvailable_common (hset.positions q) hm (hmode.trans hm)]; exact ha
    have := h .common (fun k => k = q)
      ⟨hm, ⟨c, hc, ho, fun hx => (by cases hx), .inl rfl⟩, fun k hk => by rw [hk]; exact hq,
        fun _ k hk => by rw [hk]; exact hsa⟩ (fun _ => ⟨q, rfl⟩)
    obtain ⟨d, hd, hst, _, hx⟩ := this.record
    exact ⟨this.offers q rfl, d, hd, hst, hx⟩

/-- What the re-establishing of the distribution condition makes of one slot (R77, R81, R84). -/
theorem settle_slots (s : State) (i : SlotNo) : SlotSettled s (settle s) i := by
  refine ⟨(settle_settled s).slots i, fun c d hc hw hd => ?_, fun c hc ho hsteady => ?_⟩
  · obtain ⟨e, he, hp⟩ := settleWith_waited (s.depth + 1) s i c hc (by rw [hw]; decide)
    have : e = d := Option.some.inj (he.symm.trans hd)
    rw [← this]; exact hp
  · exact offerStands_of hc ho (settle_settled s) (plansDiffer_false.1 hsteady.1).1.symm
      fun m P h hP => settle_standing h hP hsteady

/-- What a recompute for a new selection or new plans makes of one slot (R43 to R45, R84). -/
theorem replan_slots (s : State) (i : SlotNo) : SlotSettled s (replan s) i := by
  refine ⟨(replan_settled s).slots i, fun c d hc hw hd => ?_, fun c hc ho hsteady => ?_⟩
  · obtain ⟨e, he, hen, hp⟩ := recompute_unoffered s i c hc (by rw [hw]; decide)
    unfold replan at hd
    dsimp only at hd
    split at hd
    · obtain ⟨f, hf, hq⟩ := settleWith_waited _ (recompute s) i e he hen
      have : f = d := Option.some.inj (hf.symm.trans hd)
      rw [← this]; exact hq.trans hp
    · have : e = d := Option.some.inj (he.symm.trans hd)
      rw [← this]; exact hp
  · exact offerStands_of hc ho (replan_settled s) (plansDiffer_false.1 hsteady.1).1.symm
      fun m P h _ => replan_standing h hsteady

end Sys2Proof.Machine
end

