-- ==== Sys2Proof/Laws/Recalls.lean ====
section
/-! SUPPORT. Leaving any collection, seating, freeing, closing a consult and recalling: what each can do. -/
namespace Sys2Proof.Machine

/-! ## Leaving, whatever the collection (R9 step 1) -/

/-- The record of a call but for its camp order. -/
def Call.sansOrder (c : Call) : Call := { c with campOrder := none }

/-- What taking a call out of its collection may change: the collections, camp orders, and an UNWATCH with
its count. -/
structure Left (s t : State) : Prop where
  state : t = { s with slots := t.slots, queue := t.queue, positions := t.positions, orbits := t.orbits,
                       camps := t.camps, txList := t.txList, counters := t.counters }
  call : ∀ j, (t.call j).map Call.sansOrder = (s.call j).map Call.sansOrder
  frames : FramesJoin s t
  counters : ∀ k, k ≠ .droppedNotices → t.count k = s.count k
  positions : ∀ p, ∃ ls, t.pos p = { s.pos p with loops := ls }

theorem Left.refl (s : State) : Left s s :=
  ⟨rfl, fun _ => rfl, .refl s, fun _ _ => rfl, fun _ => ⟨_, rfl⟩⟩

theorem Left.trans {s t u : State} (h : Left s t) (k : Left t u) : Left s u := by
  refine ⟨by rw [k.state, h.state], fun j => (k.call j).trans (h.call j), h.frames.trans k.frames,
    fun c hc => (k.counters c hc).trans (h.counters c hc),
    fun p => ?_⟩
  obtain ⟨a, ha⟩ := h.positions p
  obtain ⟨b, hb⟩ := k.positions p
  exact ⟨b, by rw [hb, ha]⟩

theorem placeDroppable_left (n : SwitchNotice) (s : State) (hn : n.issued = none) :
    Left s (placeDroppable n s) := by
  rcases placeDroppable_cases n s with h | h <;> rw [h]
  · exact ⟨rfl, fun _ => rfl, ⟨[n], rfl, by simp [counterAfter, hn]⟩, fun _ _ => rfl, fun _ => ⟨_, rfl⟩⟩
  · exact ⟨rfl, fun _ => rfl, .of_eq rfl rfl, fun k hk => by simp [Ne.symm hk], fun _ => ⟨_, rfl⟩⟩

theorem modOrder_left (j : SlotNo) (f : Option Nat → Option Nat) (s : State) :
    Left s (s.modCall j (fun c => { c with campOrder := f c.campOrder })) := by
  refine ⟨rfl, fun k => ?_, .of_eq rfl rfl, fun _ _ => rfl, fun _ => ⟨_, rfl⟩⟩
  by_cases h : j = k
  · subst h; cases hc : s.call j <;> simp [hc, Call.sansOrder]
  · simp [h]

theorem setCamps_left (s : State) (es : List CampEntry) : Left s { s with camps := es } :=
  ⟨rfl, fun _ => rfl, .of_eq rfl rfl, fun _ _ => rfl, fun _ => ⟨_, rfl⟩⟩

theorem leaveCamp_left (i : SlotNo) (x : Ext) (s : State) : Left s (leaveCamp i x s) := by
  have hfold : ∀ (l : List SlotNo) (s : State), Left s (l.foldl
      (fun s j => s.modCall j (fun c => { c with campOrder := c.campOrder.map (· - 1) })) s) := by
    intro l
    induction l with
    | nil => exact .refl
    | cons j l ih =>
      exact fun s => (modOrder_left j (Option.map (· - 1)) s).trans (ih _)
  unfold leaveCamp
  split
  · exact .refl s
  · rename_i e _
    dsimp only
    have hb := hfold ((e.list.dropWhile (· != i)).drop 1) s
    generalize (((e.list.dropWhile (· != i)).drop 1).foldl
      (fun s j => s.modCall j (fun c => { c with campOrder := c.campOrder.map (· - 1) })) s) = t at hb ⊢
    split
    · exact (hb.trans (setCamps_left t _)).trans (placeDroppable_left _ _ rfl)
    · exact hb.trans (setCamps_left t _)

theorem setLoop_left (p : PosNo) (l : LoopNo) (x : Loop) (s : State) : Left s (s.setLoop p l x) := by
  refine ⟨rfl, fun _ => rfl, .of_eq rfl rfl, fun _ _ => rfl, fun q => ?_⟩
  by_cases h : p = q
  · subst h; exact ⟨_, by simp only [setLoop_pos, if_true]; rfl⟩
  · exact ⟨(s.pos q).loops, by simp [h]⟩

/-- All that leaving a collection can do. -/
theorem leave_left (i : SlotNo) (s : State) : Left s (leave i s) := by
  have hq : Left s { s with queue := s.queue.filter (· != i) } :=
    ⟨rfl, fun _ => rfl, .of_eq rfl rfl, fun _ _ => rfl, fun _ => ⟨_, rfl⟩⟩
  have hloop : ∀ c : Call, Left s (leave.leaveLoop c s) := by
    intro c
    unfold leave.leaveLoop
    split
    · exact setLoop_left _ _ _ s
    · exact .refl s
  unfold leave
  split
  · exact .refl s
  · rename_i c _
    split
    · exact hq
    · exact hq
    · exact hloop c
    · exact hloop c
    · split
      · exact ⟨rfl, fun _ => rfl, .of_eq rfl rfl, fun _ _ => rfl, fun _ => ⟨_, rfl⟩⟩
      · exact .refl s
    · split
      · exact leaveCamp_left i _ s
      · exact .refl s
    · exact .refl s
    · exact .refl s

theorem Left.call_some {s t : State} (h : Left s t) {j : SlotNo} {c : Call} (hc : s.call j = some c) :
    ∃ k, t.call j = some { c with campOrder := k } := by
  have := h.call j
  rw [hc] at this
  cases ht : t.call j with
  | none => simp [ht] at this
  | some d =>
    rw [ht] at this
    refine ⟨d.campOrder, ?_⟩
    simp only [Option.map_some, Option.some.injEq] at this
    have hd : d = { Call.sansOrder d with campOrder := d.campOrder } := rfl
    rw [hd, this]; rfl

theorem Left.call_none {s t : State} (h : Left s t) {j : SlotNo} (hc : s.call j = none) :
    t.call j = none := by
  have := h.call j
  rw [hc] at this
  cases ht : t.call j with
  | none => rfl
  | some d => simp [ht] at this

theorem Left.settings {s t : State} (h : Left s t) : SettingsKept s t := by
  rw [h.state]; constructor <;> rfl

theorem Left.register {s t : State} (h : Left s t) : RegisterKept s t := by
  rw [h.state]; exact ⟨rfl, rfl, rfl⟩

/-! ## Seating (R87, R88, R100, R115, R130) -/

/-- The record of a call seated TALKING on loop l of position p; an ANSWER or a PICK is `fresh`. -/
def Call.seatedAt (c : Call) (p : PosNo) (l : LoopNo) (fresh : Bool) (o : Option Request) : Call :=
  { c.enter .talking with
    home := some { pos := p, loop := some l }
    reason := if fresh then none else c.reason
    preferred := if fresh then none else c.preferred
    wanted := .seat p l
    outstanding := o }

/-- Seating, where the call leaves its collection from the state v that the auto-hold left. -/
theorem seat_eq {s v : State} {p : PosNo} {l : LoopNo} {i : SlotNo} {c : Call} {fresh : Bool}
    (hl : leave i (autoHold p l s) = v) (hc : v.call i = some c) :
    seat p l i fresh s =
      (v.setLoop p l { slot := some i, mark := if fresh then c.reason else none }).asked i c
        (c.seatedAt p l fresh ((v.setLoop p l
          { slot := some i, mark := if fresh then c.reason else none }).requestAfter c (.seat p l)))
        (.seat p l) := by
  unfold seat
  rw [hl]
  dsimp only
  have hm : (if fresh = true then (v.call i).bind (·.reason) else none) =
      if fresh = true then c.reason else none := by rw [hc]; rfl
  rw [hm]
  have hc' : (v.setLoop p l { slot := some i, mark := if fresh = true then c.reason else none }).call i =
      some c := by simpa using hc
  exact want_modCall hc' _ _ rfl rfl rfl rfl rfl rfl

theorem talkAgain_eq {s v : State} {p : PosNo} {l : LoopNo} {i : SlotNo} {c : Call}
    (hv : autoHold p l s = v) (hc : v.call i = some c) :
    talkAgain p l i s =
      v.asked i c (c.talkingAt p l (v.requestAfter c (.seat p l))) (.seat p l) := by
  unfold talkAgain
  rw [hv]
  exact want_modCall hc _ _ rfl rfl rfl rfl rfl rfl

/-! ## The consult record (R126) -/

theorem closeConsult_none {s : State} {p : PosNo} (h : (s.pos p).consult = none) (drop : Bool) :
    closeConsult p drop s = s := by
  simp [closeConsult, h]

/-- All that closing a record can do: the record goes, and LEG_DROP is placed or counted. -/
theorem closeConsult_cases (p : PosNo) (drop : Bool) (s : State) :
    closeConsult p drop s = s.setPos p { s.pos p with consult := none } ∨
      ∃ n, drop = true ∧ (s.pos p).leg = some n ∧
        closeConsult p drop s =
          placeDroppable (.legDrop n) (s.setPos p { s.pos p with consult := none }) := by
  unfold closeConsult
  cases hr : (s.pos p).consult with
  | none =>
    left
    have : ({ s.pos p with consult := none } : Position) = s.pos p := by rw [← hr]
    rw [this, setPos_self]
  | some r =>
    dsimp only
    cases hl : r.leg with
    | none => exact .inl rfl
    | some n =>
      cases drop with
      | false => exact .inl rfl
      | true => exact .inr ⟨n, rfl, by simp [Position.leg, hr, hl], rfl⟩

/-! ## The recall procedure (R119, R120) -/

/-- The record of a recalled call before it is scored. -/
def Call.recalled (c : Call) (reason : RecallReason) : Call :=
  { c.enter .waiting with
    reason := some reason
    preferred := c.home.map (·.pos)
    age := 0
    ringWatch := none
    wanted := .hold }

/-- What `issue` changes in a record: the outstanding request alone. -/
theorem issue_call (i j : SlotNo) (s : State) :
    ∃ o : Call → Option Request,
      (issue i s).call j = (s.call j).map (fun c => { c with outstanding := o c }) := by
  rcases issue_cases i s with h | ⟨c, hc, _, h⟩
  · refine ⟨fun c => c.outstanding, ?_⟩
    rw [h]; cases s.call j <;> rfl
  · by_cases hij : i = j
    · subst hij
      refine ⟨fun c => some { number := s.nextNumber, target := c.wanted }, ?_⟩
      rw [h, hc]; simp [State.call]
    · refine ⟨fun c => c.outstanding, ?_⟩
      rw [h]
      have : State.call { s with
          reqCounter := s.nextNumber
          txList := s.txList ++ [.pathReq s.nextNumber c.tag c.wanted]
          slots := vset s.slots i
            (some { c with outstanding := some { number := s.nextNumber, target := c.wanted } }) } j =
          s.call j := by simp [State.call, hij]
      rw [this]; cases s.call j <;> rfl

theorem issue_onlyRecords (i : SlotNo) (s : State) : OnlyRecords s (issue i s) := by
  rcases issue_cases i s with h | ⟨c, _, _, h⟩
  · rw [h]; exact .refl s
  · rw [h]; exact ⟨rfl, [.pathReq s.nextNumber c.tag c.wanted], rfl, rfl⟩

/-- A withdrawal of the offers of call i touches no other record. -/
theorem withdrawCall_other {i j : SlotNo} (hij : i ≠ j) (s : State) :
    (withdrawCall i s).call j = s.call j := by
  unfold withdrawCall
  have h : ∀ (ps : List PosNo) (s : State),
      (ps.foldl (fun s p => if (s.pos p).offer = some i then withdrawAt p s else s) s).call j =
        s.call j := by
    intro ps
    induction ps with
    | nil => exact fun _ => rfl
    | cons p ps ih =>
      intro s
      rw [List.foldl_cons, ih]
      by_cases ho : (s.pos p).offer = some i
      · rw [if_pos ho]
        unfold withdrawAt
        rw [ho]
        dsimp only
        split <;> simp [modOffered, setOffer, hij]
      · rw [if_neg ho]
  exact h _ s

/-- A position but for its loops and its offer. -/
structure SeatKept (a b : Position) : Prop where
  state : b.state = a.state
  lastReason : b.lastReason = a.lastReason
  leadEligible : b.leadEligible = a.leadEligible
  missCount : b.missCount = a.missCount
  consult : b.consult = a.consult

theorem SeatKept.refl (a : Position) : SeatKept a a := ⟨rfl, rfl, rfl, rfl, rfl⟩

theorem SeatKept.trans {a b c : Position} (h : SeatKept a b) (k : SeatKept b c) : SeatKept a c :=
  ⟨k.state.trans h.state, k.lastReason.trans h.lastReason, k.leadEligible.trans h.leadEligible,
    k.missCount.trans h.missCount, k.consult.trans h.consult⟩

/-- Step 1 of the recall: the call is taken out of its collection, or its offers are withdrawn. -/
def recallStart (i : SlotNo) (c : Call) (s : State) : State :=
  if c.state.queued then withdrawCall i s else leave i s

theorem recallCall_eq {s : State} {i : SlotNo} {c : Call} (hc : s.call i = some c)
    (reason : RecallReason) :
    recallCall i reason s = bump .recalls (place i (rescore i (issue i
      ((recallStart i c s).modCall i (·.recalled reason))))) := by
  unfold recallCall
  rw [hc]
  rfl

/-- The slot, the register and the settings after step 1 of the recall. -/
structure RecallStarted (i : SlotNo) (s t : State) : Prop where
  settings : SettingsKept s t
  register : RegisterKept s t
  links : ∀ l, t.link l = s.link l
  consoles : t.consoles = s.consoles
  lead : t.lead = s.lead
  nightFlag : t.nightFlag = s.nightFlag
  draws : t.draws = s.draws
  eff : t.eff = s.eff
  counters : ∀ k, k ≠ .droppedNotices → t.count k = s.count k
  frames : FramesJoin s t
  positions : ∀ p, SeatKept (s.pos p) (t.pos p)
  others : ∀ j, i ≠ j → (t.call j).map Call.sansOrder = (s.call j).map Call.sansOrder
  self : ∀ c, s.call i = some c → ∃ d, t.call i = some d ∧ SameCall c d

theorem withdrawAt_eff (p : PosNo) (s : State) : (withdrawAt p s).eff = s.eff := by
  unfold withdrawAt
  split
  · rfl
  · dsimp only; split <;> rfl

theorem withdrawCall_eff (i : SlotNo) (s : State) : (withdrawCall i s).eff = s.eff := by
  unfold withdrawCall
  have h : ∀ (ps : List PosNo) (s : State),
      (ps.foldl (fun s p => if (s.pos p).offer = some i then withdrawAt p s else s) s).eff = s.eff := by
    intro ps
    induction ps with
    | nil => exact fun _ => rfl
    | cons p ps ih =>
      intro s
      rw [List.foldl_cons, ih]
      split
      · exact withdrawAt_eff p s
      · rfl
  exact h _ s

theorem recallStart_started {s : State} {i : SlotNo} {c : Call} (hc : s.call i = some c) :
    RecallStarted i s (recallStart i c s) := by
  unfold recallStart
  by_cases hq : c.state.queued = true
  · rw [if_pos hq]
    have h := withdrawCall_settled i s
    refine ⟨h.settings, h.register, h.links, h.consoles, h.lead, h.nightFlag, h.draws,
      withdrawCall_eff i s, fun k _ => by simp only [State.count, h.counters], h.frames, fun p => ?_,
      fun j hj => by rw [withdrawCall_other hj], fun c' hc' => ?_⟩
    · have := h.positions p
      exact ⟨this.state, this.lastReason, this.leadEligible, this.missCount, this.consult⟩
    · have hcc : c' = c := by simpa [hc'] using hc
      subst hcc
      have := h.slots i
      simp only [SlotPassed, hc', hq, if_true] at this
      obtain ⟨d, hd, hr⟩ := this
      exact ⟨d, hd, hr.same⟩
  · rw [if_neg hq]
    have h := leave_left i s
    refine ⟨h.settings, h.register, fun l => ?_, ?_, ?_, ?_, ?_, ?_, h.counters, h.frames,
      fun p => ?_, fun j _ => h.call j, fun c' hc' => ?_⟩
    · rw [h.state]; cases l <;> rfl
    · rw [h.state]
    · rw [h.state]
    · rw [h.state]
    · rw [h.state]
    · rw [h.state]
    · obtain ⟨ls, hl⟩ := h.positions p
      rw [hl]; exact ⟨rfl, rfl, rfl, rfl, rfl⟩
    · obtain ⟨k, hk⟩ := h.call_some hc'
      exact ⟨_, hk, ⟨rfl, rfl, rfl, rfl, rfl, rfl, rfl, rfl, rfl⟩⟩

/-- The record that a recall leaves (R119 steps 2 to 4). -/
structure RecalledCall (c d : Call) (reason : RecallReason) (e : Plan) : Prop where
  state : d.state = .waiting
  tag : d.tag = c.tag
  origin : d.origin = c.origin
  cls : d.cls = c.cls
  label : d.label = c.label
  age : d.age = 0
  score : d.score = min 4095 (8 * e.weights[c.cls] + e.bonus)
  recallReason : d.reason = some reason
  preferred : d.preferred = c.home.map (·.pos)
  home : d.home = c.home.map (fun h => { h with loop := none })
  offer : d.offer = none
  orbit : d.orbit = none
  extension : d.extension = none
  campOrder : d.campOrder = none
  reminded : d.reminded = false
  confirmed : d.confirmed = c.confirmed
  wanted : d.wanted = .hold
  ringWatch : d.ringWatch = none
  retryWait : d.retryWait = c.retryWait

theorem insertByScore_mem (f : SlotNo → Nat) (i j : SlotNo) (l : List SlotNo) :
    j ∈ insertByScore f i l ↔ j = i ∨ j ∈ l := by
  induction l with
  | nil => simp [insertByScore]
  | cons k l ih =>
    unfold insertByScore
    split
    · simp
    · simp only [List.mem_cons, ih]; tauto

/-- All that steps 1 to 4 of a recall and its count can do. -/
theorem recallCall_spec {s : State} {i : SlotNo} {c : Call} (hc : s.call i = some c)
    (reason : RecallReason) :
    ∃ d, (recallCall i reason s).call i = some d ∧ RecalledCall c d reason s.eff ∧
      i ∈ (recallCall i reason s).queue ∧
      SettingsKept s (recallCall i reason s) ∧ RegisterKept s (recallCall i reason s) ∧
      (∀ l, (recallCall i reason s).link l = s.link l) ∧
      (recallCall i reason s).consoles = s.consoles ∧
      (recallCall i reason s).lead = s.lead ∧ (recallCall i reason s).nightFlag = s.nightFlag ∧
      (recallCall i reason s).draws = s.draws ∧
      (recallCall i reason s).count .recalls = min counterMax (s.count .recalls + 1) ∧
      (∀ k, k ≠ .droppedNotices → k ≠ .recalls → (recallCall i reason s).count k = s.count k) ∧
      FramesJoin s (recallCall i reason s) ∧
      (∀ p, SeatKept (s.pos p) ((recallCall i reason s).pos p)) ∧
      (∀ j, i ≠ j →
        ((recallCall i reason s).call j).map Call.sansOrder = (s.call j).map Call.sansOrder) := by
  have h := recallStart_started hc
  rw [recallCall_eq hc]
  obtain ⟨c', hc', hsame⟩ := h.self c hc
  generalize recallStart i c s = u at h hc' ⊢
  rw [modCall_eq hc']
  have ho := issue_onlyRecords i { u with slots := vset u.slots i (some (c'.recalled reason)) }
  obtain ⟨o, hoc⟩ := issue_call i i { u with slots := vset u.slots i (some (c'.recalled reason)) }
  have hother : ∀ j, i ≠ j →
      (issue i { u with slots := vset u.slots i (some (c'.recalled reason)) }).call j = u.call j := by
    intro j hij
    rcases issue_cases i { u with slots := vset u.slots i (some (c'.recalled reason)) } with
      hx | ⟨_, _, _, hx⟩ <;> rw [hx] <;> simp [State.call, hij]
  have hci : State.call { u with slots := vset u.slots i (some (c'.recalled reason)) } i =
      some (c'.recalled reason) := by simp [State.call]
  rw [hci, Option.map_some] at hoc
  generalize issue i { u with slots := vset u.slots i (some (c'.recalled reason)) } = v at ho hoc hother ⊢
  have hve : v.eff = s.eff := by rw [ho.state]; exact h.eff
  have hset : SettingsKept u v := by rw [ho.state]; constructor <;> rfl
  have hreg : RegisterKept u v := by rw [ho.state]; exact ⟨rfl, rfl, rfl⟩
  unfold rescore
  rw [modCall_eq hoc]
  refine ⟨{ ({ c'.recalled reason with outstanding := o (c'.recalled reason) } : Call) with
      score := scoreOf v.eff { c'.recalled reason with outstanding := o (c'.recalled reason) } },
    ?_, ?_, ?_, ?_, ?_, ?_, ?_, ?_, ?_, ?_, ?_, ?_, ?_, ?_, ?_⟩
  · simp [bump, place, State.call]
  · refine ⟨rfl, hsame.tag, hsame.origin, hsame.cls, hsame.label, rfl, ?_, rfl, hsame.home, ?_, rfl,
      rfl, rfl, rfl, rfl, hsame.confirmed, rfl, rfl, hsame.retryWait⟩
    · simp [scoreOf, Call.recalled, Call.enter, hve, hsame.cls, maxScore]
    · have := hsame.home
      simp only [Call.recalled, Call.enter, CallState.seated]
      cases hh : c.home <;> cases hh' : c'.home <;> simp_all
  · simp [bump, place, insertByScore_mem]
  · exact (h.settings.trans hset).trans (by constructor <;> rfl)
  · exact (h.register.trans hreg).trans ⟨rfl, rfl, rfl⟩
  · intro l; rw [ho.state, ← h.links l]; cases l <;> rfl
  · rw [ho.state]; exact h.consoles
  · rw [ho.state]; exact h.lead
  · rw [ho.state]; exact h.nightFlag
  · rw [ho.state]; exact h.draws
  · rw [ho.state, ← h.counters .recalls (by decide), bump_count, if_pos rfl]; rfl
  · intro k h1 h2
    rw [ho.state, bump_count, if_neg (Ne.symm h2), ← h.counters k h1]; rfl
  · exact (h.frames.trans (.of_eq rfl rfl)).trans (ho.frames.trans (.of_eq rfl rfl))
  · intro p; rw [ho.state]; exact h.positions p
  · intro j hij
    rw [← h.others j hij, ← hother j hij]
    simp [bump, place, State.call, hij]

/-- The issue rule on a record that wants w: what it makes of the outstanding request and the list. -/
theorem issue_requests {u : State} {i : SlotNo} {r : Call} (hr : u.call i = some r) :
    (issue i u).call i = some { r with outstanding := u.issuedAfter r r.wanted } ∧
      (issue i u).txList = u.txList ++ u.issuedFor r r.wanted := by
  have hmay : u.mayIssue r = u.admits r r.wanted := by
    have hlen : 1 ≤ 64 - u.txList.length ↔ u.txList.length < 64 := by omega
    change (r.outstanding.isNone && r.wanted != r.confirmed && !r.retryWait &&
      decide (1 ≤ 64 - u.txList.length)) = _
    simp [hlen, State.admits]
  unfold issue State.issuedAfter State.issuedFor
  rw [hr]
  dsimp only
  rw [hmay]
  by_cases ha : u.admits r r.wanted = true
  · simp only [ha, if_true]
    rw [modCall_eq (c := r) (by simpa [enlist, State.call] using hr)]
    exact ⟨by simp [State.call], rfl⟩
  · simp only [ha]
    exact ⟨hr, by simp⟩

@[simp] theorem afterRecall_txList (s : State) (i : SlotNo) (c : Call) :
    (s.afterRecall i c).txList = s.txList ++
      State.issuedFor { s with slots := vset s.slots i (some { c with ringWatch := none }) } c .hold := rfl

@[simp] theorem afterRecall_call (s : State) (i j : SlotNo) (c : Call) :
    (s.afterRecall i c).call j =
      if i = j then some { c with
        wanted := .hold
        ringWatch := none
        outstanding := State.issuedAfter
          { s with slots := vset s.slots i (some { c with ringWatch := none }) } c .hold }
      else s.call j := by simp [State.afterRecall, State.call]

/-- The requests of a recall from outside the queue (R119 step 3, R147): from the state v that leaving the
collection left, with the ring watch gone, the issue rule is attempted for HOLD. -/
theorem recallCall_requests {s v : State} {i : SlotNo} {c₀ c : Call} (hc₀ : s.call i = some c₀)
    (hq : c₀.state.queued = false) (hv : leave i s = v) (hc : v.call i = some c)
    (reason : RecallReason) :
    let u : State := { v with slots := vset v.slots i (some { c with ringWatch := none }) }
    (∀ d, (recallCall i reason s).call i = some d → d.outstanding = u.issuedAfter c .hold) ∧
      (recallCall i reason s).txList = u.txList ++ u.issuedFor c .hold := by
  intro u
  rw [recallCall_eq hc₀, recallStart, if_neg (by simp [hq]), hv, modCall_eq hc]
  let w : State := { v with slots := vset v.slots i (some (c.recalled reason)) }
  have hw : w.call i = some (c.recalled reason) := by simp [w, State.call]
  have hn : w.nextNumber = u.nextNumber := by
    have hu : u.call i = some { c with ringWatch := none } := by simp [u, State.call]
    have := nextNumber_vset u i { c with ringWatch := none } (c.recalled reason) hu rfl
    simpa [u, w, vset_vset] using this
  have ha : w.admits (c.recalled reason) .hold = u.admits c .hold := rfl
  obtain ⟨h1, h2⟩ := issue_requests hw
  change (∀ d, (bump .recalls (place i (rescore i (issue i w)))).call i = some d → _) ∧
    (bump .recalls (place i (rescore i (issue i w)))).txList = _
  constructor
  · intro d hd
    have : (rescore i (issue i w)).call i = some d := hd
    rw [rescore, modCall_eq h1] at this
    simp only [State.call, Fin.getElem_fin, vset_get, if_true, Option.some.injEq] at this
    rw [← this]
    simp only [State.issuedAfter, show (c.recalled reason).wanted = .hold from rfl, ha, hn]
    rfl
  · change (issue i w).txList = _
    rw [h2]
    simp only [State.issuedFor, show (c.recalled reason).wanted = .hold from rfl, ha, hn]
    rfl

/-! ## Freeing (R13) -/

theorem freeSlot_none {s : State} {i : SlotNo} (h : s.call i = none) : freeSlot i s = s := by
  simp [freeSlot, h]

/-- The state in which the freeing clears the record: offers ended and the collection left. -/
def State.emptied (s : State) (i : SlotNo) (c : Call) : State :=
  leave i (if c.state = .offered then endOffers i s else s)

theorem freeSlot_eq {s : State} {i : SlotNo} {c : Call} (h : s.call i = some c) :
    freeSlot i s = { (s.emptied i c).setCall i none with
      tagIndex := (s.emptied i c).tagIndex.filter (fun e => e.1 != c.tag)
      origins := vset (s.emptied i c).origins c.origin
        { (s.emptied i c).origin c.origin with current := none }
      freeSlots := (s.emptied i c).freeSlots + 1 } := by
  unfold freeSlot
  rw [h]
  rfl

theorem freeSlot_call (i : SlotNo) (s : State) : (freeSlot i s).call i = none := by
  cases h : s.call i with
  | none => rw [freeSlot_none h]; exact h
  | some c => rw [freeSlot_eq h]; simp [State.call, State.setCall]

end Sys2Proof.Machine
end

