-- ==== Sys2Proof/Tests/Slice0.lean ====
section
/-! SUPPORT. Tests of the model: an ill-formed command for each check of WellFormed, the spec's worked
examples and tables, one step at a time, and for each statement of the certificates a state and operands
that meet its premises. -/
namespace Sys2Proof.Tests
open Sys2Proof Sys2Proof.Machine

set_option maxRecDepth 100000

/-! ## Well-formedness -/

theorem test_wf_length : (Instr.start 59).wf = false ∧ (Instr.start 58).wf = true := by decide
theorem test_wf_bad_frames :
    (Instr.badFrames .switch [58]).wf = false ∧ (Instr.badFrames .switch [59]).wf = true := by decide
theorem test_wf_other_kind :
    (Instr.otherKindFrame .switch 0x10).wf = false ∧
      (Instr.otherKindFrame (.console 0) 0x10).wf = true := by decide
theorem test_wf_stop :
    (Instr.stopOrderly 1 1).wf = false ∧ (Instr.stopOrderly 1 0).wf = true := by decide
theorem test_wf_subject :
    (Instr.positionSetLeadEligible 2 0x80 1).wf = false ∧
      (Instr.positionSetLeadEligible 2 7 1).wf = true := by decide

/-! ## Frames (R165, R168) -/

/-- The check over the characters 1 to 9 (R165). -/
theorem test_crc : crc16 [0x31, 0x32, 0x33, 0x34, 0x35, 0x36, 0x37, 0x38, 0x39] = 0x29B1 := by decide

/-- ARRIVE with tag 0x00001A30, group 5, circuit 3 (Example 1): kind 0x10, six bytes, high byte first. -/
theorem test_arrive_frame :
    commandOfFrame .switch (frameBody 0x10 [0x00, 0x00, 0x1A, 0x30, 5, 3]) =
      some (.arrive 6 0x1A30 5 3) := by decide

/-- SEND from console 2 with its sequence byte, the loop and an extension of three bytes. -/
theorem test_send_frame :
    commandOfFrame (.console 2) (frameBody 0x6C [9, 1, 0x00, 0x11, 0x3A]) =
      some (.send 2 5 9 1 4410) := by decide

/-- PLAN_WRITE: target, field, value high byte first. -/
theorem test_plan_write_frame :
    commandOfFrame .switch (frameBody 0x29 [3, 0, 0x01, 0x00]) = some (.planWrite 4 3 0 256) := by
  decide

theorem test_bad_check :
    commandOfFrame .switch [0, 0x20, 0, 0] = some (.badFrames .switch [0, 0x20, 0, 0]) := by decide

/-! ## A floor at work

Eight positions, calls in every state, and the laws of the part. -/

/-- A call of class 1 with the tag, the origin and the label that go with its slot. -/
def callOf (i : Nat) (st : CallState) : Call :=
  { newCall (BitVec.ofNat 32 (100 + i)) ⟨(160 + i) % 1024, by omega⟩ 1 (BitVec.ofNat 16 i) with
    state := st, confirmed := .hold, wanted := .hold }

def seatedCall (i : Nat) (st : CallState) (p : PosNo) (l : LoopNo) : Call :=
  { callOf i st with home := some { pos := p, loop := some l } }

def talking : Call :=
  { seatedCall 0 .talking 2 0 with confirmed := .seat 2 0, wanted := .seat 2 0 }
def held : Call := { seatedCall 1 .held 2 1 with age := 24 }
def reminded : Call := { seatedCall 2 .held 3 3 with age := 24, reminded := true }
def parked : Call :=
  { callOf 3 .parked with orbit := some 0, home := some { pos := 2, loop := none }, age := 48 }
def ringing : Call :=
  { callOf 4 .ringing with extension := some 4410, home := some { pos := 2, loop := none }, age := 24,
                           confirmed := .ring 4410, wanted := .ring 4410, ringWatch := some 7 }
def camped (i k : Nat) (x : Ext) : Call :=
  { callOf i .camped with extension := some x, campOrder := some k, age := 96,
                          home := some { pos := 3, loop := none } }
def waiting : Call := { callOf 8 .waiting with cls := 2, age := 10, score := 300, reason := some .park }
def offered : Call := { callOf 9 .offered with score := 290, offer := some (.one 4), offerAge := 7 }
def departing : Call :=
  { callOf 10 .departing with
    extension := some 3307, wanted := .deliver 3307 none,
    outstanding := some { number := 20, target := .deliver 3307 none } }

def consultOf (l : LoopNo) (x : Ext) (ph : Phase) (n : ReqNo) : Option Consult :=
  some { loop := l, ext := x, phase := ph, leg := some n }

def posWith (st : PosState) (ls : List (LoopNo × SlotNo)) (r : Option Consult) (o : Option SlotNo) :
    Position :=
  { Position.powerOn with
    state := st
    lastReason := if st = .opened then .opened else .closed
    loops := ls.foldl (fun v e => vset v e.1 { slot := some e.2, mark := none }) (Vector.replicate 4 Loop.empty)
    consult := r
    offer := o }

def calls : List (SlotNo × Call) :=
  [(0, talking), (1, held), (2, reminded), (3, parked), (4, ringing), (5, camped 5 1 3307),
   (6, camped 6 2 3307), (7, camped 7 1 55), (8, waiting), (9, offered), (10, departing),
   (11, seatedCall 11 .held 5 2), (12, seatedCall 12 .held 6 0), (13, seatedCall 13 .held 7 0),
   (14, { seatedCall 14 .talking 7 1 with confirmed := .hold, wanted := .seat 7 1 })]

/-- The default plan, but no position takes a call of class 2. -/
def plan : Plan := { Plan.default with masks := vset Plan.default.masks 2 0 }

def upLink : LinkUnit := { LinkUnit.powerOn with up := true }

/-- Origin 191 is valid and unused; the others are the calls'. -/
def originBase : Vector Origin 1024 :=
  vset (Vector.replicate 1024 Origin.cleared) 191 { Origin.cleared with valid := true, label := 77 }
def inUse (e : SlotNo × Call) : Origin := { Origin.cleared with valid := true, current := some e.1 }
def originTable : Vector Origin 1024 := calls.foldl (fun v e => vset v e.2.origin (inUse e)) originBase

def floor : State :=
  { State.reset with
    service := .service
    switchLink := upLink
    consoleLinks := vset (Vector.replicate 8 upLink) 0 LinkUnit.powerOn
    groups := vset State.reset.groups 5 { valid := true, bits := 5, base := 160, cls := 1, night := 9 }
    origins := originTable
    slots := calls.foldl (fun v e => vset v e.1 (some e.2)) State.reset.slots
    freeSlots := 49
    tagIndex := calls.map (fun e => (e.2.tag, e.1))
    queue := [8, 9]
    plans := { State.reset.plans with a := plan }
    eff := plan
    nightFlag := false
    available := [2, 3]
    positions := #v[posWith .down [] none none, posWith .closed [] none none,
      posWith .opened [(0, 0), (1, 1)] none none, posWith .opened [(3, 2)] none none,
      posWith .opened [] none (some 9), posWith .opened [(2, 11)] (consultOf 2 900 .answered 30) none,
      posWith .closed [(0, 12)] (consultOf 0 3307 .busy 31) none,
      posWith .opened [(0, 13), (1, 14)] (consultOf 0 901 .ringing 32) none]
    lead := some 2
    orbits := vset State.reset.orbits 0 (some 3)
    camps := [{ ext := 3307, list := [5, 6] }, { ext := 55, list := [7] }]
    reqCounter := 32 }

/-! ### The laws hold on the floor -/

/-- A check of every call of the part, in one pass over the slots. -/
def everyCall (s : State) (f : SlotNo → Call → Bool) : Bool :=
  s.slots.toList.zipIdx.all (fun e => e.1.all (f (Fin.ofNat 256 e.2)))

theorem calls_all {s : State} {f : SlotNo → Call → Bool} (h : everyCall s f = true) :
    ∀ i c, s.call i = some c → f i c = true := by
  intro i c hc
  have hm : (s.call i, i.val) ∈ s.slots.toList.zipIdx := by
    rw [List.mem_zipIdx_iff_getElem?, Vector.getElem?_toList]
    exact Vector.getElem?_eq_getElem i.isLt
  have := List.all_eq_true.mp h _ hm
  rw [hc] at this
  simpa [Fin.ofNat, Nat.mod_eq_of_lt i.isLt] using this

def placesOk (s : State) : Bool :=
  allPos.all (fun p =>
    allLoops.all (fun l => match ((s.pos p).loop l).slot with
      | none => true
      | some i => (s.call i).any (fun c => c.state.seated && c.isHomeAt p l)) &&
    (match (s.pos p).offer with
      | none => true
      | some i => (s.call i).any (fun c => c.state == .offered)) &&
    (match (s.pos p).consult with
      | none => true
      | some r => match ((s.pos p).loop r.loop).slot with
        | none => false
        | some i => (s.call i).any (fun c => c.state == .held))) &&
  allOrbits.all (fun o => match s.orbitSlot o with
    | none => true
    | some i => (s.call i).any (fun c => c.state == .parked && c.orbit == some o)) &&
  everyCall s (fun i c =>
    (!c.state.seated || match c.home with
      | some { pos := p, loop := some l } => ((s.pos p).loop l).slot == some i
      | _ => true) &&
    (c.state != .parked || match c.orbit with
      | some o => s.orbitSlot o == some i
      | none => true))

theorem mem_allPos (p : PosNo) : p ∈ allPos := by revert p; decide
theorem mem_allLoops (l : LoopNo) : l ∈ allLoops := by revert l; decide
theorem mem_allOrbits (o : OrbitNo) : o ∈ allOrbits := by revert o; decide

theorem placesLaw_of_ok {s : State} (h : placesOk s = true) : s.PlacesLaw := by
  simp only [placesOk, Bool.and_eq_true, List.all_eq_true] at h
  obtain ⟨⟨hp, ho⟩, hs⟩ := h
  constructor
  · intro p l i
    constructor
    · intro hl
      have := (hp p (mem_allPos p)).1.1 l (mem_allLoops l)
      rw [hl] at this
      obtain ⟨c, hc, hd⟩ := Option.any_eq_true _ _ |>.mp this
      exact ⟨c, hc, by simpa using hd⟩
    · rintro ⟨c, hc, hst, hh⟩
      have := calls_all hs i c hc
      have hh' : c.home = some { pos := p, loop := some l } := by simpa [Call.isHomeAt] using hh
      rw [hh'] at this
      simp only [hst, Bool.and_eq_true, Bool.not_true, Bool.false_or, beq_iff_eq] at this
      exact this.1
  · intro o i
    constructor
    · intro hl
      have := ho o (mem_allOrbits o)
      rw [hl] at this
      obtain ⟨c, hc, hd⟩ := Option.any_eq_true _ _ |>.mp this
      exact ⟨c, hc, by simpa using hd⟩
    · rintro ⟨c, hc, hst, hh⟩
      have := calls_all hs i c hc
      rw [hh] at this
      simp only [hst, Bool.and_eq_true, bne_self_eq_false, Bool.false_or, beq_iff_eq] at this
      exact this.2
  · intro p i hl
    have := (hp p (mem_allPos p)).1.2
    rw [hl] at this
    obtain ⟨c, hc, hd⟩ := Option.any_eq_true _ _ |>.mp this
    exact ⟨c, hc, by simpa using hd⟩
  · intro p r hr
    have := (hp p (mem_allPos p)).2
    simp only [hr] at this
    cases hi : ((s.pos p).loop r.loop).slot with
    | none => rw [hi] at this; cases this
    | some i =>
      rw [hi] at this
      obtain ⟨c, hc, hd⟩ := Option.any_eq_true _ _ |>.mp this
      exact ⟨i, c, rfl, hc, by simpa using hd⟩

theorem floor_places : floor.PlacesLaw := placesLaw_of_ok (by decide)

/-- An existence over a slot's record, as a check. -/
theorem exists_call {s : State} {i : SlotNo} {f : Call → Bool} :
    (s.call i).any f = true ↔ ∃ c, s.call i = some c ∧ f c = true := Option.any_eq_true _ _

/-- The law of the queue, from a check of its slots and of every call. -/
theorem queueLaw_of {s : State} (nodup : s.queue.Nodup)
    (there : ∀ i ∈ s.queue, (s.call i).any (fun c => c.state.queued) = true)
    (back : everyCall s (fun i c => !c.state.queued || s.queue.contains i) = true)
    (sorted : s.queue.Pairwise (fun i j => s.storedScore j ≤ s.storedScore i)) : s.QueueLaw := by
  refine ⟨nodup, fun i => ⟨fun h => exists_call.mp (there i h), ?_⟩, sorted⟩
  rintro ⟨c, hc, hst⟩
  simpa [hst] using calls_all back i c hc

theorem floor_queue : floor.QueueLaw := queueLaw_of (by decide) (by decide) (by decide) (by decide)

/-- The law of the camp table, from checks of the entries and of every slot. -/
theorem campLaw_of {s : State} (size : s.camps.length ≤ 16)
    (short : ∀ e ∈ s.camps, e.list.length ≤ 3) (entries : (s.camps.map (·.ext)).Nodup)
    (filled : ∀ e ∈ s.camps, e.list ≠ [] ∧ e.list.Nodup)
    (there : ∀ e ∈ s.camps, ∀ i ∈ e.list,
      (s.call i).any (fun c => c.state == .camped && c.extension == some e.ext) = true)
    (back : everyCall s (fun i c => c.state != .camped || c.extension.isNone ||
      s.camps.any (fun e => c.extension == some e.ext && e.list.contains i)) = true)
    (order : ∀ e ∈ s.camps, ∀ k < e.list.length, ∀ i, e.list[k]? = some i →
      (s.call i).all (fun c => c.campOrder == some (k + 1)) = true) : s.CampLaw := by
  refine ⟨size, short, entries, filled, ?_, ?_⟩
  · intro i x
    constructor
    · rintro ⟨e, he, rfl, hi⟩
      obtain ⟨c, hc, hd⟩ := exists_call.mp (there e he i hi)
      exact ⟨c, hc, by simpa using hd⟩
    · rintro ⟨c, hc, hst, hx⟩
      have := calls_all back i c hc
      simp only [hst, bne_self_eq_false, Option.isNone_some, Bool.false_or, List.any_eq_true,
        Bool.and_eq_true, beq_iff_eq, hx, Option.some.injEq, List.contains_iff_mem] at this
      obtain ⟨e, he, hxe, hi⟩ := this
      exact ⟨e, he, hxe.symm, hi⟩
  · intro e he k i c hk hc
    have hlt : k < e.list.length := by
      rcases Nat.lt_or_ge k e.list.length with h | h
      · exact h
      · rw [List.getElem?_eq_none h] at hk; cases hk
    have := order e he k hlt i hk
    rw [hc] at this
    simpa using this

theorem floor_camps : floor.CampLaw :=
  campLaw_of (by decide) (by decide) (by decide) (by decide) (by decide) (by decide) (by decide)

theorem floor_news : floor.NewsClear := by intro p; revert p; decide

theorem floor_group : floor.GroupLaw := ⟨by decide, by decide⟩

/-- Position 0 is DOWN and its console's link LOST; every other link is UP and no other position DOWN. -/
theorem floor_links : floor.LinkLaw := by intro p; revert p; decide

theorem floor_thresholds : floor.thresholdLaw := by unfold State.thresholdLaw; decide

def homesOk (s : State) : Bool :=
  everyCall s (fun _ c =>
    (!c.state.seated || c.home.any (fun h => h.loop.isSome)) &&
    (c.state != .parked || c.orbit.isSome) && (c.state != .camped || c.extension.isSome))

theorem homesLaw_of_ok {s : State} (h : homesOk s = true) : s.HomesLaw := by
  have hc : ∀ i c, s.call i = some c → _ := fun i c hc => by
    simpa only [Bool.and_eq_true] using calls_all h i c hc
  constructor
  · intro i c hi hst
    have := (hc i c hi).1.1
    rw [hst] at this
    cases hh : c.home with
    | none => rw [hh] at this; cases this
    | some home =>
      rw [hh] at this
      cases hl : home.loop with
      | none => rw [Bool.not_true, Bool.false_or, Option.any_some, hl] at this; cases this
      | some l =>
        refine ⟨home.pos, l, ?_⟩
        cases home
        simp_all [Call.isHomeAt]
  · intro i c hi hst
    have := (hc i c hi).1.2
    rw [hst] at this
    exact Option.isSome_iff_exists.mp (by simpa using this)
  · intro i c hi hst
    have := (hc i c hi).2
    rw [hst] at this
    exact Option.isSome_iff_exists.mp (by simpa using this)

def offersOk (s : State) : Bool :=
  allPos.all (fun p => (s.pos p).offer.all (fun i => (s.call i).all (fun c =>
    c.offer == some (if s.eff.mode == .single then .one p else .all)))) &&
  (s.eff.mode == .common || allPos.all (fun p => allPos.all (fun q =>
    p == q || (s.pos p).offer.isNone || (s.pos p).offer != (s.pos q).offer))) &&
  everyCall s (fun i c =>
    if c.state == .offered then allPos.any (fun p => (s.pos p).offer == some i) else c.offer.isNone)

theorem offerLaw_of_ok {s : State} (h : offersOk s = true) : s.OfferLaw := by
  simp only [offersOk, Bool.and_eq_true, List.all_eq_true] at h
  obtain ⟨⟨hp, ha⟩, hs⟩ := h
  have named : ∀ p i c, (s.pos p).offer = some i → s.call i = some c →
      c.offer = some (if s.eff.mode == .single then .one p else .all) := fun p i c ho hc => by
    have := hp p (mem_allPos p)
    rw [ho] at this
    simpa [hc] using this
  constructor
  · intro hm p i c ho hc
    simpa [hm] using named p i c ho hc
  · intro hm p q i hpi hqi
    have := ha
    rw [hm] at this
    simp only [show ((Mode.single == Mode.common) = true) = False by simp, false_or, Bool.or_eq_true,
      List.all_eq_true] at this
    have := this p (mem_allPos p) q (mem_allPos q)
    simpa [hpi, hqi] using this
  · intro hm p i c ho hc
    simpa [hm] using named p i c ho hc
  · intro i c hc hst
    have := calls_all hs i c hc
    simp only [hst, beq_self_eq_true, if_true, List.any_eq_true] at this
    obtain ⟨p, -, ho⟩ := this
    exact ⟨p, by simpa using ho⟩
  · intro i c hc hst
    have := calls_all hs i c hc
    rw [if_neg (by simpa using hst)] at this
    simpa using this

def talksOk (s : State) : Bool :=
  let talks := fun p l => ((s.pos p).loop l).slot.any (fun i => (s.call i).any (fun c => c.state == .talking))
  allPos.all (fun p => allLoops.all (fun l => allLoops.all (fun k => l == k || !talks p l || !talks p k)))

theorem talkLaw_of_ok {s : State} (h : talksOk s = true) : s.TalkLaw := by
  simp only [talksOk, List.all_eq_true] at h
  intro p l k i j c d hl hc hct hk hd hdt
  have := h p (mem_allPos p) l (mem_allLoops l) k (mem_allLoops k)
  simpa [hl, hc, hct, hk, hd, hdt] using this

def distributed (s : State) : Bool :=
  allPos.all (fun p => s.available.contains p == s.isAvailable p) && decide s.available.Nodup &&
  s.queue.all (fun i => (s.call i).all (fun c =>
    (s.eff.mode == .common || c.state != .waiting || s.available.all (fun p => !s.eff.allows c.cls p)) &&
    (s.eff.mode == .single || !c.state.queued ||
      s.available.all (fun p => (s.pos p).offer.isSome || !s.eff.allows c.cls p)) &&
    (!s.nightFlag || c.state != .waiting || s.nightDestination c.origin == 0))) &&
  (s.eff.mode == .single || allPos.all (fun p => (s.pos p).offer.isNone || s.available.contains p))

theorem distributionLaw_of_ok {s : State} (h : distributed s = true) : s.DistributionLaw := by
  simp only [distributed, Bool.and_eq_true, List.all_eq_true, decide_eq_true_eq] at h
  obtain ⟨⟨⟨hm, hn⟩, hq⟩, hs⟩ := h
  have queued : ∀ i ∈ s.queue, ∀ c, s.call i = some c → _ := fun i hi c hc => by
    have := hq i hi
    rw [hc] at this
    simpa only [Option.all_some, Bool.and_eq_true] using this
  refine ⟨?_, hn, ?_, ?_, ?_, ?_⟩
  · intro p
    have := hm p (mem_allPos p)
    rw [beq_iff_eq] at this
    rw [← this, List.contains_iff_mem]
  · intro hmode i hi c hc hst p hp
    have := (queued i hi c hc).1.1
    simp only [hmode, hst, Bool.or_eq_true, bne_self_eq_false, List.all_eq_true] at this
    simpa using this.resolve_left (by simp) p hp
  · intro hmode p hp ho i hi c hc hst
    have := (queued i hi c hc).1.2
    simp only [hmode, hst, Bool.or_eq_true, List.all_eq_true] at this
    have := this.resolve_left (by simp) p hp
    simpa [ho] using this
  · intro hmode p ho
    simp only [hmode, Bool.or_eq_true, List.all_eq_true] at hs
    have := hs.resolve_left (by simp) p (mem_allPos p)
    rw [← List.contains_iff_mem]
    cases hx : (s.pos p).offer with
    | none => exact absurd hx ho
    | some i => simpa [hx] using this
  · intro hnight i hi c hc hst
    have := (queued i hi c hc).2
    simpa [hnight, hst] using this

theorem floor_homes : floor.HomesLaw := homesLaw_of_ok (by decide)
theorem floor_offers : floor.OfferLaw := offerLaw_of_ok (by decide)
theorem floor_talk : floor.TalkLaw := talkLaw_of_ok (by decide)
theorem floor_distribution : floor.DistributionLaw := distributionLaw_of_ok (by decide)

theorem floor_numbers : floor.NumberLaw := by
  refine ⟨by decide, by decide, ?_⟩
  intro i c n hc hn
  have := calls_all (s := floor) (f := fun _ c => c.ringWatch.isNone ||
    (c.state == .ringing && c.outstanding.isNone && c.wanted == c.confirmed)) (by decide) i c hc
  simpa [hn, and_assoc] using this

theorem floor_capacity : floor.CapacityLaw := by
  have only : ∀ g : GroupNo, !(floor.group g).valid || decide (g = 5) := by decide
  refine ⟨by decide, by decide, by decide, (fun es h => by cases h), ?_, ?_⟩
  · intro g hg
    have := only g
    rw [hg] at this
    have h5 : g = 5 := by simpa using this
    subst h5
    decide
  · intro g k hne hg hk
    have h1 := only g
    have h2 := only k
    rw [hg] at h1
    rw [hk] at h2
    exact absurd ((by simpa using h1 : g = 5).trans (by simpa using h2 : k = 5).symm) hne

theorem floor_standby : floor.StandbyLaw := ⟨fun h => (by cases h), fun h => (by cases h)⟩

theorem floor_ranges : floor.RangeLaw := by
  have hcall : ∀ i c, floor.call i = some c → c.score ≤ 4095 ∧ c.age ≤ 255 ∧ c.offerAge ≤ 15 := by
    intro i c hc
    have := calls_all (s := floor) (f := fun _ c => c.score ≤ 4095 && c.age ≤ 255 && c.offerAge ≤ 15)
      (by decide) i c hc
    simpa [and_assoc] using this
  exact ⟨fun i c h => (hcall i c h).1, fun i c h => (hcall i c h).2.1,
    fun i c h => (hcall i c h).2.2, by intro p; revert p; decide⟩

theorem mem_of_lookup {α β : Type} [BEq α] [LawfulBEq α] {l : List (α × β)} {a : α} {b : β}
    (h : l.lookup a = some b) : (a, b) ∈ l := by
  induction l with
  | nil => cases h
  | cons e l ih =>
    rw [List.lookup_cons] at h
    split at h
    · rename_i he
      rw [beq_iff_eq] at he
      cases h; subst he; exact List.mem_cons_self
    · exact List.mem_cons_of_mem _ (ih h)

theorem foldl_vset_mem {α β : Type} {n : Nat} (f : β → Fin n) (g : β → α) {l : List β} {e : β}
    (he : e ∈ l) (hn : (l.map f).Nodup) (v : Vector α n) :
    (l.foldl (fun v e => vset v (f e) (g e)) v)[(f e).val] = g e := by
  induction l generalizing v with
  | nil => cases he
  | cons a l ih =>
    rw [List.map_cons, List.nodup_cons] at hn
    rcases List.mem_cons.mp he with rfl | he
    · have hne : ∀ (l : List β) (v : Vector α n), f e ∉ l.map f → v[(f e).val] = g e →
          (l.foldl (fun v e => vset v (f e) (g e)) v)[(f e).val] = g e := by
        intro l
        induction l with
        | nil => intro v _ hv; exact hv
        | cons b l ih =>
          intro v hb hv
          rw [List.map_cons, List.mem_cons, not_or] at hb
          refine ih _ hb.2 ?_
          rw [vset_get, if_neg (Ne.symm hb.1)]
          exact hv
      exact hne l _ hn.1 (by rw [vset_get, if_pos rfl])
    · exact ih he hn.2 _

theorem foldl_vset_cases {α β : Type} {n : Nat} (f : β → Fin n) (g : β → α) (l : List β)
    (v : Vector α n) (i : Fin n) :
    (∃ e ∈ l, f e = i ∧ (l.foldl (fun v e => vset v (f e) (g e)) v)[i.val] = g e) ∨
      (l.foldl (fun v e => vset v (f e) (g e)) v)[i.val] = v[i.val] := by
  induction l generalizing v with
  | nil => exact .inr rfl
  | cons a l ih =>
    rcases ih (vset v (f a) (g a)) with ⟨e, he, h1, h2⟩ | h
    · exact .inl ⟨e, List.mem_cons_of_mem _ he, h1, h2⟩
    · by_cases ha : f a = i
      · exact .inl ⟨a, List.mem_cons_self, ha, by rw [List.foldl_cons, h, vset_get, if_pos ha]⟩
      · exact .inr (by rw [List.foldl_cons, h, vset_get, if_neg ha])

theorem floor_call {e : SlotNo × Call} (he : e ∈ calls) : floor.call e.1 = some e.2 :=
  foldl_vset_mem (fun e : SlotNo × Call => e.1) (fun e => some e.2) he (by decide) _

theorem mem_calls {i : SlotNo} {c : Call} (h : floor.call i = some c) : (i, c) ∈ calls := by
  rcases foldl_vset_cases (fun e : SlotNo × Call => e.1) (fun e => some e.2) calls
    State.reset.slots i with ⟨e, he, rfl, h2⟩ | h2
  · have : some c = some e.2 := h.symm.trans h2
    cases this; exact he
  · have : some c = none := h.symm.trans (h2.trans (by simp [State.reset]))
    cases this

theorem floor_origin {e : SlotNo × Call} (he : e ∈ calls) : floor.origin e.2.origin = inUse e := by
  have h := foldl_vset_mem (fun e : SlotNo × Call => e.2.origin) inUse he (by decide +kernel) originBase
  exact h

theorem current_of_calls {o : OriginNo} {i : SlotNo} (h : (floor.origin o).current = some i) :
    ∃ e ∈ calls, e.1 = i ∧ e.2.origin = o := by
  have hf : floor.origin o = originTable[o.val] := rfl
  rw [hf] at h
  rcases foldl_vset_cases (fun e : SlotNo × Call => e.2.origin) inUse calls originBase o with
    ⟨e, he, h1, h2⟩ | h2
  · have h3 : originTable[o.val] = inUse e := h2
    rw [h3] at h
    exact ⟨e, he, Option.some.inj h, h1⟩
  · have h3 : originTable[o.val] = originBase[o.val] := h2
    rw [h3, originBase, vset_get] at h
    split at h
    · cases h
    · rw [Vector.getElem_replicate] at h; cases h

theorem floor_register : floor.RegisterLaw := by
  refine ⟨?_, by decide, ?_, ?_⟩
  · intro i c hc
    have hall : ∀ e ∈ calls, floor.inRange e.1 = true := by decide
    exact hall _ (mem_calls hc)
  · intro tag i
    constructor
    · intro h
      have hm : (tag, i) ∈ calls.map (fun e => (e.2.tag, e.1)) := mem_of_lookup h
      obtain ⟨d, hd, he⟩ := List.mem_map.mp hm
      cases he
      exact ⟨d.2, floor_call hd, rfl⟩
    · rintro ⟨c, hc, rfl⟩
      have hall : ∀ e ∈ calls, floor.tagIndex.lookup e.2.tag = some e.1 := by decide
      exact hall _ (mem_calls hc)
  · intro o i
    constructor
    · intro h
      obtain ⟨e, he, rfl, rfl⟩ := current_of_calls h
      exact ⟨e.2, floor_call he, rfl⟩
    · rintro ⟨c, hc, rfl⟩
      rw [floor_origin (mem_calls hc)]; rfl

/-! ## One step at a time: the spec's examples -/

/-- The state after a command, when the machine answers one. -/
def after (c : Instr) (s : State) : State :=
  match exec c s with
  | .next t => t
  | _ => s

/-- Plans A and B of Example 9: W[3] = 40 and B = 64 in both, G = 32 and 96. -/
def planNine (g : Nat) : Plan :=
  { Plan.default with weights := vset Plan.default.weights 3 40, gain := g, bonus := 64 }

/-- Example 9: at depth 7 between T1 = 4 and T2 = 12 the gain is (32·5 + 96·3) div 8 = 56. -/
theorem test_blend :
    (blend (planNine 32) (planNine 96) 4 12 7).gain = 56 ∧
      (blend (planNine 32) (planNine 96) 4 12 7).weights[3] = 40 := by decide +kernel

/-- Section 4.2's bounds: 8·255 + (255·255 div 32) + 255 is 4327, and the score saturates at 4095. -/
theorem test_score_saturates :
    scoreOf { Plan.default with weights := vset Plan.default.weights 1 255, gain := 255, bonus := 255 }
      { waiting with cls := 1, age := 255, reason := some .hold } = 4095 := by decide

/-- Example 10: a call that scores as the one before it stands behind it. -/
theorem test_place_behind_equals :
    insertByScore (fun i => if i = 5 then 256 else 512) 6 [4, 5] = [4, 6, 5] ∧
      insertByScore (fun i => if i = 4 then 512 else 256) 6 [4, 5] = [4, 5, 6] := by decide

/-- Example 7 at T1 = 4, T2 = 8, T3 = 8, T4 = 12: the bands at depths 4, 5, 8, 9 and 12. -/
theorem test_bands :
    [4, 5, 8, 9, 12].map (bandOf { t1 := 4, t2 := 8, t3 := 8, t4 := 12 }) =
      [.a, .ab, .b, .bc, .c] := by decide

/-- R87, R97: a taken ANSWER seats the call on the loop named and wants SEAT there. -/
theorem test_answer_seats :
    ((after (.answer 4 3 9 0 9) floor).call 9).map (fun c => (c.state, c.home, c.wanted)) =
      some (.talking, some { pos := 4, loop := some 0 }, .seat 4 0) := by decide

/-- R99, R144, R146: HOLD on a confirmed seat asks for HOLD at once under the next number. -/
theorem test_hold_requests :
    (after (.hold 2 2 1 0) floor).txList = [.pathReq 33 100 .hold] := by decide

/-- R101: RELEASE asks for DROP and counts DROPPED. -/
theorem test_release :
    ((after (.release 2 2 1 1) floor).call 1).map (·.state) = some .departing ∧
      (after (.release 2 2 1 1) floor).count .dropped = 1 := by decide

/-- R113: PARK with ANY takes the lowest empty orbit; orbit 0 holds slot 3. -/
theorem test_park_any : (after (.park 2 3 1 0 0xFF) floor).orbitSlot 1 = some 0 := by decide

/-- R115: RETRIEVE leaves the orbit empty. -/
theorem test_retrieve : (after (.retrieve 3 3 1 0 1) floor).orbitSlot 0 = none := by decide

/-- R138, R137: the head of the camp list rings and the next moves to the front. -/
theorem test_ext_free :
    ((after (.extFree 3 3307) floor).call 5).map (·.state) = some .ringing ∧
      ((after (.extFree 3 3307) floor).call 6).map (·.campOrder) = some (some 1) := by decide

/-- R129: JOIN in ANSWERED asks for DELIVER over the leg. -/
theorem test_join :
    (after (.join 5 2 1 2) floor).txList = [.pathReq 33 111 (.deliver 900 (some 30))] := by
  decide

/-- R131, R136: CAMP in BUSY joins the list of the extension at its tail. -/
theorem test_camp :
    (after (.camp 6 2 1 0) floor).camps =
      [{ ext := 3307, list := [5, 6, 12] }, { ext := 55, list := [7] }] := by decide

/-- R15, R18: GONE of a queued call counts ABANDONED. -/
theorem test_gone : (after (.gone 4 108) floor).count .abandoned = 1 := by decide

/-- R149, R150: DONE of a DEPARTING call's DELIVER frees its slot and counts DELIVERED. -/
theorem test_delivered :
    (after (.pathAck 3 20 0) floor).call 10 = none ∧
      (after (.pathAck 3 20 0) floor).count .delivered = 1 := by decide

/-- R172: an IDLE in the course of being sent ends first, and the head of the list begins after it. -/
theorem test_idle_then_head :
    let s : State := { floor with txList := [.legDrop 1], switchLink := { upLink with idling := true } }
    (after .switchFrameSent s).txList = [.legDrop 1] ∧
      (after .switchFrameSent (after .switchFrameSent s)).txList = [] := by decide

/-- R180: in STANDBY no periodic report is made. -/
theorem test_no_report_in_standby :
    (after .reportIntervalEnd { State.reset with reportInterval := 1 }).txList = [] := by decide

/-! ## The premises of the statements can be met

One theorem for each statement that has premises, with a case for each of its clauses. -/

theorem hears_of {s : State} {p : PosNo}
    (h : (!s.resetHeld && (s.link (.console p)).up && decide (s.resultsPending p < 8)) = true) :
    s.Hears p := by
  simp only [Bool.and_eq_true, Bool.not_eq_true', decide_eq_true_eq] at h
  exact ⟨h.1.1, h.1.2, h.2⟩

/-- A part in STANDBY with its links UP, the switch's group 5 and origin 191 loaded. -/
def still : State :=
  { State.reset with
    switchLink := upLink
    consoleLinks := Vector.replicate 8 upLink
    groups := vset State.reset.groups 5 { valid := true, bits := 5, base := 160, cls := 1, night := 9 }
    origins := originBase }

/-- The same part in SERVICE with nothing in it. -/
def quiet : State := { still with service := .service }

theorem witness_StepRunsFrontCommand :
    { floor with pending := [.answer 4 3 9 0 9, .tickPulse] }.pending =
      .answer 4 3 9 0 9 :: [.tickPulse] := rfl

theorem witness_ResetInput :
    { floor with resetHeld := true }.resetHeld = true ∧
      (∀ r, Instr.tickPulse ≠ .powerOnReset r) ∧ Instr.tickPulse ≠ .resetAsserted :=
  ⟨rfl, fun _ h => (by cases h), by decide⟩

/-- The floor with as many frames in the switch transmit list. -/
def loaded (n : Nat) : State := { floor with txList := List.replicate n (.legDrop 1) }

/-- The floor with an ANSWER in front of its queue. -/
def asked : State := { floor with pending := [.answer 4 3 9 0 9] }

theorem asked_steps : ∃ t, step asked = .next t := ⟨_, rfl⟩

theorem witness_SmallLawsKept :
    asked.thresholdLaw ∧ asked.GroupLaw ∧ asked.LinkLaw ∧ asked.NewsClear ∧ ∃ t, step asked = .next t :=
  ⟨floor_thresholds, ⟨floor_group.lead, floor_group.nightFlag⟩, floor_links, floor_news, asked_steps⟩

theorem witness_RangeLawKept :
    asked.RangeLaw ∧ asked.CapacityLaw ∧ (loaded 64).CapacityLaw ∧ ∃ t, step asked = .next t :=
  ⟨⟨floor_ranges.score, floor_ranges.age, floor_ranges.offerAge, floor_ranges.missCount⟩,
    { floor_capacity with }, { floor_capacity with frames := by decide }, asked_steps⟩

theorem witness_RegisterLawKept :
    asked.RegisterLaw ∧ asked.StandbyLaw ∧ ∃ t, step asked = .next t :=
  ⟨⟨floor_register.inRange, floor_register.freeSlots, floor_register.tags, floor_register.origins⟩,
    ⟨floor_standby.free, floor_standby.shut⟩, asked_steps⟩

theorem asked_collections : asked.PlacesLaw ∧ asked.QueueLaw ∧ asked.CampLaw :=
  ⟨{ floor_places with }, { floor_queue with }, { floor_camps with }⟩

theorem witness_CollectionLawsKept :
    (asked.PlacesLaw ∧ asked.QueueLaw ∧ asked.CampLaw) ∧ asked.HomesLaw ∧ asked.OfferLaw ∧
      asked.TalkLaw ∧ ∃ t, step asked = .next t :=
  ⟨asked_collections, { floor_homes with }, { floor_offers with }, floor_talk, asked_steps⟩

theorem witness_FramesReadBack :
    (∃ kind payload, (Instr.groupSet 8 63 1 7 896 7 0xFFFF).wf = true ∧
      (Instr.groupSet 8 63 1 7 896 7 0xFFFF).lengthRight = true ∧
      (Instr.groupSet 8 63 1 7 896 7 0xFFFF).frame = some (.switch, kind, payload)) ∧
    (∃ kind payload, (Instr.send 7 5 0xFF 3 0xFFFFFF).wf = true ∧
      (Instr.send 7 5 0xFF 3 0xFFFFFF).lengthRight = true ∧
      (Instr.send 7 5 0xFF 3 0xFFFFFF).frame = some (.console 7, kind, payload)) :=
  ⟨⟨_, _, by decide, by decide, rfl⟩, ⟨_, _, by decide, by decide, rfl⟩⟩

theorem witness_FramesRead :
    orderLength .switch 0xFF = none ∧ (List.replicate 58 (0 : Byte)).length ≤ 58 ∧
      58 < (59 : Byte).toNat ∧
      (0 : Half) ≠ crc16 (BitVec.ofNat 8 1 :: (0x20 : Byte) :: [0]) ∧
      (∀ part values, SwitchNotice.counters 2 (List.replicate 9 5) = .counters part values →
        values.length ≤ 9) ∧
      (∀ items, ConsoleNotice.park (List.replicate 16 (0, 7)) = .park items → items.length ≤ 16) :=
  ⟨by decide, by decide, by decide, by decide, fun _ _ h => (by cases h; decide), fun _ h => (by cases h; decide)⟩

/-- The floor with console link 3 collecting a frame. -/
def collecting (old : Bool) : State :=
  floor.setLink (.console 3) { upLink with receive := .collecting old }

theorem witness_LinkCommands :
    floor.Runs ∧ (floor.link .switch).receive = .hunting ∧ (floor.link (.console 3)).up = true ∧
      (collecting true).Runs ∧ ((collecting true).link (.console 3)).receive ≠ .hunting ∧
      ((collecting false).link (.console 3)).receive ≠ .hunting ∧
      invalidFrame [0, 0x20, 0, 0] = true ∧ invalidFrame (frameBody 0x20 []) = false ∧
      (1 : Nat) ≠ 0 ∧ orderLength (.console 3) 0x20 = none ∧ floor.switchLink.idling = false ∧
      { floor with switchLink := { upLink with idling := true } }.switchLink.idling = true :=
  ⟨rfl, by decide, by decide, rfl, by decide, by decide, by decide, by decide, by decide, by decide,
    by decide, rfl⟩

/-- The floor with as many RESULT entries pending for console 3. -/
def answered (n : Nat) : State :=
  floor.setConsole 3 { pending := List.replicate n (.result 0 0x60 .accepted none), sending := none }

theorem witness_DiscardedOrders :
    (∃ kind payload, floor.Runs ∧ (Instr.start 1).frame = some (.switch, kind, payload) ∧
      (Instr.start 1).len? = some 1 ∧ orderLength .switch kind ≠ some 1) ∧
    (∃ kind payload, (answered 8).Runs ∧ ((answered 8).link (.console 3)).up = true ∧
      (Instr.hold 3 2 1 0).frame = some (.console 3, kind, payload) ∧
      (Instr.hold 3 2 1 0).len? = some 2 ∧ kind ≠ Kind.idle ∧ 8 ≤ (answered 8).resultsPending 3) :=
  ⟨⟨_, _, rfl, rfl, rfl, by decide⟩, ⟨_, _, rfl, by decide, rfl, rfl, by decide, by decide⟩⟩

/-- The end of an action after a HOLD on position 2: its loop's notice is touched, the orbits' is not; the
order of the lost console 0 restores its link. -/
theorem witness_NoticesPlaced_after :
    (floor.PlacesLaw ∧ floor.QueueLaw ∧ floor.CampLaw ∧ floor.OfferLaw) ∧
    (let t := after (.hold 2 2 1 0) floor
     (t.link (.console 0)).up = false ∧ (t.link (.console 2)).up = true ∧
       Touched floor t 2 (.loop 0) ∧ ¬ Touched floor t 2 .park ∧
       exec (.hold 2 2 1 0) floor = .next t ∧ floor.notice 2 (.loop 0) ≠ t.notice 2 (.loop 0)) ∧
    (let t := after (.openPosition 0 1 9) floor
     exec (.openPosition 0 1 9) floor = .next t ∧ (floor.link (.console 0)).up = false ∧
       (t.link (.console 0)).up = true) :=
  ⟨⟨floor_places, floor_queue, floor_camps, floor_offers⟩,
    ⟨by decide +kernel, by decide +kernel, by unfold Touched; decide +kernel,
      by unfold Touched; decide +kernel, rfl, by decide +kernel⟩,
    ⟨rfl, by decide, by decide +kernel⟩⟩

theorem witness_NoticesPlaced :
    (loaded 48).txList.length ≤ 48 ∧ 48 < (loaded 49).txList.length ∧ (loaded 63).txList.length < 64 ∧
      64 ≤ (loaded 64).txList.length ∧ (floor.notice 3 .park).subject.isSome = true ∧
      (floor.notice 3 .park).subject ∈ [floor.notice 3 .offer, .park []].map (·.subject) ∧
      (floor.notice 3 .park).subject ∉ [floor.notice 3 .offer].map (·.subject) ∧
      floor.loopCall 2 3 = none ∧ floor.loopCall 2 0 = some (0, talking) ∧
      talking.state = .talking ∧ talking.confirmed = .seat 2 0 ∧ floor.consultOn 2 0 = false ∧
      (∃ c, floor.loopCall 7 1 = some (14, c) ∧ c.state = .talking ∧ c.confirmed ≠ .seat 7 1) ∧
      floor.loopCall 2 1 = some (1, held) ∧ held.state = .held ∧ held.reminded = false ∧
      floor.loopCall 3 3 = some (2, reminded) ∧ reminded.reminded = true ∧
      (∃ r c, (floor.pos 6).consult = some r ∧ r.loop = 0 ∧ floor.loopCall 6 0 = some (12, c)) :=
  ⟨by decide, by decide, by decide, by decide, by decide, by decide, by decide, by decide, by decide,
    by decide, by decide, by decide, ⟨_, rfl, by decide, by decide⟩, by decide, by decide, by decide,
    by decide, by decide, ⟨_, _, rfl, by decide, rfl⟩⟩

/-- The floor with the switch link one event before its loss. -/
def late : State := { floor with switchLink := { upLink with quiet := 31 } }

theorem witness_Ticks :
    { floor with thinOut := 2 }.pulseCount + 1 < 2 ∧ floor.thinOut ≤ floor.pulseCount + 1 ∧
      floor.Runs ∧ late.Runs ∧ late.dueRows = [.linkLost .switch, .sweepVisit] :=
  ⟨by decide, by decide, rfl, rfl, by decide⟩

theorem links_all {f : Link → Bool} (h : f .switch = true ∧ ∀ p, f (.console p) = true) :
    ∀ l, f l = true := by
  intro l
  cases l with
  | switch => exact h.1
  | console p => exact h.2 p

theorem floor_keeps_links : ∀ l, floor.fallsSilent l = false ∧ floor.frameOld l = false := by
  intro l
  have := links_all (f := fun l => !floor.fallsSilent l && !floor.frameOld l) (by decide) l
  simpa using this

theorem witness_TickSteps :
    floor.Runs ∧ (∀ l, floor.fallsSilent l = false ∧ floor.frameOld l = false) ∧
      floor.service = .service ∧
      stepTaken floor.stepEdge floor.stepBit floor.tickCount (floor.tickCount + 1) = true ∧
      (∀ l, { floor with tickCount := 1 }.fallsSilent l = false ∧
        { floor with tickCount := 1 }.frameOld l = false) ∧
      stepTaken floor.stepEdge floor.stepBit 1 (1 + 1) = false ∧
      stepTaken .rise 11 0x07FF 0x0800 = true ∧ stepTaken .fall 11 0xFFFF 0 = true ∧
      stepTaken .either 11 0x0FFF 0x1000 = true :=
  ⟨rfl, floor_keeps_links, by decide, by decide, floor_keeps_links, by decide, by decide,
    by decide, by decide⟩

theorem witness_ConsoleLinkLost :
    floor.Runs ∧ (floor.link (.console 2)).up = true ∧ floor.PlacesLaw ∧
      ((floor.pos 2).loop 1).slot = some 1 ∧ floor.call 1 = some held ∧
      (∀ l, ((floor.pos 2).loop l).slot ≠ some 3) ∧
      ((floor.link (.console 5)).up = true ∧ (floor.pos 5).leg = some 30) :=
  ⟨rfl, by decide, floor_places, by decide, by decide, by decide, by decide, by decide⟩

theorem witness_SwitchLinkLost :
    (still.Runs ∧ (still.link .switch).up = true ∧ still.service = .standby ∧ still.NewsClear) ∧
      (floor.Runs ∧ (floor.link .switch).up = true ∧ floor.service = .service) ∧
      (floor.link (.console 0)).up = false :=
  ⟨⟨rfl, by decide, by decide, by unfold State.NewsClear; decide⟩, ⟨rfl, by decide, by decide⟩,
    by decide⟩

theorem witness_RestoredByAFrame :
    floor.Runs ∧ (floor.link (.console 0)).up = false ∧
      (∃ kind payload, (Instr.openPosition 0 1 9).frame = some (.console 0, kind, payload)) ∧
      (floor.console 0).pending = [] := ⟨rfl, by decide, ⟨_, _, rfl⟩, by decide⟩

/-! ### Arrivals -/

def groupFive : Group := { valid := true, bits := 5, base := 160, cls := 1, night := 9 }

theorem map_eq {s : State} {group circuit : Byte} {g : GroupNo} {e : Group} {o : OriginNo}
    (hg : groupArg group = some g) (he : s.group g = e)
    (hv : e.valid = true ∧ circuit.toNat < 2 ^ e.bits)
    (ho : originArg (e.base + circuit.toNat) = some o) (hov : (s.origin o).valid = true) :
    mapOrigin s group circuit = some (e, o) := by
  simp [mapOrigin, hg, he, hv.1, hv.2, ho, hov]

/-- Origin 191 of the floor: valid, with no call. -/
theorem floor_origin_free : floor.origin 191 = { Origin.cleared with valid := true, label := 77 } := by
  have hf : floor.origin 191 = originTable[(191 : OriginNo).val] := rfl
  rw [hf]
  rcases foldl_vset_cases (fun e : SlotNo × Call => e.2.origin) inUse calls originBase 191 with
    ⟨e, he, h1, _⟩ | h2
  · have hall : ∀ e ∈ calls, e.2.origin ≠ 191 := by decide +kernel
    exact absurd h1 (hall e he)
  · have h3 : originTable[(191 : OriginNo).val] = originBase[(191 : OriginNo).val] := h2
    rw [h3, originBase, vset_get, if_pos rfl]

theorem floor_map : mapOrigin floor 5 31 = some (groupFive, 191) :=
  map_eq (g := 5) (by decide) (by decide) ⟨by decide, by decide⟩ (by decide)
    (by rw [floor_origin_free])

theorem floor_current : (floor.origin 191).current = none := by rw [floor_origin_free]; rfl

/-- Origin 168 of the floor is that of slot 8. -/
theorem floor_origin_busy : floor.origin 168 = inUse (8, waiting) :=
  floor_origin (e := (8, waiting)) (by simp [calls])

theorem floor_map_busy : mapOrigin floor 5 8 = some (groupFive, 168) :=
  map_eq (g := 5) (by decide) (by decide) ⟨by decide, by decide⟩ (by decide)
    (by rw [floor_origin_busy]; rfl)

/-- The empty part by day. -/
def day : State := { quiet with nightFlag := false }

theorem day_arrives : (after (.arrive 6 7 5 31) day).call 0 ≠ none := by decide +kernel

theorem witness_CallsKept :
    (∃ t b, exec (.hold 2 2 1 0) floor = .next t ∧ floor.call 0 = some talking ∧ t.call 0 = some b) ∧
    (exec (.arrive 6 7 5 31) day = .next (after (.arrive 6 7 5 31) day) ∧ day.call 0 = none ∧
      (after (.arrive 6 7 5 31) day).call 0 ≠ none) ∧
    (exec (.gone 4 108) floor = .next (after (.gone 4 108) floor) ∧ floor.call 8 = some waiting ∧
      (after (.gone 4 108) floor).call 8 = none) ∧
    (exec (.pathAck 3 20 0) floor = .next (after (.pathAck 3 20 0) floor) ∧
      floor.call 10 = some departing ∧ (after (.pathAck 3 20 0) floor).call 10 = none) ∧
    (exec (.legState 3 7 2) floor = .next (after (.legState 3 7 2) floor) ∧
      floor.call 4 = some ringing ∧ (after (.legState 3 7 2) floor).call 4 = none) :=
  ⟨⟨_, (after (.hold 2 2 1 0) floor).call 0 |>.getD talking, rfl, by decide, by decide⟩,
    ⟨rfl, by decide, day_arrives⟩, ⟨rfl, by decide, by decide⟩, ⟨rfl, by decide, by decide⟩,
    ⟨rfl, by decide, by decide⟩⟩

theorem witness_ArrivalsRejected :
    (still.Runs ∧ still.NewsClear ∧ still.service = .standby ∧ still.txList.length < 64) ∧
    (floor.Runs ∧ floor.NewsClear ∧ floor.service = .service ∧ floor.txList.length ≤ 47) ∧
    ((loaded 47).Runs ∧ (loaded 47).NewsClear ∧ (loaded 47).service = .service ∧
      (loaded 47).txList.length ≤ 47) ∧
    ((loaded 64).Runs ∧ (loaded 64).NewsClear ∧ (loaded 64).service = .service ∧
      64 ≤ (loaded 64).txList.length) ∧
    ((loaded 48).NewsClear ∧ 47 < (loaded 48).txList.length ∧ (loaded 63).NewsClear ∧
      (loaded 63).txList.length < 64) ∧
    (let s : State := { still with txList := (loaded 64).txList }
     s.Runs ∧ s.NewsClear ∧ s.service = .standby ∧ 64 ≤ s.txList.length) ∧
    (floor.tagIndex.lookup 100 = some 0 ∧ floor.call 0 = some talking) ∧
    (floor.tagIndex.lookup 7 = none ∧ mapOrigin floor 63 0 = none) ∧
    (floor.tagIndex.lookup 7 = none ∧ mapOrigin floor 5 8 = some (groupFive, 168) ∧
      (floor.origin 168).current = some 8) ∧
    (floor.origin 191).override = none ∧
    ({ floor with origins := Vector.replicate 1024 { Origin.cleared with override := some 7 } }.origin
      1023).override = some 7 :=
  ⟨⟨rfl, by unfold State.NewsClear; decide, rfl, by decide⟩, ⟨rfl, floor_news, rfl, by decide⟩,
    ⟨rfl, floor_news, rfl, by decide⟩, ⟨rfl, floor_news, rfl, by decide⟩,
    ⟨floor_news, by decide, floor_news, by decide⟩,
    ⟨rfl, by unfold State.NewsClear; decide, rfl, by decide⟩, ⟨by decide, by decide⟩,
    ⟨by decide, by decide⟩, ⟨by decide, floor_map_busy, by rw [floor_origin_busy]; rfl⟩,
    by rw [floor_origin_free]; rfl, by simp [State.origin]⟩

theorem witness_ArrivalsDiverted :
    (floor.Runs ∧ floor.NewsClear ∧ floor.txList.length < 64 ∧ floor.service = .service ∧
      floor.tagIndex.lookup 7 = none ∧ mapOrigin floor 5 31 = some (groupFive, 191) ∧
      (floor.origin 191).current = none) ∧
    (mapOrigin { floor with nightFlag := true } 5 31 = some (groupFive, 191) ∧ groupFive.night ≠ 0) ∧
    (mapOrigin { floor with eff := { plan with queueLimit := 2, overflow := 2200 } } 5 31 =
        some (groupFive, 191) ∧
      { plan with queueLimit := 2, overflow := 2200 }.queueLimit ≤ floor.depth ∧
      { plan with queueLimit := 2, overflow := 2200 }.overflow ≠ 0 ∧ floor.nightFlag = false) ∧
    (mapOrigin { floor with freeSlots := 0 } 5 31 = some (groupFive, 191) ∧
      { floor with freeSlots := 0 }.freeSlots = 0 ∧ floor.eff.overflow = 0) ∧
    (mapOrigin { loaded 64 with nightFlag := true } 5 31 = some (groupFive, 191) ∧
      ¬ { loaded 64 with nightFlag := true }.txList.length < 64) :=
  ⟨⟨rfl, floor_news, by decide, rfl, by decide, floor_map, floor_current⟩, ⟨floor_map, by decide⟩,
    ⟨floor_map, by decide, by decide, rfl⟩, ⟨floor_map, rfl, by decide⟩, ⟨floor_map, by decide⟩⟩

theorem witness_ArrivalsAdmitted :
    floor.Runs ∧ floor.service = .service ∧ floor.tagIndex.lookup 7 = none ∧
      mapOrigin floor 5 31 = some (groupFive, 191) ∧ (floor.origin 191).current = none ∧
      floor.nightFlag = false ∧ floor.depth < floor.eff.queueLimit ∧ floor.freeSlots ≠ 0 ∧
      floor.inRange 15 = true ∧ floor.call 15 = none ∧
      (∀ j < (15 : SlotNo), floor.inRange j = true → floor.call j ≠ none) := by
  refine ⟨rfl, rfl, by decide, floor_map, floor_current, rfl, by decide, by decide, by decide,
    by decide, ?_⟩
  intro j hj _
  have hall : ∀ j : SlotNo, (floor.call j).isSome || decide (15 ≤ j) := by decide
  intro hn
  have := hall j
  rw [hn] at this
  have hle : 15 ≤ j := by simpa using this
  exact lt_irrefl _ (lt_of_lt_of_le hj hle)

theorem witness_Gone :
    (floor.Runs ∧ floor.NewsClear ∧ floor.tagIndex.lookup 7 = none) ∧
    (floor.PlacesLaw ∧ floor.QueueLaw ∧ floor.CampLaw) ∧
    (floor.tagIndex.lookup 109 = some 9 ∧ floor.call 9 = some offered ∧ offered.tag = 109 ∧
      offered.state.queued = true) ∧
    (∃ c r, floor.tagIndex.lookup 111 = some 11 ∧ floor.call 11 = some c ∧ c.tag = 111 ∧
      c.state.seated = true ∧ c.home.map (·.pos) = some 5 ∧ floor.consulting c = true ∧
      (floor.pos 5).consult = some r ∧ r.leg = some 30 ∧ floor.txList.length < 64) ∧
    (floor.tagIndex.lookup 107 = some 7 ∧ floor.call 7 = some (camped 7 1 55) ∧
      (camped 7 1 55).tag = 107 ∧ (⟨55, [7]⟩ : CampEntry) ∈ floor.camps) ∧
    (floor.tagIndex.lookup 105 = some 5 ∧ floor.call 5 = some (camped 5 1 3307) ∧
      (camped 5 1 3307).tag = 105 ∧ (⟨3307, [5, 6]⟩ : CampEntry) ∈ floor.camps ∧
      [(5 : SlotNo), 6] ≠ [5] ∧ (6 : SlotNo) ∈ ([(5 : SlotNo), 6].dropWhile (· != 5)).drop 1) ∧
    (floor.tagIndex.lookup 103 = some 3 ∧ floor.call 3 = some parked ∧ parked.tag = 103 ∧
      parked.state = .parked ∧ parked.orbit = some 0 ∧ parked.state.seated = false) :=
  ⟨⟨rfl, floor_news, by decide⟩, ⟨floor_places, floor_queue, floor_camps⟩,
    ⟨by decide, by decide, by decide, by decide⟩,
    ⟨_, _, by decide, rfl, by decide, by decide, by decide, by decide, rfl, by decide, by decide⟩,
    by decide, by decide, by decide⟩

/-! ### Configuration -/

theorem still_news : still.NewsClear := by intro p; revert p; decide

theorem still_standby : still.StandbyLaw :=
  ⟨fun _ i => by simp [still, State.call, State.reset],
    fun _ p => by simp [still, State.pos, State.reset, Position.powerOn]⟩

theorem witness_Configuration :
    (floor.Runs ∧ floor.NewsClear ∧ floor.service = .service) ∧
    (still.Runs ∧ still.NewsClear ∧ still.service = .standby) ∧
    (((63 : GroupNo).val = (63 : Byte).toNat ∧ (7 : ClassNo).val = (7 : Byte).toNat) ∧
      (7 : Byte).toNat ≤ 7 ∧ (896 : Half).toNat + 2 ^ (7 : Byte).toNat ≤ 1024 ∧
      ∀ k : GroupNo, k ≠ 63 → (still.group k).valid = true →
        (896 : Half).toNat + 2 ^ (7 : Byte).toNat ≤ (still.group k).base ∨
          (still.group k).base + 2 ^ (still.group k).bits ≤ (896 : Half).toNat) ∧
    (64 ≤ (64 : Byte).toNat ∧ 1 < (2 : Byte).toNat ∧ 8 ≤ (8 : Byte).toNat ∧
      ¬ (897 : Half).toNat + 2 ^ (7 : Byte).toNat ≤ 1024) ∧
    ((1023 : OriginNo).val = (1023 : Half).toNat ∧ (7 : ClassNo).val = (7 : Byte).toNat ∧
      (7 : Byte).toNat < 8 ∧ 1024 ≤ (1024 : Half).toNat ∧ 8 ≤ (0xFE : Byte).toNat ∧
      (0xFE : Byte) ≠ 0xFF) := by
  refine ⟨⟨rfl, floor_news, rfl⟩, ⟨rfl, still_news, rfl⟩,
    ⟨⟨by decide, by decide⟩, by decide, by decide, ?_⟩, by decide, by decide⟩
  intro k hk hv
  have hall : ∀ k : GroupNo, !(still.group k).valid || decide (k = 5) := by decide
  have h5 := hall k
  rw [hv] at h5
  have : k = 5 := by simpa using h5
  subst this
  exact .inr (by decide)

theorem witness_PositionAndTimingSets :
    (still.Runs ∧ still.NewsClear ∧ still.service = .standby) ∧
    ((7 : PosNo).val = (7 : Byte).toNat ∧ (1 : Byte).toNat = true.toNat) ∧
    ((8 : Byte) ≠ 0x80 ∧ 8 ≤ (8 : Byte).toNat ∧ 1 < (2 : Byte).toNat) ∧
    ((128 : Byte) ≠ 0 ∧ ¬ 128 < (128 : Byte).toNat ∧ ¬ 11 < (11 : Byte).toNat ∧ (2 : Byte).toNat ≤ 2) ∧
    (11 < (12 : Byte).toNat) :=
  ⟨⟨rfl, still_news, rfl⟩, by decide, by decide, by decide, by decide⟩

theorem witness_RangeSet :
    (floor.Runs ∧ floor.NewsClear ∧ floor.service = .service) ∧
    (still.Runs ∧ still.NewsClear ∧ still.service = .standby ∧ still.StandbyLaw) ∧
    (255 < (256 : Half).toNat ∧ ((255 : Half).toNat : Int) - (225 : Half).toNat + 1 < 32) ∧
    ((224 : SlotNo).val = (224 : Half).toNat ∧ (255 : SlotNo).val = (255 : Half).toNat ∧
      (224 : SlotNo).val + 32 ≤ (255 : SlotNo).val + 1) ∧
    (∃ t, exec (.rangeSet 4 224 255) still = .next t) ∧ (∃ t, exec (.start 0) still = .next t) ∧
    (∃ t, exec (.stopOrderly 1 0) floor = .next t) ∧ (∃ t, exec (.stopForced 1) floor = .next t) ∧
    (∃ t, exec (.restart 0) floor = .next t) ∧ (∃ t, exec (.linkLost .switch) floor = .next t) :=
  ⟨⟨rfl, floor_news, rfl⟩, ⟨rfl, still_news, rfl, still_standby⟩, by decide, by decide, ⟨_, rfl⟩,
    ⟨_, rfl⟩, ⟨_, rfl⟩, ⟨_, rfl⟩, ⟨_, rfl⟩, ⟨_, rfl⟩⟩

/-! ### Plans, the selection and the night -/

theorem witness_BandsAndBlends :
    ({ t1 := 4, t2 := 8, t3 := 8, t4 := 12 } : Thresholds).valid = true ∧
      (({ t1 := 4, t2 := 5, t3 := 5, t4 := 6 } : Thresholds).valid = true ∧ 5 = 4 + 1 ∧ 6 = 5 + 1) ∧
      floor.QueueLaw ∧ (4 < 7 ∧ 7 < 12) :=
  ⟨by decide, by decide, floor_queue, by decide⟩

theorem witness_SelectionRule :
    (exec (.planSelect 1 3) floor = .next (after (.planSelect 1 3) floor) ∧
      (after (.planSelect 1 3) floor).selection ≠ floor.selection) ∧
    (exec (.select 2 2 9 1) floor = .next (after (.select 2 2 9 1) floor) ∧
      (after (.select 2 2 9 1) floor).selection ≠ floor.selection) ∧
    (asked.PlacesLaw ∧ asked.QueueLaw ∧ asked.CampLaw ∧ asked.PlanLaw ∧ ∃ t, step asked = .next t) :=
  ⟨⟨rfl, by decide⟩, ⟨rfl, by decide⟩,
    asked_collections.1, asked_collections.2.1, asked_collections.2.2, ⟨by decide, by decide⟩,
    asked_steps⟩

/-- The floor with so many edits staged. -/
def staged (n : Nat) : State :=
  { floor with staging := some (List.replicate n { target := .field .a .gain, value := 33 }) }

theorem witness_PlanHold :
    (floor.Runs ∧ floor.NewsClear ∧ floor.staging = none) ∧
    ((staged 0).Runs ∧ (staged 0).NewsClear ∧ (staged 0).staging = some []) ∧
    (exec (.planAbandon 0) (staged 0) = .next (after (.planAbandon 0) (staged 0)) ∧
      (after (.planAbandon 0) (staged 0)).staging = none) ∧
    (exec (.linkLost .switch) (staged 0) = .next (after (.linkLost .switch) (staged 0)) ∧
      (after (.linkLost .switch) (staged 0)).staging = none ∧ late.fallsSilent .switch = true) :=
  ⟨⟨rfl, floor_news, rfl⟩, ⟨rfl, floor_news, rfl⟩, ⟨rfl, by decide⟩, ⟨rfl, by decide, by decide⟩⟩

theorem witness_PlanWrite :
    (floor.Runs ∧ floor.NewsClear ∧ floor.service = .service ∧ floor.staging = none) ∧
    (editTargetArg 4 0 = none ∧ editTargetArg 0 28 = none ∧ 27 < (28 : Byte).toNat ∧
      3 < (4 : Byte).toNat ∧ PlanName.a ≠ .b) ∧
    (∃ edits, (staged 32).staging = some edits ∧ 32 ≤ edits.length) ∧
    (∃ edits, (staged 31).staging = some edits ∧ edits.length < 32) ∧
    (∃ n f, editTargetArg 2 27 = some (.field n f)) ∧
    (still.Runs ∧ still.NewsClear ∧ still.service = .standby ∧ still.staging = none) ∧
    (editTargetArg 3 3 = some (.threshold 3) ∧
      (still.plans.apply { target := .threshold 3, value := 256 }).thresholds.valid = true) ∧
    (editTargetArg 3 0 = some (.threshold 0) ∧
      (still.plans.apply { target := .threshold 0, value := 16 }).thresholds.valid = false) :=
  ⟨⟨rfl, floor_news, rfl, rfl⟩, by decide, ⟨_, rfl, by decide⟩, ⟨_, rfl, by decide⟩, ⟨_, _, rfl⟩,
    ⟨rfl, still_news, rfl, rfl⟩, by decide, by decide⟩

theorem witness_PlanReleaseAndAbandon :
    (floor.Runs ∧ floor.NewsClear ∧ floor.staging = none) ∧
    (∃ edits, (staged 32).staging = some edits ∧
      (edits.foldl Plans.apply (staged 32).plans).thresholds.valid = true) ∧
    (∃ edits, { floor with staging := some [{ target := .threshold 0, value := 256 }] }.staging =
        some edits ∧ (edits.foldl Plans.apply floor.plans).thresholds.valid = false) :=
  ⟨⟨rfl, floor_news, rfl⟩, ⟨_, rfl, by decide⟩, ⟨_, rfl, by decide⟩⟩

theorem witness_SelectionOrders :
    floor.Runs ∧ floor.NewsClear ∧ floor.Hears 2 ∧ floor.lead = some 2 ∧ floor.Hears 3 ∧
      floor.lead ≠ some 3 ∧ 3 < (4 : Byte).toNat ∧
      ((3 : Byte), Selection.load) ∈
        [((0 : Byte), Selection.manual .a), (1, .manual .b), (2, .manual .c), (3, .load)] :=
  ⟨rfl, floor_news, hears_of (by decide), by decide, hears_of (by decide), by decide, by decide,
    by decide⟩

theorem witness_NightOrders :
    floor.Runs ∧ floor.NewsClear ∧ floor.Hears 2 ∧ floor.lead = some 2 ∧ floor.Hears 3 ∧
      floor.lead ≠ some 3 ∧ 2 < (3 : Byte).toNat ∧
      ((1 : Byte), NightSetting.manualOn) ∈
        [((0 : Byte), NightSetting.manualOff), (1, .manualOn), (2, .auto)] ∧
      (nightFlagOf .auto floor.positions = floor.nightFlag) ∧
      (nightFlagOf .manualOn floor.positions = true ∧ floor.nightFlag = false ∧ floor.QueueLaw ∧
        floor.call 8 = some waiting ∧ waiting.state = .waiting ∧
        floor.nightDestination waiting.origin ≠ 0) :=
  ⟨rfl, floor_news, hears_of (by decide), by decide, hears_of (by decide), by decide, by decide,
    by decide, by decide, by decide, rfl, floor_queue, by decide, by decide, by decide⟩

/-! ### The queue and the offers -/

theorem witness_ScoreAndPlacement :
    (255 ≤ 255 ∧ waiting.age ≤ 255) ∧
      floor.queue.Pairwise (fun j k => floor.storedScore k ≤ floor.storedScore j) ∧
      (floor.QueueLaw ∧ 8 ∈ floor.queue ∧ floor.call 8 = some waiting ∧ floor.oldestAge = 10) ∧
      quiet.QueueLaw ∧ quiet.queue = [] :=
  ⟨by decide, floor_queue.sorted, ⟨floor_queue, by decide, by decide, by decide⟩,
    queueLaw_of (by decide) (by decide) (by decide) (by decide), rfl⟩

/-- The floor under a plan with a wait limit of 10 and an overflow destination. -/
def limited : State := { floor with eff := { plan with waitLimit := 10, overflow := 2200 } }

theorem witness_WaitLimitRouting :
    (limited.Runs ∧ limited.call 8 = some waiting ∧ waiting.state = .waiting ∧
      limited.eff.waitLimit ≠ 0 ∧ limited.eff.waitLimit ≤ waiting.age ∧ limited.eff.overflow ≠ 0) ∧
    (floor.NewsClear ∧ floor.eff.waitLimit = 0 ∧ floor.eff.overflow = 0 ∧
      floor.call 9 = some offered ∧ offered.state ≠ .waiting) :=
  ⟨⟨rfl, by decide, by decide, by decide, by decide, by decide⟩,
    ⟨floor_news, by decide, by decide, by decide, by decide⟩⟩

/-- The floor under a plan of the given mode and masks. -/
def masked (m : Mode) (mask : Byte) : State :=
  { floor with eff := { plan with mode := m, masks := Vector.replicate 8 mask } }

/-- Whether slot i is WAITING. -/
def State.isWaiting (s : State) (i : SlotNo) : Bool := (s.call i).any (fun c => c.state == .waiting)

/-- The floor at night, with no group. -/
def nightly : State := { floor with nightFlag := true, groups := State.reset.groups }

theorem witness_Distribution :
    (floor.available.Nodup ∧ (settle floor).eff.mode = .single ∧ 8 ∈ (settle floor).queue ∧
      State.isWaiting (settle floor) 8 = true ∧ 3 ∈ (settle (masked .single 0)).available) ∧
    ((settle (masked .common 0)).eff.mode = .common ∧ 3 ∈ (settle (masked .common 0)).available ∧
      ((settle (masked .common 0)).pos 3).offer = none ∧ 8 ∈ (settle (masked .common 0)).queue ∧
      State.isWaiting (settle (masked .common 0)) 8 = true) ∧
    ((settle (masked .common 0xFF)).eff.mode = .common ∧
      ((settle (masked .common 0xFF)).pos 3).offer ≠ none) ∧
    ((settle nightly).nightFlag = true ∧ 8 ∈ (settle nightly).queue ∧
      State.isWaiting (settle nightly) 8 = true) ∧
    { floor with selection := .load }.selection = .load ∧
    (({ waiting with preferred := some 3 } : Call).preferred = some 3 ∧
      3 ∈ (masked .single 8).available ∧ (masked .single 8).eff.allows waiting.cls 3 = true) ∧
    ((masked .single 8).available = [2] ++ 3 :: [] ∧
      (∀ q ∈ [(2 : PosNo)], (masked .single 8).eff.allows waiting.cls q = false) ∧
      waiting.preferred = none) ∧
    (∀ p ∈ floor.available, floor.eff.allows waiting.cls p = false) ∧
    (asked.StandbyLaw ∧ asked.DistributionLaw ∧ ∃ t, step asked = .next t) ∧
    ((∀ p ∈ floor.available, floor.eff.mode = .common ∨ (floor.pos p).offer = none) ∧
      floor.selection ≠ .load ∧ (masked .common 0xFF).eff.mode = .common) ∧
    (floor.OfferLaw ∧ floor.PlanLaw ∧ floor.LinkLaw ∧ floor.GroupLaw ∧
      keepsTurns (.closePosition 3 1 0) = true ∧
      exec (.closePosition 3 1 0) floor = .next (after (.closePosition 3 1 0) floor) ∧
      (after (.closePosition 3 1 0) floor).available ≠ floor.available) := by
  refine ⟨⟨by decide, by decide, by decide, by decide, by decide⟩,
    ⟨by decide, by decide, by decide, by decide, by decide⟩, ⟨by decide, by decide⟩,
    ⟨by decide, by decide, by decide⟩, rfl, ⟨rfl, by decide, by decide⟩,
    ⟨by decide, by decide, by decide⟩, by decide,
    ⟨{ floor_standby with }, { floor_distribution with }, asked_steps⟩,
    ⟨by decide, by decide, by decide⟩, 
    ⟨floor_offers, ⟨by decide, by decide⟩, floor_links, floor_group, rfl, rfl, by decide⟩⟩

theorem witness_AnswerTests :
    floor.NewsClear ∧ floor.PlacesLaw ∧ floor.RegisterLaw ∧
    (floor.Hears 1 ∧ (floor.pos 1).state ≠ .opened) ∧
    (floor.Hears 2 ∧ (floor.pos 2).state = .opened ∧ 4 ≤ (4 : Byte).toNat ∧
      ((floor.pos 2).loop 0).slot ≠ none) ∧
    (floor.Hears 5 ∧ (floor.pos 5).state = .opened ∧ ((floor.pos 5).loop 3).slot = none ∧
      (floor.pos 5).consult ≠ none ∧ (3 : LoopNo).val = (3 : Byte).toNat) ∧
    (floor.Hears 3 ∧ (floor.pos 3).state = .opened ∧ ((floor.pos 3).loop 0).slot = none ∧
      (floor.pos 3).consult = none ∧ (floor.pos 3).offer ≠ some (slotArg 9)) ∧
    (floor.call (slotArg 63) = none ∧ floor.inRange (slotArg 64) = false) ∧
    (still.Hears 1 ∧ still.NewsClear ∧ still.StandbyLaw ∧ still.service = .standby) :=
  ⟨floor_news, floor_places, floor_register, ⟨hears_of (by decide), by decide⟩,
    ⟨hears_of (by decide), by decide, by decide, by decide⟩,
    ⟨hears_of (by decide), by decide, by decide, by decide, by decide⟩,
    ⟨hears_of (by decide), by decide, by decide, by decide, by decide⟩, ⟨by decide, by decide⟩,
    ⟨hears_of (by decide), still_news, still_standby, rfl⟩⟩

/-- No other TALKING call, from a check of the position's loops. -/
theorem quietBut_of {s : State} {p : PosNo} {l : LoopNo}
    (h : ∀ k, (k == l || ((s.pos p).loop k).slot.all (fun j => (s.call j).all
      (fun e => e.state != .talking))) = true) : s.QuietBut p l := by
  intro k j e hk hj he
  have := h k
  rw [hj] at this
  simp only [Option.all_some, he, Bool.or_eq_true, beq_iff_eq, hk, false_or, bne_iff_ne] at this
  exact this

theorem witness_AnswerSeats :
    floor.Hears 4 ∧ floor.PlacesLaw ∧ (floor.pos 4).state = .opened ∧
      (3 : LoopNo).val = (3 : Byte).toNat ∧ ((floor.pos 4).loop 3).slot = none ∧
      (floor.pos 4).consult = none ∧ (floor.pos 4).offer = some (slotArg 9) ∧
      floor.call (slotArg 9) = some offered ∧ floor.QuietBut 4 3 ∧ floor.OfferLaw ∧
      floor.DistributionLaw ∧ floor.selection ≠ .load :=
  ⟨hears_of (by decide), floor_places, by decide, by decide, by decide, by decide, by decide, by decide,
    quietBut_of (by decide), floor_offers, floor_distribution, by decide⟩

theorem witness_PickSeats :
    floor.NewsClear ∧ floor.PlacesLaw ∧
    (floor.Hears 1 ∧ 4 ≤ (4 : Byte).toNat ∧ floor.inRange (slotArg 64) = false ∧
      floor.inRange (slotArg 63) = true) ∧
    (floor.Hears 2 ∧ floor.inRange (slotArg 8) = true ∧ ((floor.pos 2).loop 0).slot ≠ none) ∧
    (floor.Hears 5 ∧ ((floor.pos 5).loop 0).slot = none ∧ (floor.pos 5).consult ≠ none) ∧
    (((floor.pos 1).loop 3).slot = none ∧ (floor.pos 1).consult = none ∧
      ∀ c, floor.call (slotArg 0) = some c → c.state.queued = false) ∧
    (floor.call (slotArg 8) = some waiting ∧ waiting.state.queued = true ∧
      floor.call (slotArg 9) = some offered ∧ offered.state.queued = true ∧
      (3 : LoopNo).val = (3 : Byte).toNat) := by
  refine ⟨floor_news, floor_places, ⟨hears_of (by decide), by decide, by decide, by decide⟩,
    ⟨hears_of (by decide), by decide, by decide⟩, ⟨hears_of (by decide), by decide, by decide⟩,
    ⟨by decide, by decide, ?_⟩, by decide, by decide, by decide, by decide, by decide⟩
  intro c hc
  have : floor.call (slotArg 0) = some talking := by decide
  rw [this] at hc
  cases hc
  decide

/-- The floor with slot i holding c. -/
def having (i : SlotNo) (c : Call) : State := floor.setCall i (some c)

/-- A part in COMMON mode with the one call of slot 9 shown at the positions named. -/
def shared (ps : List PosNo) : State :=
  { quiet with
    slots := vset State.reset.slots 9 (some { offered with offer := some .all, offerAge := 0 })
    queue := [9]
    plans := { quiet.plans with a := { plan with mode := .common } }
    eff := { plan with mode := .common }
    nightFlag := false
    available := ps
    positions := ps.foldl (fun v p => vset v p (posWith .opened [] none (some 9))) quiet.positions
    pointer := 9 }

/-- The withdrawals: an offer shown at one position and at two, and a recompute that ends every offer, one
that narrows a mask and one that does neither. -/
theorem witness_OfferExpiry_withdrawals :
    ((floor.pos 4).offer = some 9 ∧ floor.call 9 = some offered ∧ offered.state = .offered ∧
      ¬ ∃ q, q ≠ 4 ∧ (floor.pos q).offer = some 9) ∧
    (((shared [4, 6]).pos 4).offer = some 9 ∧ ∃ q, q ≠ 4 ∧ ((shared [4, 6]).pos q).offer = some 9) ∧
    (let s : State := { floor with plans := { floor.plans with a := { plan with mode := .common } } }
     s.PlacesLaw ∧ s.OfferLaw ∧ s.eff.mode ≠ (planInForce s.selection s.plans s.depth).mode) ∧
    (let s : State :=
      { floor with plans := { floor.plans with a := { plan with masks := vset plan.masks 1 0xEF } } }
     s.PlacesLaw ∧ s.OfferLaw ∧ s.eff.mode = (planInForce s.selection s.plans s.depth).mode ∧
       s.eff.masks ≠ (planInForce s.selection s.plans s.depth).masks) ∧
    (floor.PlacesLaw ∧ floor.OfferLaw ∧
      floor.eff.mode = (planInForce floor.selection floor.plans floor.depth).mode ∧
      floor.eff.masks = (planInForce floor.selection floor.plans floor.depth).masks) :=
  ⟨⟨by decide, by decide, by decide, by decide⟩, ⟨by decide, by decide⟩,
    ⟨{ floor_places with }, { floor_offers with }, by decide⟩,
    ⟨{ floor_places with }, { floor_offers with }, by decide, by decide⟩,
    ⟨floor_places, floor_offers, by decide, by decide⟩⟩

theorem witness_OfferExpiry :
    floor.Runs ∧ floor.NewsClear ∧ floor.eff.mode = .single ∧
    ((masked .common 0xFF).eff.mode = .common ∧ waiting.state ≠ .offered ∧
      (masked .common 0xFF).call 9 = some offered) ∧
    ((having 9 { offered with offerAge := 6 }).call 9 = some { offered with offerAge := 6 } ∧
      (having 9 { offered with offerAge := 6 }).NewsClear ∧ offered.state = .offered ∧
      offered.offer = some (.one 4) ∧ min 15 (6 + 1) < floor.eff.offerLimit) ∧
    (floor.call 9 = some offered ∧ floor.eff.offerLimit ≤ min 15 (offered.offerAge + 1) ∧
      ∀ q, (floor.pos q).offer = some 9 ↔ q = 4) ∧
    (let s : State := { floor with eff := { plan with missLimit := 1 } }
     s.call 9 = some offered ∧ s.eff.missLimit ≠ 0 ∧
       s.eff.missLimit ≤ min 15 ((s.pos 4).missCount + 1) ∧ (s.pos 4).state = .opened) :=
  ⟨rfl, floor_news, by decide, by decide,
    ⟨by decide, floor_news, by decide, by decide, by decide⟩, by decide, by decide⟩

/-! ### Positions, loops and orbits -/

theorem witness_OpenAndClose :
    (still.Hears 1 ∧ still.NewsClear ∧ still.service = .standby) ∧
    (floor.Hears 1 ∧ floor.NewsClear ∧ floor.service = .service ∧ (floor.pos 1).state ≠ .opened) ∧
    (floor.Hears 2 ∧ (floor.pos 2).state = .opened ∧ floor.GroupLaw) :=
  ⟨⟨hears_of (by decide), still_news, rfl⟩, ⟨hears_of (by decide), floor_news, rfl, by decide⟩,
    ⟨hears_of (by decide), by decide, floor_group⟩⟩

theorem witness_HoldAndReturn :
    floor.NewsClear ∧ floor.PlacesLaw ∧ floor.Hears 2 ∧ 4 ≤ (4 : Byte).toNat ∧
      (3 : LoopNo).val = (3 : Byte).toNat ∧ floor.loopCall 2 3 = none ∧
      (floor.loopCall 2 0 = some (0, talking) ∧ talking.state = .talking) ∧
      (floor.loopCall 2 1 = some (1, held) ∧ held.state ≠ .talking ∧ floor.consultOn 2 1 = false) ∧
      (∃ c, floor.Hears 5 ∧ floor.loopCall 5 2 = some (11, c) ∧ c.state ≠ .talking ∧
        floor.consultOn 5 2 = true) ∧
      (floor.Hears 3 ∧ floor.loopCall 3 3 = some (2, reminded) ∧ reminded.state ≠ .talking ∧
        floor.consultOn 3 3 = false ∧ floor.QuietBut 3 3) :=
  ⟨floor_news, floor_places, hears_of (by decide), by decide, by decide, by decide, by decide, by decide,
    ⟨_, hears_of (by decide), rfl, by decide, by decide⟩,
    hears_of (by decide), by decide, by decide, by decide, quietBut_of (by decide)⟩

theorem witness_Release :
    floor.NewsClear ∧ floor.Hears 2 ∧ 4 ≤ (4 : Byte).toNat ∧ (3 : LoopNo).val = (3 : Byte).toNat ∧
      floor.loopCall 2 3 = none ∧
      (∃ c, floor.Hears 5 ∧ floor.loopCall 5 2 = some (11, c) ∧ floor.consultOn 5 2 = true) ∧
      (floor.loopCall 2 0 = some (0, talking) ∧ floor.consultOn 2 0 = false ∧
        talking.state.seated = true ∧ talking.isHomeAt 2 0 = true) :=
  ⟨floor_news, hears_of (by decide), by decide, by decide, by decide,
    ⟨_, hears_of (by decide), rfl, by decide⟩, by decide⟩

theorem witness_HoldCheck :
    floor.Runs ∧ floor.NewsClear ∧
    (floor.call 1 = some held ∧ held.state = .held ∧ floor.consulting held = false ∧
      floor.eff.holdLimit ≤ held.age ∧ held.reminded = false) ∧
    (floor.call 2 = some reminded ∧ reminded.state = .held ∧ floor.consulting reminded = false ∧
      floor.eff.holdLimit ≤ reminded.age ∧ reminded.reminded = true) ∧
    (∃ c, floor.call 11 = some c ∧ floor.consulting c = true) :=
  ⟨rfl, floor_news, by decide, by decide, ⟨_, rfl, by decide⟩⟩

theorem witness_ParkAndRetrieve :
    floor.NewsClear ∧ floor.PlacesLaw ∧ floor.Hears 2 ∧ 4 ≤ (4 : Byte).toNat ∧
    floor.loopCall 2 3 = none ∧
    (∃ c, floor.Hears 5 ∧ floor.loopCall 5 2 = some (11, c) ∧ floor.consultOn 5 2 = true) ∧
    (let s : State := { floor with orbits := Vector.replicate 16 (some 3) }
     s.Hears 2 ∧ s.NewsClear ∧ s.loopCall 2 0 = some (0, talking) ∧ s.consultOn 2 0 = false ∧
       ∀ o, s.orbitSlot o ≠ none) ∧
    (floor.loopCall 2 0 = some (0, talking) ∧ floor.consultOn 2 0 = false ∧ (16 : Byte) ≠ 0xFF ∧
      16 ≤ (16 : Byte).toNat ∧ (0 : OrbitNo).val = (0 : Byte).toNat ∧ floor.orbitSlot 0 ≠ none) ∧
    (talking.state.seated = true ∧ talking.isHomeAt 2 0 = true ∧ floor.orbitSlot 15 = none ∧
      (15 : OrbitNo).val = (15 : Byte).toNat ∧ floor.orbitSlot 1 = none ∧
      ∀ o < (1 : OrbitNo), floor.orbitSlot o ≠ none) ∧
    (((floor.pos 2).loop 0).slot ≠ none ∧ ((floor.pos 5).loop 0).slot = none ∧
      (floor.pos 5).consult ≠ none) ∧
    (floor.Hears 1 ∧ ((floor.pos 1).loop 3).slot = none ∧ (floor.pos 1).consult = none ∧
      floor.orbitSlot 1 = none ∧ floor.orbitSlot 0 = some 3 ∧ floor.call 3 = some parked) :=
  ⟨floor_news, floor_places, hears_of (by decide), by decide, by decide,
    ⟨_, hears_of (by decide), rfl, by decide⟩,
    ⟨hears_of (by decide), floor_news, by decide, by decide, by decide⟩, by decide, by decide, by decide,
    ⟨hears_of (by decide), by decide, by decide, by decide, by decide, by decide⟩⟩

theorem witness_Pickup :
    floor.Runs ∧ floor.NewsClear ∧ 16 ≤ (16 : Byte).toNat ∧ 999999 < (1000000 : Ext).toNat ∧
      (999999 : Ext).toNat ≤ 999999 ∧ (15 : OrbitNo).val = (15 : Byte).toNat ∧
      floor.orbitSlot 15 = none ∧ floor.orbitSlot 0 = some 3 ∧ floor.call 3 = some parked ∧
      parked.state = .parked ∧ parked.orbit = some 0 :=
  ⟨rfl, floor_news, by decide, by decide, by decide, by decide, by decide, by decide, by decide,
    by decide, by decide⟩

/-- The floor where no extension belongs to the camped call of slot 7, and no entry to it. -/
def adrift : State :=
  { having 7 { camped 7 1 55 with extension := none } with camps := [{ ext := 3307, list := [5, 6] }] }

theorem witness_ExpiryRecalls :
    floor.Runs ∧ floor.NewsClear ∧
    (floor.call 8 = some waiting ∧ waiting.state ≠ .parked ∧ waiting.state ≠ .ringing ∧
      waiting.state ≠ .camped) ∧
    (floor.call 3 = some parked ∧ parked.state = .parked ∧ floor.eff.parkLimit ≤ parked.age) ∧
    (floor.call 4 = some ringing ∧ ringing.state = .ringing ∧ floor.eff.ringLimit ≤ ringing.age) ∧
    (floor.CampLaw ∧ floor.call 7 = some (camped 7 1 55) ∧ (camped 7 1 55).state = .camped ∧
      floor.eff.campLimit ≤ (camped 7 1 55).age ∧ (camped 7 1 55).extension = some 55 ∧
      (⟨55, [7]⟩ : CampEntry) ∈ floor.camps ∧ floor.txList.length < 64) ∧
    (floor.call 5 = some (camped 5 1 3307) ∧ (camped 5 1 3307).state = .camped ∧
      floor.eff.campLimit ≤ (camped 5 1 3307).age ∧ (camped 5 1 3307).extension = some 3307 ∧
      (⟨3307, [5, 6]⟩ : CampEntry) ∈ floor.camps ∧ [(5 : SlotNo), 6] ≠ [5]) ∧
    (∃ c, adrift.Runs ∧ adrift.call 7 = some c ∧ c.state = .camped ∧ adrift.eff.campLimit ≤ c.age ∧
      adrift.CampLaw ∧ c.extension = none) :=
  ⟨rfl, floor_news, by decide, by decide, by decide,
    ⟨floor_camps, by decide, by decide, by decide, by decide, by decide, by decide⟩, by decide,
    ⟨_, rfl, rfl, rfl, by decide,
      campLaw_of (by decide) (by decide) (by decide) (by decide) (by decide) (by decide) (by decide),
      rfl⟩⟩

/-! ### Transfer, the camp table and the reports of the switch -/

theorem witness_ConsultAndSend :
    floor.NewsClear ∧ floor.Hears 2 ∧ 4 ≤ (4 : Byte).toNat ∧ (3 : LoopNo).val = (3 : Byte).toNat ∧
    999999 < (1000000 : Ext).toNat ∧ (999999 : Ext).toNat ≤ 999999 ∧ floor.loopCall 2 3 = none ∧
    (floor.loopCall 2 1 = some (1, held) ∧ held.state ≠ .talking) ∧
    (∃ c, floor.Hears 7 ∧ floor.loopCall 7 1 = some (14, c) ∧ c.state = .talking ∧
      (floor.pos 7).consult ≠ none) ∧
    ((loaded 64).Hears 2 ∧ (loaded 64).NewsClear ∧ (loaded 64).loopCall 2 0 = some (0, talking) ∧
      ((loaded 64).pos 2).consult = none ∧ 64 ≤ (loaded 64).txList.length) ∧
    ((loaded 63).Hears 2 ∧ (loaded 63).loopCall 2 0 = some (0, talking) ∧ talking.state = .talking ∧
      talking.isHomeAt 2 0 = true ∧ ((loaded 63).pos 2).consult = none ∧
      (loaded 63).txList.length = 63) :=
  ⟨floor_news, hears_of (by decide), by decide, by decide, by decide, by decide, by decide, by decide,
    ⟨_, hears_of (by decide), rfl, by decide, by decide⟩,
    ⟨hears_of (by decide), floor_news, by decide, by decide, by decide⟩,
    ⟨hears_of (by decide), by decide, by decide, by decide, by decide, by decide⟩⟩

theorem witness_JoinAndCancel :
    floor.NewsClear ∧ floor.PlacesLaw ∧ floor.Hears 2 ∧ 4 ≤ (4 : Byte).toNat ∧
    (floor.consultOn 2 0 = false ∧ floor.loopCall 5 3 = none) ∧
    (∃ c r, floor.Hears 6 ∧ floor.loopCall 6 0 = some (12, c) ∧ (floor.pos 6).consult = some r ∧
      r.loop = 0 ∧ r.phase = .busy) ∧
    (∃ c r, floor.Hears 5 ∧ floor.loopCall 5 2 = some (11, c) ∧ (floor.pos 5).consult = some r ∧
      r.loop = 2 ∧ r.phase = .answered ∧ c.state.seated = true ∧ c.isHomeAt 5 2 = true) ∧
    (∃ c r, floor.Hears 7 ∧ floor.loopCall 7 0 = some (13, c) ∧ (floor.pos 7).consult = some r ∧
      r.loop = 0 ∧ r.phase = .ringing ∧ c.state.seated = true ∧ c.isHomeAt 7 0 = true ∧
      r.leg = some 32 ∧ floor.txList.length < 64) ∧
    (∃ e, ((floor.pos 7).loop 1).slot = some 14 ∧ floor.call 14 = some e ∧ e.state = .talking ∧
      (∀ k, k = 0 ∨ k = 1 ∨ ((floor.pos 7).loop k).slot = none)) ∧
    (floor.consultAs 5 none).QuietBut 5 2 :=
  ⟨floor_news, floor_places, hears_of (by decide), by decide, by decide,
    ⟨_, _, hears_of (by decide), rfl, rfl, by decide, by decide⟩,
    ⟨_, _, hears_of (by decide), rfl, rfl, by decide, by decide, by decide, by decide⟩,
    ⟨_, _, hears_of (by decide), rfl, rfl, by decide, by decide, by decide, by decide, by decide,
      by decide⟩, ⟨_, by decide, rfl, by decide, by decide⟩, quietBut_of (by decide)⟩

/-- The floor with a third call in the camp list that position 6 consults. -/
def crowded : State :=
  { having 7 (camped 7 3 3307) with camps := [{ ext := 3307, list := [5, 6, 7] }] }

theorem crowded_camps : crowded.CampLaw :=
  campLaw_of (by decide) (by decide) (by decide) (by decide) (by decide) (by decide) (by decide)

/-- The floor with position 6 consulting an extension that has no camp entry. -/
def fresh : State := floor.setPos 6 (posWith .closed [(0, 12)] (consultOf 0 77 .busy 31) none)

theorem witness_Camp :
    floor.NewsClear ∧ floor.Hears 6 ∧ 4 ≤ (4 : Byte).toNat ∧ floor.loopCall 6 1 = none ∧
    (∃ c r, floor.Hears 5 ∧ floor.loopCall 5 2 = some (11, c) ∧ (floor.pos 5).consult = some r ∧
      r.loop = 2 ∧ r.phase ≠ .busy) ∧
    (∃ c r, crowded.Hears 6 ∧ crowded.NewsClear ∧ crowded.CampLaw ∧
      crowded.loopCall 6 0 = some (12, c) ∧ (crowded.pos 6).consult = some r ∧ r.loop = 0 ∧
      r.phase = .busy ∧ (⟨3307, [5, 6, 7]⟩ : CampEntry) ∈ crowded.camps ∧ r.ext = 3307) ∧
    (let s : State := { fresh with camps := Vector.toList (Vector.replicate 16 ⟨55, [7]⟩) }
     s.Hears 6 ∧ s.NewsClear ∧ (∀ e ∈ s.camps, e.ext ≠ 77) ∧ 16 ≤ s.camps.length) ∧
    (let s : State := { fresh with txList := (loaded 64).txList }
     s.Hears 6 ∧ s.NewsClear ∧ (∀ e ∈ s.camps, e.ext ≠ 77) ∧ s.camps.length < 16 ∧
       64 ≤ s.txList.length) ∧
    (∃ c r, floor.CampLaw ∧ floor.PlacesLaw ∧ floor.loopCall 6 0 = some (12, c) ∧
      (floor.pos 6).consult = some r ∧ r.loop = 0 ∧ r.phase = .busy ∧
      (⟨r.ext, [5, 6]⟩ : CampEntry) ∈ floor.camps ∧ [(5 : SlotNo), 6].length < 3 ∧
      r.leg = some 31 ∧ floor.txList.length < 63) ∧
    (∃ c r, fresh.Hears 6 ∧ fresh.CampLaw ∧ fresh.PlacesLaw ∧ fresh.loopCall 6 0 = some (12, c) ∧
      (fresh.pos 6).consult = some r ∧ r.loop = 0 ∧ r.phase = .busy ∧
      (∀ e ∈ fresh.camps, e.ext ≠ r.ext) ∧ fresh.camps.length < 16 ∧ fresh.txList.length < 64) :=
  ⟨floor_news, hears_of (by decide), by decide, by decide,
    ⟨_, _, hears_of (by decide), rfl, rfl, by decide, by decide⟩,
    ⟨_, _, hears_of (by decide), floor_news, crowded_camps, rfl, rfl, by decide, by decide, by decide,
      by decide⟩,
    ⟨hears_of (by decide), (by intro p; revert p; decide), by decide, by decide⟩,
    ⟨hears_of (by decide), (by intro p; revert p; decide), by decide, by decide, by decide⟩,
    ⟨_, _, floor_camps, floor_places, rfl, rfl, by decide, by decide, by decide, by decide, by decide,
      by decide⟩,
    ⟨_, _, hears_of (by decide),
      ⟨floor_camps.size, floor_camps.short, floor_camps.entries, floor_camps.filled, floor_camps.listed,
        floor_camps.order⟩, placesLaw_of_ok (by decide), rfl, rfl, by decide, by decide, by decide,
      by decide, by decide⟩⟩

theorem witness_LegReports :
    floor.Runs ∧ floor.NewsClear ∧ 5 < (6 : Byte).toNat ∧
    ((2 : Byte), LegReport.answered, Phase.answered) ∈
      [((1 : Byte), LegReport.ringing, Phase.ringing), (2, .answered, .answered), (3, .busy, .busy),
        (4, .unobtainable, .failed), (5, .cleared, .cleared)] ∧
    (∃ r, (floor.pos 5).consult = some r ∧ ∀ q, (floor.pos q).leg = some 30 ↔ q = 5) ∧
    ((∀ q, (floor.pos q).leg ≠ some 40) ∧
      ∀ i c, floor.call i = some c → c.state = .ringing → c.ringWatch ≠ some 40) ∧
    ((∀ q, (floor.pos q).leg ≠ some 7) ∧ floor.call 4 = some ringing ∧ ringing.state = .ringing ∧
      ringing.ringWatch = some 7 ∧
      ∀ j e, floor.call j = some e → e.state = .ringing → e.ringWatch = some 7 → j = 4) := by
  refine ⟨rfl, floor_news, by decide, by decide, ⟨_, rfl, by decide⟩, ⟨by decide, ?_⟩,
    by decide, by decide, by decide, by decide, ?_⟩
  · intro i c hc hst hw
    have := calls_all (s := floor) (f := fun _ c => c.ringWatch != some 40) (by decide) i c hc
    rw [hw] at this
    exact absurd this (by decide)
  · intro j e he _ hw
    have := calls_all (s := floor) (f := fun j c => c.ringWatch != some 7 || j == 4) (by decide) j e he
    rw [hw] at this
    simpa using this

theorem witness_ExtensionFree :
    floor.Runs ∧ floor.NewsClear ∧ 999999 < (1000000 : Ext).toNat ∧ (999999 : Ext).toNat ≤ 999999 ∧
    (∀ e ∈ floor.camps, e.ext ≠ 999999) ∧
    ((loaded 63).NewsClear ∧ (loaded 63).txList.length < 64 ∧ (loaded 64).NewsClear ∧
      64 ≤ (loaded 64).txList.length) ∧
    (floor.CampLaw ∧ (⟨3307, 5 :: [6]⟩ : CampEntry) ∈ floor.camps ∧
      floor.call 5 = some (camped 5 1 3307)) ∧
    ((⟨55, 7 :: []⟩ : CampEntry) ∈ floor.camps ∧ floor.call 7 = some (camped 7 1 55)) :=
  ⟨rfl, floor_news, by decide, by decide, by decide, ⟨floor_news, by decide, floor_news, by decide⟩,
    ⟨floor_camps, by decide, by decide⟩, by decide⟩

/-! ### Path requests -/

/-- A call of slot 10 with request 20 outstanding for the target. -/
def asking (st : CallState) (target : Conn) : Call :=
  { callOf 10 st with
    wanted := target
    home := some { pos := 1, loop := if st.seated then some 0 else none }
    outstanding := some { number := 20, target := target } }

/-- The premises of a statement about the acknowledgement of request 20 of slot 10. -/
def Outstanding (c : Call) (target : Conn) : Prop :=
  (having 10 c).Runs ∧ (having 10 c).NewsClear ∧ (having 10 c).call 10 = some c ∧
    c.outstanding = some { number := 20, target := target } ∧
    (∀ j e, (having 10 c).call j = some e → e.outstanding.map (·.number) = some 20 → j = 10) ∧
    (having 10 c).txList.length ≤ 48

theorem witness_NumbersAndIssues :
    (∃ c, floor.call 14 = some c ∧ c.outstanding = none ∧ c.wanted ≠ c.confirmed ∧
      c.retryWait = false ∧ floor.txList.length < 64) ∧
    (floor.call 0 = some talking ∧ talking.wanted = talking.confirmed) ∧
    (asked.PlacesLaw ∧ asked.QueueLaw ∧ asked.CampLaw ∧ asked.NumberLaw ∧ ∃ t, step asked = .next t) ∧
    (exec (.hold 2 2 1 0) floor = .next (after (.hold 2 2 1 0) floor) ∧
      (∀ r, Instr.hold 2 2 1 0 ≠ .powerOnReset r) ∧ Instr.hold 2 2 1 0 ≠ .resetAsserted ∧
      Instr.hold 2 2 1 0 ≠ .switchFrameSent ∧
      exec .switchFrameSent (loaded 1) = .next (after .switchFrameSent (loaded 1))) :=
  ⟨⟨_, rfl, by decide, by decide, by decide, by decide⟩, by decide,
    ⟨asked_collections.1, asked_collections.2.1, asked_collections.2.2, { floor_numbers with }, asked_steps⟩,
    ⟨rfl, fun _ h => (by cases h), by decide, by decide, rfl⟩⟩

theorem outstanding_of {c : Call} {target : Conn}
    (hc : c.outstanding = some { number := 20, target := target }) :
    Outstanding c target := by
  refine ⟨rfl, floor_news, by simp [having], hc, ?_, Nat.zero_le _⟩
  intro j e he hn
  by_cases hj : j = 10
  · exact hj
  · have he' : floor.call j = some e := by
      rw [having, setCall_call, if_neg (Ne.symm hj)] at he; exact he
    have := calls_all (s := floor)
      (f := fun j e => e.outstanding.map (·.number) != some 20 || j == 10) (by decide) j e he'
    rw [hn] at this
    simpa using this

theorem witness_PathDone :
    (Outstanding (asking .talking (.seat 1 0)) (.seat 1 0) ∧
      (asking .talking (.seat 1 0)).state ≠ .departing) ∧
    (Outstanding (asking .ringing (.ring 4410)) (.ring 4410) ∧ (Conn.ring 4410).terminal = false ∧
      (Conn.ring 4410).isRing = true ∧ (asking .ringing (.ring 4410)).wanted = .ring 4410) ∧
    (Outstanding { asking .held (.seat 1 0) with wanted := .hold } (.seat 1 0) ∧
      { asking .held (.seat 1 0) with wanted := .hold }.wanted ≠ .seat 1 0) ∧
    (Outstanding departing (.deliver 3307 none) ∧ departing.state = .departing ∧
      (Conn.deliver 3307 none).terminal = true ∧ (Conn.drop).terminal = true) :=
  ⟨⟨outstanding_of rfl, by decide⟩, ⟨outstanding_of rfl, by decide⟩, ⟨outstanding_of rfl, by decide⟩,
    ⟨outstanding_of rfl, by decide⟩⟩

theorem witness_PathFail :
    (Outstanding (asking .talking (.seat 1 0)) (.seat 1 0) ∧
      (asking .talking (.seat 1 0)).state = .talking ∧
      (asking .talking (.seat 1 0)).isHomeAt 1 0 = true) ∧
    (Outstanding (asking .ringing (.ring 4410)) (.ring 4410) ∧
      (asking .ringing (.ring 4410)).state = .ringing ∧
      (asking .ringing (.ring 4410)).wanted = .ring 4410) ∧
    (Outstanding (asking .waiting (.ring 4410)) (.ring 4410) ∧
      (asking .waiting (.ring 4410)).state = .waiting) ∧
    (Outstanding departing (.deliver 3307 none) ∧ departing.state = .departing) ∧
    (Outstanding (asking .departing (.away 9)) (.away 9) ∧
      (asking .departing (.away 9)).state = .departing) ∧
    Outstanding (asking .held .hold) .hold ∧
    (Outstanding (asking .held (.seat 1 0)) (.seat 1 0) ∧
      (asking .held (.seat 1 0)).state ≠ .talking) ∧
    (Outstanding (asking .camped (.ring 4410)) (.ring 4410) ∧
      (asking .camped (.ring 4410)).state ≠ .waiting ∧
      (asking .camped (.ring 4410)).state ≠ .offered ∧
      (asking .camped (.ring 4410)).state ≠ .ringing) ∧
    (Outstanding (asking .departing .drop) .drop ∧ (asking .departing .drop).state = .departing) ∧
    (let s : State := { having 10 departing with txList := (loaded 49).txList }
     s.Runs ∧ s.NewsClear ∧ s.call 10 = some departing ∧ ¬ s.txList.length ≤ 48) :=
  ⟨⟨outstanding_of rfl, by decide⟩, ⟨outstanding_of rfl, by decide⟩, ⟨outstanding_of rfl, by decide⟩,
    ⟨outstanding_of rfl, by decide⟩, ⟨outstanding_of rfl, by decide⟩, outstanding_of rfl,
    ⟨outstanding_of rfl, by decide⟩, ⟨outstanding_of rfl, by decide⟩, ⟨outstanding_of rfl, by decide⟩,
    ⟨rfl, floor_news, by decide, by decide⟩⟩

/-- The floor with the consult of position 5 still in phase ASKED. -/
def dialling : State := floor.setPos 5 (posWith .opened [(2, 11)] (consultOf 2 900 .asked 30) none)

theorem witness_OtherAcknowledgements :
    floor.Runs ∧ floor.NewsClear ∧ 1 < (2 : Byte).toNat ∧ (1 : Byte).toNat ≤ 1 ∧
    ((∀ i c, floor.call i = some c → c.outstanding.map (·.number) ≠ some 99) ∧
      (∀ q, (floor.pos q).leg ≠ some 99) ∧ (loaded 48).txList.length ≤ 48 ∧
      48 < (loaded 49).txList.length ∧ (loaded 49).NewsClear) ∧
    (∃ r, (∀ i c, floor.call i = some c → c.outstanding.map (·.number) ≠ some 30) ∧
      (floor.pos 5).consult = some r ∧ (∀ q, (floor.pos q).leg = some 30 ↔ q = 5) ∧
      r.phase ≠ .asked) ∧
    (∃ r, dialling.Runs ∧ dialling.NewsClear ∧
      (∀ i c, dialling.call i = some c → c.outstanding.map (·.number) ≠ some 30) ∧
      (dialling.pos 5).consult = some r ∧ (∀ q, (dialling.pos q).leg = some 30 ↔ q = 5) ∧
      r.phase = .asked ∧ dialling.txList.length ≤ 48 ∧
      { dialling with txList := (loaded 49).txList }.NewsClear) := by
  have none99 : ∀ i c, floor.call i = some c → c.outstanding.map (·.number) ≠ some 99 := by
    intro i c hc
    have := calls_all (s := floor) (f := fun _ c => c.outstanding.map (·.number) != some 99)
      (by decide) i c hc
    simpa using this
  have none30 : ∀ i c, floor.call i = some c → c.outstanding.map (·.number) ≠ some 30 := by
    intro i c hc
    have := calls_all (s := floor) (f := fun _ c => c.outstanding.map (·.number) != some 30)
      (by decide) i c hc
    simpa using this
  exact ⟨rfl, floor_news, by decide, by decide,
    ⟨none99, by decide, by decide, by decide, floor_news⟩,
    ⟨_, none30, rfl, by decide, by decide⟩,
    ⟨_, rfl, (by intro p; revert p; decide), none30, rfl, by decide, by decide, by decide,
      (by intro p; revert p; decide)⟩⟩

/-! ### The sweep and the service states -/

/-- The floor with the pointer at slot i. -/
def sweeping (i : SlotNo) : State := { floor with pointer := i }

/-- The sweep reaches slot i, which holds c. -/
def Reaches (i : SlotNo) (c : Call) : Prop :=
  (sweeping i).Runs ∧ (sweeping i).service = .service ∧ (sweeping i).call (sweeping i).pointer = some c

/-- The floor under a plan with a wait limit of 10, an overflow destination and an offer limit of 9, the
pointer at slot i. -/
def limiting (i : SlotNo) : State :=
  let pl : Plan := { plan with waitLimit := 10, overflow := 2200, offerLimit := 9 }
  { sweeping i with plans := { floor.plans with a := pl }, eff := pl }

theorem limiting_laws (i : SlotNo) : (limiting i).QueueLaw ∧ (limiting i).PlacesLaw ∧
    (limiting i).OfferLaw ∧ (limiting i).PlanLaw ∧ (limiting i).DistributionLaw :=
  ⟨{ floor_queue with }, { floor_places with }, { floor_offers with }, ⟨rfl, rfl⟩,
    { floor_distribution with }⟩

/-- The visit of a queued call under the laws: WAITING and OFFERED, within and at their limits, in both
modes. -/
theorem witness_Sweep_queued :
    (Reaches 8 waiting ∧ (sweeping 8).QueueLaw ∧ (sweeping 8).PlacesLaw ∧ (sweeping 8).OfferLaw ∧
      (sweeping 8).PlanLaw ∧ (sweeping 8).DistributionLaw ∧ waiting.state = .waiting ∧
      floor.eff.waitLimit = 0) ∧
    ((limiting 8).Runs ∧ (limiting 8).service = .service ∧
      (limiting 8).call (limiting 8).pointer = some waiting ∧ (limiting 8).eff.waitLimit ≠ 0 ∧
      (limiting 8).eff.waitLimit ≤ min 255 (waiting.age + 1) ∧ (limiting 8).eff.overflow ≠ 0) ∧
    (Reaches 9 offered ∧ (sweeping 9).eff.mode = .single ∧ offered.state = .offered ∧
      offered.offer = some (.one 4) ∧ (sweeping 9).eff.offerLimit ≤ min 15 (offered.offerAge + 1)) ∧
    ((limiting 9).call (limiting 9).pointer = some offered ∧ (limiting 9).eff.mode = .single ∧
      min 15 (offered.offerAge + 1) < (limiting 9).eff.offerLimit) ∧
    (let s := shared [4]
     s.Runs ∧ s.service = .service ∧
       s.call s.pointer = some { offered with offer := some .all, offerAge := 0 } ∧ s.QueueLaw ∧
       s.PlacesLaw ∧ s.OfferLaw ∧ s.PlanLaw ∧ s.DistributionLaw ∧ s.eff.mode = .common) :=
  ⟨⟨⟨rfl, rfl, by decide⟩, { floor_queue with }, { floor_places with }, { floor_offers with }, ⟨rfl, rfl⟩,
      { floor_distribution with }, by decide, by decide⟩,
    ⟨rfl, rfl, by decide, by decide, by decide, by decide⟩,
    ⟨⟨rfl, rfl, by decide⟩, by decide, by decide, by decide, by decide⟩,
    ⟨by decide, by decide, by decide⟩,
    ⟨rfl, rfl, by decide, queueLaw_of (by decide) (by decide) (by decide) (by decide),
      placesLaw_of_ok (by decide),
      offerLaw_of_ok (by decide), ⟨rfl, rfl⟩, distributionLaw_of_ok (by decide), rfl⟩⟩

theorem witness_Sweep :
    (still.Runs ∧ still.service = .standby) ∧
    (floor.Runs ∧ floor.service = .service ∧ floor.pointer ≠ floor.rangeLast ∧
      (sweeping 63).pointer = (sweeping 63).rangeLast) ∧
    ((sweeping 20).call (sweeping 20).pointer = none ∧ (sweeping 20).NewsClear ∧
      (sweeping 20).pointer ≠ (sweeping 20).rangeLast) ∧
    (Reaches 0 talking ∧ talking.state = .talking) ∧
    (∃ c, Reaches 11 c ∧ c.state = .held ∧ floor.consulting c = true) ∧
    (∃ c, Reaches 12 c ∧ c.state = .held) ∧
    (Reaches 1 held ∧ floor.consulting held = false ∧ held.reminded = false ∧
      floor.eff.holdLimit ≤ min 255 (held.age + 1)) ∧
    (Reaches 2 reminded ∧ reminded.reminded = true ∧
      floor.eff.holdLimit ≤ min 255 (reminded.age + 1)) ∧
    (Reaches 3 parked ∧ floor.eff.parkLimit ≤ min 255 (parked.age + 1)) ∧
    (Reaches 4 ringing ∧ floor.eff.ringLimit ≤ min 255 (ringing.age + 1)) ∧
    (Reaches 7 (camped 7 1 55) ∧ floor.eff.campLimit ≤ min 255 ((camped 7 1 55).age + 1)) ∧
    (Reaches 8 waiting ∧ waiting.state.queued = true) ∧
    (let s : State := { sweeping 63 with reportInterval := 2 }
     s.Runs ∧ s.service = .service ∧ s.pointer = s.rangeLast ∧ s.passCount + 1 ≠ s.reportInterval) ∧
    (let s := fun n : Nat => { loaded n with pointer := 63, reportInterval := 1 }
     (s 47).Runs ∧ (s 47).service = .service ∧ (s 47).pointer = (s 47).rangeLast ∧
       (s 47).passCount + 1 = (s 47).reportInterval ∧
       (after .sweepVisit { s 47 with reportInterval := 0 }).txList.length ≤ 47 ∧
       47 < (after .sweepVisit { s 48 with reportInterval := 0 }).txList.length) :=
  ⟨⟨rfl, rfl⟩, ⟨rfl, rfl, by decide, by decide⟩, ⟨by decide, floor_news, by decide⟩,
    ⟨⟨rfl, rfl, by decide⟩, by decide⟩, ⟨_, ⟨rfl, rfl, rfl⟩, by decide, by decide⟩,
    ⟨_, ⟨rfl, rfl, rfl⟩, by decide⟩, ⟨⟨rfl, rfl, by decide⟩, by decide⟩,
    ⟨⟨rfl, rfl, by decide⟩, by decide⟩, ⟨⟨rfl, rfl, by decide⟩, by decide⟩,
    ⟨⟨rfl, rfl, by decide⟩, by decide⟩, ⟨⟨rfl, rfl, by decide⟩, by decide⟩,
    ⟨⟨rfl, rfl, by decide⟩, by decide⟩, ⟨rfl, rfl, by decide, by decide⟩,
    ⟨rfl, rfl, by decide, by decide, by decide, by decide⟩⟩

theorem witness_Reports :
    (floor.Runs ∧ floor.NewsClear ∧ 1 < (2 : Byte).toNat ∧ (1 : Byte).toNat ≤ 1) ∧
    ((loaded 62).NewsClear ∧ (loaded 62).txList.length ≤ 62 ∧ 62 < (loaded 63).txList.length) ∧
    floor.reportInterval = 0 ∧ still.service = .standby ∧ still.NewsClear ∧
    (let s := fun n : Nat => { loaded n with reportInterval := 1 }
     (s 47).Runs ∧ (s 47).NewsClear ∧ (s 47).service = .service ∧ (s 47).reportInterval ≠ 0 ∧ (s 47).txList.length ≤ 47 ∧
       47 < (s 48).txList.length) ∧
    ((loaded 63).txList.length < 64 ∧ 64 ≤ (loaded 64).txList.length) :=
  ⟨⟨rfl, floor_news, by decide, by decide⟩, ⟨floor_news, by decide, by decide⟩, by decide,
    rfl, still_news, ⟨rfl, floor_news, rfl, by decide, by decide, by decide⟩, by decide, by decide⟩

theorem witness_StartAndStop :
    (still.Runs ∧ still.NewsClear ∧ still.service = .standby ∧ 1 < (2 : Byte).toNat) ∧
    (floor.Runs ∧ floor.NewsClear ∧ floor.service = .service ∧ ∃ i, floor.call i ≠ none) ∧
    (quiet.Runs ∧ quiet.service = .service ∧ ∀ i, quiet.call i = none) :=
  ⟨⟨rfl, still_news, rfl, by decide⟩, ⟨rfl, floor_news, rfl, 0, by decide⟩,
    ⟨rfl, rfl, fun i => by simp [quiet, still, State.call, State.reset]⟩⟩

theorem witness_ServiceResets : floor.Runs ∧ quiet.Runs := ⟨rfl, rfl⟩

/-! ### Standing offers -/

/-- The floor under a plan of the mode where position 2, which holds calls on two loops, is offered or
shown slot 9. -/
def lit (m : Mode) : State :=
  let pl : Plan := { plan with mode := m }
  let s : State := { floor with
    eff := pl
    plans := { floor.plans with a := pl }
    available := if m = .single then [3] else [2, 3]
    positions := vset floor.positions 4 (posWith .opened [] none none) }
  (s.setCall 9 (some { offered with offer := some (if m = .single then .one 2 else .all) })).setPos 2
    { floor.pos 2 with offer := some 9 }

/-- The floor at night under LOAD, its three plans alike. -/
def alike : State :=
  { floor with selection := .load, nightFlag := true, plans := { floor.plans with a := plan, b := plan, c := plan } }

theorem witness_Distribution_offers :
    (floor.call 9 = some offered ∧ offered.state = .offered ∧ PlanSteady floor (settle floor) ∧
      floor.eff.mode = .single ∧ ∀ q, (floor.pos q).offer = some 9 → ((settle floor).pos q).state = .opened) ∧
    (PlanSteady alike (settle alike) ∧ alike.selection = .load ∧ (settle alike).nightFlag = true) ∧
    (let s := lit .common
     PlanSteady s (settle s) ∧ (s.pos 2).offer = some 9 ∧ (settle s).isAvailable 2 = true) := by
  refine ⟨⟨by decide, by decide, ⟨by decide, fun h => by cases h⟩, by decide, by decide⟩,
    ⟨⟨by decide, fun _ _ n _ h => ?_⟩, rfl, by decide⟩, ⟨by decide, fun h => by cases h⟩, by decide,
    by decide⟩
  have h6 : n ≤ 6 := h
  interval_cases n <;> decide

theorem witness_NightOrders_offers :
    let t := after (.night 1 1) floor
    exec (.night 1 1) floor = .next t ∧ PlanSteady floor t ∧ floor.call 9 = some offered ∧
      offered.state = .offered ∧ (floor.pos 4).offer = some 9 ∧ floor.eff.mode = .single ∧
      9 ∈ floor.queue ∧ t.nightFlag = true :=
  ⟨rfl, ⟨by decide, fun h => by cases h⟩, by decide, by decide, by decide, by decide, by decide, by decide⟩

/-- A walk with one offer to make, a walk with none, a showing that begins, and a day at whose end the
queue stands as it stood. -/
theorem witness_Distribution_walk :
    (let s := masked .single 8
     s.Ready ∧ s.eff.mode = .single ∧ s.queue = [] ++ 8 :: [9] ∧ s.call 8 = some waiting ∧
       waiting.state = .waiting ∧ chooseCandidate s waiting = some 3) ∧
    (floor.Ready ∧ floor.call 9 = some offered ∧ offered.state ≠ .waiting ∧
      chooseCandidate floor waiting = none) ∧
    (let s := masked .common 0xFF
     (settle s).eff.mode = .common ∧ ((settle s).pos 3).offer = some 8 ∧ (s.pos 3).offer ≠ some 8) ∧
    (floor.nightFlag = false ∧ nightFlagOf .manualOff floor.positions = false) := by
  have ready : ∀ mask, (masked .single mask).Ready := fun mask =>
    ⟨fun h => (by cases h), (by decide : ∀ p, p ∈ floor.available ↔ floor.isAvailable p = true), fun h => (by cases h)⟩
  exact ⟨⟨ready 8, rfl, rfl, by decide, rfl, by decide⟩,
    ⟨⟨fun h => (by cases h), by decide, fun h => (by cases h)⟩, by decide, by decide, by decide⟩,
    ⟨by decide, by decide, by decide⟩, rfl, by decide⟩

/-- Position 2 holds an offer of slot 9 when it takes slot 8 or its own caller elsewhere: PICK, RETRIEVE
and CONSULT in SINGLE mode, CONSULT in COMMON mode. -/
theorem witness_OffersKept :
    (let s := lit .single
     let t := after (.pick 2 3 1 8 2) s
     s.Hears 2 ∧ s.PlacesLaw ∧ exec (.pick 2 3 1 8 2) s = .next t ∧ PlanSteady s t ∧
       (s.pos 2).offer = some 9 ∧ ((s.pos 2).loop 2).slot = none ∧ s.call 8 = some waiting) ∧
    (let s := lit .single
     let t := after (.retrieve 2 3 1 0 2) s
     exec (.retrieve 2 3 1 0 2) s = .next t ∧ PlanSteady s t ∧ s.orbitSlot 0 = some 3) ∧
    (let s := lit .single
     let t := after (.consult 2 5 1 0 900) s
     exec (.consult 2 5 1 0 900) s = .next t ∧ PlanSteady s t ∧ s.loopCall 2 0 = some (0, talking)) ∧
    (let s := lit .common
     let t := after (.consult 2 5 1 0 900) s
     exec (.consult 2 5 1 0 900) s = .next t ∧ t.eff.mode = .common ∧ (s.pos 2).offer ≠ none ∧
       t.isAvailable 2 = false) :=
  ⟨⟨hears_of (by decide), placesLaw_of_ok (by decide), rfl, ⟨by decide, fun h => by cases h⟩, by decide,
      by decide, by decide⟩,
    ⟨rfl, ⟨by decide, fun h => by cases h⟩, by decide⟩, ⟨rfl, ⟨by decide, fun h => by cases h⟩, by decide⟩,
    ⟨rfl, by decide, by decide, by decide +kernel⟩⟩

/-- The loss of console 2 (R107): its TALKING call asks for HOLD under the next number, its HELD call is on
HOLD already. -/
theorem test_loss_requests :
    (floor.afterLoopRecalls 2).txList = [.pathReq 33 100 .hold] ∧
      (after (.linkLost (.console 2)) floor).txList.head? = some (.pathReq 33 100 .hold) := by decide

end Sys2Proof.Tests
end

section
/-! PROOFS. What every operation short of filling and freeing a slot carries over: the identity of the
calls, the ranges of the stored figures, the register's tables and the capacities of the lists. -/
namespace Sys2Proof.Machine

/-! ## The relation -/

/-- The figures of a record lie in their ranges (R4, R61, R82). -/
structure Call.Ranged (c : Call) : Prop where
  score : c.score ≤ 4095
  age : c.age ≤ 255
  offerAge : c.offerAge ≤ 15

/-- Two records of one call: the identity of R3 stays, and figures in range stay in range. -/
structure CallCarried (c d : Call) : Prop where
  tag : d.tag = c.tag
  origin : d.origin = c.origin
  cls : d.cls = c.cls
  label : d.label = c.label
  ranged : c.Ranged → d.Ranged

theorem CallCarried.refl (c : Call) : CallCarried c c := ⟨rfl, rfl, rfl, rfl, id⟩

theorem CallCarried.trans {c d e : Call} (h : CallCarried c d) (k : CallCarried d e) : CallCarried c e :=
  ⟨k.tag.trans h.tag, k.origin.trans h.origin, k.cls.trans h.cls, k.label.trans h.label,
    k.ranged ∘ h.ranged⟩

/-- Step 2 of a state change clears figures or keeps them (R9). -/
theorem CallCarried.enter (st : CallState) (c : Call) : CallCarried c (c.enter st) := by
  refine ⟨rfl, rfl, rfl, rfl, fun h => ⟨?_, ?_, Nat.zero_le _⟩⟩
  · simp only [Call.enter]; split
    · exact h.score
    · exact Nat.zero_le _
  · simp only [Call.enter]; split
    · exact h.age
    · exact Nat.zero_le _

/-- The ranges of valid groups lie in the origin table and are disjoint (R21). -/
structure GroupsApart (gs : GroupNo → Group) : Prop where
  origins : ∀ g, (gs g).valid = true → (gs g).base + 2 ^ (gs g).bits ≤ 1024
  disjoint : ∀ g k, g ≠ k → (gs g).valid = true → (gs k).valid = true →
    (gs g).base + 2 ^ (gs g).bits ≤ (gs k).base ∨ (gs k).base + 2 ^ (gs k).bits ≤ (gs g).base

/-- The subjects that have an entry in a console's set (R171). -/
def State.subjects (s : State) (p : PosNo) : List Subject := (s.console p).pending.filterMap (·.subject)

/-- The same calls stand in the same slots. -/
def SlotsCarried (s t : State) : Prop := ∀ i, Option.Rel CallCarried (s.call i) (t.call i)

/-- What an operation that neither fills nor frees a slot carries over. -/
structure Carried (s t : State) : Prop where
  slots : SlotsCarried s t
  missCount : ∀ p, (s.pos p).missCount ≤ 15 → (t.pos p).missCount ≤ 15
  opened : ∀ p, (t.pos p).state = .opened → (s.pos p).state = .opened ∨ s.service = .service
  service : t.service = s.service
  rangeFirst : t.rangeFirst = s.rangeFirst
  rangeLast : t.rangeLast = s.rangeLast
  freeSlots : t.freeSlots = s.freeSlots
  tagIndex : t.tagIndex = s.tagIndex
  current : ∀ o, (t.origin o).current = (s.origin o).current
  frames : s.txList.length ≤ 64 → t.txList.length ≤ 64
  results : ∀ p, t.resultsPending p ≤ s.resultsPending p
  subjects : ∀ p, (s.subjects p).Nodup → (t.subjects p).Nodup
  staging : ∀ es, t.staging = some es → s.staging = some es ∨ es.length ≤ 32
  groups : GroupsApart s.group → GroupsApart t.group

theorem optionRel_refl {o : Option Call} : Option.Rel CallCarried o o := by
  cases o with
  | none => exact .none
  | some c => exact .some (.refl c)

theorem SlotsCarried.of_eq {s t : State} (h : t.slots = s.slots) : SlotsCarried s t := fun i => by
  rw [State.call, State.call, h]; exact optionRel_refl

theorem SlotsCarried.trans {s t u : State} (h : SlotsCarried s t) (k : SlotsCarried t u) :
    SlotsCarried s u := fun i => by
  have hi := h i
  have ki := k i
  generalize s.call i = a at hi
  generalize t.call i = b at hi ki
  generalize u.call i = c at ki
  cases hi with
  | none => exact ki
  | some hi => cases ki with
    | some ki => exact .some (hi.trans ki)

theorem SlotsCarried.call_none {s t : State} (h : SlotsCarried s t) (i : SlotNo) :
    t.call i = none ↔ s.call i = none := by
  have hi := h i
  generalize s.call i = a at hi
  generalize t.call i = b at hi
  cases hi <;> simp

theorem SlotsCarried.call_some {s t : State} (h : SlotsCarried s t) {i : SlotNo} {c : Call}
    (hc : s.call i = some c) : ∃ d, t.call i = some d ∧ CallCarried c d := by
  have hi := h i
  rw [hc] at hi
  generalize t.call i = b at hi
  cases hi with
  | some hi => exact ⟨_, rfl, hi⟩

theorem SlotsCarried.call_back {s t : State} (h : SlotsCarried s t) {i : SlotNo} {d : Call}
    (hd : t.call i = some d) : ∃ c, s.call i = some c ∧ CallCarried c d := by
  have hi := h i
  rw [hd] at hi
  generalize s.call i = a at hi
  cases hi with
  | some hi => exact ⟨_, rfl, hi⟩

theorem Carried.trans {s t u : State} (h : Carried s t) (k : Carried t u) : Carried s u where
  slots := h.slots.trans k.slots
  missCount p := k.missCount p ∘ h.missCount p
  opened p hp := by
    rcases k.opened p hp with ht | ht
    · exact h.opened p ht
    · exact .inr (h.service.symm.trans ht)
  service := k.service.trans h.service
  rangeFirst := k.rangeFirst.trans h.rangeFirst
  rangeLast := k.rangeLast.trans h.rangeLast
  freeSlots := k.freeSlots.trans h.freeSlots
  tagIndex := k.tagIndex.trans h.tagIndex
  current o := (k.current o).trans (h.current o)
  frames := k.frames ∘ h.frames
  results p := (k.results p).trans (h.results p)
  subjects p := k.subjects p ∘ h.subjects p
  staging es he := (k.staging es he).elim (h.staging es) .inr
  groups := k.groups ∘ h.groups

/-! ## The elementary writes -/

section
variable {s t : State}

/-- A change of the records alone. -/
theorem Carried.of_slots (hslots : SlotsCarried s t) (hpositions : t.positions = s.positions := by rfl)
    (hservice : t.service = s.service := by rfl) (hfirst : t.rangeFirst = s.rangeFirst := by rfl)
    (hlast : t.rangeLast = s.rangeLast := by rfl) (hfree : t.freeSlots = s.freeSlots := by rfl)
    (htags : t.tagIndex = s.tagIndex := by rfl) (horigins : t.origins = s.origins := by rfl)
    (hframes : t.txList = s.txList := by rfl) (hconsoles : t.consoles = s.consoles := by rfl)
    (hstaging : t.staging = s.staging := by rfl) (hgroups : t.groups = s.groups := by rfl) :
    Carried s t where
  slots := hslots
  missCount p hp := by rwa [State.pos, hpositions]
  opened p hp := .inl (by rwa [State.pos, hpositions] at hp)
  service := hservice
  rangeFirst := hfirst
  rangeLast := hlast
  freeSlots := hfree
  tagIndex := htags
  current o := by rw [State.origin, State.origin, horigins]
  frames hp := by rwa [hframes]
  results p := by rw [State.resultsPending, State.resultsPending, State.console, State.console, hconsoles]
  subjects p hp := by rwa [State.subjects, State.console, hconsoles]
  staging es he := .inl (by rwa [← hstaging])
  groups hp := by
    have : t.group = s.group := by funext g; rw [State.group, State.group, hgroups]
    rwa [this]

/-- A change of what is neither a record nor a position, a table or a list of `Carried`: the queue, the
orbits, the camp table, the plan in force, the available list, the counters, the timebase. -/
theorem Carried.of_same (hslots : t.slots = s.slots := by rfl)
    (hpositions : t.positions = s.positions := by rfl)
    (hservice : t.service = s.service := by rfl) (hfirst : t.rangeFirst = s.rangeFirst := by rfl)
    (hlast : t.rangeLast = s.rangeLast := by rfl) (hfree : t.freeSlots = s.freeSlots := by rfl)
    (htags : t.tagIndex = s.tagIndex := by rfl) (horigins : t.origins = s.origins := by rfl)
    (hframes : t.txList = s.txList := by rfl) (hconsoles : t.consoles = s.consoles := by rfl)
    (hstaging : t.staging = s.staging := by rfl) (hgroups : t.groups = s.groups := by rfl) :
    Carried s t :=
  .of_slots (.of_eq hslots) hpositions hservice hfirst hlast hfree htags horigins hframes hconsoles
    hstaging hgroups

theorem Carried.refl (s : State) : Carried s s := .of_same

theorem Carried.modCall (i : SlotNo) (f : Call → Call) (s : State)
    (hf : ∀ c, s.call i = some c → CallCarried c (f c)) : Carried s (s.modCall i f) :=
  .of_slots fun j => by
    by_cases h : i = j
    · subst h
      rw [modCall_call, if_pos rfl]
      cases hc : s.call i with
      | none => exact .none
      | some c => exact .some (hf c hc)
    · rw [modCall_call, if_neg h]; exact optionRel_refl

theorem Carried.setPos (p : PosNo) (c : Position) (s : State)
    (hm : c.missCount = (s.pos p).missCount ∨ c.missCount ≤ 15)
    (ho : c.state = .opened → (s.pos p).state = .opened ∨ s.service = .service) :
    Carried s (s.setPos p c) :=
  { Carried.refl s with
    missCount := fun q hq => by
      by_cases h : p = q
      · subst h; simp only [setPos_pos, if_true]; omega
      · simpa [h] using hq
    opened := fun q hq => by
      by_cases h : p = q
      · subst h; exact ho (by simpa using hq)
      · exact .inl (by simpa [h] using hq) }

theorem Carried.setTxList (s : State) (l : List SwitchNotice)
    (h : s.txList.length ≤ 64 → l.length ≤ 64) : Carried s { s with txList := l } :=
  { Carried.refl s with frames := h }

theorem Carried.setConsole (p : PosNo) (x : ConsoleSet) (s : State)
    (hr : (x.pending.filter (fun n => n.subject.isNone)).length ≤ s.resultsPending p)
    (hs : (s.subjects p).Nodup → (x.pending.filterMap (·.subject)).Nodup) :
    Carried s (s.setConsole p x) :=
  { Carried.refl s with
    results := fun q => by
      by_cases h : p = q
      · subst h; simpa [State.resultsPending] using hr
      · simp [State.resultsPending, h]
    subjects := fun q hq => by
      by_cases h : p = q
      · subst h; simpa [State.subjects] using hs hq
      · simpa [State.subjects, h] using hq }

theorem Carried.setLink (l : Link) (u : LinkUnit) (s : State) : Carried s (s.setLink l u) := by
  cases l <;> exact .of_same

/-- A fold of operations that carry over carries over. -/
theorem Carried.foldl {α : Type} {f : State → α → State} (hf : ∀ s a, Carried s (f s a)) (l : List α)
    (s : State) : Carried s (l.foldl f s) := by
  induction l generalizing s with
  | nil => exact .refl s
  | cons a l ih => exact (hf s a).trans (ih _)

end

/-! ## Counters, frames and the console sets -/

theorem bump_carried (k : Counter) (s : State) : Carried s (bump k s) := .of_same

theorem enlist_carried (n : SwitchNotice) (s : State) (h : s.txList.length < 64) :
    Carried s (enlist n s) :=
  .setTxList s _ fun _ => by rw [List.length_append]; exact h

theorem placeLow_carried (n : SwitchNotice) (s : State) : Carried s (placeLow n s) := by
  unfold placeLow
  split
  · rename_i h; exact enlist_carried n s (by simp only [State.freeEntries] at h; omega)
  · exact bump_carried _ s

theorem placeDroppable_carried (n : SwitchNotice) (s : State) : Carried s (placeDroppable n s) := by
  unfold placeDroppable
  split
  · rename_i h; exact enlist_carried n s (by simp only [State.freeEntries] at h; omega)
  · exact bump_carried _ s

theorem placeAnswer_carried (n : SwitchNotice) (s : State) : Carried s (placeAnswer n s) := by
  unfold placeAnswer
  split
  · rename_i h; exact enlist_carried n s (by simp only [State.freeEntries] at h; omega)
  · exact bump_carried _ s

theorem placeTested_carried (n : SwitchNotice) (s : State) : Carried s (placeTested n s) := by
  unfold placeTested
  split
  · rename_i h; exact enlist_carried n s (by simp only [State.freeEntries] at h; omega)
  · exact .refl s

theorem answerSwitch_carried (kind : Byte) (code : ResultCode) (s : State) :
    Carried s (answerSwitch kind code s) := placeAnswer_carried _ s

/-- A subject made pending has one entry (R171). -/
theorem pend_subjects (l : List ConsoleNotice) (n : ConsoleNotice)
    (h : (l.filterMap (·.subject)).Nodup) : ((pend l n).filterMap (·.subject)).Nodup := by
  unfold pend
  split
  · -- the replaced entry has the subject of its place
    have : (l.map (fun m => if m.subject == n.subject then n else m)).filterMap (·.subject) =
        l.filterMap (·.subject) := by
      rw [List.filterMap_map]
      refine List.filterMap_congr fun m _ => ?_
      by_cases hm : m.subject = n.subject <;> simp [hm]
    rwa [this]
  · rename_i hn
    rw [List.filterMap_append, List.nodup_append]
    refine ⟨h, ?_, ?_⟩
    · simp only [List.filterMap_cons]; split <;> simp
    · intro a ha b hb hab
      subst hab
      obtain ⟨m, hm, hma⟩ := List.mem_filterMap.1 ha
      obtain ⟨m', hm', hma'⟩ := List.mem_filterMap.1 hb
      rw [List.mem_singleton] at hm'; subst hm'
      exact hn (List.any_eq_true.2 ⟨m, hm, by simp [hma, hma']⟩)

theorem pendAll_subjects (s : State) (p : PosNo) (ks : List Subject) (l : List ConsoleNotice)
    (h : (l.filterMap (·.subject)).Nodup) :
    ((ks.foldl (fun l k => pend l (s.notice p k)) l).filterMap (·.subject)).Nodup := by
  induction ks generalizing l with
  | nil => exact h
  | cons k ks ih => exact ih _ (pend_subjects l _ h)

theorem makePending_carried (p : PosNo) (ks : List Subject) (s : State) :
    Carried s (makePending p ks s) := by
  obtain ⟨l, hl, hr⟩ := makePending_spec p ks s
  have hl' : (makePending p ks s).console p = { s.console p with pending := l } := by rw [hl]; simp
  rw [hl]
  refine .setConsole p _ s (le_of_eq (congrArg List.length hr)) fun hn => ?_
  have : l = ks.foldl (fun l k => pend l (s.notice p k)) (s.console p).pending := by
    simpa [makePending] using congrArg ConsoleSet.pending hl'.symm
  rw [this]
  exact pendAll_subjects s p ks _ hn

theorem endAction_carried (s : State) : Carried s (endAction s) := by
  have hpos : ∀ p, (endAction s).pos p = { s.pos p with offerNews := false } := fun p => by
    simp [endAction, State.pos]
  exact { Carried.refl s with
    slots := .of_eq rfl
    missCount := fun p hp => by rw [hpos]; exact hp
    opened := fun p hp => by rw [hpos] at hp; exact .inl hp }

theorem announce_carried (old new : State) : Carried new (announce old new) := by
  refine Carried.trans (.foldl (fun s p => ?_) _ new) (endAction_carried _)
  unfold announceTo
  split
  · exact makePending_carried p _ s
  · exact .refl s

theorem act_carried {f : State → State} {s : State} (h : Carried s (f s)) : Carried s (act f s) :=
  h.trans (announce_carried s (f s))

/-! ## Requests (R144, R146) -/

theorem issue_carried (i : SlotNo) (s : State) : Carried s (issue i s) := by
  unfold issue
  split
  · exact .refl s
  · dsimp only
    split
    · rename_i h
      have hroom : s.txList.length < 64 := by
        have h1 : 1 ≤ s.freeEntries := by simp only [State.mayIssue, Bool.and_eq_true] at h; simpa using h.2
        simp only [State.freeEntries] at h1; omega
      refine ((Carried.of_same (t := { s with reqCounter := s.nextNumber })).trans
        (enlist_carried _ _ hroom)).trans (.modCall i _ _ fun c _ => ⟨rfl, rfl, rfl, rfl, ?_⟩)
      exact fun h => ⟨h.score, h.age, h.offerAge⟩
    · exact .refl s

theorem want_carried (i : SlotNo) (w : Conn) (s : State) : Carried s (want i w s) := by
  unfold want
  split
  · exact .refl s
  · split
    · exact .refl s
    · exact (Carried.modCall i (fun c => { c with wanted := w }) s fun c _ => ⟨rfl, rfl, rfl, rfl,
        fun h => ⟨h.score, h.age, h.offerAge⟩⟩).trans (issue_carried i _)

/-! ## State changes (R9) -/

theorem setLoop_carried (p : PosNo) (l : LoopNo) (x : Loop) (s : State) : Carried s (s.setLoop p l x) :=
  .setPos p _ s (.inl rfl) fun h => .inl h

theorem leaveCamp_carried (i : SlotNo) (x : Ext) (s : State) : Carried s (leaveCamp i x s) := by
  unfold leaveCamp
  split
  · exact .refl s
  · rename_i e _
    have h := Carried.foldl (f := fun s j => State.modCall s j
        (fun c => { c with campOrder := c.campOrder.map (· - 1) }))
      (fun s j => .modCall j _ s fun c _ => ⟨rfl, rfl, rfl, rfl, fun h => ⟨h.score, h.age, h.offerAge⟩⟩)
      ((e.list.dropWhile (· != i)).drop 1) s
    dsimp only
    split
    · exact (h.trans .of_same).trans (placeDroppable_carried _ _)
    · exact h.trans .of_same

theorem leave_carried (i : SlotNo) (s : State) : Carried s (leave i s) := by
  have hloop : ∀ c : Call, Carried s (leave.leaveLoop c s) := by
    intro c
    unfold leave.leaveLoop
    split
    · exact setLoop_carried _ _ _ s
    · exact .refl s
  unfold leave
  split
  · exact .refl s
  · rename_i c _
    split
    case h_1 => exact .of_same
    case h_2 => exact .of_same
    case h_3 => exact hloop c
    case h_4 => exact hloop c
    case h_5 =>
      split
      · exact .of_same
      · exact .refl s
    case h_6 =>
      split
      · exact leaveCamp_carried i _ s
      · exact .refl s
    case h_7 => exact .refl s
    case h_8 => exact .refl s

/-- A state change of a record, with fields of the new state written besides. -/
theorem enterWith_carried (i : SlotNo) (st : CallState) (g : Call → Call) (s : State)
    (hg : ∀ c, (g c).tag = c.tag ∧ (g c).origin = c.origin ∧ (g c).cls = c.cls ∧ (g c).label = c.label ∧
      (g c).score = (c.enter st).score ∧ (g c).age = (c.enter st).age ∧ (g c).offerAge = 0) :
    Carried s (s.modCall i g) :=
  .modCall i g s fun c _ => by
    obtain ⟨ht, ho, hc, hl, hs, ha, hx⟩ := hg c
    exact ⟨ht, ho, hc, hl, fun h => have h' := (CallCarried.enter st c).ranged h
      ⟨hs ▸ h'.score, ha ▸ h'.age, hx ▸ Nat.zero_le _⟩⟩

theorem depart_carried (i : SlotNo) (x : Option Ext) (w : Conn) (s : State) :
    Carried s (depart i x w s) := by
  unfold depart
  refine ((leave_carried i s).trans (enterWith_carried i .departing _ _ fun _ => ?_)).trans
    (want_carried i w _)
  exact ⟨rfl, rfl, rfl, rfl, rfl, rfl, rfl⟩

theorem ringAt_carried (i : SlotNo) (x : Ext) (s : State) : Carried s (ringAt i x s) := by
  unfold ringAt
  refine ((leave_carried i s).trans (enterWith_carried i .ringing _ _ fun _ => ?_)).trans
    (want_carried i _ _)
  exact ⟨rfl, rfl, rfl, rfl, rfl, rfl, rfl⟩

theorem holdSeated_carried (i : SlotNo) (s : State) : Carried s (holdSeated i s) :=
  (Carried.modCall i _ s fun c _ => .enter .held c).trans (want_carried i _ _)

theorem autoHold_carried (p : PosNo) (l : LoopNo) (s : State) : Carried s (autoHold p l s) := by
  refine .foldl (fun s k => ?_) _ s
  split
  · exact .refl s
  · split
    · exact .refl s
    · split
      · exact holdSeated_carried _ s
      · exact .refl s

theorem seat_carried (p : PosNo) (l : LoopNo) (i : SlotNo) (fresh : Bool) (s : State) :
    Carried s (seat p l i fresh s) := by
  unfold seat
  refine ((((autoHold_carried p l s).trans (leave_carried i _)).trans (setLoop_carried p l _ _)).trans
    (enterWith_carried i .talking _ _ fun _ => ?_)).trans (want_carried i _ _)
  exact ⟨rfl, rfl, rfl, rfl, rfl, rfl, rfl⟩

theorem talkAgain_carried (p : PosNo) (l : LoopNo) (i : SlotNo) (s : State) :
    Carried s (talkAgain p l i s) :=
  ((autoHold_carried p l s).trans (.modCall i _ _ fun c _ => .enter .talking c)).trans
    (want_carried i _ _)

theorem parkCall_carried (i : SlotNo) (o : OrbitNo) (s : State) : Carried s (parkCall i o s) := by
  unfold parkCall
  refine (((leave_carried i s).trans (enterWith_carried i .parked _ _ fun _ => ?_)).trans .of_same).trans
    (want_carried i _ _)
  exact ⟨rfl, rfl, rfl, rfl, rfl, rfl, rfl⟩

theorem campCall_carried (i : SlotNo) (x : Ext) (s : State) : Carried s (campCall i x s) := by
  unfold campCall
  refine (((leave_carried i s).trans (enterWith_carried i .camped _ _ fun _ => ?_)).trans .of_same).trans
    (want_carried i _ _)
  exact ⟨rfl, rfl, rfl, rfl, rfl, rfl, rfl⟩

theorem openCamp_carried (x : Ext) (s : State) : Carried s (openCamp x s) := by
  unfold openCamp
  split
  · exact .refl s
  · exact (Carried.of_same).trans (placeTested_carried _ _)

/-! ## The queue and the offers -/

theorem rescore_carried (i : SlotNo) (s : State) : Carried s (rescore i s) :=
  .modCall i _ s fun _ _ => ⟨rfl, rfl, rfl, rfl, fun h => ⟨Nat.min_le_left _ _, h.age, h.offerAge⟩⟩

theorem place_carried (i : SlotNo) (s : State) : Carried s (place i s) := .of_same

theorem setOffer_carried (p : PosNo) (o : Option SlotNo) (s : State) : Carried s (setOffer p o s) :=
  .setPos p _ s (.inl rfl) fun h => .inl h

theorem endOffers_carried (i : SlotNo) (s : State) : Carried s (endOffers i s) := by
  refine .foldl (fun s p => ?_) _ s
  split
  · exact setOffer_carried p none s
  · exact .refl s

theorem modOffered_carried (i : SlotNo) (f : Call → Call) (s : State) (hf : ∀ c, CallCarried c (f c)) :
    Carried s (modOffered i f s) :=
  .modCall i _ s fun c _ => by
    split
    · exact hf c
    · exact .refl c

theorem withdrawAt_carried (p : PosNo) (s : State) : Carried s (withdrawAt p s) := by
  unfold withdrawAt
  split
  · exact .refl s
  · rename_i i _
    have h := (setOffer_carried p none s).trans (modOffered_carried i (fun c => { c with preferred := none })
      _ fun c => ⟨rfl, rfl, rfl, rfl, fun h => ⟨h.score, h.age, h.offerAge⟩⟩)
    dsimp only
    split
    · exact h
    · exact h.trans (modOffered_carried _ _ _ fun c => .enter .waiting c)

theorem withdrawCall_carried (i : SlotNo) (s : State) : Carried s (withdrawCall i s) := by
  refine .foldl (fun s p => ?_) _ s
  split
  · exact withdrawAt_carried p s
  · exact .refl s

theorem withdrawMasked_carried (s : State) : Carried s (withdrawMasked s) := by
  refine .foldl (fun s p => ?_) _ s
  split
  · exact .refl s
  · split
    · exact .refl s
    · split
      · exact .refl s
      · exact withdrawAt_carried p s

theorem recompute_carried (s : State) : Carried s (recompute s) := by
  have h : Carried s
      { s with
        eff := planInForce s.selection s.plans s.depth
        band := bandInForce s.selection s.plans s.depth } := .of_same
  unfold recompute
  dsimp only
  split
  · exact h.trans (.foldl (fun s p => withdrawAt_carried p s) _ _)
  · split
    · exact h.trans (withdrawMasked_carried _)
    · exact h

theorem recomputeUnderLoad_carried (s : State) : Carried s (recomputeUnderLoad s) := by
  unfold recomputeUnderLoad
  split
  · exact recompute_carried s
  · exact .refl s

theorem rejudge_carried (s : State) : Carried s (rejudge s) := .of_same

theorem dropShowings_carried (s : State) : Carried s (dropShowings s) := by
  unfold dropShowings
  split
  · refine .foldl (fun s p => ?_) _ s
    split
    · exact .refl s
    · exact withdrawAt_carried p s
  · exact .refl s

/-! ## Distribution (R77 to R81) -/

theorem nightRoute_carried (s : State) : Carried s (nightRoute s) := by
  refine .foldl (fun s i => ?_) _ s
  split
  · exact .refl s
  · dsimp only
    split
    · exact depart_carried _ _ _ s
    · exact .refl s

theorem offerTo_carried (p : PosNo) (i : SlotNo) (s : State) : Carried s (offerTo p i s) := by
  unfold offerTo
  refine ((enterWith_carried i .offered _ s fun _ => ?_).trans (setOffer_carried p _ _)).trans .of_same
  exact ⟨rfl, rfl, rfl, rfl, rfl, rfl, rfl⟩

theorem showTo_carried (p : PosNo) (i : SlotNo) (s : State) : Carried s (showTo p i s) := by
  unfold showTo
  refine (enterWith_carried i .offered _ s fun _ => ?_).trans (setOffer_carried p _ _)
  exact ⟨rfl, rfl, rfl, rfl, rfl, rfl, rfl⟩

theorem distribute_carried (s : State) : Carried s (distribute s) := by
  unfold distribute
  split
  · refine .foldl (fun s i => ?_) _ s
    split
    · exact .refl s
    · split
      · split
        · exact offerTo_carried _ _ s
        · exact .refl s
      · exact .refl s
  · refine .foldl (fun s p => ?_) _ s
    split
    · exact .refl s
    · split
      · exact showTo_carried _ _ s
      · exact .refl s

theorem settleWith_carried (fuel : Nat) (s : State) : Carried s (settleWith fuel s) := by
  induction fuel generalizing s with
  | zero => exact .refl s
  | succ fuel ih =>
    unfold settleWith
    have h := ((recomputeUnderLoad_carried s).trans (rejudge_carried _)).trans (dropShowings_carried _)
    generalize dropShowings (rejudge (recomputeUnderLoad s)) = u at h
    have hn : Carried u (if u.nightFlag = true then nightRoute u else u) := by
      split
      · exact nightRoute_carried u
      · exact .refl u
    dsimp only
    generalize (if u.nightFlag = true then nightRoute u else u) = t at hn
    split
    · exact (h.trans hn).trans (ih t)
    · exact (h.trans hn).trans (distribute_carried t)

theorem settle_carried (s : State) : Carried s (settle s) := settleWith_carried _ s

theorem replan_carried (s : State) : Carried s (replan s) := by
  unfold replan
  dsimp only
  split
  · exact (recompute_carried s).trans (settle_carried _)
  · exact recompute_carried s

/-! ## Recalls, consults and positions -/

theorem closeConsult_carried (p : PosNo) (drop : Bool) (s : State) : Carried s (closeConsult p drop s) := by
  have h : Carried s (s.setPos p { s.pos p with consult := none }) := .setPos p _ s (.inl rfl) fun h => .inl h
  rcases closeConsult_cases p drop s with hc | ⟨n, _, _, hc⟩ <;> rw [hc]
  · exact h
  · exact h.trans (placeDroppable_carried _ _)

theorem recallStart_carried (i : SlotNo) (c : Call) (s : State) : Carried s (recallStart i c s) := by
  unfold recallStart
  split
  · exact withdrawCall_carried i s
  · exact leave_carried i s

theorem recallCall_carried (i : SlotNo) (reason : RecallReason) (s : State) :
    Carried s (recallCall i reason s) := by
  cases hc : s.call i with
  | none => simp only [recallCall, hc]; exact .refl s
  | some c =>
    rw [recallCall_eq hc]
    refine (((((recallStart_carried i c s).trans (.modCall i _ _ fun d _ => ?_)).trans
      (issue_carried i _)).trans (rescore_carried i _)).trans (place_carried i _)).trans (bump_carried _ _)
    exact ⟨rfl, rfl, rfl, rfl, fun h => ⟨((CallCarried.enter .waiting d).ranged h).score, Nat.zero_le _,
      Nat.zero_le _⟩⟩

theorem recallNow_carried (i : SlotNo) (reason : RecallReason) (s : State) :
    Carried s (recallNow i reason s) := (recallCall_carried i reason s).trans (settle_carried _)

theorem rejudgeGroup_carried (s : State) : Carried s (rejudgeGroup s) := .of_same

theorem setPosState_carried (p : PosNo) (st : PosState) (why : PosReason) (s : State)
    (h : st ≠ .opened ∨ s.service = .service) : Carried s (setPosState p st why s) :=
  .setPos p _ s (.inl rfl) fun ho => h.elim (fun h => absurd ho h) .inr

theorem recallLoops_carried (p : PosNo) (s : State) : Carried s (recallLoops p s) := by
  refine .foldl (fun s l => ?_) _ s
  split
  · exact .refl s
  · split
    · exact recallCall_carried _ _ s
    · exact .refl s

theorem positionLoss_carried (p : PosNo) (s : State) : Carried s (positionLoss p s) := by
  unfold positionLoss
  refine (((((((recallLoops_carried p s).trans (closeConsult_carried p true _)).trans
    (withdrawAt_carried p _)).trans (setPosState_carried p .down .closed _ (.inl (by decide)))).trans
    (rejudgeGroup_carried _)).trans (placeLow_carried _ _)).trans (bump_carried _ _)).trans
    (settle_carried _)

theorem clearMisses_carried (p : PosNo) (s : State) :
    Carried s (s.setPos p { s.pos p with missCount := 0 }) :=
  .setPos p _ s (.inr (show 0 ≤ 15 by decide)) fun h => .inl h

theorem restoration_carried (p : PosNo) (s : State) : Carried s (restoration p s) := by
  unfold restoration
  refine (((((setPosState_carried p .closed .closed s (.inl (by decide))).trans
    (clearMisses_carried p _)).trans (rejudgeGroup_carried _)).trans
    (settle_carried _)).trans (placeLow_carried _ _)).trans (makePending_carried p _ _)

theorem receive_carried (l : Link) (s : State) : Carried s (receive l s) := by
  cases l with
  | switch => exact .setLink .switch _ s
  | console p =>
    have h := Carried.setLink (.console p) (s.link (.console p)).hear s
    cases hu : (s.link (.console p)).up with
    | true => rw [receive_up hu]; exact h
    | false =>
      rw [receive_down hu]
      exact (h.trans (restoration_carried p _)).trans (announce_carried s _)

end Sys2Proof.Machine
end

section
/-! PROOFS. The laws that speak of the register, of STANDBY, of the ranges and of the capacities, along
the writes that are not `Carried`: the filling and freeing of a slot, resets, answers and settings. -/
namespace Sys2Proof.Machine

/-! ## The laws kept from one state to another -/

/-- The laws of the ranges, of the capacities, and of the Call Register with STANDBY are kept. -/
structure LawsKept (s t : State) : Prop where
  range : s.RangeLaw → t.RangeLaw
  capacity : s.CapacityLaw → t.CapacityLaw
  register : s.RegisterLaw → s.StandbyLaw → t.RegisterLaw ∧ t.StandbyLaw

theorem LawsKept.trans {s t u : State} (h : LawsKept s t) (k : LawsKept t u) : LawsKept s u :=
  ⟨k.range ∘ h.range, k.capacity ∘ h.capacity, fun hr hs =>
    have ⟨tr, ts⟩ := h.register hr hs
    k.register tr ts⟩

/-- How many slots of the range are FREE, as the size of a set. -/
theorem freeInRange_eq_card (s : State) :
    s.freeInRange = (Finset.univ.filter fun i => s.inRange i = true ∧ s.call i = none).card := by
  unfold State.freeInRange
  have hn : (allSlots.filter fun i => s.inRange i && (s.call i).isNone).Nodup :=
    (List.nodup_finRange 256).filter _
  rw [← List.toFinset_card_of_nodup hn]
  congr 1
  ext i
  simp [allSlots]

/-- With every slot FREE the range counts whole (R1, R2). -/
theorem freeInRange_of_free {s : State} (h : ∀ i, s.call i = none) : s.freeInRange = s.rangeLength := by
  rw [freeInRange_eq_card, State.rangeLength, ← Fin.card_Icc]
  congr 1
  ext i
  simp [h, State.inRange]

theorem freeInRange_congr {s t : State} (hf : t.rangeFirst = s.rangeFirst)
    (hl : t.rangeLast = s.rangeLast) (hc : ∀ i, t.call i = none ↔ s.call i = none) :
    t.freeInRange = s.freeInRange := by
  rw [freeInRange_eq_card, freeInRange_eq_card]
  congr 1
  ext i
  simp [State.inRange, hf, hl, hc]

/-- The register's laws hang on the calls' identities, the range and the register's tables alone. -/
theorem RegisterLaw.of_slots {s t : State} (h : s.RegisterLaw) (hslots : SlotsCarried s t)
    (hf : t.rangeFirst = s.rangeFirst) (hl : t.rangeLast = s.rangeLast)
    (hfree : t.freeSlots = s.freeSlots) (htags : t.tagIndex = s.tagIndex)
    (hcur : ∀ o, (t.origin o).current = (s.origin o).current) : t.RegisterLaw where
  inRange i d hd := by
    obtain ⟨c, hc, _⟩ := hslots.call_back hd
    have := h.inRange i c hc
    rwa [State.inRange, hf, hl]
  freeSlots := by rw [hfree, h.freeSlots, freeInRange_congr hf hl hslots.call_none]
  tags tag i := by
    rw [htags, h.tags]
    constructor
    · rintro ⟨c, hc, rfl⟩
      obtain ⟨d, hd, hcd⟩ := hslots.call_some hc
      exact ⟨d, hd, hcd.tag⟩
    · rintro ⟨d, hd, rfl⟩
      obtain ⟨c, hc, hcd⟩ := hslots.call_back hd
      exact ⟨c, hc, hcd.tag.symm⟩
  origins o i := by
    rw [hcur, h.origins]
    constructor
    · rintro ⟨c, hc, rfl⟩
      obtain ⟨d, hd, hcd⟩ := hslots.call_some hc
      exact ⟨d, hd, hcd.origin⟩
    · rintro ⟨d, hd, rfl⟩
      obtain ⟨c, hc, hcd⟩ := hslots.call_back hd
      exact ⟨c, hc, hcd.origin.symm⟩

/-- The register's laws where every slot is FREE. -/
theorem RegisterLaw.of_free {s : State} (hc : ∀ i, s.call i = none) (hfree : s.freeSlots = s.rangeLength)
    (htags : s.tagIndex = []) (hcur : ∀ o, (s.origin o).current = none) : s.RegisterLaw where
  inRange i c h := by rw [hc] at h; cases h
  freeSlots := by rw [hfree, freeInRange_of_free hc]
  tags tag i := by simp [htags, hc]
  origins o i := by simp [hcur, hc]

theorem rangeLaw_iff (s : State) :
    s.RangeLaw ↔ (∀ i c, s.call i = some c → c.Ranged) ∧ ∀ p, (s.pos p).missCount ≤ 15 :=
  ⟨fun h => ⟨fun i c hc => ⟨h.score i c hc, h.age i c hc, h.offerAge i c hc⟩, h.missCount⟩,
    fun h => ⟨fun i c hc => (h.1 i c hc).score, fun i c hc => (h.1 i c hc).age,
      fun i c hc => (h.1 i c hc).offerAge, h.2⟩⟩

theorem capacityLaw_iff (s : State) :
    s.CapacityLaw ↔ s.txList.length ≤ 64 ∧ (∀ p, s.resultsPending p ≤ 8) ∧
      (∀ p, (s.subjects p).Nodup) ∧ (∀ es, s.staging = some es → es.length ≤ 32) ∧
      GroupsApart s.group :=
  ⟨fun h => ⟨h.frames, h.results, h.subjects, h.edits, h.origins, h.disjoint⟩,
    fun ⟨hf, hr, hs, he, hg⟩ => ⟨hf, hr, hs, he, hg.origins, hg.disjoint⟩⟩

theorem Carried.lawsKept {s t : State} (h : Carried s t) : LawsKept s t where
  range hs := by
    rw [rangeLaw_iff] at hs ⊢
    refine ⟨fun i d hd => ?_, fun p => h.missCount p (hs.2 p)⟩
    obtain ⟨c, hc, hcd⟩ := h.slots.call_back hd
    exact hcd.ranged (hs.1 i c hc)
  capacity hs := by
    rw [capacityLaw_iff] at hs ⊢
    obtain ⟨hf, hr, hsub, he, hg⟩ := hs
    exact ⟨h.frames hf, fun p => (h.results p).trans (hr p), fun p => h.subjects p (hsub p),
      fun es hes => (h.staging es hes).elim (he es) id, h.groups hg⟩
  register hr hs := by
    refine ⟨RegisterLaw.of_slots hr h.slots h.rangeFirst h.rangeLast h.freeSlots h.tagIndex h.current,
      ?_, ?_⟩
    · exact fun ht i => (h.slots.call_none i).2 (hs.free (h.service ▸ ht) i)
    · intro ht p hp
      rcases h.opened p hp with ho | ho
      · exact hs.shut (h.service ▸ ht) p ho
      · rw [h.service] at ht; rw [ho] at ht; cases ht

/-! ## An answer to a console (R171) -/

theorem answerConsole_lawsKept (p : PosNo) (seq kind : Byte) (code : ResultCode) (orbit : Option OrbitNo)
    (s : State) (h : s.resultsPending p < 8) : LawsKept s (answerConsole p seq kind code orbit s) where
  range hs := ⟨hs.score, hs.age, hs.offerAge, hs.missCount⟩
  capacity hs := by
    refine ⟨hs.frames, fun q => ?_, fun q => ?_, hs.edits, hs.origins, hs.disjoint⟩
    · by_cases hq : p = q
      · subst hq
        have hone : (answerConsole p seq kind code orbit s).resultsPending p = s.resultsPending p + 1 := by
          simp [State.resultsPending, answerConsole, ConsoleNotice.subject]
        rw [hone]; exact h
      · have := hs.results q
        simpa [State.resultsPending, answerConsole, hq] using this
    · have := hs.subjects q
      by_cases hq : p = q
      · subst hq; simpa [answerConsole, ConsoleNotice.subject] using this
      · simpa [answerConsole, hq] using this
  register hr hs := ⟨⟨hr.inRange, hr.freeSlots, hr.tags, hr.origins⟩, ⟨hs.free, hs.shut⟩⟩

/-! ## The filling of a slot (R10) -/

theorem allocate_call (i j : SlotNo) (c : Call) (s : State) :
    (allocate i c s).call j = if i = j then some c else s.call j := by
  simp [allocate, State.setCall, State.call]

theorem allocate_origin (i : SlotNo) (c : Call) (s : State) (o : OriginNo) :
    (allocate i c s).origin o =
      if c.origin = o then { s.origin o with current := some i } else s.origin o := by
  simp only [allocate, State.origin, State.setCall, Fin.getElem_fin, vset_get]
  split
  · rename_i h; rw [h]
  · rfl

theorem allocate_lawsKept {i : SlotNo} {c : Call} {s : State} (hi : s.call i = none)
    (hin : s.inRange i = true) (hservice : s.service = .service) (hranged : c.Ranged)
    (htag : s.tagIndex.lookup c.tag = none) (hcur : (s.origin c.origin).current = none) :
    LawsKept s (allocate i c s) where
  range hs := by
    rw [rangeLaw_iff] at hs ⊢
    refine ⟨fun j d hd => ?_, hs.2⟩
    rw [allocate_call] at hd
    split at hd
    · cases hd; exact hranged
    · exact hs.1 j d hd
  capacity hs := ⟨hs.frames, hs.results, hs.subjects, hs.edits, hs.origins, hs.disjoint⟩
  register hr _ := by
    refine ⟨⟨fun j d hd => ?_, ?_, fun tag j => ?_, fun o j => ?_⟩,
      fun ht => ?_, fun ht => ?_⟩
    · rw [allocate_call] at hd
      split at hd
      · rename_i h; exact h ▸ hin
      · exact hr.inRange j d hd
    · -- the slot leaves the set of the FREE ones
      have hset : (Finset.univ.filter fun j => (allocate i c s).inRange j = true ∧
          (allocate i c s).call j = none) =
          (Finset.univ.filter fun j => s.inRange j = true ∧ s.call j = none).erase i := by
        ext j
        simp only [Finset.mem_filter, Finset.mem_univ, true_and, Finset.mem_erase, allocate_call]
        have : (allocate i c s).inRange j = s.inRange j := rfl
        rw [this]
        by_cases h : i = j
        · simp [h]
        · simp [h, Ne.symm h]
      rw [freeInRange_eq_card, hset, Finset.card_erase_of_mem (by simp [hin, hi]),
        ← freeInRange_eq_card, ← hr.freeSlots]
      rfl
    · have : (allocate i c s).tagIndex = s.tagIndex ++ [(c.tag, i)] := rfl
      rw [this, List.lookup_append, allocate_call]
      by_cases ht : tag = c.tag
      · subst ht
        have hnone : ∀ k d, s.call k = some d → d.tag ≠ c.tag := by
          intro k d hd hdt
          rw [(hr.tags c.tag k).2 ⟨d, hd, hdt⟩] at htag; cases htag
        by_cases h : i = j
        · simp [htag, h]
        · simp only [htag, Option.none_or, List.lookup_cons, beq_self_eq_true, Option.some.injEq, h,
            if_false, false_iff]
          rintro ⟨d, hd, hdt⟩
          exact hnone j d hd hdt
      · have hb : (tag == c.tag) = false := by simpa using ht
        simp only [List.lookup_cons, hb, List.lookup_nil, Option.or_none, hr.tags]
        by_cases h : i = j
        · subst h; simp [hi, Ne.symm ht]
        · simp [h]
    · rw [allocate_origin, allocate_call]
      by_cases ho : c.origin = o
      · subst ho
        have hnone : ∀ k d, s.call k = some d → d.origin ≠ c.origin := by
          intro k d hd hdo
          rw [(hr.origins c.origin k).2 ⟨d, hd, hdo⟩] at hcur; cases hcur
        by_cases h : i = j
        · simp [h]
        · simp only [if_true, Option.some.injEq, h, if_false, false_iff]
          rintro ⟨d, hd, hdo⟩
          exact hnone j d hd hdo
      · simp only [ho, if_false, hr.origins]
        by_cases h : i = j
        · subst h; simp [hi, ho]
        · simp [h]
    · have : s.service = .standby := ht
      rw [hservice] at this; cases this
    · have : s.service = .standby := ht
      rw [hservice] at this; cases this

/-! ## The freeing of a slot (R13) -/

/-- The clearing of a record, its tag, its origin link and its place in the free-slot count. -/
def State.forget (s : State) (i : SlotNo) (c : Call) : State :=
  { s.setCall i none with
    tagIndex := s.tagIndex.filter (fun e => e.1 != c.tag)
    origins := vset s.origins c.origin { s.origin c.origin with current := none }
    freeSlots := s.freeSlots + 1 }

theorem freeSlot_forget {s : State} {i : SlotNo} {c : Call} (h : s.call i = some c) :
    freeSlot i s = (s.emptied i c).forget i c := freeSlot_eq h

theorem forget_call (s : State) (i j : SlotNo) (c : Call) :
    (s.forget i c).call j = if i = j then none else s.call j := by
  simp [State.forget, State.setCall, State.call]

theorem forget_origin (s : State) (i : SlotNo) (c : Call) (o : OriginNo) :
    (s.forget i c).origin o = if c.origin = o then { s.origin o with current := none } else s.origin o := by
  simp only [State.forget, State.origin, State.setCall, Fin.getElem_fin, vset_get]
  split
  · rename_i h; rw [h]
  · rfl

theorem lookup_filter_ne {α β : Type} [DecidableEq α] (l : List (α × β)) (a b : α) :
    (l.filter (fun e => e.1 != a)).lookup b = if b = a then none else l.lookup b := by
  induction l with
  | nil => simp
  | cons e l ih =>
    obtain ⟨x, y⟩ := e
    by_cases hxa : x = a
    · subst hxa
      by_cases hb : b = x
      · simp [hb] at ih ⊢; exact ih
      · have : (b == x) = false := by simpa using hb
        simp only [List.filter_cons, bne_self_eq_false, List.lookup_cons, this] at ih ⊢
        simpa [hb] using ih
    · by_cases hb : b = x
      · subst hb; simp [hxa]
      · have : (b == x) = false := by simpa using hb
        simp only [List.filter_cons, bne_iff_ne, ne_eq, hxa, not_false_eq_true, if_true,
          List.lookup_cons, this, ih]

theorem forget_lawsKept {i : SlotNo} {c d : Call} {s : State} (hd : s.call i = some d)
    (htag : d.tag = c.tag) (horigin : d.origin = c.origin) : LawsKept s (s.forget i c) where
  range hs := by
    rw [rangeLaw_iff] at hs ⊢
    refine ⟨fun j e he => ?_, hs.2⟩
    rw [forget_call] at he
    split at he
    · cases he
    · exact hs.1 j e he
  capacity hs := ⟨hs.frames, hs.results, hs.subjects, hs.edits, hs.origins, hs.disjoint⟩
  register hr hst := by
    refine ⟨⟨fun j e he => ?_, ?_, fun tag j => ?_, fun o j => ?_⟩, fun ht j => ?_, hst.shut⟩
    · rw [forget_call] at he
      split at he
      · cases he
      · exact hr.inRange j e he
    · -- the slot joins the set of the FREE ones
      have hset : (Finset.univ.filter fun j => (s.forget i c).inRange j = true ∧
          (s.forget i c).call j = none) =
          insert i (Finset.univ.filter fun j => s.inRange j = true ∧ s.call j = none) := by
        ext j
        simp only [Finset.mem_filter, Finset.mem_univ, true_and, Finset.mem_insert, forget_call]
        have : (s.forget i c).inRange j = s.inRange j := rfl
        rw [this]
        by_cases h : i = j
        · subst h; simp [hr.inRange i d hd]
        · simp [h, Ne.symm h]
      rw [freeInRange_eq_card, hset, Finset.card_insert_of_notMem (by simp [hd]),
        ← freeInRange_eq_card, ← hr.freeSlots]
      rfl
    · have : (s.forget i c).tagIndex = s.tagIndex.filter (fun e => e.1 != c.tag) := rfl
      rw [this, lookup_filter_ne, forget_call]
      have hi := (hr.tags c.tag i).2 ⟨d, hd, htag⟩
      by_cases ht : tag = c.tag
      · subst ht
        simp only [if_true]
        constructor
        · rintro ⟨⟩
        · rintro ⟨e, he, hte⟩
          split at he
          · cases he
          · rename_i h
            rw [(hr.tags c.tag j).2 ⟨e, he, hte⟩] at hi
            exact absurd (Option.some.inj hi).symm h
      · simp only [ht, if_false, hr.tags]
        by_cases h : i = j
        · subst h; simp [hd, htag, Ne.symm ht]
        · simp [h]
    · have hi := (hr.origins c.origin i).2 ⟨d, hd, horigin⟩
      rw [forget_origin, forget_call]
      by_cases ho : c.origin = o
      · subst ho
        simp only [if_true]
        constructor
        · rintro ⟨⟩
        · rintro ⟨e, he, hte⟩
          split at he
          · cases he
          · rename_i h
            rw [(hr.origins c.origin j).2 ⟨e, he, hte⟩] at hi
            exact absurd (Option.some.inj hi).symm h
      · simp only [ho, if_false, hr.origins]
        by_cases h : i = j
        · subst h; simp [hd, horigin, ho]
        · simp [h]
    · rw [forget_call]
      split
      · rfl
      · exact hst.free ht j

/-! ## Resets (R175, R178) -/

theorem powerOnState_call (rate : LineRate) (held : Bool) (s : State) (i : SlotNo) :
    (powerOnState rate held s).call i = none := by
  simp [powerOnState, State.reset, State.call]

theorem powerOnState_lawsKept (rate : LineRate) (held : Bool) (s : State) :
    LawsKept s (powerOnState rate held s) where
  range _ := (rangeLaw_iff _).2 ⟨fun i c hc => by simp [powerOnState_call] at hc,
    fun p => by simp [powerOnState, State.reset, State.pos, Position.powerOn]⟩
  capacity _ := by
    have hg : ∀ g, ((powerOnState rate held s).group g).valid = false := fun g => by
      simp [powerOnState, State.reset, State.group, Group.cleared]
    have hc : ∀ p, ((powerOnState rate held s).console p).pending = [] := fun p => by
      simp [powerOnState, State.reset, State.console]
    refine ⟨Nat.zero_le _, fun p => by simp [State.resultsPending, hc], fun p => by simp [hc],
      fun es he => (by cases he), fun g h => ?_, fun g _ _ h => ?_⟩
    · rw [hg] at h; cases h
    · rw [hg] at h; cases h
  register _ _ := by
    refine ⟨RegisterLaw.of_free (powerOnState_call rate held s) rfl rfl fun o => ?_,
      fun _ => powerOnState_call rate held s, fun _ p => ?_⟩
    · simp [powerOnState, State.reset, State.origin, Origin.cleared]
    · simp [powerOnState, State.reset, State.pos, Position.powerOn]

/-- The state of a service reset before the plan, the lead and the notices are formed anew (R178). -/
def State.wiped (toStandby : Bool) (s : State) : State :=
  { s with
    slots := Vector.replicate 256 none
    freeSlots := s.rangeLength
    tagIndex := []
    origins := s.origins.map (fun o => { o with current := none })
    queue := []
    orbits := Vector.replicate 16 none
    camps := []
    positions := s.positions.map (Position.serviceReset toStandby)
    staging := none
    service := if toStandby then .standby else s.service
    available := [] }

theorem serviceReset_eq (b : Bool) (s : State) :
    serviceReset b s = pendFull (rejudge (rejudgeGroup (recompute (s.wiped b)))) := rfl

theorem wiped_call (b : Bool) (s : State) (i : SlotNo) : (s.wiped b).call i = none := by
  simp [State.wiped, State.call]

theorem wiped_pos (b : Bool) (s : State) (p : PosNo) :
    (s.wiped b).pos p = (s.pos p).serviceReset b := by
  simp [State.wiped, State.pos]

theorem wiped_origin (b : Bool) (s : State) (o : OriginNo) :
    (s.wiped b).origin o = { s.origin o with current := none } := by
  simp [State.wiped, State.origin]

theorem wiped_lawsKept (b : Bool) (s : State) : LawsKept s (s.wiped b) where
  range hs := (rangeLaw_iff _).2 ⟨fun i c hc => by simp [wiped_call] at hc,
    fun p => by rw [wiped_pos]; exact hs.missCount p⟩
  capacity hs := ⟨hs.frames, hs.results, hs.subjects, fun es he => (by cases he), hs.origins,
    hs.disjoint⟩
  register _ hst := by
    refine ⟨RegisterLaw.of_free (wiped_call b s) rfl rfl fun o => by rw [wiped_origin],
      fun _ => wiped_call b s, fun ht p => ?_⟩
    rw [wiped_pos]
    cases b with
    | true =>
      simp only [Position.serviceReset, Bool.true_and]
      split
      · simp
      · rename_i h; simpa using h
    | false => simpa [Position.serviceReset] using hst.shut ht p

theorem pendFull_carried (s : State) : Carried s (pendFull s) := by
  refine .foldl (fun s p => ?_) _ s
  split
  · exact makePending_carried p _ s
  · exact .refl s

theorem serviceReset_carried (b : Bool) (s : State) : Carried (s.wiped b) (serviceReset b s) := by
  rw [serviceReset_eq]
  exact (((recompute_carried _).trans (rejudgeGroup_carried _)).trans (rejudge_carried _)).trans
    (pendFull_carried _)

/-! ## Settings -/

/-- A change of the service state, the range or the timebase in which the register stays lawful. -/
theorem LawsKept.of_settings {s t : State} (hslots : t.slots = s.slots)
    (hmiss : ∀ p, (t.pos p).missCount = (s.pos p).missCount)
    (hreg : s.RegisterLaw → s.StandbyLaw → t.RegisterLaw ∧ t.StandbyLaw)
    (hstaging : ∀ es, t.staging = some es → s.staging = some es)
    (hframes : t.txList = s.txList := by rfl) (hconsoles : t.consoles = s.consoles := by rfl)
    (hgroups : t.groups = s.groups := by rfl) : LawsKept s t where
  range hs := by
    have hc : t.call = s.call := by funext i; rw [State.call, State.call, hslots]
    rw [rangeLaw_iff] at hs ⊢
    exact ⟨by rw [hc]; exact hs.1, fun p => hmiss p ▸ hs.2 p⟩
  capacity hs := by
    have hr : t.resultsPending = s.resultsPending := by
      funext p; simp only [State.resultsPending, State.console, hconsoles]
    have hsub : t.subjects = s.subjects := by
      funext p; simp only [State.subjects, State.console, hconsoles]
    have hg : t.group = s.group := by funext g; rw [State.group, State.group, hgroups]
    rw [capacityLaw_iff] at hs ⊢
    obtain ⟨h1, h2, h3, h4, h5⟩ := hs
    exact ⟨hframes ▸ h1, hr ▸ h2, hsub ▸ h3, fun es he => h4 es (hstaging es he), hg ▸ h5⟩
  register := hreg

end Sys2Proof.Machine
end

section
/-! PROOFS. What one command can do to the Call Register: it keeps every call, fills one slot, frees one
slot or frees them all, and it keeps the laws of the ranges, the capacities and the register. -/
namespace Sys2Proof.Machine

/-! ## What a command does to the slots -/

/-- What an operation does to the slots, where `fills` and `frees` say which slot it may fill or free, and
`empties` whether it may free them all. -/
inductive Turn (fills frees : SlotNo → Prop) (empties : Prop) (s t : State) : Prop
  | same (laws : LawsKept s t) (slots : SlotsCarried s t)
  | filled (laws : LawsKept s t) (i : SlotNo) (why : fills i) (was : s.call i = none)
      (others : ∀ j, i ≠ j → Option.Rel CallCarried (s.call j) (t.call j))
  | freed (laws : LawsKept s t) (i : SlotNo) (why : frees i) (now : t.call i = none)
      (others : ∀ j, i ≠ j → Option.Rel CallCarried (s.call j) (t.call j))
  | emptied (laws : LawsKept s t) (why : empties) (now : ∀ i, t.call i = none)

section
variable {F G : SlotNo → Prop} {E : Prop} {s t u : State}

theorem Turn.laws (h : Turn F G E s t) : LawsKept s t := by cases h <;> assumption

theorem Carried.turn (h : Carried s t) : Turn F G E s t := .same h.lawsKept h.slots

theorem optionRel_trans {a b c : Option Call} (h : Option.Rel CallCarried a b)
    (k : Option.Rel CallCarried b c) : Option.Rel CallCarried a c := by
  cases h with
  | none => exact k
  | some h => cases k with
    | some k => exact .some (h.trans k)

theorem Turn.after (h : Carried s t) (k : Turn F G E t u) : Turn F G E s u := by
  have hl := h.lawsKept.trans k.laws
  cases k with
  | same _ slots => exact .same hl (h.slots.trans slots)
  | filled _ i why was others =>
    exact .filled hl i why ((h.slots.call_none i).1 was) fun j hj => optionRel_trans (h.slots j) (others j hj)
  | freed _ i why now others =>
    exact .freed hl i why now fun j hj => optionRel_trans (h.slots j) (others j hj)
  | emptied _ why now => exact .emptied hl why now

theorem Turn.andThen (h : Turn F G E s t) (k : Carried t u) : Turn F G E s u := by
  have hl := h.laws.trans k.lawsKept
  cases h with
  | same _ slots => exact .same hl (slots.trans k.slots)
  | filled _ i why was others =>
    exact .filled hl i why was fun j hj => optionRel_trans (others j hj) (k.slots j)
  | freed _ i why now others =>
    exact .freed hl i why ((k.slots.call_none i).2 now) fun j hj => optionRel_trans (others j hj) (k.slots j)
  | emptied _ why now => exact .emptied hl why fun i => (k.slots.call_none i).2 (now i)

/-- An operation that only keeps the calls or frees them all. -/
abbrev Sweeping (E : Prop) (s t : State) : Prop := Turn (fun _ => False) (fun _ => False) E s t

theorem Sweeping.trans (h : Sweeping E s t) (k : Sweeping E t u) : Sweeping E s u := by
  have hl := h.laws.trans k.laws
  cases k with
  | emptied _ why now => exact .emptied hl why now
  | filled _ i why => exact why.elim
  | freed _ i why => exact why.elim
  | same _ slots =>
    cases h with
    | same _ slots' => exact .same hl (slots'.trans slots)
    | emptied _ why now => exact .emptied hl why fun i => (slots.call_none i).2 (now i)
    | filled _ i why => exact why.elim
    | freed _ i why => exact why.elim

theorem Sweeping.turn (h : Sweeping E s t) : Turn F G E s t := by
  cases h with
  | same laws slots => exact .same laws slots
  | emptied laws why now => exact .emptied laws why now
  | filled _ i why => exact why.elim
  | freed _ i why => exact why.elim

/-! ## What surrounds the work of a command -/

theorem unlessHeld_turn {f : State → State} (h : unlessHeld f s = .next t) (hf : Turn F G E s (f s)) :
    Turn F G E s t := by
  unfold unlessHeld at h
  split at h
  · cases h; exact (Carried.refl s).turn
  · cases h; exact hf

theorem act_turn {f : State → State} (hf : Turn F G E s (f s)) : Turn F G E s (act f s) :=
  hf.andThen (announce_carried s (f s))

theorem switchOrder_turn {kind : Byte} {len : Nat} {f : State → State}
    (h : unlessHeld (switchOrder kind len f) s = .next t)
    (hf : orderLength .switch kind = some len → Turn F G E (receive .switch s) (f (receive .switch s))) :
    Turn F G E s t := by
  refine unlessHeld_turn h (.after (receive_carried .switch s) ?_)
  unfold switchOrder
  dsimp only
  split
  · rename_i hl; exact act_turn (hf hl)
  · exact (bump_carried _ _).turn

theorem consoleOrder_turn {p : PosNo} {kind : Byte} {len : Nat} {f : State → State}
    (h : unlessHeld (consoleOrder p kind len f) s = .next t)
    (hf : ∀ u, u.resultsPending p < 8 → Turn F G E u (f u)) : Turn F G E s t := by
  refine unlessHeld_turn h (.after (receive_carried (.console p) s) ?_)
  unfold consoleOrder
  dsimp only
  split
  · rename_i hl; exact act_turn (hf _ hl.2)
  · exact (bump_carried _ _).turn

theorem answerConsole_turn (p : PosNo) (seq kind : Byte) (code : ResultCode) (orbit : Option OrbitNo)
    (h : s.resultsPending p < 8) : Turn F G E s (answerConsole p seq kind code orbit s) :=
  .same (answerConsole_lawsKept p seq kind code orbit s h) (.of_eq rfl)

theorem freeSlot_turn {i : SlotNo} (hi : G i) (s : State) : Turn F G E s (freeSlot i s) := by
  cases hc : s.call i with
  | none => rw [freeSlot_none hc]; exact (Carried.refl s).turn
  | some c =>
    have h : Carried s (s.emptied i c) := by
      unfold State.emptied
      split
      · exact (endOffers_carried i s).trans (leave_carried i _)
      · exact leave_carried i s
    rw [freeSlot_forget hc]
    refine .after h ?_
    obtain ⟨d, hd, hcd⟩ := h.slots.call_some hc
    refine .freed (forget_lawsKept hd hcd.tag hcd.origin) i hi (by rw [forget_call, if_pos rfl])
      fun j hj => ?_
    rw [forget_call, if_neg hj]; exact optionRel_refl

theorem serviceReset_turn (hE : E) (b : Bool) (s : State) : Turn F G E s (serviceReset b s) := by
  have h : Turn F G E s (s.wiped b) := .emptied (wiped_lawsKept b s) hE (wiped_call b s)
  exact h.andThen (serviceReset_carried b s)

theorem linkLoss_sweeping (l : Link) (s : State) (hE : l = .switch → s.service = .service → E) :
    Sweeping E s (linkLoss l s) := by
  have h := Carried.setLink l { s.link l with up := false, quiet := s.lossLimit l } s
  unfold linkLoss
  cases l with
  | console p =>
    dsimp only
    refine (h.trans (.trans ?_ (positionLoss_carried p _))).turn
    exact .setConsole p _ _ (Nat.zero_le _) fun _ => List.nodup_nil
  | switch =>
    dsimp only
    split
    · rename_i hs; exact .after h (serviceReset_turn (hE rfl hs) true _)
    · exact h.turn

end

/-! ## Sweep visits and ticks -/

theorem waitLimitCheck_carried (i : SlotNo) (s : State) : Carried s (waitLimitCheck i s) := by
  unfold waitLimitCheck
  split
  · exact .refl s
  · split
    · exact ((depart_carried i _ _ s).trans (bump_carried _ _)).trans (settle_carried _)
    · exact .refl s

theorem countMiss_carried (p : PosNo) (s : State) : Carried s (countMiss p s) := by
  have h : Carried s (s.setPos p
      { s.pos p with missCount := min maxMissCount ((s.pos p).missCount + 1) }) :=
    .setPos p _ s (.inr (Nat.min_le_left _ _)) fun h => .inl h
  unfold countMiss
  dsimp only
  split
  · exact ((h.trans (bump_carried _ _)).trans (setPosState_carried p .closed .forced _
      (.inl (by decide)))).trans (rejudgeGroup_carried _)
  · exact h.trans (bump_carried _ _)

theorem offerExpiryCheck_carried (i : SlotNo) (s : State) : Carried s (offerExpiryCheck i s) := by
  unfold offerExpiryCheck
  split
  · exact .refl s
  · split
    · dsimp only
      split
      · exact .modCall i _ s fun _ _ =>
          ⟨rfl, rfl, rfl, rfl, fun h => ⟨h.score, h.age, Nat.min_le_left _ _⟩⟩
      · exact ((withdrawAt_carried _ s).trans (countMiss_carried _ _)).trans (settle_carried _)
    · exact .refl s

theorem holdReminderCheck_carried (i : SlotNo) (s : State) : Carried s (holdReminderCheck i s) := by
  unfold holdReminderCheck
  split
  · exact .refl s
  · split
    · exact .modCall i _ s fun _ _ =>
        ⟨rfl, rfl, rfl, rfl, fun h => ⟨h.score, Nat.zero_le _, h.offerAge⟩⟩
    · exact .refl s

theorem holdRecallCheck_carried (i : SlotNo) (s : State) : Carried s (holdRecallCheck i s) := by
  unfold holdRecallCheck
  split
  · exact .refl s
  · split
    · exact recallNow_carried i _ s
    · exact .refl s

theorem parkCheck_carried (i : SlotNo) (s : State) : Carried s (parkCheck i s) := by
  unfold parkCheck
  split
  · exact .refl s
  · split
    · exact recallNow_carried i _ s
    · exact .refl s

theorem ringCheck_carried (i : SlotNo) (s : State) : Carried s (ringCheck i s) := by
  unfold ringCheck
  split
  · exact .refl s
  · split
    · exact recallNow_carried i _ s
    · exact .refl s

theorem campCheck_carried (i : SlotNo) (s : State) : Carried s (campCheck i s) := by
  unfold campCheck
  split
  · exact .refl s
  · split
    · exact recallNow_carried i _ s
    · exact .refl s

theorem queueCheck_carried (found : Call) (i : SlotNo) (s : State) : Carried s (queueCheck found i s) := by
  have h := ((rescore_carried i s).trans (place_carried i _)).trans (settle_carried _)
  unfold queueCheck
  dsimp only
  split
  · exact h
  · split
    · exact h.trans (waitLimitCheck_carried i _)
    · split
      · exact h.trans (offerExpiryCheck_carried i _)
      · exact h

theorem ownersCheck_carried (found : Call) (i : SlotNo) (s : State) :
    Carried s (ownersCheck found i s) := by
  unfold ownersCheck
  split
  case h_1 => exact queueCheck_carried found i s
  case h_2 => exact queueCheck_carried found i s
  case h_3 => exact .refl s
  case h_4 =>
    split
    · exact holdRecallCheck_carried i s
    · exact holdReminderCheck_carried i s
  case h_5 => exact parkCheck_carried i s
  case h_6 => exact ringCheck_carried i s
  case h_7 => exact campCheck_carried i s
  case h_8 => exact .refl s

theorem visitSlot_carried (i : SlotNo) (s : State) : Carried s (visitSlot i s) := by
  unfold visitSlot
  split
  · exact .refl s
  · rename_i c _
    have h : Carried s (issue i (s.modCall i (fun c => { c with retryWait := false }))) :=
      (Carried.modCall i (fun c => { c with retryWait := false }) s fun _ _ => ⟨rfl, rfl, rfl, rfl,
        fun h => ⟨h.score, h.age, h.offerAge⟩⟩).trans (issue_carried i _)
    dsimp only
    split
    · refine (h.trans (.modCall i _ _ fun _ _ => ?_)).trans (ownersCheck_carried c i _)
      exact ⟨rfl, rfl, rfl, rfl, fun h => ⟨h.score, Nat.min_le_left _ _, h.offerAge⟩⟩
    · exact h.trans (ownersCheck_carried c i _)

theorem periodicReport_carried (s : State) : Carried s (periodicReport s) := by
  unfold periodicReport
  split
  · rename_i h
    refine (Carried.setTxList s (s.txList ++ counterFrames s) fun _ => ?_).trans .of_same
    simp only [State.freeEntries] at h
    simp only [List.length_append, counterFrames, List.length_cons, List.length_nil]; omega
  · exact bump_carried _ s

theorem reportEnd_carried (s : State) : Carried s (reportEnd s) :=
  (periodicReport_carried s).trans .of_same

theorem endPass_carried (s : State) : Carried s (endPass s) := by
  unfold endPass
  split
  · exact .refl s
  · dsimp only
    split
    · exact Carried.trans (t := { s with passCount := s.passCount + 1 }) .of_same (reportEnd_carried _)
    · exact .of_same

theorem sweepStep_carried (s : State) : Carried s (sweepStep s) := by
  unfold sweepStep
  refine (visitSlot_carried s.pointer s).trans ?_
  generalize visitSlot s.pointer s = u
  unfold advancePointer
  split
  · exact Carried.trans (t := { u with pointer := u.rangeFirst }) .of_same (endPass_carried _)
  · exact .of_same

theorem abandonFrame_carried (l : Link) (s : State) : Carried s (abandonFrame l s) := by
  unfold abandonFrame
  split
  · exact .refl s
  · exact (Carried.setLink l _ s).trans (bump_carried _ _)

theorem tickParts_lose {s : State} {l : Link} (h : TickPart.lose l ∈ tickParts s) :
    s.fallsSilent l = true := by
  simp only [tickParts, List.mem_append, List.mem_map, List.mem_filter] at h
  rcases h with (⟨k, hk, he⟩ | ⟨_, _, he⟩) | h
  · cases he; exact hk.2
  · cases he
  · split at h <;> simp at h

/-- The state after the parts of a counted tick, in the order that the free value gives (R164). -/
def State.afterParts (s : State) : State :=
  (arrange (Config.tickOrder s.draws) (tickParts s)).foldl (fun u part => runPart part u) s.supervised

theorem runParts_last (parts : List TickPart) (s : State) :
    (runParts parts s).headD s = parts.foldl (fun u part => runPart part u) s := by
  have h : ∀ (parts : List TickPart) (trail : List State),
      (parts.foldl (fun trail part => runPart part (trail.headD s) :: trail) trail).headD s =
        parts.foldl (fun u part => runPart part u) (trail.headD s) := by
    intro parts
    induction parts with
    | nil => exact fun _ => rfl
    | cons part parts ih => exact fun trail => ih _
  exact h parts [s]

/-- A write to links and to the draw count alone. -/
def OnlyLinks (s t : State) : Prop :=
  ∃ a b n, t = { s with switchLink := a, consoleLinks := b, draws := n }

theorem OnlyLinks.refl (s : State) : OnlyLinks s s := ⟨s.switchLink, s.consoleLinks, s.draws, rfl⟩

theorem OnlyLinks.foldl {f : State → Link → State} (hf : ∀ s l, OnlyLinks s (f s l)) (ls : List Link)
    (s : State) : OnlyLinks s (ls.foldl f s) := by
  induction ls generalizing s with
  | nil => exact .refl s
  | cons l ls ih =>
    obtain ⟨a, b, n, h⟩ := hf s l
    obtain ⟨a', b', n', h'⟩ := ih (f s l)
    exact ⟨a', b', n', by rw [List.foldl_cons, h', h]⟩

theorem setLink_onlyLinks (l : Link) (u : LinkUnit) (s : State) : OnlyLinks s (s.setLink l u) := by
  cases l with
  | switch => exact ⟨u, s.consoleLinks, s.draws, rfl⟩
  | console p => exact ⟨s.switchLink, vset s.consoleLinks p u, s.draws, rfl⟩

/-- The supervision of the links touches links and the counts of the tick alone. -/
theorem supervised_onlyLinks (s : State) :
    OnlyLinks { s with pulseCount := 0, tickCount := s.tickCount + 1 } s.supervised :=
  .foldl (fun s l => setLink_onlyLinks l _ s) _ _

/-- After its parts a counted tick only marks the links that begin an IDLE. -/
theorem countedTick_onlyLinks (s : State) : OnlyLinks s.afterParts (countedTick s) := by
  have hidle : ∀ trail : List State, OnlyLinks s.afterParts (allLinks.foldl
      (fun v l => if idleJudged s.draws trail s.afterParts l = true then sendIdle l v else v)
      s.afterParts) := fun trail => .foldl (fun v l => by
    split
    · exact setLink_onlyLinks l _ v
    · exact .refl v) _ _
  have hlast : (runParts (arrange (Config.tickOrder s.draws) (tickParts s)) s.supervised).headD
      s.supervised = s.afterParts := runParts_last _ _
  have hrun : countedTick s =
      let trail := runParts (arrange (Config.tickOrder s.draws) (tickParts s)) s.supervised
      let t := allLinks.foldl (fun v l =>
        if idleJudged s.draws trail (trail.headD s.supervised) l = true then sendIdle l v else v)
        (trail.headD s.supervised)
      { t with draws := t.draws + 1 } := rfl
  rw [hrun]
  dsimp only
  rw [hlast]
  obtain ⟨a, b, n, h⟩ := hidle (runParts (arrange (Config.tickOrder s.draws) (tickParts s)) s.supervised)
  exact ⟨a, b, n + 1, by rw [h]⟩

theorem OnlyLinks.carried {s t : State} (h : OnlyLinks s t) : Carried s t := by
  obtain ⟨a, b, n, rfl⟩ := h
  exact .of_same

theorem supervised_carried (s : State) : Carried s s.supervised :=
  Carried.trans (t := { s with pulseCount := 0, tickCount := s.tickCount + 1 }) .of_same
    (supervised_onlyLinks s).carried

/-- No part of a tick brings the part into SERVICE. -/
theorem runPart_service (part : TickPart) (s : State) (h : (runPart part s).service = .service) :
    s.service = .service := by
  cases part with
  | visit =>
    unfold runPart at h
    dsimp only at h
    split at h
    · assumption
    · exact h
  | abandon l => exact (abandonFrame_carried l s).service.symm.trans h
  | lose l =>
    cases hs : s.service with
    | service => rfl
    | standby =>
      have hE : Sweeping False s (linkLoss l s) :=
        linkLoss_sweeping l s fun _ hx => by rw [hs] at hx; cases hx
      have hkeep : (linkLoss l s).service = s.service := by
        have h := Carried.setLink l { s.link l with up := false, quiet := s.lossLimit l } s
        unfold linkLoss
        cases l with
        | console p => exact (positionLoss_carried p _).service
        | switch => dsimp only; rw [if_neg (by rw [h.service, hs]; decide)]; exact h.service
      have := (announce_carried s (linkLoss l s)).service.symm.trans h
      rw [hkeep, hs] at this; cases this

theorem countedTick_sweeping (s : State) :
    Sweeping (s.service = .service ∧ s.fallsSilent .switch = true) s (countedTick s) := by
  -- every part is due, and it finds SERVICE only where the tick found it
  have hparts : ∀ (parts : List TickPart) (u : State), (∀ part ∈ parts, part ∈ tickParts s) →
      (u.service = .service → s.service = .service) →
      Sweeping (s.service = .service ∧ s.fallsSilent .switch = true) u
        (parts.foldl (fun u part => runPart part u) u) := by
    intro parts
    induction parts with
    | nil => exact fun u _ _ => (Carried.refl u).turn
    | cons part parts ih =>
      intro u hmem hservice
      refine .trans ?_ (ih (runPart part u) (fun p hp => hmem p (List.mem_cons_of_mem _ hp))
        (hservice ∘ runPart_service part u))
      cases part with
      | lose l =>
        refine act_turn (linkLoss_sweeping l u fun hl hsv => ⟨hservice hsv, ?_⟩)
        subst hl
        exact tickParts_lose (hmem _ List.mem_cons_self)
      | abandon l => exact (abandonFrame_carried l u).turn
      | visit =>
        unfold runPart
        dsimp only
        split
        · exact (act_carried (sweepStep_carried u)).turn
        · exact (Carried.refl u).turn
  refine .after (supervised_carried s) (.andThen ?_ (countedTick_onlyLinks s).carried)
  exact hparts _ s.supervised (fun p hp => (arrange_perm _ _).mem_iff.1 hp)
    fun h => (supervised_carried s).service.symm.trans h

end Sys2Proof.Machine
end

section
/-! PROOFS. Every command, row by row: which of them fill, free or empty the Call Register; and with that
the laws of the ranges, the capacities and the register (O6, O7) and the identity of the calls (O19). -/
namespace Sys2Proof.Machine

/-! ## Which command may do what -/

/-- The command admits an arrival into the slot (R10, R34). -/
def Fills (c : Instr) (s : State) (i : SlotNo) : Prop :=
  ∃ tag g k, c = .arrive 6 tag g k ∧ s.service = .service ∧ s.lowestFree = some i

/-- The command acknowledges the outstanding request that ends the DEPARTING call of the slot: its final
connection is confirmed, or its DROP has failed (R149, R152). -/
def FreesByAck (c : Instr) (s : State) (i : SlotNo) : Prop :=
  ∃ a r v, s.call i = some a ∧ c = .pathAck 3 r.number v ∧ a.outstanding = some r ∧
    a.state = .departing ∧ (v = 0 ∧ r.target.terminal = true ∨ v = 1 ∧ r.target = .drop)

/-- The command reports that the RINGING call of the slot has been answered (R135). -/
def FreesByAnswer (c : Instr) (s : State) (i : SlotNo) : Prop :=
  ∃ a n, s.call i = some a ∧ c = .legState 3 n 2 ∧ a.state = .ringing ∧ a.ringWatch = some n

/-- The command frees the slot (R13). -/
def Frees (c : Instr) (s : State) (i : SlotNo) : Prop :=
  (∃ tag, c = .gone 4 tag ∧ s.tagIndex.lookup tag = some i) ∨ FreesByAck c s i ∨ FreesByAnswer c s i

/-- The command resets the part or its service (R175, R178). -/
def Empties (c : Instr) (s : State) : Prop :=
  c = .stopForced 1 ∨ c = .stopOrderly 1 1 ∨ c = .restart 0 ∨ (∃ r, c = .powerOnReset r) ∨
    c = .resetAsserted ∨
    (c = .linkLost .switch ∧ s.service = .service ∧ (s.link .switch).up = true) ∨
    ((c = .tickPulse ∨ c = .countedTick) ∧ s.service = .service ∧ s.fallsSilent .switch = true)

/-! ## Orders of the switch -/

section
variable {F G : SlotNo → Prop} {E : Prop}

theorem rejectArrival_carried (tag : Tag) (why : RejectReason) (s : State) :
    Carried s (rejectArrival tag why s) := (bump_carried _ s).trans (placeAnswer_carried _ _)

theorem divertArrival_carried (tag : Tag) (d : Half) (why : DivertReason) (k : Counter) (s : State) :
    Carried s (divertArrival tag d why k s) := (bump_carried _ s).trans (placeAnswer_carried _ _)

theorem overflowArrival_carried (tag : Tag) (s : State) : Carried s (overflowArrival tag s) := by
  unfold overflowArrival
  split
  · exact divertArrival_carried _ _ _ _ s
  · exact rejectArrival_carried _ _ s

theorem lowestFree_spec {s : State} {i : SlotNo} (h : s.lowestFree = some i) :
    s.inRange i = true ∧ s.call i = none := by
  have := List.find?_some h
  simpa using this

theorem admitCall_turn {i : SlotNo} (hi : F i) {tag : Tag} {o : OriginNo} (cls : ClassNo) (label : Half)
    {s : State} (hfree : s.lowestFree = some i) (hservice : s.service = .service)
    (htag : s.slotOfTag tag = none) (hcur : (s.origin o).current = none) :
    Turn F G E s (admitCall i (newCall tag o cls label) s) := by
  obtain ⟨hin, hnone⟩ := lowestFree_spec hfree
  refine .after (bump_carried .admitted s) ?_
  have halloc : Turn F G E (bump .admitted s) (allocate i (newCall tag o cls label) (bump .admitted s)) :=
    .filled (allocate_lawsKept hnone hin hservice
      ⟨Nat.zero_le _, Nat.zero_le _, Nat.zero_le _⟩ htag hcur) i hi hnone fun j hj => by
        rw [allocate_call, if_neg hj]; exact optionRel_refl
  exact halloc.andThen (((rescore_carried i _).trans (place_carried i _)).trans (settle_carried _))

theorem arriveDecision_turn {s : State} (tag : Tag) (group circuit : Byte)
    (hF : ∀ i, s.service = .service → s.lowestFree = some i → F i) :
    Turn F G E s (arriveDecision tag group circuit s) := by
  unfold arriveDecision
  refine .after (bump_carried .arrivals s) ?_
  have hF' : ∀ i, (bump .arrivals s).service = .service → (bump .arrivals s).lowestFree = some i → F i := hF
  generalize bump .arrivals s = u at hF'
  dsimp only
  split
  · exact (rejectArrival_carried _ _ u).turn
  · rename_i hservice
    have hservice : u.service = .service := by
      cases h : u.service with
      | standby => exact absurd h hservice
      | service => rfl
    split
    · exact ((rejectArrival_carried _ _ u).trans (placeLow_carried _ _)).turn
    · rename_i htag
      split
      · exact ((rejectArrival_carried _ _ u).trans (placeLow_carried _ _)).turn
      · rename_i e o _
        unfold decideMapped
        split
        · exact ((rejectArrival_carried _ _ u).trans (placeLow_carried _ _)).turn
        · rename_i hcur
          split
          · exact (divertArrival_carried _ _ _ _ u).turn
          · split
            · exact (overflowArrival_carried _ u).turn
            · split
              · exact (overflowArrival_carried _ u).turn
              · rename_i i hfree
                exact admitCall_turn (hF' i hservice hfree) _ _ hfree hservice htag hcur

theorem closeConsultOf_carried (c : Call) (s : State) : Carried s (closeConsultOf c s) := by
  unfold closeConsultOf
  split
  · split
    · exact closeConsult_carried _ true s
    · exact .refl s
  · exact .refl s

theorem goneReport_turn {s : State} (tag : Tag) (hG : ∀ i, s.tagIndex.lookup tag = some i → G i) :
    Turn F G E s (goneReport tag s) := by
  unfold goneReport
  split
  · exact (bump_carried _ s).turn
  · rename_i i hi
    split
    · exact (bump_carried _ s).turn
    · rename_i c _
      have h1 : Carried s (if c.state.queued = true then bump .abandoned s else s) := by
        split
        · exact bump_carried _ s
        · exact .refl s
      unfold goneCall
      dsimp only
      generalize (if c.state.queued = true then bump .abandoned s else s) = u at h1
      have h2 : Carried u (if c.state.seated = true then closeConsultOf c u else u) := by
        split
        · exact closeConsultOf_carried c u
        · exact .refl u
      exact .after (h1.trans h2) ((freeSlot_turn (hG i hi) _).andThen (settle_carried _))

theorem slotOfRequest_spec {s : State} {n : ReqNo} {i : SlotNo} {c : Call} {r : Request}
    (h : s.slotOfRequest n = some i) (hc : s.call i = some c) (hr : c.outstanding = some r) :
    r.number = n := by
  have := List.find?_some h
  rw [hc] at this
  simpa [hr] using this

theorem slotOfWatch_spec {s : State} {n : ReqNo} {i : SlotNo} (h : s.slotOfWatch n = some i) :
    ∃ c, s.call i = some c ∧ c.state = .ringing ∧ c.ringWatch = some n := by
  have := List.find?_some h
  cases hc : s.call i with
  | none => rw [hc] at this; cases this
  | some c => rw [hc] at this; simp only [Bool.and_eq_true, beq_iff_eq] at this; exact ⟨c, rfl, this⟩

/-- The record of a slot whose outstanding request r is DONE (R149). -/
def Call.acked (r : Request) (watch : Bool) (c : Call) : Call :=
  { c with
    confirmed := r.target
    outstanding := none
    ringWatch := if watch then some r.number else c.ringWatch }

/-- The slot's record after DONE: the ring watch begins where a RINGING call gets what it wants (R150). -/
def State.acked (s : State) (i : SlotNo) (c : Call) (r : Request) : State :=
  s.modCall i (·.acked r (r.target.isRing && c.state == .ringing && c.wanted == r.target))

theorem ackDone_eq (i : SlotNo) (c : Call) (r : Request) (s : State) :
    ackDone i c r s =
      if r.target.terminal && c.state == .departing then
        settle (freeSlot i (if r.target.isDeliver then bump .delivered (s.acked i c r) else s.acked i c r))
      else issue i (s.acked i c r) := rfl

theorem ackDone_turn {s : State} {i : SlotNo} {c : Call} {r : Request}
    (hG : c.state = .departing → r.target.terminal = true → G i) : Turn F G E s (ackDone i c r s) := by
  have h : Carried s (s.acked i c r) := .modCall i _ s fun _ _ =>
    ⟨rfl, rfl, rfl, rfl, fun h => ⟨h.score, h.age, h.offerAge⟩⟩
  rw [ackDone_eq]
  split
  · rename_i ht
    simp only [Bool.and_eq_true, beq_iff_eq] at ht
    refine .after ?_ ((freeSlot_turn (hG ht.2 ht.1) _).andThen (settle_carried _))
    split
    · exact h.trans (bump_carried _ _)
    · exact h
  · exact (h.trans (issue_carried i _)).turn

/-- The state in which the consequence of a failed request is taken (R151). -/
def State.failed (s : State) (i : SlotNo) (c : Call) (r : Request) : State :=
  (placeLow (.exception .pathFailed (r.number.setWidth 32) c.tag (BitVec.ofNat 32 i.val))
    (bump .pathFailures (s.modCall i (fun c => { c with outstanding := none })))).modCall i
    (fun c => { c with retryWait := true })

theorem ackFail_eq (i : SlotNo) (c : Call) (r : Request) (s : State) :
    ackFail i c r s = issue i (failConsequence i c r.target (s.failed i c r)) := rfl

theorem failed_carried (s : State) (i : SlotNo) (c : Call) (r : Request) : Carried s (s.failed i c r) := by
  unfold State.failed
  refine (((Carried.modCall i (fun c => { c with outstanding := none }) s fun _ _ => ?_).trans
    (bump_carried _ _)).trans (placeLow_carried _ _)).trans (.modCall i _ _ fun _ _ => ?_)
  · exact ⟨rfl, rfl, rfl, rfl, fun h => ⟨h.score, h.age, h.offerAge⟩⟩
  · exact ⟨rfl, rfl, rfl, rfl, fun h => ⟨h.score, h.age, h.offerAge⟩⟩

theorem failConsequence_turn {s : State} {i : SlotNo} {c : Call} {target : Conn}
    (hG : c.state = .departing → target = .drop → G i) :
    Turn F G E s (failConsequence i c target s) := by
  unfold failConsequence
  split
  case h_1 =>
    split
    · exact (recallNow_carried i _ s).turn
    · exact (Carried.refl s).turn
  case h_2 =>
    split
    · exact (recallNow_carried i _ s).turn
    · exact (Carried.refl s).turn
  case h_3 =>
    split
    · exact (recallNow_carried i _ s).turn
    · exact (Carried.refl s).turn
  case h_4 =>
    split
    · exact (Carried.modCall i (fun c => { c with wanted := .drop }) s fun _ _ =>
        ⟨rfl, rfl, rfl, rfl, fun h => ⟨h.score, h.age, h.offerAge⟩⟩).turn
    · exact (Carried.refl s).turn
  case h_5 =>
    split
    · rename_i hd; exact (freeSlot_turn (hG hd rfl) s).andThen (settle_carried _)
    · exact (Carried.refl s).turn
  case h_6 => exact (Carried.refl s).turn
  case h_7 => exact (Carried.refl s).turn

theorem setPhase_carried (p : PosNo) (r : Consult) (phase : Phase) (leg : Option ReqNo) (s : State) :
    Carried s (setPhase p r phase leg s) := .setPos p _ s (.inl rfl) fun h => .inl h

theorem legAck_carried (p : PosNo) (r : Consult) (n : ReqNo) (done : Bool) (s : State) :
    Carried s (legAck p r n done s) := by
  unfold legAck
  split
  · split
    · exact setPhase_carried _ _ _ _ s
    · exact ((setPhase_carried _ _ _ _ s).trans (bump_carried _ _)).trans (placeLow_carried _ _)
  · exact bump_carried _ s

/-- A PATH_ACK frees the slot of its number alone, DONE of a terminal target or FAIL of a DROP. -/
theorem pathAckReport_turn {s : State} (n : ReqNo) (done : Bool)
    (hG : ∀ i a r, s.call i = some a → a.outstanding = some r → r.number = n → a.state = .departing →
      (done = true ∧ r.target.terminal = true ∨ done = false ∧ r.target = .drop) → G i) :
    Turn F G E s (pathAckReport n done s) := by
  unfold pathAckReport
  split
  · rename_i i hi
    split
    · exact (Carried.refl s).turn
    · rename_i c hc
      split
      · exact (Carried.refl s).turn
      · rename_i r hr
        have hn := slotOfRequest_spec hi hc hr
        split
        · rename_i hd
          exact ackDone_turn fun hs ht => hG i c r hc hr hn hs (.inl ⟨hd, ht⟩)
        · rename_i hd
          rw [ackFail_eq]
          refine .after (failed_carried s i c r) (.andThen ?_ (issue_carried i _))
          exact failConsequence_turn fun hs ht => hG i c r hc hr hn hs (.inr ⟨by simpa using hd, ht⟩)
  · split
    · split
      · exact (Carried.refl s).turn
      · exact (legAck_carried _ _ _ _ s).turn
    · exact ((bump_carried _ s).trans (placeLow_carried _ _)).turn

/-- A LEG_STATE frees the slot of its ring watch alone, with ANSWERED. -/
theorem legReport_turn {s : State} (n : ReqNo) (v : LegReport)
    (hG : ∀ i a, s.call i = some a → a.state = .ringing → a.ringWatch = some n → v = .answered → G i) :
    Turn F G E s (legReport n v s) := by
  unfold legReport
  split
  · split
    · exact (Carried.refl s).turn
    · exact (setPhase_carried _ _ _ _ s).turn
  · split
    · rename_i i hi
      obtain ⟨a, ha, hst, hw⟩ := slotOfWatch_spec hi
      unfold watchReport
      split
      · exact .after (bump_carried _ s)
          ((freeSlot_turn (hG i a ha hst hw rfl) _).andThen (settle_carried _))
      · exact (recallNow_carried i _ s).turn
      · exact (recallNow_carried i _ s).turn
      · exact (Carried.refl s).turn
      · exact (Carried.refl s).turn
    · exact (bump_carried _ s).turn

theorem extFreeReport_carried (x : Ext) (s : State) : Carried s (extFreeReport x s) := by
  unfold extFreeReport
  split
  · exact ringAt_carried _ x s
  · exact placeDroppable_carried _ s

theorem pickupReport_carried (o : OrbitNo) (x : Ext) (s : State) : Carried s (pickupReport o x s) := by
  unfold pickupReport
  split
  · exact bump_carried _ s
  · exact depart_carried _ _ _ s

/-! ## The service state and the settings -/

theorem startOrder_turn (s : State) : Turn F G E s (startOrder s) := by
  unfold startOrder
  split
  · refine Turn.andThen (t := { s with
      service := .service, tickCount := 0, pointer := s.rangeFirst, passCount := 0 }) ?_
      (answerSwitch_carried _ _ _)
    refine .same (.of_settings rfl (fun _ => rfl) (fun hr _ => ⟨⟨hr.inRange, hr.freeSlots, hr.tags,
      hr.origins⟩, fun h => ?_, fun h => ?_⟩) fun _ h => h) (.of_eq rfl)
    · cases h
    · cases h
  · exact (answerSwitch_carried _ _ s).turn

/-- The state of an accepted STOP ORDERLY before the lead and the offers are judged again (R177). -/
def State.stopping (s : State) : State :=
  { s with staging := none, service := .standby, positions := s.positions.map closeOpenPosition }

theorem stopping_pos (s : State) (p : PosNo) : s.stopping.pos p = closeOpenPosition (s.pos p) := by
  simp [State.stopping, State.pos]

theorem closeOpenPosition_state (c : Position) : (closeOpenPosition c).state ≠ .opened := by
  unfold closeOpenPosition
  split
  · simp
  · assumption

theorem stopOrderlyNow_turn (s : State) : Turn F G E s (stopOrderlyNow s) := by
  have hclosed : Carried s { s with staging := none } :=
    { Carried.refl s with slots := .of_eq rfl, staging := fun _ he => by cases he }
  unfold stopOrderlyNow
  split
  · exact (hclosed.trans (answerSwitch_carried _ _ _)).turn
  · split
    · rename_i hall
      have hfree : ∀ i, s.call i = none := fun i => by
        have := List.all_eq_true.1 hall s.slots[i.val] (by simp)
        simpa [State.call] using this
      have h : Turn F G E s s.stopping := by
        refine .same (.of_settings rfl (fun p => ?_) (fun hr _ => ⟨⟨hr.inRange, hr.freeSlots, hr.tags,
          hr.origins⟩, fun _ => hfree, fun _ p => ?_⟩) fun _ h => by cases h) (.of_eq rfl)
        · rw [stopping_pos, closeOpenPosition]; split <;> rfl
        · rw [stopping_pos]; exact closeOpenPosition_state _
      exact h.andThen (((rejudgeGroup_carried _).trans (settle_carried _)).trans
        (answerSwitch_carried _ _ _))
    · exact (answerSwitch_carried _ _ s).turn

theorem stopOrder_turn (mode : Byte) (s : State) (hE : mode = 1 → E) : Turn F G E s (stopOrder mode s) := by
  unfold stopOrder
  split
  · exact stopOrderlyNow_turn s
  · split
    · rename_i h; exact (serviceReset_turn (hE h) true s).andThen (answerSwitch_carried _ _ _)
    · exact (answerSwitch_carried _ _ s).turn

theorem inStandby_turn {kind : Byte} {f : State → State} {s : State}
    (hf : s.service = .standby → Turn F G E s (f s)) : Turn F G E s (inStandby kind f s) := by
  unfold inStandby
  split
  · rename_i h; exact hf h
  · exact (answerSwitch_carried _ _ s).turn

theorem groupEntry_spec {s : State} {g : GroupNo} {valid bits : Byte} {base : Half} {cls : Byte}
    {night : Half} {e : Group} (h : groupEntry s g valid bits base cls night = some e) :
    e.valid = false ∨ e.base + 2 ^ e.bits ≤ 1024 ∧ rangeIsOpen s g e.base e.bits = true := by
  unfold groupEntry at h
  split at h
  · cases h
  · cases h; exact .inl rfl
  · cases h
  · split at h
    · rename_i hb
      cases h
      exact .inr hb.2.2
    · cases h

/-- An open range keeps the ranges of the valid groups in the table and apart (R21, R23). -/
theorem groupEntry_apart {s : State} {g : GroupNo} {e : Group} (hs : GroupsApart s.group)
    (he : e.valid = false ∨ e.base + 2 ^ e.bits ≤ 1024 ∧ rangeIsOpen s g e.base e.bits = true) :
    GroupsApart (State.group { s with groups := vset s.groups g e }) := by
  have hget : ∀ k, State.group { s with groups := vset s.groups g e } k = if g = k then e else s.group k :=
    fun k => by simp [State.group]
  -- the range of the new entry against that of another valid group
  have hopen : ∀ k, g ≠ k → e.valid = true → (s.group k).valid = true →
      e.base + 2 ^ e.bits ≤ (s.group k).base ∨ (s.group k).base + 2 ^ (s.group k).bits ≤ e.base := by
    intro k hk hv hvk
    rcases he with he | ⟨_, hr⟩
    · rw [he] at hv; cases hv
    · have := List.all_eq_true.1 hr k (List.mem_finRange k)
      simpa [Ne.symm hk, hvk, rangesDisjoint] using this
  refine ⟨fun k hk => ?_, fun k j hkj hk hj => ?_⟩
  · rw [hget] at hk ⊢
    split
    · rename_i h
      rw [if_pos h] at hk
      rcases he with he | he
      · rw [he] at hk; cases hk
      · exact he.1
    · rename_i h; rw [if_neg h] at hk; exact hs.origins k hk
  · rw [hget] at hk hj ⊢
    rw [hget]
    by_cases h1 : g = k
    · subst h1
      rw [if_pos rfl] at hk ⊢
      rw [if_neg hkj] at hj ⊢
      exact hopen j hkj hk hj
    · rw [if_neg h1] at hk ⊢
      by_cases h2 : g = j
      · subst h2
        rw [if_pos rfl] at hj ⊢
        exact (hopen k h1 hj hk).symm
      · rw [if_neg h2] at hj ⊢
        exact hs.disjoint k j hkj hk hj

theorem groupSetOrder_carried (group valid bits : Byte) (base : Half) (cls : Byte) (night : Half)
    (s : State) : Carried s (groupSetOrder group valid bits base cls night s) := by
  unfold groupSetOrder
  split
  · exact answerSwitch_carried _ _ s
  · split
    · exact answerSwitch_carried _ _ s
    · rename_i g e he
      refine Carried.trans ?_ (answerSwitch_carried _ _ _)
      exact { Carried.refl s with
        slots := .of_eq rfl, groups := fun hs => groupEntry_apart hs (groupEntry_spec he) }

theorem originSetOrder_carried (index : Half) (valid override : Byte) (label : Half) (s : State) :
    Carried s (originSetOrder index valid override label s) := by
  unfold originSetOrder
  split
  · refine Carried.trans ?_ (answerSwitch_carried _ _ _)
    refine { Carried.refl s with slots := .of_eq rfl, current := fun k => ?_ }
    simp only [State.origin, Fin.getElem_fin, vset_get]
    split
    · rename_i h; rw [h]
    · rfl
  · exact answerSwitch_carried _ _ s

theorem positionSetOrder_carried (subject value : Byte) (s : State) :
    Carried s (positionSetOrder subject value s) := by
  unfold positionSetOrder
  split
  · exact Carried.trans (t := setReportInterval value s) .of_same (answerSwitch_carried _ _ _)
  · split
    · rename_i p b _ _
      have h : Carried s (setEligible p b s) :=
        Carried.trans (t := s.setPos p { s.pos p with leadEligible := b })
          (.setPos p _ s (.inl rfl) fun h => .inl h) .of_same
      exact h.trans (answerSwitch_carried _ _ _)
    · exact answerSwitch_carried _ _ s

theorem timingSetOrder_carried (thin bit edge sw con : Byte) (s : State) :
    Carried s (timingSetOrder thin bit edge sw con s) :=
  Carried.trans (t := { s with
      thinOut := clampTo 1 128 thin.toNat
      pulseCount := 0
      stepBit := clampTo 0 11 bit.toNat
      stepEdge := edgeArg edge
      switchLossLimit := lossLimitArg sw
      consoleLossLimit := lossLimitArg con }) .of_same (answerSwitch_carried _ _ _)

/-- A change of the range in STANDBY is safe because every slot is FREE (R161, R175). -/
theorem rangeSetOrder_turn (first last : Half) (s : State) (hs : s.service = .standby) :
    Turn F G E s (rangeSetOrder first last s) := by
  unfold rangeSetOrder
  split
  · refine Turn.andThen ?_ (answerSwitch_carried _ _ _)
    refine .same (.of_settings rfl (fun _ => rfl) (fun hr hst => ?_) fun _ h => h) (.of_eq rfl)
    have hfree := hst.free hs
    refine ⟨⟨fun i c hc => ?_, ?_, hr.tags, hr.origins⟩, hst.free, hst.shut⟩
    · exact absurd ((hfree i).symm.trans hc) (by simp)
    · rw [freeInRange_of_free (s := { s with
        rangeFirst := ⟨first.toNat, _⟩, rangeLast := ⟨last.toNat, _⟩,
        freeSlots := last.toNat + 1 - first.toNat, pointer := ⟨first.toNat, _⟩ }) hfree]
      rfl
  · exact (answerSwitch_carried _ _ s).turn

theorem closeStaging_carried (s : State) : Carried s { s with staging := none } :=
  { Carried.refl s with slots := .of_eq rfl, staging := fun _ he => by cases he }

theorem planHoldOrder_carried (s : State) : Carried s (planHoldOrder s) := by
  unfold planHoldOrder
  split
  · refine Carried.trans (t := { s with staging := some [] }) ?_ (answerSwitch_carried _ _ _)
    refine { Carried.refl s with slots := .of_eq rfl, staging := fun es he => .inr ?_ }
    cases he; exact Nat.zero_le _
  · exact answerSwitch_carried _ _ s

theorem planWriteOrder_carried (target field : Byte) (value : Half) (s : State) :
    Carried s (planWriteOrder target field value s) := by
  unfold planWriteOrder
  split
  · exact answerSwitch_carried _ _ s
  · split
    · split
      · exact answerSwitch_carried _ _ s
      · rename_i edits _ hroom
        refine Carried.trans ?_ (answerSwitch_carried _ _ _)
        refine { Carried.refl s with slots := .of_eq rfl, staging := fun es he => .inr ?_ }
        cases he
        rw [List.length_append]
        exact Nat.lt_of_not_le hroom
    · split
      · unfold writeNow
        dsimp only
        split
        · exact (Carried.trans .of_same (answerSwitch_carried _ _ _)).trans (replan_carried _)
        · exact answerSwitch_carried _ _ s
      · exact answerSwitch_carried _ _ s

theorem planReleaseOrder_carried (s : State) : Carried s (planReleaseOrder s) := by
  unfold planReleaseOrder
  split
  · exact answerSwitch_carried _ _ s
  · dsimp only
    split
    · refine (Carried.trans (Carried.trans (closeStaging_carried s) ?_)
        (answerSwitch_carried _ _ _)).trans (replan_carried _)
      exact .of_same
    · exact (closeStaging_carried s).trans (answerSwitch_carried _ _ _)

theorem planAbandonOrder_carried (s : State) : Carried s (planAbandonOrder s) := by
  unfold planAbandonOrder
  split
  · exact answerSwitch_carried _ _ s
  · exact (closeStaging_carried s).trans (answerSwitch_carried _ _ _)

theorem planSelectOrder_carried (selection : Byte) (s : State) : Carried s (planSelectOrder selection s) := by
  unfold planSelectOrder
  split
  · exact answerSwitch_carried _ _ s
  · exact (Carried.trans .of_same (answerSwitch_carried _ _ _)).trans (replan_carried _)

theorem setNight_carried (v : NightSetting) (s : State) : Carried s (setNight v s) := by
  unfold setNight
  dsimp only
  split
  · exact .of_same
  · exact Carried.trans .of_same (settle_carried _)

theorem nightOrder_carried (value : Byte) (s : State) : Carried s (nightOrder value s) := by
  unfold nightOrder
  split
  · exact answerSwitch_carried _ _ s
  · exact (answerSwitch_carried _ _ s).trans (setNight_carried _ _)

theorem countersReadOrder_carried (clear : Byte) (s : State) : Carried s (countersReadOrder clear s) := by
  unfold countersReadOrder
  split
  · exact answerSwitch_carried _ _ s
  · rename_i b _
    unfold countersAnswer
    dsimp only
    have h : Carried s (if b = true then clearCounters s else s) := by
      split
      · exact .of_same
      · exact .refl s
    split
    · rename_i hroom
      refine Carried.trans h ?_
      generalize hu : (if b = true then clearCounters s else s) = u at h
      have hl : u.txList = s.txList := by rw [← hu]; split <;> rfl
      refine .setTxList u _ fun _ => ?_
      simp only [State.freeEntries] at hroom
      simp only [List.length_append, counterFrames, List.length_cons, List.length_nil]; omega
    · exact h.trans (bump_carried _ _)

/-! ## Orders of the consoles -/

theorem selectOrder_turn {p : PosNo} {s : State} (seq selection : Byte) (h : s.resultsPending p < 8) :
    Turn F G E s (selectOrder p seq selection s) := by
  unfold selectOrder
  split
  · split
    · exact answerConsole_turn p _ _ _ _ h
    · rename_i v _
      refine .andThen ?_ (replan_carried _)
      exact .after (t := { s with selection := v }) .of_same (answerConsole_turn p _ _ _ _ h)
  · exact answerConsole_turn p _ _ _ _ h

theorem nightConsoleOrder_turn {p : PosNo} {s : State} (seq value : Byte) (h : s.resultsPending p < 8) :
    Turn F G E s (nightConsoleOrder p seq value s) := by
  unfold nightConsoleOrder
  split
  · split
    · exact answerConsole_turn p _ _ _ _ h
    · exact (answerConsole_turn p _ _ _ _ h).andThen (setNight_carried _ _)
  · exact answerConsole_turn p _ _ _ _ h

theorem openTaken_carried (p : PosNo) (s : State) (hs : s.service = .service) :
    Carried s (openTaken p s) := by
  unfold openTaken
  dsimp only
  split
  · exact clearMisses_carried p s
  · exact (((clearMisses_carried p s).trans (setPosState_carried p .opened .opened _
      (.inr hs))).trans (rejudgeGroup_carried _)).trans (settle_carried _)

theorem closeTaken_carried (p : PosNo) (s : State) : Carried s (closeTaken p s) := by
  unfold closeTaken
  split
  · exact (((withdrawAt_carried p s).trans (setPosState_carried p .closed .closed _
      (.inl (by decide)))).trans (rejudgeGroup_carried _)).trans (settle_carried _)
  · exact .refl s

theorem answerTaken_carried (p : PosNo) (l : LoopNo) (i : SlotNo) (s : State) :
    Carried s (answerTaken p l i s) := by
  have h := endOffers_carried i s
  unfold answerTaken
  generalize endOffers i s = u at h ⊢
  have hleft : Carried u { u with available := u.available.filter (· != p) } := .of_same
  exact (((((h.trans hleft).trans (seat_carried p l i true _)).trans
    (clearMisses_carried p _)).trans (bump_carried _ _)).trans (settle_carried _))

theorem openOrder_turn {p : PosNo} {s : State} (seq : Byte) (h : s.resultsPending p < 8) :
    Turn F G E s (openOrder p seq s) := by
  unfold openOrder
  split
  · exact answerConsole_turn p _ _ _ _ h
  · rename_i hs
    have hservice : s.service = .service := by
      cases hx : s.service with
      | standby => exact absurd hx hs
      | service => rfl
    exact (answerConsole_turn p _ _ _ _ h).andThen (openTaken_carried p _ hservice)

theorem closeOrder_turn {p : PosNo} {s : State} (seq : Byte) (h : s.resultsPending p < 8) :
    Turn F G E s (closeOrder p seq s) :=
  (answerConsole_turn p _ _ _ _ h).andThen (closeTaken_carried p _)

theorem answerOrder_turn {p : PosNo} {s : State} (seq loop slot : Byte) (h : s.resultsPending p < 8) :
    Turn F G E s (answerOrder p seq loop slot s) := by
  unfold answerOrder
  split
  · exact answerConsole_turn p _ _ _ _ h
  · exact (answerConsole_turn p _ _ _ _ h).andThen (answerTaken_carried p _ _ _)

theorem pickOrder_turn {p : PosNo} {s : State} (seq slot loop : Byte) (h : s.resultsPending p < 8) :
    Turn F G E s (pickOrder p seq slot loop s) := by
  unfold pickOrder
  split
  · exact answerConsole_turn p _ _ _ _ h
  · rename_i l i _
    exact (answerConsole_turn p _ _ _ _ h).andThen ((((endOffers_carried i _).trans
      (seat_carried p l i true _)).trans (bump_carried _ _)).trans (settle_carried _))

theorem holdOrder_turn {p : PosNo} {s : State} (seq loop : Byte) (h : s.resultsPending p < 8) :
    Turn F G E s (holdOrder p seq loop s) := by
  unfold holdOrder
  split
  · exact answerConsole_turn p _ _ _ _ h
  · exact (answerConsole_turn p _ _ _ _ h).andThen (holdSeated_carried _ _)

theorem returnOrder_turn {p : PosNo} {s : State} (seq loop : Byte) (h : s.resultsPending p < 8) :
    Turn F G E s (returnOrder p seq loop s) := by
  unfold returnOrder
  split
  · exact answerConsole_turn p _ _ _ _ h
  · exact (answerConsole_turn p _ _ _ _ h).andThen (talkAgain_carried _ _ _ _)

theorem releaseOrder_turn {p : PosNo} {s : State} (seq loop : Byte) (h : s.resultsPending p < 8) :
    Turn F G E s (releaseOrder p seq loop s) := by
  unfold releaseOrder
  split
  · exact answerConsole_turn p _ _ _ _ h
  · exact (answerConsole_turn p _ _ _ _ h).andThen
      (((depart_carried _ _ _ _).trans (bump_carried _ _)).trans (settle_carried _))

theorem parkOrder_turn {p : PosNo} {s : State} (seq loop orbit : Byte) (h : s.resultsPending p < 8) :
    Turn F G E s (parkOrder p seq loop orbit s) := by
  unfold parkOrder
  split
  · exact answerConsole_turn p _ _ _ _ h
  · exact (answerConsole_turn p _ _ _ _ h).andThen ((parkCall_carried _ _ _).trans (settle_carried _))

theorem retrieveOrder_turn {p : PosNo} {s : State} (seq orbit loop : Byte) (h : s.resultsPending p < 8) :
    Turn F G E s (retrieveOrder p seq orbit loop s) := by
  unfold retrieveOrder
  split
  · exact answerConsole_turn p _ _ _ _ h
  · exact (answerConsole_turn p _ _ _ _ h).andThen ((seat_carried _ _ _ _ _).trans (settle_carried _))

theorem consultTaken_carried (p : PosNo) (l : LoopNo) (i : SlotNo) (x : Ext) (s : State) :
    Carried s (consultTaken p l i x s) := by
  unfold consultTaken
  dsimp only
  refine ((Carried.trans ?_ (placeTested_carried _ _)).trans (holdSeated_carried i _)).trans
    (settle_carried _)
  exact Carried.trans (t := { s with reqCounter := s.nextNumber }) .of_same
    (.setPos p _ _ (.inl rfl) fun h => .inl h)

theorem consultOrder_turn {p : PosNo} {s : State} (seq loop : Byte) (x : Ext)
    (h : s.resultsPending p < 8) : Turn F G E s (consultOrder p seq loop x s) := by
  unfold consultOrder
  split
  · exact answerConsole_turn p _ _ _ _ h
  · exact (answerConsole_turn p _ _ _ _ h).andThen (consultTaken_carried _ _ _ _ _)

theorem sendOrder_turn {p : PosNo} {s : State} (seq loop : Byte) (x : Ext)
    (h : s.resultsPending p < 8) : Turn F G E s (sendOrder p seq loop x s) := by
  unfold sendOrder
  split
  · exact answerConsole_turn p _ _ _ _ h
  · exact (answerConsole_turn p _ _ _ _ h).andThen ((ringAt_carried _ _ _).trans (settle_carried _))

theorem joinOrder_turn {p : PosNo} {s : State} (seq loop : Byte) (h : s.resultsPending p < 8) :
    Turn F G E s (joinOrder p seq loop s) := by
  have hscreened : ∀ i r, Turn F G E s
      (joinScreened p i r (answerConsole p seq Kind.join .accepted none s)) := fun i r =>
    (answerConsole_turn p _ _ _ _ h).andThen
      (((closeConsult_carried p _ _).trans (depart_carried _ _ _ _)).trans (settle_carried _))
  have hunscreened : ∀ i r, Turn F G E s
      (joinUnscreened p i r (answerConsole p seq Kind.join .accepted none s)) := fun i r =>
    (answerConsole_turn p _ _ _ _ h).andThen
      (((closeConsult_carried p _ _).trans (ringAt_carried _ _ _)).trans (settle_carried _))
  unfold joinOrder
  split
  · exact answerConsole_turn p _ _ _ _ h
  · dsimp only
    split
    case h_1 => exact hscreened _ _
    case h_2 => exact hunscreened _ _
    case h_3 => exact hunscreened _ _
    case h_4 => exact answerConsole_turn p _ _ _ _ h
    case h_5 => exact answerConsole_turn p _ _ _ _ h
    case h_6 => exact answerConsole_turn p _ _ _ _ h
    case h_7 => exact answerConsole_turn p _ _ _ _ h

theorem cancelOrder_turn {p : PosNo} {s : State} (seq loop : Byte) (h : s.resultsPending p < 8) :
    Turn F G E s (cancelOrder p seq loop s) := by
  unfold cancelOrder
  split
  · exact answerConsole_turn p _ _ _ _ h
  · exact (answerConsole_turn p _ _ _ _ h).andThen
      (((closeConsult_carried p _ _).trans (talkAgain_carried _ _ _ _)).trans (settle_carried _))

theorem campOrder_turn {p : PosNo} {s : State} (seq loop : Byte) (h : s.resultsPending p < 8) :
    Turn F G E s (campOrder p seq loop s) := by
  unfold campOrder
  split
  · exact answerConsole_turn p _ _ _ _ h
  · split
    · exact answerConsole_turn p _ _ _ _ h
    · exact (answerConsole_turn p _ _ _ _ h).andThen
        ((((openCamp_carried _ _).trans (closeConsult_carried p _ _)).trans
          (campCall_carried _ _ _)).trans (settle_carried _))

/-! ## The rows of the links -/

theorem idle_turn {l : Link} {len : Nat} {s t : State} (h : execIdle l len s = .next t) :
    Turn F G E s t := by
  refine unlessHeld_turn h (.after (receive_carried l s) ?_)
  dsimp only
  split
  · exact (Carried.refl _).turn
  · exact (bump_carried _ _).turn

theorem otherKindFrame_turn {l : Link} {kind : Byte} {s t : State}
    (h : execOtherKindFrame l kind s = .next t) : Turn F G E s t := by
  refine unlessHeld_turn h (.after (receive_carried l s) ?_)
  dsimp only
  split
  · exact (bump_carried _ _).turn
  · exact (Carried.refl _).turn

theorem consoleNoticeSent_turn {p : PosNo} {s t : State} (h : execConsoleNoticeSent p s = .next t) :
    Turn F G E s t := by
  refine unlessHeld_turn h (Carried.turn (Carried.trans (.setConsole p _ s ?_ fun hn => ?_)
    (.setLink _ _ _)))
  · exact ((List.drop_sublist 1 _).filter _).length_le
  · exact hn.sublist ((List.drop_sublist 1 _).filterMap _)

/-- The part's own events that are single actions. -/
theorem ownAction_turn {f : State → State} {s t : State} (h : unlessHeld (act f) s = .next t)
    (hf : Carried s (f s)) : Turn F G E s t :=
  unlessHeld_turn h (act_carried hf).turn

end

/-! ## Every command -/

theorem linkLost_turn {l : Link} {s t : State} (h : execLinkLost l s = .next t) :
    Turn (Fills (.linkLost l) s) (Frees (.linkLost l) s) (Empties (.linkLost l) s) s t := by
  refine unlessHeld_turn h ?_
  split
  · rename_i hup
    refine act_turn (Sweeping.turn (linkLoss_sweeping l s fun hl hs => ?_))
    subst hl
    exact .inr (.inr (.inr (.inr (.inr (.inl ⟨rfl, hs, hup⟩)))))
  · exact (Carried.refl s).turn

theorem tick_turn {c : Instr} (hc : c = .tickPulse ∨ c = .countedTick) (s : State) :
    Turn (Fills c s) (Frees c s) (Empties c s) s (countedTick s) := by
  have h := countedTick_sweeping s
  cases h with
  | same laws slots => exact .same laws slots
  | filled _ _ why => exact why.elim
  | freed _ _ why => exact why.elim
  | emptied laws why now =>
    exact .emptied laws (.inr (.inr (.inr (.inr (.inr (.inr ⟨hc, why⟩)))))) now

theorem tickPulse_turn {s t : State} (h : execTickPulse s = .next t) :
    Turn (Fills .tickPulse s) (Frees .tickPulse s) (Empties .tickPulse s) s t := by
  refine unlessHeld_turn h ?_
  split
  · exact Carried.turn .of_same
  · exact tick_turn (.inl rfl) s

/-- What any command does to the Call Register. -/
theorem exec_turn {c : Instr} {s t : State} (h : exec c s = .next t) :
    Turn (Fills c s) (Frees c s) (Empties c s) s t := by
  cases c with
  | powerOnReset r =>
    cases h
    exact .emptied (powerOnState_lawsKept r false s) (.inr (.inr (.inr (.inl ⟨r, rfl⟩))))
      (powerOnState_call _ _ _)
  | resetAsserted =>
    cases h
    exact .emptied (powerOnState_lawsKept _ true s) (.inr (.inr (.inr (.inr (.inl rfl)))))
      (powerOnState_call _ _ _)
  | tickPulse => exact tickPulse_turn h
  | countedTick => exact unlessHeld_turn h (tick_turn (.inr rfl) s)
  | linkLost l => exact linkLost_turn h
  | frameAbandoned l => exact unlessHeld_turn h (abandonFrame_carried l s).turn
  | badFrames l bytes =>
    refine unlessHeld_turn h ?_
    dsimp only
    split
    · exact ((Carried.setLink l _ s).trans (bump_carried _ _)).turn
    · exact (Carried.refl s).turn
  | idle l len => exact idle_turn h
  | otherKindFrame l kind => exact otherKindFrame_turn h
  | leadByteReceived l =>
    refine unlessHeld_turn h ?_
    dsimp only
    split
    · exact (Carried.setLink l _ s).turn
    · exact (Carried.refl s).turn
  | switchFrameSent =>
    refine unlessHeld_turn h ?_
    unfold switchFrameDone
    split
    · exact Carried.turn .of_same
    · exact (Carried.setTxList s _ fun hl => by rw [List.length_drop]; omega).turn
  | consoleNoticeSent p => exact consoleNoticeSent_turn h
  | arrive len tag g k =>
    refine switchOrder_turn h fun hl => arriveDecision_turn tag g k fun i hs hi => ?_
    cases hl
    exact ⟨tag, g, k, rfl, by simpa [receive_switch] using hs, by
      simpa [receive_switch, State.lowestFree, State.inRange] using hi⟩
  | gone len tag =>
    refine switchOrder_turn h fun hl => goneReport_turn tag fun i hi => ?_
    cases hl
    exact .inl ⟨tag, rfl, hi⟩
  | pathAck len n v =>
    refine switchOrder_turn h fun hl => ?_
    cases hl
    split
    · exact (bump_carried _ _).turn
    · rename_i done hv
      have hv' : v = if done = true then 0 else 1 := by
        unfold outcomeArg at hv
        split at hv
        · cases hv; assumption
        · split at hv
          · cases hv; assumption
          · cases hv
      refine pathAckReport_turn n done fun i a r ha hr hn hs hw => .inr (.inl
        ⟨a, r, v, by simpa [receive_switch] using ha, by rw [hn], hr, hs, ?_⟩)
      rcases hw with ⟨rfl, ht⟩ | ⟨rfl, ht⟩
      · exact .inl ⟨hv', ht⟩
      · exact .inr ⟨hv', ht⟩
  | legState len n v =>
    refine switchOrder_turn h fun hl => ?_
    cases hl
    split
    · exact (bump_carried _ _).turn
    · rename_i w hw
      refine legReport_turn n w fun i a ha hs hr hans => .inr (.inr
        ⟨a, n, by simpa [receive_switch] using ha, ?_, hs, hr⟩)
      subst hans
      have : v = 2 := by
        unfold legReportArg at hw
        split at hw
        · cases hw
        · split at hw
          · assumption
          · split at hw
            · cases hw
            · split at hw
              · cases hw
              · split at hw <;> cases hw
      rw [this]
  | extFree len x =>
    refine switchOrder_turn h fun _ => ?_
    split
    · exact (extFreeReport_carried _ _).turn
    · exact (bump_carried _ _).turn
  | pickup len o x =>
    refine switchOrder_turn h fun _ => ?_
    split
    · exact (bump_carried _ _).turn
    · split
      · exact (pickupReport_carried _ _ _).turn
      · exact (bump_carried _ _).turn
  | start len => exact switchOrder_turn h fun _ => startOrder_turn _
  | stopOrderly len mode =>
    refine switchOrder_turn h fun hl => stopOrder_turn mode _ fun hm => ?_
    cases hl; subst hm
    exact .inr (.inl rfl)
  | stopForced len =>
    refine switchOrder_turn h fun hl => stopOrder_turn 1 _ fun _ => ?_
    cases hl
    exact .inl rfl
  | restart len =>
    refine switchOrder_turn h fun hl => ?_
    cases hl
    exact (serviceReset_turn (.inr (.inr (.inl rfl))) false _).andThen (answerSwitch_carried _ _ _)
  | groupSet len g v b x k n =>
    exact switchOrder_turn h fun _ => inStandby_turn fun _ => (groupSetOrder_carried _ _ _ _ _ _ _).turn
  | originSet len x v o l =>
    exact switchOrder_turn h fun _ => inStandby_turn fun _ => (originSetOrder_carried _ _ _ _ _).turn
  | positionSetLeadEligible len x v =>
    exact switchOrder_turn h fun _ => inStandby_turn fun _ => (positionSetOrder_carried _ _ _).turn
  | positionSetReportInterval len v =>
    exact switchOrder_turn h fun _ => inStandby_turn fun _ => (positionSetOrder_carried _ _ _).turn
  | timingSet len a b x y z =>
    exact switchOrder_turn h fun _ => inStandby_turn fun _ => (timingSetOrder_carried _ _ _ _ _ _).turn
  | rangeSet len a b =>
    exact switchOrder_turn h fun _ => inStandby_turn fun hs => rangeSetOrder_turn a b _ hs
  | planHold len => exact switchOrder_turn h fun _ => (planHoldOrder_carried _).turn
  | planWrite len a b v => exact switchOrder_turn h fun _ => (planWriteOrder_carried _ _ _ _).turn
  | planRelease len => exact switchOrder_turn h fun _ => (planReleaseOrder_carried _).turn
  | planAbandon len => exact switchOrder_turn h fun _ => (planAbandonOrder_carried _).turn
  | planSelect len v => exact switchOrder_turn h fun _ => (planSelectOrder_carried _ _).turn
  | select p len q v => exact consoleOrder_turn h fun _ hr => selectOrder_turn q v hr
  | night len v => exact switchOrder_turn h fun _ => (nightOrder_carried _ _).turn
  | nightConsole p len q v => exact consoleOrder_turn h fun _ hr => nightConsoleOrder_turn q v hr
  | countersRead len v => exact switchOrder_turn h fun _ => (countersReadOrder_carried _ _).turn
  | statusRead len => exact switchOrder_turn h fun _ => (placeAnswer_carried _ _).turn
  | openPosition p len q => exact consoleOrder_turn h fun _ hr => openOrder_turn q hr
  | closePosition p len q => exact consoleOrder_turn h fun _ hr => closeOrder_turn q hr
  | answer p len q l i => exact consoleOrder_turn h fun _ hr => answerOrder_turn q l i hr
  | pick p len q i l => exact consoleOrder_turn h fun _ hr => pickOrder_turn q i l hr
  | hold p len q l => exact consoleOrder_turn h fun _ hr => holdOrder_turn q l hr
  | returnCall p len q l => exact consoleOrder_turn h fun _ hr => returnOrder_turn q l hr
  | release p len q l => exact consoleOrder_turn h fun _ hr => releaseOrder_turn q l hr
  | park p len q l o => exact consoleOrder_turn h fun _ hr => parkOrder_turn q l o hr
  | retrieve p len q o l => exact consoleOrder_turn h fun _ hr => retrieveOrder_turn q o l hr
  | consult p len q l x => exact consoleOrder_turn h fun _ hr => consultOrder_turn q l x hr
  | join p len q l => exact consoleOrder_turn h fun _ hr => joinOrder_turn q l hr
  | cancel p len q l => exact consoleOrder_turn h fun _ hr => cancelOrder_turn q l hr
  | camp p len q l => exact consoleOrder_turn h fun _ hr => campOrder_turn q l hr
  | send p len q l x => exact consoleOrder_turn h fun _ hr => sendOrder_turn q l x hr
  | sweepVisit =>
    refine unlessHeld_turn h ?_
    split
    · exact (act_carried (sweepStep_carried s)).turn
    · exact (Carried.refl s).turn
  | waitLimitRouting i => exact ownAction_turn h (waitLimitCheck_carried i s)
  | offerExpiry i =>
    refine ownAction_turn h ?_
    split
    · exact offerExpiryCheck_carried i s
    · exact .refl s
  | holdReminder i => exact ownAction_turn h (holdReminderCheck_carried i s)
  | holdRecall i => exact ownAction_turn h (holdRecallCheck_carried i s)
  | parkExpiry i => exact ownAction_turn h (parkCheck_carried i s)
  | ringExpiry i => exact ownAction_turn h (ringCheck_carried i s)
  | campExpiry i => exact ownAction_turn h (campCheck_carried i s)
  | reportIntervalEnd =>
    refine ownAction_turn h ?_
    split
    · exact reportEnd_carried s
    · exact .refl s

/-! ## The step -/

/-- A step is idle or takes the front command with the rest of the queue. -/
theorem step_cases {s t : State} (h : step s = .next t) :
    t = s ∨ ∃ c rest, s.pending = c :: rest ∧ exec c { s with pending := rest } = .next t := by
  unfold step at h
  split at h
  · cases h; exact .inl rfl
  · rename_i c rest hp; exact .inr ⟨c, rest, hp, h⟩

theorem step_lawsKept {s t : State} (h : step s = .next t) : LawsKept s t := by
  rcases step_cases h with rfl | ⟨c, rest, _, he⟩
  · exact (Carried.refl t).lawsKept
  · exact (Carried.lawsKept .of_same).trans (exec_turn he).laws

end Sys2Proof.Machine

open Sys2Proof Sys2Proof.Machine

/-- Settles O6: every operation carries the ranges and the capacities over. -/
theorem rangeLawKept : Obligations.RangeLawKept :=
  ⟨fun _ _ hs h => (step_lawsKept h).range hs, fun _ _ hs h => (step_lawsKept h).capacity hs⟩

/-- Settles O7: the laws of the register are kept by what a command does to the slots. -/
theorem registerLawKept : Obligations.RegisterLawKept :=
  fun _ _ hr hs h => (step_lawsKept h).register hr hs

/-- Settles O19, by what a command can do to the slots. -/
theorem callsKept : Obligations.CallsKept := by
  refine ⟨fun c s t i a b h ha hb => ?_, fun c s t i h hs ht => ?_, fun c s t i a h ha ht => ?_⟩
  · have hcarried : Option.Rel CallCarried (s.call i) (t.call i) →
        b.tag = a.tag ∧ b.origin = a.origin ∧ b.cls = a.cls ∧ b.label = a.label := by
      intro hrel
      rw [ha, hb] at hrel
      cases hrel with
      | some k => exact ⟨k.tag, k.origin, k.cls, k.label⟩
    cases exec_turn h with
    | same _ slots => exact hcarried (slots i)
    | emptied _ _ now => rw [now i] at hb; cases hb
    | filled _ j _ was others =>
      refine hcarried (others i ?_)
      rintro rfl; rw [was] at ha; cases ha
    | freed _ j _ now others =>
      refine hcarried (others i ?_)
      rintro rfl; rw [now] at hb; cases hb
  · have hkept : ¬ Option.Rel CallCarried (s.call i) (t.call i) := by
      intro hrel
      rw [hs] at hrel
      generalize t.call i = o at hrel ht
      cases hrel; exact ht rfl
    cases exec_turn h with
    | same _ slots => exact absurd (slots i) hkept
    | emptied _ _ now => exact absurd (now i) ht
    | filled _ j why _ others =>
      by_cases hj : j = i
      · subst hj; exact why
      · exact absurd (others i hj) hkept
    | freed _ j _ now others =>
      refine absurd (others i ?_) hkept
      rintro rfl; exact ht now
  · have hkept : ¬ Option.Rel CallCarried (s.call i) (t.call i) := by
      intro hrel
      rw [ha, ht] at hrel
      cases hrel
    cases exec_turn h with
    | same _ slots => exact absurd (slots i) hkept
    | emptied _ why _ => exact .inr (.inr (.inr why))
    | filled _ j _ was others =>
      refine absurd (others i ?_) hkept
      rintro rfl; rw [was] at ha; cases ha
    | freed _ j why now others =>
      by_cases hj : j = i
      · subst hj
        rcases why with ⟨tag, hc, hl⟩ | ⟨b, r, v, hb, hc, hr, hs, hv⟩ | ⟨b, n, hb, hc, hs, hw⟩
        · refine .inl ⟨tag, hc, hl, fun hreg => ?_⟩
          obtain ⟨d, hd, hdt⟩ := (hreg.tags tag j).1 hl
          rw [ha] at hd; cases hd; exact hdt
        · rw [ha] at hb; cases hb
          exact .inr (.inl ⟨r, v, hc, hr, hs, hv⟩)
        · rw [ha] at hb; cases hb
          exact .inr (.inr (.inl ⟨n, hc, hs, hw⟩))
      · exact absurd (others i hj) hkept
end

section
/-! PROOFS. The law of R9 and the laws that go with it (R58, R76, R97, R124, R136), as one predicate with a
scope, and the operations that touch no collection. -/
namespace Sys2Proof.Machine

/-! ## The laws together -/

/-- Which of the laws are asked: HomesLaw, OfferLaw and TalkLaw or not, the positions whose consult is
judged, and the slots whose offer has to be held by a position. Within an action a position or a slot is
out of scope for a while. -/
structure Scope where
  homes : Prop
  offers : Prop
  talk : Prop
  consults : PosNo → Prop
  held : SlotNo → Prop

/-- The law of the offers (R76) in a mode, with the slots whose offer has to be held. -/
structure OffersIn (m : Mode) (held : SlotNo → Prop) (s : State) : Prop where
  single : m = .single → ∀ p i c, (s.pos p).offer = some i → s.call i = some c → c.offer = some (.one p)
  alone : m = .single → ∀ p q i, (s.pos p).offer = some i → (s.pos q).offer = some i → p = q
  common : m = .common → ∀ p i c, (s.pos p).offer = some i → s.call i = some c → c.offer = some .all
  held : ∀ i c, held i → s.call i = some c → c.state = .offered → ∃ p, (s.pos p).offer = some i
  others : ∀ i c, s.call i = some c → c.state ≠ .offered → c.offer = none

/-- The collections hold exactly the calls that name them, with the laws that the scope asks for. -/
structure Lawful (k : Scope) (s : State) : Prop where
  loops : ∀ p l i, ((s.pos p).loop l).slot = some i ↔
    ∃ c, s.call i = some c ∧ c.state.seated = true ∧ c.isHomeAt p l = true
  orbits : ∀ o i, s.orbitSlot o = some i ↔ ∃ c, s.call i = some c ∧ c.state = .parked ∧ c.orbit = some o
  offered : ∀ p i, (s.pos p).offer = some i → ∃ c, s.call i = some c ∧ c.state = .offered
  consults : ∀ p r, k.consults p → (s.pos p).consult = some r → ∃ i c,
    ((s.pos p).loop r.loop).slot = some i ∧ s.call i = some c ∧ c.state = .held
  queue : s.QueueLaw
  camps : s.CampLaw
  homes : k.homes → s.HomesLaw
  offers : k.offers → OffersIn s.eff.mode k.held s
  talk : k.talk → s.TalkLaw

/-- Every position and every slot in scope, as between actions. -/
def Scope.full (homes offers talk : Prop) : Scope :=
  { homes := homes, offers := offers, talk := talk, consults := fun _ => True, held := fun _ => True }

theorem lawful_full_iff (homes offers talk : Prop) (s : State) :
    Lawful (.full homes offers talk) s ↔ s.PlacesLaw ∧ s.QueueLaw ∧ s.CampLaw ∧
      (homes → s.HomesLaw) ∧ (offers → s.OfferLaw) ∧ (talk → s.TalkLaw) :=
  ⟨fun h => ⟨⟨h.loops, h.orbits, h.offered, fun p r => h.consults p r trivial⟩, h.queue, h.camps, h.homes,
      fun ho => have k := h.offers ho
        ⟨k.single, k.alone, k.common, fun i c => k.held i c trivial, k.others⟩, h.talk⟩,
    fun ⟨hp, hq, hc, hh, ho, ht⟩ => ⟨hp.loops, hp.orbits, hp.offers, fun p r _ => hp.consults p r, hq, hc,
      hh, fun hx => have k := ho hx
        ⟨k.single, k.alone, k.common, fun i c _ => k.held i c, k.others⟩, ht⟩⟩

/-- The scope without the consult of position p. -/
def Scope.without (k : Scope) (p : PosNo) : Scope := { k with consults := fun q => k.consults q ∧ q ≠ p }

/-- The scope without the offer of slot i. -/
def Scope.sparing (k : Scope) (i : SlotNo) : Scope := { k with held := fun j => k.held j ∧ j ≠ i }

section
variable {k : Scope} {s t : State}

theorem Lawful.without (h : Lawful k s) (p : PosNo) : Lawful (k.without p) s :=
  { h with consults := fun q r hq => h.consults q r hq.1 }

/-- The consult of the position comes back into the scope where its loop holds a HELD call. -/
theorem Lawful.within {p : PosNo} (h : Lawful (k.without p) s)
    (hp : ∀ r, (s.pos p).consult = some r → ∃ i c,
      ((s.pos p).loop r.loop).slot = some i ∧ s.call i = some c ∧ c.state = .held) : Lawful k s :=
  { h with
    consults := fun q r hq hr => by
      by_cases hqp : q = p
      · subst hqp; exact hp r hr
      · exact h.consults q r ⟨hq, hqp⟩ hr }

theorem Lawful.sparing (h : Lawful k s) (i : SlotNo) : Lawful (k.sparing i) s :=
  { h with offers := fun ho => { h.offers ho with held := fun j c hj => (h.offers ho).held j c hj.1 } }

/-! ## What the laws say of one call -/

/-- No position offers the slot. -/
def State.NoOffer (s : State) (i : SlotNo) : Prop := ∀ p, (s.pos p).offer ≠ some i

/-- No consult in scope is open on the loop of the slot. -/
def State.NoConsult (s : State) (k : Scope) (i : SlotNo) : Prop :=
  ∀ p r, k.consults p → (s.pos p).consult = some r → ((s.pos p).loop r.loop).slot ≠ some i

theorem Lawful.noOffer (h : Lawful k s) {i : SlotNo} {c : Call} (hc : s.call i = some c)
    (hst : c.state ≠ .offered) : s.NoOffer i := fun p hp => by
  obtain ⟨d, hd, ho⟩ := h.offered p i hp
  rw [hc] at hd; cases hd; exact hst ho

theorem Lawful.noConsult (h : Lawful k s) {i : SlotNo} {c : Call} (hc : s.call i = some c)
    (hst : c.state ≠ .held) : s.NoConsult k i := fun p r hp hr hl => by
  obtain ⟨j, d, hj, hd, hh⟩ := h.consults p r hp hr
  rw [hl] at hj; cases hj
  rw [hc] at hd; cases hd; exact hst hh

/-- A call has one home. -/
theorem isHomeAt_inj {c : Call} {p q : PosNo} {l m : LoopNo} (h : c.isHomeAt p l = true)
    (h' : c.isHomeAt q m = true) : p = q ∧ l = m := by
  simp only [Call.isHomeAt, beq_iff_eq] at h h'
  rw [h] at h'
  simpa using h'

/-- The call on a loop is seated and at home there. -/
theorem Lawful.loopCall (h : Lawful k s) {p : PosNo} {l : LoopNo} {i : SlotNo} {c : Call}
    (hl : s.loopCall p l = some (i, c)) :
    ((s.pos p).loop l).slot = some i ∧ s.call i = some c ∧ c.state.seated = true ∧ c.isHomeAt p l = true := by
  unfold State.loopCall at hl
  cases hsl : ((s.pos p).loop l).slot with
  | none => rw [hsl] at hl; cases hl
  | some j =>
    rw [hsl] at hl
    obtain ⟨d, hd, hst, hh⟩ := (h.loops p l j).1 hsl
    simp only [hd, Option.map_some, Option.some.injEq, Prod.mk.injEq] at hl
    obtain ⟨rfl, rfl⟩ := hl
    exact ⟨rfl, hd, hst, hh⟩

end

/-! ## Operations that touch no collection -/

/-- The fields of a record that say where its call is held. -/
structure PlaceView where
  state : CallState
  home : Option Home
  orbit : Option OrbitNo
  extension : Option Ext
  campOrder : Option Nat

def Call.placeView (c : Call) : PlaceView :=
  { state := c.state, home := c.home, orbit := c.orbit, extension := c.extension, campOrder := c.campOrder }

/-- The law of the camp table reads the table and the records of the calls that name an extension. -/
theorem State.CampLaw.congr {s t : State} (hs : s.CampLaw) (hcamps : t.camps = s.camps)
    (h : ∀ i v, v.state = .camped → v.extension ≠ none →
      ((∃ d, t.call i = some d ∧ d.placeView = v) ↔ ∃ c, s.call i = some c ∧ c.placeView = v)) :
    t.CampLaw := by
  refine ⟨hcamps ▸ hs.size, hcamps ▸ hs.short, hcamps ▸ hs.entries, hcamps ▸ hs.filled,
    fun i x => ?_, fun e he n i d hi hd => ?_⟩
  · rw [hcamps, hs.listed]
    constructor
    · rintro ⟨c, hc, hst, hx⟩
      obtain ⟨d, hd, hv⟩ := (h i c.placeView hst (by rw [Call.placeView, hx]; simp)).2 ⟨c, hc, rfl⟩
      exact ⟨d, hd, (congrArg PlaceView.state hv).trans hst, (congrArg PlaceView.extension hv).trans hx⟩
    · rintro ⟨d, hd, hst, hx⟩
      obtain ⟨c, hc, hv⟩ := (h i d.placeView hst (by rw [Call.placeView, hx]; simp)).1 ⟨d, hd, rfl⟩
      exact ⟨c, hc, (congrArg PlaceView.state hv).trans hst, (congrArg PlaceView.extension hv).trans hx⟩
  · have he' : e ∈ s.camps := hcamps ▸ he
    obtain ⟨c, hc, hst, hx⟩ := (hs.listed i e.ext).1 ⟨e, he', rfl, List.mem_of_getElem? hi⟩
    obtain ⟨d', hd', hv⟩ := (h i c.placeView hst (by rw [Call.placeView, hx]; simp)).2 ⟨c, hc, rfl⟩
    rw [hd] at hd'; cases hd'
    exact (congrArg PlaceView.campOrder hv).trans (hs.order e he' n i c hi hc)

/-- The loops, orbits, consults and camp lists are the same in both states, and so is what the records
say of them; calls of the queue may have changed between WAITING and OFFERED. -/
structure Shuffled (s t : State) : Prop where
  calls : ∀ i v, v.state.queued = false →
    ((∃ d, t.call i = some d ∧ d.placeView = v) ↔ ∃ c, s.call i = some c ∧ c.placeView = v)
  loops : ∀ p l, ((t.pos p).loop l).slot = ((s.pos p).loop l).slot
  consults : ∀ p, (t.pos p).consult.map (·.loop) = (s.pos p).consult.map (·.loop)
  orbits : t.orbits = s.orbits
  camps : t.camps = s.camps

theorem Shuffled.refl (s : State) : Shuffled s s :=
  ⟨fun _ _ _ => .rfl, fun _ _ => rfl, fun _ => rfl, rfl, rfl⟩

theorem Shuffled.trans {s t u : State} (h : Shuffled s t) (k : Shuffled t u) : Shuffled s u :=
  ⟨fun i v hv => (k.calls i v hv).trans (h.calls i v hv), fun p l => (k.loops p l).trans (h.loops p l),
    fun p => (k.consults p).trans (h.consults p), k.orbits.trans h.orbits, k.camps.trans h.camps⟩

section
variable {s t : State} (h : Shuffled s t)
include h

/-- What the records of the calls outside the queue say is the same. -/
theorem Shuffled.exists_iff (i : SlotNo) (P : PlaceView → Prop)
    (hP : ∀ v, P v → v.state.queued = false) :
    (∃ d, t.call i = some d ∧ P d.placeView) ↔ ∃ c, s.call i = some c ∧ P c.placeView := by
  constructor
  · rintro ⟨d, hd, hPd⟩
    obtain ⟨c, hc, hv⟩ := (h.calls i _ (hP _ hPd)).1 ⟨d, hd, rfl⟩
    exact ⟨c, hc, hv ▸ hPd⟩
  · rintro ⟨c, hc, hPc⟩
    obtain ⟨d, hd, hv⟩ := (h.calls i _ (hP _ hPc)).2 ⟨c, hc, rfl⟩
    exact ⟨d, hd, hv ▸ hPc⟩

/-- A call outside the queue has its record in the first state. -/
theorem Shuffled.back {i : SlotNo} {d : Call} (hd : t.call i = some d) (hq : d.state.queued = false) :
    ∃ c, s.call i = some c ∧ c.state = d.state ∧ c.home = d.home ∧ c.orbit = d.orbit ∧
      c.extension = d.extension ∧ c.campOrder = d.campOrder := by
  obtain ⟨c, hc, hv⟩ := (h.calls i d.placeView hq).1 ⟨d, hd, rfl⟩
  exact ⟨c, hc, congrArg PlaceView.state hv, congrArg PlaceView.home hv, congrArg PlaceView.orbit hv,
    congrArg PlaceView.extension hv, congrArg PlaceView.campOrder hv⟩

theorem Shuffled.campLaw (hs : s.CampLaw) : t.CampLaw :=
  hs.congr h.camps fun i v hv _ => h.calls i v (by rw [hv]; rfl)

/-- The laws of the places survive; the laws of the queue and of the offers are shown apart. -/
theorem Shuffled.lawful {k : Scope} (hs : Lawful k s) (hq : t.QueueLaw)
    (ho : ∀ p i, (t.pos p).offer = some i → ∃ c, t.call i = some c ∧ c.state = .offered)
    (hoffers : k.offers → OffersIn t.eff.mode k.held t) : Lawful k t where
  loops p l i := by
    rw [h.loops, hs.loops]
    refine (h.exists_iff i (fun v => v.state.seated = true ∧
      (v.home == some { pos := p, loop := some l }) = true) fun v hv => ?_).symm
    rcases (seated_iff _).1 hv.1 with hst | hst <;> rw [hst] <;> rfl
  orbits o i := by
    have : t.orbitSlot o = s.orbitSlot o := by rw [State.orbitSlot, State.orbitSlot, h.orbits]
    rw [this, hs.orbits]
    exact (h.exists_iff i (fun v => v.state = .parked ∧ v.orbit = some o)
      fun v hv => by rw [hv.1]; rfl).symm
  offered := ho
  consults p r hp hr := by
    have hl := h.consults p
    rw [hr] at hl
    cases hr' : (s.pos p).consult with
    | none => rw [hr'] at hl; cases hl
    | some r' =>
      rw [hr'] at hl
      have hll : r.loop = r'.loop := Option.some.inj hl
      obtain ⟨i, c, hsl, hc, hst⟩ := hs.consults p r' hp hr'
      obtain ⟨d, hd, hdst⟩ := (h.exists_iff i (fun v => v.state = .held)
        fun v hv => by rw [hv]; rfl).2 ⟨c, hc, hst⟩
      exact ⟨i, d, by rw [hll, h.loops]; exact hsl, hd, hdst⟩
  queue := hq
  camps := h.campLaw hs.camps
  homes hk := by
    have hh := hs.homes hk
    refine ⟨fun i d hd hst => ?_, fun i d hd hst => ?_, fun i d hd hst => ?_⟩
    · obtain ⟨c, hc, hst', hhome, _⟩ := h.back hd
        (by rcases (seated_iff _).1 hst with h | h <;> rw [h] <;> rfl)
      obtain ⟨p, l, hx⟩ := hh.seated i c hc (hst' ▸ hst)
      exact ⟨p, l, by rw [Call.isHomeAt, ← hhome]; exact hx⟩
    · obtain ⟨c, hc, hst', _, horbit, _⟩ := h.back hd (by rw [hst]; rfl)
      exact horbit ▸ hh.parked i c hc (hst' ▸ hst)
    · obtain ⟨c, hc, hst', _, _, hext, _⟩ := h.back hd (by rw [hst]; rfl)
      exact hext ▸ hh.camped i c hc (hst' ▸ hst)
  offers := hoffers
  talk hk p l m i j c d hi hc hst hj hd hdst := by
    rw [h.loops] at hi hj
    obtain ⟨c', hc', hst', _⟩ := h.back hc (by rw [hst]; rfl)
    obtain ⟨d', hd', hdst', _⟩ := h.back hd (by rw [hdst]; rfl)
    exact hs.talk hk p l m i j c' d' hi hc' (hst'.trans hst) hj hd' (hdst'.trans hdst)

end

/-- The fields of a record that the laws speak of. -/
structure CallView where
  place : PlaceView
  score : Nat
  offer : Option Offer

def Call.view (c : Call) : CallView := { place := c.placeView, score := c.score, offer := c.offer }

/-- The collections, the offers and what the records say of them are the same in both states. -/
structure Neutral (s t : State) : Prop where
  calls : ∀ i, (t.call i).map Call.view = (s.call i).map Call.view
  loops : ∀ p l, ((t.pos p).loop l).slot = ((s.pos p).loop l).slot
  offers : ∀ p, (t.pos p).offer = (s.pos p).offer
  consults : ∀ p, (t.pos p).consult.map (·.loop) = (s.pos p).consult.map (·.loop)
  orbits : t.orbits = s.orbits
  queue : t.queue = s.queue
  camps : t.camps = s.camps
  mode : t.eff.mode = s.eff.mode

theorem Neutral.trans {s t u : State} (h : Neutral s t) (k : Neutral t u) : Neutral s u :=
  ⟨fun i => (k.calls i).trans (h.calls i), fun p l => (k.loops p l).trans (h.loops p l),
    fun p => (k.offers p).trans (h.offers p), fun p => (k.consults p).trans (h.consults p),
    k.orbits.trans h.orbits, k.queue.trans h.queue, k.camps.trans h.camps, k.mode.trans h.mode⟩

theorem Neutral.symm {s t : State} (h : Neutral s t) : Neutral t s :=
  ⟨fun i => (h.calls i).symm, fun p l => (h.loops p l).symm, fun p => (h.offers p).symm,
    fun p => (h.consults p).symm, h.orbits.symm, h.queue.symm, h.camps.symm, h.mode.symm⟩

theorem Neutral.of_same {s t : State} (hslots : t.slots = s.slots := by rfl)
    (hpositions : t.positions = s.positions := by rfl) (horbits : t.orbits = s.orbits := by rfl)
    (hqueue : t.queue = s.queue := by rfl) (hcamps : t.camps = s.camps := by rfl)
    (hmode : t.eff.mode = s.eff.mode := by rfl) : Neutral s t :=
  ⟨fun i => by rw [State.call, State.call, hslots], fun p l => by rw [State.pos, State.pos, hpositions],
    fun p => by rw [State.pos, State.pos, hpositions], fun p => by rw [State.pos, State.pos, hpositions],
    horbits, hqueue, hcamps, hmode⟩

theorem Neutral.refl (s : State) : Neutral s s := .of_same

theorem Neutral.modCall (i : SlotNo) (f : Call → Call) (s : State)
    (hf : ∀ c, s.call i = some c → (f c).view = c.view) : Neutral s (s.modCall i f) :=
  { Neutral.refl s with
    calls := fun j => by
      by_cases h : i = j
      · subst h
        rw [modCall_call, if_pos rfl]
        cases hc : s.call i with
        | none => rfl
        | some c => exact congrArg some (hf c hc)
      · rw [modCall_call, if_neg h] }

theorem Neutral.setPos (p : PosNo) (c : Position) (s : State)
    (hl : ∀ l, (c.loop l).slot = ((s.pos p).loop l).slot) (ho : c.offer = (s.pos p).offer)
    (hr : c.consult.map (·.loop) = (s.pos p).consult.map (·.loop)) : Neutral s (s.setPos p c) :=
  { Neutral.refl s with
    loops := fun q l => by
      by_cases h : p = q
      · subst h; simpa using hl l
      · simp [h]
    offers := fun q => by
      by_cases h : p = q
      · subst h; simpa using ho
      · simp [h]
    consults := fun q => by
      by_cases h : p = q
      · subst h; simpa using hr
      · simp [h] }

section
variable {s t : State} (h : Neutral s t)
include h

theorem Neutral.call_some {i : SlotNo} {c : Call} (hc : s.call i = some c) :
    ∃ d, t.call i = some d ∧ d.view = c.view := by
  have := h.calls i
  rw [hc] at this
  cases hd : t.call i with
  | none => rw [hd] at this; cases this
  | some d => rw [hd] at this; exact ⟨d, rfl, Option.some.inj this⟩

theorem Neutral.shuffled : Shuffled s t := by
  refine ⟨fun i v _ => ⟨?_, ?_⟩, h.loops, h.consults, h.orbits, h.camps⟩
  · rintro ⟨d, hd, hv⟩
    obtain ⟨c, hc, hcd⟩ := h.symm.call_some hd
    exact ⟨c, hc, (congrArg CallView.place hcd).trans hv⟩
  · rintro ⟨c, hc, hv⟩
    obtain ⟨d, hd, hdc⟩ := h.call_some hc
    exact ⟨d, hd, (congrArg CallView.place hdc).trans hv⟩

theorem Neutral.storedScore (i : SlotNo) : t.storedScore i = s.storedScore i := by
  have := congrArg (Option.map CallView.score) (h.calls i)
  simp only [Option.map_map] at this
  exact congrArg (·.getD 0) this

theorem Neutral.queueLaw (hs : s.QueueLaw) : t.QueueLaw := by
  refine ⟨h.queue ▸ hs.nodup, fun i => ?_, ?_⟩
  · rw [h.queue, hs.listed]
    constructor
    · rintro ⟨c, hc, hst⟩
      obtain ⟨d, hd, hv⟩ := h.call_some hc
      exact ⟨d, hd, (congrArg (fun v => v.place.state.queued) hv).trans hst⟩
    · rintro ⟨d, hd, hst⟩
      obtain ⟨c, hc, hv⟩ := h.symm.call_some hd
      exact ⟨c, hc, (congrArg (fun v => v.place.state.queued) hv).trans hst⟩
  · rw [h.queue]
    exact hs.sorted.imp fun hx => by rwa [h.storedScore, h.storedScore]

theorem Neutral.lawful {k : Scope} (hs : Lawful k s) : Lawful k t := by
  -- the record of the first state, with the fields that the law of the offers names
  have back : ∀ {i d}, t.call i = some d → ∃ c, s.call i = some c ∧ c.state = d.state ∧ c.offer = d.offer :=
    fun hd => by
      obtain ⟨c, hc, hv⟩ := h.symm.call_some hd
      exact ⟨c, hc, congrArg (fun v => v.place.state) hv, congrArg CallView.offer hv⟩
  refine h.shuffled.lawful hs (h.queueLaw hs.queue) (fun p i hp => ?_) fun hk => ?_
  · rw [h.offers] at hp
    obtain ⟨c, hc, hst⟩ := hs.offered p i hp
    obtain ⟨d, hd, hv⟩ := h.call_some hc
    exact ⟨d, hd, (congrArg (fun v => v.place.state) hv).trans hst⟩
  · have ho := hs.offers hk
    rw [h.mode]
    refine ⟨fun hm p i d hp hd => ?_, fun hm p q i hp hq => ?_, fun hm p i d hp hd => ?_,
      fun i d hi hd hst => ?_, fun i d hd hst => ?_⟩
    · obtain ⟨c, hc, _, hoff⟩ := back hd
      exact hoff ▸ ho.single hm p i c (by rwa [← h.offers]) hc
    · exact ho.alone hm p q i (by rwa [← h.offers]) (by rwa [← h.offers])
    · obtain ⟨c, hc, _, hoff⟩ := back hd
      exact hoff ▸ ho.common hm p i c (by rwa [← h.offers]) hc
    · obtain ⟨c, hc, hst', _⟩ := back hd
      obtain ⟨p, hp⟩ := ho.held i c hi hc (hst'.trans hst)
      exact ⟨p, by rwa [h.offers]⟩
    · obtain ⟨c, hc, hst', hoff⟩ := back hd
      exact hoff ▸ ho.others i c hc (hst' ▸ hst)

end

/-! ## The neutral operations -/

theorem bump_neutral (k : Counter) (s : State) : Neutral s (bump k s) := .of_same

theorem placeLow_neutral (n : SwitchNotice) (s : State) : Neutral s (placeLow n s) := by
  rcases placeLow_cases n s with h | h <;> rw [h] <;> exact .of_same

theorem placeDroppable_neutral (n : SwitchNotice) (s : State) : Neutral s (placeDroppable n s) := by
  rcases placeDroppable_cases n s with h | h <;> rw [h] <;> exact .of_same

theorem placeAnswer_neutral (n : SwitchNotice) (s : State) : Neutral s (placeAnswer n s) := by
  rcases placeAnswer_cases n s with h | h <;> rw [h] <;> exact .of_same

theorem placeTested_neutral (n : SwitchNotice) (s : State) : Neutral s (placeTested n s) := by
  rcases placeTested_cases n s with h | h <;> rw [h] <;> exact .of_same

theorem answerSwitch_neutral (kind : Byte) (code : ResultCode) (s : State) :
    Neutral s (answerSwitch kind code s) := placeAnswer_neutral _ s

theorem answerConsole_neutral (p : PosNo) (seq kind : Byte) (code : ResultCode) (orbit : Option OrbitNo)
    (s : State) : Neutral s (answerConsole p seq kind code orbit s) := .of_same

theorem setLink_neutral (l : Link) (u : LinkUnit) (s : State) : Neutral s (s.setLink l u) := by
  cases l <;> exact .of_same

theorem makePending_neutral (p : PosNo) (ks : List Subject) (s : State) :
    Neutral s (makePending p ks s) := .of_same

theorem announce_neutral (old new : State) : Neutral new (announce old new) := by
  have h := announce_announced old new
  refine ⟨fun i => by rw [h.call], fun p l => by rw [h.loop], fun p => by rw [h.positions],
    fun p => by rw [h.positions], h.orbits, h.queue, h.camps, by rw [h.eff]⟩

theorem issue_neutral (i : SlotNo) (s : State) : Neutral s (issue i s) := by
  have h := issue_onlyRecords i s
  refine ⟨fun j => ?_, fun p l => by rw [h.state]; rfl, fun p => by rw [h.state]; rfl,
    fun p => by rw [h.state]; rfl, by rw [h.state], by rw [h.state], by rw [h.state], by rw [h.state]⟩
  obtain ⟨o, ho⟩ := issue_call i j s
  rw [ho, Option.map_map]; rfl

theorem rejudgeGroup_neutral (s : State) : Neutral s (rejudgeGroup s) := .of_same
theorem rejudge_neutral (s : State) : Neutral s (rejudge s) := .of_same

theorem setPosState_neutral (p : PosNo) (st : PosState) (why : PosReason) (s : State) :
    Neutral s (setPosState p st why s) := .setPos p _ s (fun _ => rfl) rfl rfl

theorem setMisses_neutral (p : PosNo) (n : Nat) (s : State) :
    Neutral s (s.setPos p { s.pos p with missCount := n }) := .setPos p _ s (fun _ => rfl) rfl rfl

theorem setPhase_neutral {p : PosNo} {r : Consult} (phase : Phase) (leg : Option ReqNo) {s : State}
    (h : (s.pos p).consult = some r) : Neutral s (setPhase p r phase leg s) :=
  .setPos p _ s (fun _ => rfl) rfl (by rw [h]; rfl)

theorem OnlyLinks.neutral {s t : State} (h : OnlyLinks s t) : Neutral s t := by
  obtain ⟨a, b, n, rfl⟩ := h
  exact .of_same

end Sys2Proof.Machine
end

section
/-! PROOFS. One call moves: what leaving a collection does, and the laws after a call has left its
collection for another, for none, or for good. -/
namespace Sys2Proof.Machine

/-! ## Reading a loop and an orbit -/

@[simp] theorem setLoop_loop (s : State) (p q : PosNo) (l m : LoopNo) (x : Loop) :
    ((s.setLoop p l x).pos q).loop m = if p = q ∧ l = m then x else (s.pos q).loop m := by
  rw [setLoop_pos]
  by_cases hp : p = q
  · subst hp; simp [Position.loop]
  · simp [hp]

theorem writeOrbit_orbitSlot (s : State) (o n : OrbitNo) (x : Option SlotNo) :
    State.orbitSlot { s with orbits := vset s.orbits o x } n = if o = n then x else s.orbitSlot n := by
  simp [State.orbitSlot]

/-! ## The camp lists -/

/-- The calls behind in a camp list move up (R136). -/
def moveUp (behind : List SlotNo) (s : State) : State :=
  behind.foldl (fun s j => s.modCall j (fun c => { c with campOrder := c.campOrder.map (· - 1) })) s

theorem moveUp_only (l : List SlotNo) (s : State) : moveUp l s = { s with slots := (moveUp l s).slots } := by
  induction l generalizing s with
  | nil => rfl
  | cons j l ih => exact ih _

theorem moveUp_call {l : List SlotNo} (hl : l.Nodup) (s : State) (j : SlotNo) :
    (moveUp l s).call j =
      if j ∈ l then (s.call j).map (fun c => { c with campOrder := c.campOrder.map (· - 1) })
      else s.call j := by
  induction l generalizing s with
  | nil => simp [moveUp]
  | cons i l ih =>
    obtain ⟨hi, hl⟩ := List.nodup_cons.1 hl
    have hstep : moveUp (i :: l) s = moveUp l (s.modCall i
      (fun c => { c with campOrder := c.campOrder.map (· - 1) })) := rfl
    rw [hstep, ih hl]
    by_cases hij : j = i
    · subst hij; simp [hi]
    · simp [hij, Ne.symm hij]

/-- An extension has one entry. -/
theorem find_campEntry {es : List CampEntry} (h : (es.map (·.ext)).Nodup) {e : CampEntry} (he : e ∈ es) :
    es.find? (fun f => f.ext == e.ext) = some e := by
  induction es with
  | nil => cases he
  | cons f es ih =>
    obtain ⟨hf, hes⟩ := List.nodup_cons.1 h
    rcases List.mem_cons.1 he with rfl | he
    · simp
    · have : f.ext ≠ e.ext := fun hfe => hf (List.mem_map.2 ⟨e, he, hfe.symm⟩)
      simp [this, ih hes he]

/-- A camp list with the part ahead of one of its calls and the part behind it. -/
structure CampSplit (s : State) (i : SlotNo) (x : Ext) (ahead behind : List SlotNo) : Prop where
  entry : (⟨x, ahead ++ i :: behind⟩ : CampEntry) ∈ s.camps
  notAhead : i ∉ ahead
  notBehind : i ∉ behind
  nodup : (ahead ++ behind).Nodup

theorem State.CampLaw.split {s : State} (h : s.CampLaw) {i : SlotNo} {c : Call} {x : Ext}
    (hc : s.call i = some c) (hst : c.state = .camped) (hx : c.extension = some x) :
    ∃ ahead behind, CampSplit s i x ahead behind := by
  obtain ⟨e, he, rfl, hi⟩ := (h.listed i x).2 ⟨c, hc, hst, hx⟩
  obtain ⟨a, b, hab⟩ := List.append_of_mem hi
  have hn := (h.filled e he).2
  rw [hab, List.nodup_middle, List.nodup_cons, List.mem_append, not_or] at hn
  exact ⟨a, b, by rw [← hab]; exact he, hn.1.1, hn.1.2, hn.2⟩

/-- The entry that stays of a camp list, none when it is empty. -/
def campsLeft (es : List CampEntry) (x : Ext) (rest : List SlotNo) : List CampEntry :=
  if rest.isEmpty then es.filter (fun e => e.ext != x)
  else es.map (fun e => if e.ext == x then { e with list := rest } else e)

section
variable {s : State} {i : SlotNo} {x : Ext} {a b : List SlotNo}

theorem CampSplit.behind_eq (hs : CampSplit s i x a b) :
    ((a ++ i :: b).dropWhile (· != i)).drop 1 = b := by
  rw [List.dropWhile_append_of_pos (fun j hj => by simpa using fun h : j = i => hs.notAhead (h ▸ hj))]
  simp

theorem CampSplit.rest_eq (hs : CampSplit s i x a b) : (a ++ i :: b).filter (· != i) = a ++ b := by
  rw [List.filter_append, List.filter_cons]
  simp only [bne_self_eq_false, Bool.false_eq_true, if_false]
  rw [List.filter_eq_self.2 fun j hj => by simpa using fun h : j = i => hs.notAhead (h ▸ hj),
    List.filter_eq_self.2 fun j hj => by simpa using fun h : j = i => hs.notBehind (h ▸ hj)]

theorem leaveCamp_eq (h : s.CampLaw) (hs : CampSplit s i x a b) :
    leaveCamp i x s =
      if (a ++ b).isEmpty then
        placeDroppable (.unwatch x) { moveUp b s with camps := campsLeft s.camps x (a ++ b) }
      else { moveUp b s with camps := campsLeft s.camps x (a ++ b) } := by
  have hfind := find_campEntry h.entries hs.entry
  have hdrop := hs.behind_eq
  have hrest := hs.rest_eq
  have hcamps : (moveUp b s).camps = s.camps := by rw [moveUp_only]
  unfold leaveCamp campsLeft
  simp only [hfind, hdrop, hrest]
  change (if _ then placeDroppable _ { moveUp b s with camps := (moveUp b s).camps.filter _ }
    else { moveUp b s with camps := (moveUp b s).camps.map _ }) = _
  rw [hcamps]
  split <;> simp_all

/-- What leaving a camp list writes. -/
theorem leaveCamp_writes (h : s.CampLaw) (hs : CampSplit s i x a b) :
    ∃ frames counters, leaveCamp i x s = { moveUp b s with
      camps := campsLeft s.camps x (a ++ b), txList := frames, counters := counters } := by
  rw [leaveCamp_eq h hs]
  split
  · rcases placeDroppable_cases (.unwatch x) { moveUp b s with camps := campsLeft s.camps x (a ++ b) }
      with hp | hp <;> rw [hp] <;> exact ⟨_, _, rfl⟩
  · exact ⟨_, _, rfl⟩

theorem mem_campsLeft (hs : CampSplit s i x a b) (e : CampEntry) :
    e ∈ campsLeft s.camps x (a ++ b) ↔
      e ∈ s.camps ∧ e.ext ≠ x ∨ a ++ b ≠ [] ∧ e = { ext := x, list := a ++ b } := by
  unfold campsLeft
  split
  · rename_i hab
    simp [List.isEmpty_iff.1 hab]
  · rename_i hab
    simp only [List.mem_map, List.isEmpty_iff] at hab ⊢
    constructor
    · rintro ⟨f, hf, rfl⟩
      by_cases hfx : f.ext = x
      · subst hfx; simp [hab]
      · simp [hfx, hf]
    · rintro (⟨he, hx⟩ | ⟨-, rfl⟩)
      · exact ⟨e, he, by simp [hx]⟩
      · exact ⟨_, hs.entry, by simp⟩

theorem campsLeft_ext (es : List CampEntry) (rest : List SlotNo) :
    ((campsLeft es x rest).map (·.ext)).Sublist (es.map (·.ext)) := by
  unfold campsLeft
  split
  · exact List.Sublist.map _ List.filter_sublist
  · have : (es.map (fun e => if e.ext == x then { e with list := rest } else e)).map (·.ext) =
        es.map (·.ext) := by
      rw [List.map_map]
      exact List.map_congr_left fun e _ => by by_cases h : e.ext = x <;> simp [h]
    rw [this]

/-- The entry of another extension holds none of the calls of the list. -/
theorem CampSplit.apart (h : s.CampLaw) (hs : CampSplit s i x a b) {e : CampEntry} (he : e ∈ s.camps)
    (hx : e.ext ≠ x) {j : SlotNo} (hj : j ∈ e.list) : j ∉ a ++ i :: b := fun hj' => by
  obtain ⟨c, hc, _, hcx⟩ := (h.listed j e.ext).1 ⟨e, he, rfl, hj⟩
  obtain ⟨d, hd, _, hdx⟩ := (h.listed j x).1 ⟨_, hs.entry, rfl, hj'⟩
  rw [hc] at hd; cases hd
  rw [hcx] at hdx
  exact hx (Option.some.inj hdx)

theorem leaveCamp_call (h : s.CampLaw) (hs : CampSplit s i x a b) (j : SlotNo) :
    (leaveCamp i x s).call j =
      if j ∈ b then (s.call j).map (fun c => { c with campOrder := c.campOrder.map (· - 1) })
      else s.call j := by
  obtain ⟨f, n, hw⟩ := leaveCamp_writes h hs
  rw [hw]
  exact moveUp_call (List.nodup_append.1 hs.nodup).2.1 s j

/-- Leaving a camp list keeps the law of the camp table, of the calls that stay. -/
theorem leaveCamp_campLaw (h : s.CampLaw) (hs : CampSplit s i x a b) :
    ((leaveCamp i x s).setCall i none).CampLaw := by
  have hcamps : (leaveCamp i x s).camps = campsLeft s.camps x (a ++ b) := by
    obtain ⟨f, n, hw⟩ := leaveCamp_writes h hs
    rw [hw]
  have hmem := fun e => mem_campsLeft hs e
  have hcall : ∀ j, ((leaveCamp i x s).setCall i none).call j = if i = j then none else
      if j ∈ b then (s.call j).map (fun c => { c with campOrder := c.campOrder.map (· - 1) })
      else s.call j := fun j => by rw [setCall_call, leaveCamp_call h hs]
  have hentry := hs.entry
  have hshort := h.short _ hentry
  simp only [List.length_append, List.length_cons] at hshort
  refine ⟨?_, fun e he => ?_, ?_, fun e he => ?_, fun j y => ?_, fun e he n j d hj hd => ?_⟩
  · rw [setCall_camps, hcamps]
    have := (campsLeft_ext (x := x) s.camps (a ++ b)).length_le
    simp only [List.length_map] at this
    exact this.trans h.size
  · rw [setCall_camps, hcamps, hmem] at he
    rcases he with ⟨he, -⟩ | ⟨-, rfl⟩
    · exact h.short e he
    · simp only [List.length_append]; omega
  · rw [setCall_camps, hcamps]; exact h.entries.sublist (campsLeft_ext _ _)
  · rw [setCall_camps, hcamps, hmem] at he
    rcases he with ⟨he, -⟩ | ⟨hab, rfl⟩
    · exact h.filled e he
    · exact ⟨hab, hs.nodup⟩
  · rw [setCall_camps, hcamps, hcall]
    have hrec : (∃ d, (if i = j then none else if j ∈ b then (s.call j).map
        (fun c => { c with campOrder := c.campOrder.map (· - 1) }) else s.call j) = some d ∧
        d.state = .camped ∧ d.extension = some y) ↔
        i ≠ j ∧ ∃ c, s.call j = some c ∧ c.state = .camped ∧ c.extension = some y := by
      by_cases hij : i = j
      · simp [hij]
      · by_cases hb : j ∈ b <;> simp [hij, hb]
    rw [hrec, ← h.listed]
    constructor
    · rintro ⟨e, he, rfl, hj⟩
      rcases (hmem e).1 he with ⟨he, hex⟩ | ⟨-, rfl⟩
      · exact ⟨fun hij => hs.apart h he hex hj (by simp [hij]), e, he, rfl, hj⟩
      · refine ⟨fun hij => ?_, _, hentry, rfl, ?_⟩
        · rcases List.mem_append.1 (hij ▸ hj) with hj | hj
          · exact hs.notAhead hj
          · exact hs.notBehind hj
        · rcases List.mem_append.1 hj with hj | hj <;> simp [hj]
    · rintro ⟨hij, e, he, rfl, hj⟩
      by_cases hex : e.ext = x
      · subst hex
        have he' : e = { ext := e.ext, list := a ++ i :: b } := by
          have h1 := find_campEntry h.entries he
          have h2 := find_campEntry h.entries hentry
          exact Option.some.inj (h1.symm.trans h2)
        have hj' : j ∈ a ++ b := by
          rw [he'] at hj
          simpa [Ne.symm hij] using hj
        exact ⟨_, (hmem _).2 (.inr ⟨List.ne_nil_of_mem hj', rfl⟩), rfl, hj'⟩
      · exact ⟨e, (hmem e).2 (.inl ⟨he, hex⟩), rfl, hj⟩
  · rw [setCall_camps, hcamps] at he
    rw [hcall] at hd
    split at hd
    · cases hd
    · rcases (hmem e).1 he with ⟨he, hex⟩ | ⟨-, rfl⟩
      · have hnb : j ∉ b := fun hb => hs.apart h he hex (List.mem_of_getElem? hj) (by simp [hb])
        rw [if_neg hnb] at hd
        exact h.order e he n j d hj hd
      · -- the places ahead stay, those behind fall by one
        rcases Nat.lt_or_ge n a.length with hn | hn
        · rw [List.getElem?_append_left hn] at hj
          have hnb : j ∉ b := fun hb =>
            (List.nodup_append.1 hs.nodup).2.2 j (List.mem_of_getElem? hj) j hb rfl
          rw [if_neg hnb] at hd
          exact h.order _ hentry n j d (by rw [List.getElem?_append_left hn]; exact hj) hd
        · rw [List.getElem?_append_right hn] at hj
          rw [if_pos (List.mem_of_getElem? hj)] at hd
          obtain ⟨c, hc, rfl⟩ := Option.map_eq_some_iff.1 hd
          have := h.order _ hentry (n + 1) j c (by
            rw [List.getElem?_append_right (by omega), show n + 1 - a.length = n - a.length + 1 by omega,
              List.getElem?_cons_succ]
            exact hj) hc
          simp [this]

end

/-! ## The queue -/

theorem insertByScore_nodup (f : SlotNo → Nat) {i : SlotNo} {l : List SlotNo} (hl : l.Nodup)
    (hi : i ∉ l) : (insertByScore f i l).Nodup := by
  induction l with
  | nil => simp [insertByScore]
  | cons j l ih =>
    obtain ⟨hj, hl⟩ := List.nodup_cons.1 hl
    obtain ⟨hij, hi⟩ := not_or.1 (mt List.mem_cons.2 hi)
    unfold insertByScore
    split
    · simp [hij, hi, hj, hl]
    · refine List.nodup_cons.2 ⟨?_, ih hl hi⟩
      rw [insertByScore_mem]
      exact not_or.2 ⟨Ne.symm hij, hj⟩

/-- The walk of R63 keeps the order of the scores. -/
theorem insertByScore_sorted (f : SlotNo → Nat) (i : SlotNo) {l : List SlotNo}
    (hl : l.Pairwise (fun j k => f k ≤ f j)) :
    (insertByScore f i l).Pairwise (fun j k => f k ≤ f j) := by
  induction l with
  | nil => simp [insertByScore]
  | cons j l ih =>
    obtain ⟨hj, hl'⟩ := List.pairwise_cons.1 hl
    unfold insertByScore
    split
    · rename_i hlt
      refine List.pairwise_cons.2 ⟨fun k hk => ?_, hl⟩
      rcases List.mem_cons.1 hk with rfl | hk
      · exact hlt.le
      · exact (hj k hk).trans hlt.le
    · rename_i hlt
      refine List.pairwise_cons.2 ⟨fun k hk => ?_, ih hl'⟩
      rcases (insertByScore_mem f i k l).1 hk with rfl | hk
      · exact Nat.le_of_not_lt hlt
      · exact hj k hk

/-- The records of all calls but one are the same, less the camp orders. -/
def OthersSame (i : SlotNo) (s t : State) : Prop :=
  ∀ j, j ≠ i → (t.call j).map Call.sansOrder = (s.call j).map Call.sansOrder

theorem OthersSame.trans {i : SlotNo} {s t u : State} (h : OthersSame i s t) (k : OthersSame i t u) :
    OthersSame i s u := fun j hj => (k j hj).trans (h j hj)

theorem Left.others {s t : State} (h : Left s t) (i : SlotNo) : OthersSame i s t := fun j _ => h.call j

section
variable {i j : SlotNo} {s t : State} (h : OthersSame i s t)
include h

theorem OthersSame.symm : OthersSame i t s := fun j hj => (h j hj).symm

theorem OthersSame.call_some {c : Call} (hj : j ≠ i) (hc : s.call j = some c) :
    ∃ k, t.call j = some { c with campOrder := k } := by
  have hv := h j hj
  rw [hc] at hv
  cases hd : t.call j with
  | none => rw [hd] at hv; cases hv
  | some d =>
    rw [hd] at hv
    refine ⟨d.campOrder, congrArg some ?_⟩
    have : d.sansOrder = c.sansOrder := Option.some.inj hv
    simp only [Call.sansOrder, Call.mk.injEq] at this
    cases d; simp_all

/-- What the record of another call says, its camp order aside. -/
theorem OthersSame.exists_iff (hj : j ≠ i) (P : Call → Prop) (hP : ∀ c k, P c → P { c with campOrder := k }) :
    (∃ d, t.call j = some d ∧ P d) ↔ ∃ c, s.call j = some c ∧ P c := by
  constructor
  · rintro ⟨d, hd, hPd⟩
    obtain ⟨k, hc⟩ := h.symm.call_some hj hd
    exact ⟨_, hc, hP d k hPd⟩
  · rintro ⟨c, hc, hPc⟩
    obtain ⟨k, hd⟩ := h.call_some hj hc
    exact ⟨_, hd, hP c k hPc⟩

theorem OthersSame.storedScore (hj : j ≠ i) : t.storedScore j = s.storedScore j := by
  have := congrArg (Option.map Call.score) (h j hj)
  simp only [Option.map_map] at this
  exact congrArg (·.getD 0) this

/-- The queue less one call keeps its order. -/
theorem OthersSame.sorted (hs : s.QueueLaw) :
    (s.queue.filter (· != i)).Pairwise (fun j k => t.storedScore k ≤ t.storedScore j) := by
  refine (hs.sorted.filter _).imp_of_mem fun {j k} hj hk hjk => ?_
  rw [h.storedScore (by simpa using (List.mem_filter.1 hk).2),
    h.storedScore (by simpa using (List.mem_filter.1 hj).2)]
  exact hjk

/-- A call that has left the queue. -/
theorem OthersSame.queueLaw_left (hs : s.QueueLaw) (hq : t.queue = s.queue.filter (· != i))
    (hi : ∀ d, t.call i = some d → d.state.queued = false) : t.QueueLaw := by
  refine ⟨hq ▸ hs.nodup.filter _, fun j => ?_, hq ▸ h.sorted hs⟩
  rw [hq, List.mem_filter, hs.listed]
  by_cases hj : j = i
  · subst hj
    have : ¬ ∃ d, t.call j = some d ∧ d.state.queued = true :=
      fun ⟨d, hd, hst⟩ => by rw [hi d hd] at hst; cases hst
    simp only [bne_self_eq_false, Bool.false_eq_true, and_false, false_iff]
    exact this
  · rw [h.exists_iff hj (fun c => c.state.queued = true) fun _ _ => id]
    simp [hj]

/-- A call that has been placed in the queue by its stored score (R63). -/
theorem OthersSame.queueLaw_placed (hs : s.QueueLaw)
    (hq : t.queue = insertByScore t.storedScore i (s.queue.filter (· != i)))
    (hi : ∃ d, t.call i = some d ∧ d.state.queued = true) : t.QueueLaw := by
  refine ⟨hq ▸ insertByScore_nodup _ (hs.nodup.filter _) (by simp), fun j => ?_,
    hq ▸ insertByScore_sorted _ i (h.sorted hs)⟩
  rw [hq, insertByScore_mem, List.mem_filter, hs.listed]
  by_cases hj : j = i
  · subst hj; simp only [true_or, true_iff]; exact hi
  · rw [h.exists_iff hj (fun c => c.state.queued = true) fun _ _ => id]
    simp [hj]

end

/-! ## Leaving a collection (R9) -/

/-- Where a call that leaves is found, and what its leaving writes. -/
inductive Leaving (i : SlotNo) (c : Call) (s u : State) : Prop
  | queue (hq : c.state.queued = true) (hu : u = { s with queue := s.queue.filter (· != i) })
  | loop (p : PosNo) (l : LoopNo) (hq : c.state.seated = true) (hh : c.isHomeAt p l = true)
      (hu : u = s.setLoop p l Loop.empty)
  | orbit (o : OrbitNo) (hq : c.state = .parked) (ho : c.orbit = some o)
      (hu : u = { s with orbits := vset s.orbits o none })
  | camp (x : Ext) (hq : c.state = .camped) (hx : c.extension = some x) (hu : u = leaveCamp i x s)
  | nowhere (hq : c.state.queued = false) (hl : c.state.seated = true → ∀ p l, c.isHomeAt p l = false)
      (ho : c.state = .parked → c.orbit = none) (hx : c.state = .camped → c.extension = none) (hu : u = s)

theorem leave_leaving {i : SlotNo} {c : Call} {s : State} (hc : s.call i = some c) :
    Leaving i c s (leave i s) := by
  have hseated : c.state.seated = true → Leaving i c s (leave i s) := fun hst => by
    by_cases hh : ∃ p l, c.isHomeAt p l = true
    · obtain ⟨p, l, hh⟩ := hh
      exact .loop p l hst hh (leave_seated hc hst hh)
    · have hh' : ∀ p l, c.isHomeAt p l = false := fun p l => by
        cases hx : c.isHomeAt p l with
        | false => rfl
        | true => exact absurd ⟨p, l, hx⟩ hh
      refine .nowhere ?_ (fun _ => hh') ?_ ?_ ?_
      · rcases (seated_iff _).1 hst with h | h <;> rw [h] <;> rfl
      · intro h; rw [h] at hst; cases hst
      · intro h; rw [h] at hst; cases hst
      · have : leave.leaveLoop c s = s := by
          unfold leave.leaveLoop
          split
          · rename_i p l hx
            have := hh' p l
            rw [Call.isHomeAt, hx, beq_self_eq_true] at this
            cases this
          · rfl
        rcases (seated_iff _).1 hst with h | h <;> simp [leave, hc, h, this]
  cases hst : c.state with
  | waiting => exact .queue (by rw [hst]; rfl) (leave_queued hc (by rw [hst]; rfl))
  | offered => exact .queue (by rw [hst]; rfl) (leave_queued hc (by rw [hst]; rfl))
  | talking => exact hseated (by rw [hst]; rfl)
  | held => exact hseated (by rw [hst]; rfl)
  | parked =>
    cases ho : c.orbit with
    | some o => exact .orbit o hst ho (leave_parked hc hst ho)
    | none =>
      refine .nowhere (by rw [hst]; rfl) (by rw [hst]; intro h; cases h) (fun _ => ho)
        (by rw [hst]; intro h; cases h) (by simp [leave, hc, hst, ho])
  | camped =>
    cases hx : c.extension with
    | some x => exact .camp x hst hx (leave_camped hc hst hx)
    | none =>
      refine .nowhere (by rw [hst]; rfl) (by rw [hst]; intro h; cases h) (by rw [hst]; intro h; cases h)
        (fun _ => hx) (by simp [leave, hc, hst, hx])
  | ringing =>
    refine .nowhere (by rw [hst]; rfl) ?_ ?_ ?_ (leave_placeless hc (.inl hst)) <;>
      (rw [hst]; intro h; cases h)
  | departing =>
    refine .nowhere (by rw [hst]; rfl) ?_ ?_ ?_ (leave_placeless hc (.inr hst)) <;>
      (rw [hst]; intro h; cases h)

section
variable {k : Scope} {i : SlotNo} {c : Call} {s : State}

theorem Lawful.leave_loops (h : Lawful k s) (hc : s.call i = some c) (p : PosNo) (l : LoopNo) (j : SlotNo) :
    (((leave i s).pos p).loop l).slot = some j ↔ j ≠ i ∧ ((s.pos p).loop l).slot = some j := by
  -- where the call is on no loop, its leaving empties none
  have hsame : (∀ p l, ((s.pos p).loop l).slot ≠ some i) →
      (((s.pos p).loop l).slot = some j ↔ j ≠ i ∧ ((s.pos p).loop l).slot = some j) := fun hn =>
    ⟨fun hj => ⟨fun hji => hn p l (hji ▸ hj), hj⟩, And.right⟩
  have hnone : (c.state.seated = true → ∀ p l, c.isHomeAt p l = false) →
      ∀ p l, ((s.pos p).loop l).slot ≠ some i := fun hn p l hl => by
    obtain ⟨d, hd, hst, hh⟩ := (h.loops p l i).1 hl
    rw [hc] at hd; cases hd
    rw [hn hst p l] at hh; cases hh
  cases leave_leaving hc with
  | queue hq hu =>
    rw [hu]
    exact hsame (hnone fun hst => by rcases (queued_iff _).1 hq with h | h <;> (rw [h] at hst; cases hst))
  | loop q m hq hh hu =>
    have hi : ∀ r n, ((s.pos r).loop n).slot = some i → q = r ∧ m = n := fun r n hn => by
      obtain ⟨d, hd, _, hh'⟩ := (h.loops r n i).1 hn
      rw [hc] at hd; cases hd
      exact isHomeAt_inj hh hh'
    rw [hu, setLoop_loop]
    by_cases hql : q = p ∧ m = l
    · obtain ⟨rfl, rfl⟩ := hql
      have hqm : ((s.pos q).loop m).slot = some i := (h.loops q m i).2 ⟨c, hc, hq, hh⟩
      rw [hqm]
      simp [Loop.empty, eq_comm]
    · rw [if_neg hql]
      exact ⟨fun hj => ⟨fun hji => hql (hi p l (hji ▸ hj)), hj⟩, And.right⟩
  | orbit o hq ho hu => rw [hu]; exact hsame (hnone fun hst => by rw [hq] at hst; cases hst)
  | camp x hq hx hu =>
    obtain ⟨a, b, hs⟩ := h.camps.split hc hq hx
    obtain ⟨f, n, hw⟩ := leaveCamp_writes h.camps hs
    have hp : (leave i s).pos p = s.pos p := by rw [hu, hw, moveUp_only]; rfl
    rw [hp]; exact hsame (hnone fun hst => by rw [hq] at hst; cases hst)
  | nowhere hq hl ho hx hu => rw [hu]; exact hsame (hnone hl)

theorem Lawful.leave_orbits (h : Lawful k s) (hc : s.call i = some c) (o : OrbitNo) (j : SlotNo) :
    (leave i s).orbitSlot o = some j ↔ j ≠ i ∧ s.orbitSlot o = some j := by
  have hsame : (∀ o, s.orbitSlot o ≠ some i) →
      (s.orbitSlot o = some j ↔ j ≠ i ∧ s.orbitSlot o = some j) := fun hn =>
    ⟨fun hj => ⟨fun hji => hn o (hji ▸ hj), hj⟩, And.right⟩
  have hnone : (c.state = .parked → c.orbit = none) → ∀ o, s.orbitSlot o ≠ some i := fun hn o ho => by
    obtain ⟨d, hd, hst, hdo⟩ := (h.orbits o i).1 ho
    rw [hc] at hd; cases hd
    rw [hn hst] at hdo; cases hdo
  cases leave_leaving hc with
  | queue hq hu =>
    rw [hu]; exact hsame (hnone fun hst => by rw [hst] at hq; cases hq)
  | loop p l hq hh hu =>
    rw [hu, setLoop_orbitSlot]; exact hsame (hnone fun hst => by rw [hst] at hq; cases hq)
  | orbit n hq hn hu =>
    have hi : ∀ m, s.orbitSlot m = some i → n = m := fun m hm => by
      obtain ⟨d, hd, _, hdm⟩ := (h.orbits m i).1 hm
      rw [hc] at hd; cases hd
      exact Option.some.inj (hn.symm.trans hdm)
    rw [hu, writeOrbit_orbitSlot]
    by_cases hno : n = o
    · subst hno
      have : s.orbitSlot n = some i := (h.orbits n i).2 ⟨c, hc, hq, hn⟩
      simp [this, eq_comm]
    · rw [if_neg hno]
      exact ⟨fun hj => ⟨fun hji => hno (hi o (hji ▸ hj)), hj⟩, And.right⟩
  | camp x hq hx hu =>
    obtain ⟨a, b, hs⟩ := h.camps.split hc hq hx
    obtain ⟨f, n, hw⟩ := leaveCamp_writes h.camps hs
    have hp : (leave i s).orbitSlot o = s.orbitSlot o := by rw [hu, hw, moveUp_only]; rfl
    rw [hp]; exact hsame (hnone fun hst => by rw [hq] at hst; cases hst)
  | nowhere hq hl ho hx hu => rw [hu]; exact hsame (hnone ho)

theorem Lawful.leave_queue (h : Lawful k s) (hc : s.call i = some c) :
    (leave i s).queue = s.queue.filter (· != i) := by
  have hsame : c.state.queued = false → s.queue = s.queue.filter (· != i) := fun hq => by
    refine (List.filter_eq_self.2 fun j hj => ?_).symm
    refine bne_iff_ne.2 fun hji => ?_
    obtain ⟨d, hd, hdq⟩ := (h.queue.listed i).1 (hji ▸ hj)
    rw [hc] at hd; cases hd
    rw [hq] at hdq; cases hdq
  cases leave_leaving hc with
  | queue hq hu => rw [hu]
  | loop p l hq hh hu =>
    rw [hu, setLoop_queue]
    exact hsame (by rcases (seated_iff _).1 hq with h | h <;> rw [h] <;> rfl)
  | orbit n hq hn hu => rw [hu]; exact hsame (by rw [hq]; rfl)
  | camp x hq hx hu =>
    obtain ⟨a, b, hs⟩ := h.camps.split hc hq hx
    obtain ⟨f, n, hw⟩ := leaveCamp_writes h.camps hs
    have hp : (leave i s).queue = s.queue := by rw [hu, hw, moveUp_only]
    rw [hp]; exact hsame (by rw [hq]; rfl)
  | nowhere hq hl ho hx hu => rw [hu]; exact hsame hq

/-- The camp table is lawful once the record of the call is gone too. -/
theorem Lawful.leave_camps (h : Lawful k s) (hc : s.call i = some c) :
    ((leave i s).setCall i none).CampLaw := by
  have hsame : ∀ u : State, u.camps = s.camps → u.slots = s.slots →
      (c.state = .camped → c.extension = none) → (u.setCall i none).CampLaw := fun u hcamps hslots hx => by
    refine h.camps.congr hcamps fun j v hv hvx => ?_
    have hu : (u.setCall i none).call j = if i = j then none else s.call j := by
      rw [setCall_call, State.call, State.call, hslots]
    rw [hu]
    by_cases hij : i = j
    · subst hij
      simp only [if_true, hc, reduceCtorEq, false_and, exists_false, Option.some.injEq, exists_eq_left',
        false_iff]
      rintro rfl
      exact hvx (hx hv)
    · rw [if_neg hij]
  cases leave_leaving hc with
  | queue hq hu => rw [hu]; exact hsame _ rfl rfl fun hst => by rw [hst] at hq; cases hq
  | loop p l hq hh hu => rw [hu]; exact hsame _ rfl rfl fun hst => by rw [hst] at hq; cases hq
  | orbit n hq hn hu => rw [hu]; exact hsame _ rfl rfl fun hst => by rw [hst] at hq; cases hq
  | camp x hq hx hu =>
    obtain ⟨a, b, hs⟩ := h.camps.split hc hq hx
    rw [hu]; exact leaveCamp_campLaw h.camps hs
  | nowhere hq hl ho hx hu => rw [hu]; exact hsame _ rfl rfl hx

end

/-! ## One call moves -/

/-- The call in a slot has moved, with its record: all other calls stand where they stood. -/
structure CallMoved (i : SlotNo) (s t : State) : Prop where
  others : OthersSame i s t
  loops : ∀ p l j, j ≠ i → (((t.pos p).loop l).slot = some j ↔ ((s.pos p).loop l).slot = some j)
  ownLoop : ∀ p l, ((t.pos p).loop l).slot = some i ↔
    ∃ d, t.call i = some d ∧ d.state.seated = true ∧ d.isHomeAt p l = true
  orbits : ∀ o j, j ≠ i → (t.orbitSlot o = some j ↔ s.orbitSlot o = some j)
  ownOrbit : ∀ o, t.orbitSlot o = some i ↔ ∃ d, t.call i = some d ∧ d.state = .parked ∧ d.orbit = some o
  offers : ∀ p, (t.pos p).offer = (s.pos p).offer
  consults : ∀ p, (t.pos p).consult.map (·.loop) = (s.pos p).consult.map (·.loop)
  mode : t.eff.mode = s.eff.mode

/-- The record names what its state must name (R9). -/
structure Call.Homed (c : Call) : Prop where
  seated : c.state.seated = true → ∃ p l, c.isHomeAt p l = true
  parked : c.state = .parked → ∃ o, c.orbit = some o
  camped : c.state = .camped → ∃ x, c.extension = some x

/-- No loop of the position but loop l holds a TALKING call, slot i aside. -/
def State.HushedBut (s : State) (p : PosNo) (l : LoopNo) (i : SlotNo) : Prop :=
  ∀ m j c, m ≠ l → ((s.pos p).loop m).slot = some j → j ≠ i → s.call j = some c → c.state ≠ .talking

/-- The laws after a move: the tables of the queue and the camps are shown apart; no position offers the
call, a consult on its loop finds it there HELD, and a TALKING call finds the other loops quiet. -/
theorem CallMoved.lawful {k : Scope} {i : SlotNo} {s t : State} (m : CallMoved i s t) (h : Lawful (k.sparing i) s)
    (hq : t.QueueLaw) (hc : t.CampLaw) (hno : s.NoOffer i)
    (hconsult : ∀ p r, k.consults p → (s.pos p).consult = some r → ((s.pos p).loop r.loop).slot = some i →
      ∃ d, t.call i = some d ∧ d.state = .held ∧ d.isHomeAt p r.loop = true)
    (hfresh : ∀ d, t.call i = some d → d.offer = none ∧ d.state ≠ .offered)
    (hhomed : k.homes → ∀ d, t.call i = some d → d.Homed)
    (hquiet : k.talk → ∀ d p l, t.call i = some d → d.state = .talking → d.isHomeAt p l = true →
      s.HushedBut p l i) : Lawful k t := by
  have moved : ∀ j, j ≠ i → ∀ d, t.call j = some d → ∃ c, s.call j = some c ∧ c.state = d.state ∧
      c.home = d.home ∧ c.orbit = d.orbit ∧ c.extension = d.extension ∧ c.offer = d.offer :=
    fun j hj d hd => by
      obtain ⟨n, hc⟩ := m.others.symm.call_some hj hd
      exact ⟨_, hc, rfl, rfl, rfl, rfl, rfl⟩
  refine ⟨fun p l j => ?_, fun o j => ?_, fun p j hp => ?_, fun p r hp hr => ?_, hq, hc, fun hk => ?_,
    fun hk => ?_, fun hk => ?_⟩
  · by_cases hj : j = i
    · subst hj; exact m.ownLoop p l
    · rw [m.loops p l j hj, h.loops, m.others.exists_iff hj (fun c => c.state.seated = true ∧
        c.isHomeAt p l = true) fun _ _ => id]
  · by_cases hj : j = i
    · subst hj; exact m.ownOrbit o
    · rw [m.orbits o j hj, h.orbits, m.others.exists_iff hj (fun c => c.state = .parked ∧
        c.orbit = some o) fun _ _ => id]
  · rw [m.offers] at hp
    exact (m.others.exists_iff (fun hj => hno p (hj ▸ hp)) (fun c => c.state = .offered) fun _ _ => id).2
      (h.offered p j hp)
  · have hl := m.consults p
    rw [hr] at hl
    cases hr' : (s.pos p).consult with
    | none => rw [hr'] at hl; cases hl
    | some r' =>
      rw [hr'] at hl
      have hll : r.loop = r'.loop := Option.some.inj hl
      obtain ⟨j, c, hsl, hcj, hst⟩ := h.consults p r' hp hr'
      rw [hll]
      by_cases hj : j = i
      · subst hj
        obtain ⟨d, hd, hdst, hdh⟩ := hconsult p r' hp hr' hsl
        exact ⟨j, d, (m.ownLoop p r'.loop).2 ⟨d, hd, by rw [hdst]; rfl, hdh⟩, hd, hdst⟩
      · obtain ⟨n, hd⟩ := m.others.call_some hj hcj
        exact ⟨j, _, (m.loops p _ j hj).2 hsl, hd, hst⟩
  · have hs := h.homes hk
    have hh : ∀ j d, t.call j = some d → d.Homed := fun j d hd => by
      by_cases hj : j = i
      · subst hj; exact hhomed hk d hd
      · obtain ⟨n, hcj⟩ := m.others.symm.call_some hj hd
        have g : Call.Homed _ := ⟨hs.seated j _ hcj, hs.parked j _ hcj, hs.camped j _ hcj⟩
        exact ⟨g.seated, g.parked, g.camped⟩
    exact ⟨fun j d hd => (hh j d hd).seated, fun j d hd => (hh j d hd).parked,
      fun j d hd => (hh j d hd).camped⟩
  · have ho := h.offers hk
    rw [m.mode]
    have hne : ∀ p j, (t.pos p).offer = some j → j ≠ i := fun p j hp hj => by
      rw [m.offers] at hp; exact hno p (hj ▸ hp)
    refine ⟨fun hm p j d hp hd => ?_, fun hm p q j hp hq => ?_, fun hm p j d hp hd => ?_,
      fun j d hj hd hst => ?_, fun j d hd hst => ?_⟩
    · obtain ⟨c, hcj, _, _, _, _, hoff⟩ := moved j (hne p j hp) d hd
      exact hoff ▸ ho.single hm p j c (by rwa [← m.offers]) hcj
    · exact ho.alone hm p q j (by rwa [← m.offers]) (by rwa [← m.offers])
    · obtain ⟨c, hcj, _, _, _, _, hoff⟩ := moved j (hne p j hp) d hd
      exact hoff ▸ ho.common hm p j c (by rwa [← m.offers]) hcj
    · have hji : j ≠ i := fun hji => by subst hji; exact (hfresh d hd).2 hst
      obtain ⟨c, hcj, hst', _⟩ := moved j hji d hd
      obtain ⟨p, hp⟩ := ho.held j c ⟨hj, hji⟩ hcj (hst'.trans hst)
      exact ⟨p, by rwa [m.offers]⟩
    · by_cases hji : j = i
      · subst hji; exact (hfresh d hd).1
      · obtain ⟨c, hcj, hst', _, _, _, hoff⟩ := moved j hji d hd
        exact hoff ▸ ho.others j c hcj (hst' ▸ hst)
  · intro p l n i₁ i₂ c d h₁ hc₁ hst₁ h₂ hc₂ hst₂
    -- two TALKING calls on one position: both stood there before, or one of them is the call that moved
    by_contra hln
    have own : ∀ {l n j₁ j₂ c d}, ((t.pos p).loop l).slot = some j₁ → t.call j₁ = some c →
        c.state = .talking → ((t.pos p).loop n).slot = some j₂ → t.call j₂ = some d → d.state = .talking →
        l ≠ n → j₁ = i → j₂ ≠ i → False := fun {l n j₁ j₂ c d} g₁ gc₁ gs₁ g₂ gc₂ gs₂ gln hj₁ hj₂ => by
      subst hj₁
      obtain ⟨c', hc', _, hh⟩ := (m.ownLoop p l).1 g₁
      rw [gc₁] at hc'; cases hc'
      obtain ⟨d', hd', hst', _⟩ := moved j₂ hj₂ d gc₂
      exact hquiet hk c p l gc₁ gs₁ hh n j₂ d' gln.symm ((m.loops p n j₂ hj₂).1 g₂) hj₂ hd' (hst'.trans gs₂)
    by_cases hi₁ : i₁ = i <;> by_cases hi₂ : i₂ = i
    · subst hi₁; subst hi₂
      obtain ⟨c', hc', _, hh⟩ := (m.ownLoop p l).1 h₁
      obtain ⟨d', hd', _, hh'⟩ := (m.ownLoop p n).1 h₂
      rw [hc'] at hd'; cases hd'
      exact hln (isHomeAt_inj hh hh').2
    · exact own h₁ hc₁ hst₁ h₂ hc₂ hst₂ hln hi₁ hi₂
    · exact own h₂ hc₂ hst₂ h₁ hc₁ hst₁ (Ne.symm hln) hi₂ hi₁
    · obtain ⟨c', hc', hst', _⟩ := moved i₁ hi₁ c hc₁
      obtain ⟨d', hd', hst'', _⟩ := moved i₂ hi₂ d hc₂
      exact hln (h.talk hk p l n i₁ i₂ c' d' ((m.loops p l i₁ hi₁).1 h₁) hc' (hst'.trans hst₁)
        ((m.loops p n i₂ hi₂).1 h₂) hd' (hst''.trans hst₂))

end Sys2Proof.Machine
end

section
/-! PROOFS. The state changes of R9 keep the laws: leaving for a final connection, ringing, holding,
seating, parking, camping, recalling and freeing. -/
namespace Sys2Proof.Machine

section
variable {k : Scope} {s t u : State} {i : SlotNo} {c : Call}

/-- A fold of operations that keep the laws keeps them. -/
theorem Lawful.foldl {α : Type} {f : State → α → State} (hf : ∀ s a, Lawful k s → Lawful k (f s a))
    (l : List α) (h : Lawful k s) : Lawful k (l.foldl f s) := by
  induction l generalizing s with
  | nil => exact h
  | cons a l ih => exact ih (hf s a h)

/-! ## Wanting, and the consult -/

theorem want_neutral (i : SlotNo) (w : Conn) (s : State) : Neutral s (want i w s) := by
  unfold want
  split
  · exact .refl s
  · split
    · exact .refl s
    · exact (Neutral.modCall i (fun c => { c with wanted := w }) s fun _ _ => rfl).trans (issue_neutral i _)

/-- What the consult record of a position out of scope says does not matter. -/
theorem Lawful.setConsult {p : PosNo} (h : Lawful (k.without p) s) (x : Option Consult) :
    Lawful (k.without p) (s.setPos p { s.pos p with consult := x }) := by
  have hpos : ∀ q, q ≠ p → (s.setPos p { s.pos p with consult := x }).pos q = s.pos q :=
    fun q hq => by rw [setPos_pos, if_neg (Ne.symm hq)]
  have hl : ∀ q l, ((s.setPos p { s.pos p with consult := x }).pos q).loop l = (s.pos q).loop l :=
    fun q l => by
      by_cases hq : q = p
      · subst hq; rw [setPos_pos, if_pos rfl]; rfl
      · rw [hpos q hq]
  have ho : ∀ q, ((s.setPos p { s.pos p with consult := x }).pos q).offer = (s.pos q).offer :=
    fun q => by
      by_cases hq : q = p
      · subst hq; rw [setPos_pos, if_pos rfl]
      · rw [hpos q hq]
  refine ⟨fun q l j => by rw [hl]; exact h.loops q l j, h.orbits, fun q j hq => h.offered q j (ho q ▸ hq),
    fun q r hq hr => ?_, ⟨h.queue.nodup, h.queue.listed, h.queue.sorted⟩,
    ⟨h.camps.size, h.camps.short, h.camps.entries, h.camps.filled, h.camps.listed, h.camps.order⟩,
    fun hk => ⟨(h.homes hk).seated, (h.homes hk).parked, (h.homes hk).camped⟩, fun hk => ?_,
    fun hk q l m => by rw [hl, hl]; exact h.talk hk q l m⟩
  · rw [hpos q hq.2] at hr ⊢
    exact h.consults q r hq hr
  · have hk := h.offers hk
    refine ⟨fun hm q j d hq => hk.single hm q j d (ho q ▸ hq),
      fun hm q r j hq hr => hk.alone hm q r j (ho q ▸ hq) (ho r ▸ hr),
      fun hm q j d hq => hk.common hm q j d (ho q ▸ hq), fun j d hj hd hst => ?_, hk.others⟩
    obtain ⟨q, hq⟩ := hk.held j d hj hd hst
    exact ⟨q, (ho q).symm ▸ hq⟩

theorem Lawful.clearConsult {p : PosNo} (h : Lawful (k.without p) s) :
    Lawful k (s.setPos p { s.pos p with consult := none }) :=
  (h.setConsult none).within fun r hr => by rw [setPos_pos, if_pos rfl] at hr; cases hr

/-- Closing the consult of a position brings its record back into the scope. -/
theorem closeConsult_lawful {p : PosNo} (drop : Bool) (h : Lawful (k.without p) s) :
    Lawful k (closeConsult p drop s) := by
  rcases closeConsult_cases p drop s with hc | ⟨n, _, _, hc⟩ <;> rw [hc]
  · exact h.clearConsult
  · exact (placeDroppable_neutral _ _).lawful h.clearConsult

/-- A closing writes the position, the switch list and the counters alone. -/
theorem closeConsult_writes (p : PosNo) (drop : Bool) (s : State) :
    ∃ frames counters, closeConsult p drop s =
      { s.setPos p { s.pos p with consult := none } with txList := frames, counters := counters } := by
  rcases closeConsult_cases p drop s with hc | ⟨n, _, _, hc⟩ <;> rw [hc]
  · exact ⟨_, _, rfl⟩
  · rcases placeDroppable_cases (.legDrop n) (s.setPos p { s.pos p with consult := none })
      with hp | hp <;> rw [hp] <;> exact ⟨_, _, rfl⟩

/-- Without a consult on its home loop, no consult is open on the loop of a call. -/
theorem Lawful.noConsult_of_home (h : Lawful k s) (hc : s.call i = some c)
    (hn : ∀ p l r, c.isHomeAt p l = true → k.consults p → (s.pos p).consult = some r → r.loop ≠ l) :
    s.NoConsult k i := fun p r hp hr hl => by
  obtain ⟨d, hd, _, hh⟩ := (h.loops p r.loop i).1 hl
  rw [hc] at hd; cases hd
  exact hn p r.loop r hh hp hr rfl

/-! ## Leaving for no place -/

/-- The call in a slot is in no loop, orbit or camp list any more; all other calls stand where they stood. -/
structure Vacated (i : SlotNo) (s u : State) : Prop where
  others : OthersSame i s u
  loops : ∀ p l j, ((u.pos p).loop l).slot = some j ↔ j ≠ i ∧ ((s.pos p).loop l).slot = some j
  orbits : ∀ o j, u.orbitSlot o = some j ↔ j ≠ i ∧ s.orbitSlot o = some j
  queue : u.queue.filter (· != i) = s.queue.filter (· != i)
  camps : (u.setCall i none).CampLaw
  offers : ∀ p, (u.pos p).offer = (s.pos p).offer
  consults : ∀ p, (u.pos p).consult = (s.pos p).consult
  mode : u.eff.mode = s.eff.mode

theorem Lawful.leave_vacated (h : Lawful k s) (hc : s.call i = some c) : Vacated i s (leave i s) := by
  have hl := leave_left i s
  refine ⟨hl.others i, h.leave_loops hc, h.leave_orbits hc, ?_, h.leave_camps hc, fun p => ?_, fun p => ?_,
    by rw [hl.state]⟩
  · rw [h.leave_queue hc, List.filter_filter]; simp
  · obtain ⟨ls, hp⟩ := hl.positions p; rw [hp]
  · obtain ⟨ls, hp⟩ := hl.positions p; rw [hp]

/-- A call of the queue is in no other collection. -/
theorem Lawful.queued_vacated (h : Lawful k s) (hc : s.call i = some c) (hq : c.state.queued = true) :
    Vacated i s s := by
  refine ⟨fun _ _ => rfl, fun p l j => ?_, fun o j => ?_, rfl, ?_, fun _ => rfl, fun _ => rfl, rfl⟩
  · refine ⟨fun hj => ⟨?_, hj⟩, And.right⟩
    rintro rfl
    obtain ⟨d, hd, hst, _⟩ := (h.loops p l j).1 hj
    rw [hc] at hd; cases hd
    rcases (queued_iff _).1 hq with g | g <;> (rw [g] at hst; cases hst)
  · refine ⟨fun hj => ⟨?_, hj⟩, And.right⟩
    rintro rfl
    obtain ⟨d, hd, hst, _⟩ := (h.orbits o j).1 hj
    rw [hc] at hd; cases hd
    rw [hst] at hq; cases hq
  · refine h.camps.congr rfl fun j v hv _ => ?_
    rw [setCall_call]
    by_cases hij : i = j
    · subst hij
      simp only [if_true, hc, reduceCtorEq, false_and, exists_false, Option.some.injEq, exists_eq_left',
        false_iff]
      rintro rfl
      have hv : c.state = .camped := hv
      rw [hv] at hq; cases hq
    · rw [if_neg hij]

/-- A vacated call takes its new place. -/
theorem Vacated.moved (v : Vacated i s u) (ht : ∀ j, j ≠ i → t.call j = u.call j)
    (hloops : ∀ p l j, j ≠ i → (((t.pos p).loop l).slot = some j ↔ ((u.pos p).loop l).slot = some j))
    (hown : ∀ p l, ((t.pos p).loop l).slot = some i ↔
      ∃ d, t.call i = some d ∧ d.state.seated = true ∧ d.isHomeAt p l = true)
    (horbits : ∀ o j, j ≠ i → (t.orbitSlot o = some j ↔ u.orbitSlot o = some j))
    (hownOrbit : ∀ o, t.orbitSlot o = some i ↔ ∃ d, t.call i = some d ∧ d.state = .parked ∧ d.orbit = some o)
    (hoffers : ∀ p, (t.pos p).offer = (u.pos p).offer) (hconsults : ∀ p, (t.pos p).consult = (u.pos p).consult)
    (hmode : t.eff.mode = u.eff.mode) : CallMoved i s t := by
  refine ⟨fun j hj => by rw [ht j hj, v.others j hj], fun p l j hj => ?_, hown, fun o j hj => ?_, hownOrbit,
    fun p => (hoffers p).trans (v.offers p), fun p => ?_, hmode.trans v.mode⟩
  · rw [hloops p l j hj, v.loops]; exact and_iff_right hj
  · rw [horbits o j hj, v.orbits]; exact and_iff_right hj
  · rw [hconsults, v.consults]

/-- No loop and no orbit holds a vacated call. -/
theorem Vacated.loop_ne (v : Vacated i s u) (p : PosNo) (l : LoopNo) : ((u.pos p).loop l).slot ≠ some i :=
  fun hl => ((v.loops p l i).1 hl).1 rfl

theorem Vacated.orbit_ne (v : Vacated i s u) (o : OrbitNo) : u.orbitSlot o ≠ some i :=
  fun ho => ((v.orbits o i).1 ho).1 rfl

/-- A vacated call, in a state without a loop or an orbit. -/
theorem Vacated.moved_placeless (v : Vacated i s u) (ht : ∀ j, j ≠ i → t.call j = u.call j)
    (hi : ∀ d, t.call i = some d → d.state.seated = false ∧ d.state ≠ .parked)
    (hpositions : t.positions = u.positions) (horbits : t.orbits = u.orbits)
    (hmode : t.eff.mode = u.eff.mode) : CallMoved i s t := by
  have hpos : ∀ p, t.pos p = u.pos p := fun p => by rw [State.pos, State.pos, hpositions]
  have horb : ∀ o, t.orbitSlot o = u.orbitSlot o := fun o => by
    rw [State.orbitSlot, State.orbitSlot, horbits]
  refine v.moved ht (fun p l j _ => by rw [hpos]) (fun p l => ?_) (fun o j _ => by rw [horb]) (fun o => ?_)
    (fun p => by rw [hpos]) (fun p => by rw [hpos]) hmode
  · rw [hpos]
    refine ⟨fun hl => absurd hl (v.loop_ne p l), fun ⟨d, hd, hst, _⟩ => ?_⟩
    rw [(hi d hd).1] at hst; cases hst
  · rw [horb]
    exact ⟨fun ho => absurd ho (v.orbit_ne o), fun ⟨d, hd, hst, _⟩ => absurd hst (hi d hd).2⟩

/-- The camp table of a call that has left it. -/
theorem State.CampLaw.of_left (h : (u.setCall i none).CampLaw) (hcamps : t.camps = u.camps)
    (ht : ∀ j, j ≠ i → t.call j = u.call j) (hi : ∀ d, t.call i = some d → d.state ≠ .camped) : t.CampLaw := by
  refine h.congr hcamps fun j v hv _ => ?_
  rw [setCall_call]
  by_cases hij : i = j
  · subst hij
    simp only [if_true, reduceCtorEq, false_and, exists_false, iff_false]
    rintro ⟨d, hd, rfl⟩
    exact hi d hd hv
  · rw [if_neg hij, ht j (Ne.symm hij)]

theorem modCall_others (i : SlotNo) (f : Call → Call) (s : State) : OthersSame i s (s.modCall i f) :=
  fun j hj => by rw [modCall_call, if_neg (Ne.symm hj)]

/-- A call leaves its collection for a state without a place, or its slot falls FREE. -/
theorem Lawful.unplaced (h : Lawful (k.sparing i) s) (hc : s.call i = some c) (hno : s.NoOffer i)
    (hnc : s.NoConsult k i) (x : Option Call)
    (hx : ∀ d, x = some d → (d.state = .ringing ∨ d.state = .departing) ∧ d.offer = none) :
    Lawful k ((leave i s).setCall i x) := by
  have hcall : ((leave i s).setCall i x).call i = x := by rw [setCall_call, if_pos rfl]
  have hst : ∀ d, ((leave i s).setCall i x).call i = some d → d.state = .ringing ∨ d.state = .departing :=
    fun d hd => (hx d (hcall ▸ hd)).1
  have hothers : ∀ j, j ≠ i → ((leave i s).setCall i x).call j = (leave i s).call j := fun j hj => by
    rw [setCall_call, if_neg (Ne.symm hj)]
  have hm : CallMoved i s ((leave i s).setCall i x) := by
    refine (h.leave_vacated hc).moved_placeless hothers (fun d hd => ?_) rfl rfl rfl
    rcases hst d hd with hd | hd <;> rw [hd] <;> decide
  refine hm.lawful h (hm.others.queueLaw_left h.queue (by rw [setCall_queue, h.leave_queue hc]) ?_)
    ((h.leave_camps hc).of_left rfl hothers ?_) hno (fun p r hp hr hl => absurd hl (hnc p r hp hr)) ?_ ?_ ?_
  · intro d hd; rcases hst d hd with hd | hd <;> rw [hd] <;> rfl
  · intro d hd; rcases hst d hd with hd | hd <;> rw [hd] <;> decide
  · intro d hd
    refine ⟨(hx d (hcall ▸ hd)).2, ?_⟩
    rcases hst d hd with hd | hd <;> rw [hd] <;> decide
  · intro _ d hd
    refine ⟨?_, ?_, ?_⟩ <;> intro g <;> rcases hst d hd with hd | hd <;> (rw [hd] at g; cases g)
  · intro _ d p l hd g; rcases hst d hd with hd | hd <;> (rw [hd] at g; cases g)

theorem Left.modCall (h : Left s t) (hc : s.call i = some c) (f : Call → Call) :
    ∃ n, t.modCall i f = t.setCall i (some (f { c with campOrder := n })) := by
  obtain ⟨n, hn⟩ := h.call_some hc
  exact ⟨n, by rw [State.modCall, hn]; rfl⟩

theorem depart_lawful (h : Lawful k s) (hc : s.call i = some c) (hno : s.NoOffer i) (hnc : s.NoConsult k i)
    (x : Option Ext) (w : Conn) : Lawful k (depart i x w s) := by
  unfold depart
  obtain ⟨n, hn⟩ := (leave_left i s).modCall hc (fun c => { c.enter .departing with extension := x })
  rw [hn]
  exact (want_neutral i w _).lawful ((h.sparing i).unplaced hc hno hnc _
    fun d hd => by cases hd; exact ⟨.inr rfl, rfl⟩)

theorem ringAt_lawful (h : Lawful k s) (hc : s.call i = some c) (hno : s.NoOffer i) (hnc : s.NoConsult k i)
    (x : Ext) : Lawful k (ringAt i x s) := by
  unfold ringAt
  obtain ⟨n, hn⟩ := (leave_left i s).modCall hc (fun c => { c.enter .ringing with extension := some x })
  rw [hn]
  exact (want_neutral i _ _).lawful ((h.sparing i).unplaced hc hno hnc _
    fun d hd => by cases hd; exact ⟨.inl rfl, rfl⟩)

/-! ## Holding and talking -/

/-- A seated call changes between TALKING and HELD on its loop. -/
theorem Lawful.reseated (h : Lawful k s) (hc : s.call i = some c) (hst : c.state.seated = true)
    (f : Call → Call) (hf : (f c).state.seated = true) (hhome : (f c).home = c.home)
    (hoffer : (f c).offer = none) (hheld : (f c).state = .held ∨ s.NoConsult k i)
    (hhush : k.talk → (f c).state = .talking → ∀ p l, c.isHomeAt p l = true → s.HushedBut p l i) :
    Lawful k (s.modCall i f) := by
  have hcall : (s.modCall i f).call i = some (f c) := by rw [modCall_call, if_pos rfl, hc]; rfl
  have hhome' : ∀ p l, (f c).isHomeAt p l = c.isHomeAt p l := fun p l => by
    rw [Call.isHomeAt, Call.isHomeAt, hhome]
  have hq : c.state.queued = false := by rcases (seated_iff _).1 hst with h | h <;> rw [h] <;> rfl
  have hfq : (f c).state.queued = false := by rcases (seated_iff _).1 hf with h | h <;> rw [h] <;> rfl
  have hno : s.NoOffer i := h.noOffer hc (by intro ho; rw [ho] at hq; cases hq)
  have hm : CallMoved i s (s.modCall i f) := by
    refine ⟨modCall_others i f s, fun _ _ _ _ => .rfl, fun p l => ?_, fun _ _ _ => .rfl, fun o => ?_,
      fun _ => rfl, fun _ => rfl, rfl⟩
    · rw [modCall_pos, h.loops, hc, hcall]
      simp only [Option.some.injEq, exists_eq_left', hhome', hst, hf]
    · rw [modCall_orbitSlot, h.orbits, hc, hcall]
      simp only [Option.some.injEq, exists_eq_left']
      constructor
      · rintro ⟨g, _⟩; rw [g] at hst; cases hst
      · rintro ⟨g, _⟩; rw [g] at hf; cases hf
  have one : ∀ d, (s.modCall i f).call i = some d → d = f c := fun d hd =>
    (Option.some.inj (hcall.symm.trans hd)).symm
  refine hm.lawful (h.sparing i) (hm.others.queueLaw_left h.queue ?_ fun d hd => by rw [one d hd]; exact hfq)
    (h.camps.congr rfl fun j v hv _ => ?_) hno (fun p r hp hr hl => ?_) (fun d hd => ?_) (fun hk d hd => ?_)
    (fun hk d p l hd g hh => ?_)
  · rw [modCall_queue]
    refine (List.filter_eq_self.2 fun j hj => bne_iff_ne.2 fun hji => ?_).symm
    obtain ⟨d, hd, hdq⟩ := (h.queue.listed i).1 (hji ▸ hj)
    rw [hc] at hd; cases hd; rw [hq] at hdq; cases hdq
  · by_cases hij : i = j
    · subst hij
      rw [hcall, hc]
      simp only [Option.some.injEq, exists_eq_left']
      constructor <;> rintro rfl
      · have hv : (f c).state = .camped := hv
        rw [hv] at hf; cases hf
      · have hv : c.state = .camped := hv
        rw [hv] at hst; cases hst
    · rw [modCall_call, if_neg hij]
  · obtain ⟨d, hd, _, hh⟩ := (h.loops p r.loop i).1 hl
    rw [hc] at hd; cases hd
    exact ⟨f c, hcall, hheld.resolve_right fun hn => hn p r hp hr hl, by rw [hhome']; exact hh⟩
  · rw [one d hd]
    exact ⟨hoffer, by intro g; rw [g] at hf; cases hf⟩
  · rw [one d hd]
    obtain ⟨p, l, hh⟩ := (h.homes hk).seated i c hc hst
    exact ⟨fun _ => ⟨p, l, by rw [hhome']; exact hh⟩, fun g => (by rw [g] at hf; cases hf),
      fun g => (by rw [g] at hf; cases hf)⟩
  · rw [one d hd] at g hh
    exact hhush hk g p l (by rw [← hhome']; exact hh)

theorem holdSeated_lawful (h : Lawful k s) (hc : s.call i = some c) (hst : c.state = .talking) :
    Lawful k (holdSeated i s) := by
  unfold holdSeated
  refine (want_neutral i _ _).lawful (h.reseated hc (by rw [hst]; rfl) _ rfl rfl rfl (.inl rfl) ?_)
  intro _ g; cases g

/-- After the auto-hold no loop of the position but loop l holds a TALKING call (R98). -/
theorem autoHold_hushed (p : PosNo) (l : LoopNo) (s : State) (i : SlotNo) :
    (autoHold p l s).HushedBut p l i := by
  intro m j c hm hl _ hc hst
  have hl' : ((s.pos p).loop m).slot = some j := by rw [(autoHold_onlyRecords p l s).state] at hl; exact hl
  rcases autoHold_call p l s j with hs | ⟨_, d, o, _, _, hd⟩
  · rw [hs] at hc
    obtain ⟨o, ho⟩ := autoHold_holds p l m s j c hm hl' hc hst
    rw [hs, hc] at ho
    rw [Option.some.inj ho] at hst; cases hst
  · rw [hd] at hc; cases hc; cases hst

theorem autoHold_lawful (h : Lawful k s) (p : PosNo) (l : LoopNo) : Lawful k (autoHold p l s) := by
  rw [autoHold_eq]
  refine Lawful.foldl (fun s m h => ?_) allLoops h
  unfold autoHoldAt
  split
  · exact h
  · split
    · exact h
    · rename_i j c hj
      split
      · rename_i hst; exact holdSeated_lawful h (h.loopCall hj).2.1 hst
      · exact h

/-- What the auto-hold leaves as it is. -/
theorem autoHold_keeps (p : PosNo) (l : LoopNo) (s : State) :
    (autoHold p l s).positions = s.positions ∧ (autoHold p l s).orbits = s.orbits :=
  have h := autoHold_onlyRecords p l s
  ⟨by rw [h.state], by rw [h.state]⟩

/-- The call on loop l itself is not held, nor is a call on no loop of the position. -/
theorem autoHold_call_of (h : Lawful k s) {p : PosNo} {l : LoopNo} (hc : s.call i = some c)
    (hi : c.state ≠ .talking ∨ c.isHomeAt p l = true) : (autoHold p l s).call i = some c := by
  rcases autoHold_call p l s i with hs | ⟨⟨m, hm, hl⟩, d, _, hd, hst, _⟩
  · rw [hs]; exact hc
  · rw [hc] at hd; cases hd
    rcases hi with hi | hi
    · exact absurd hst hi
    · obtain ⟨d, hd, _, hh⟩ := (h.loops p m i).1 hl
      rw [hc] at hd; cases hd
      exact absurd (isHomeAt_inj hh hi).2 hm

theorem talkAgain_lawful (h : Lawful k s) {p : PosNo} {l : LoopNo} (hc : s.call i = some c)
    (hst : c.state.seated = true) (hh : c.isHomeAt p l = true) (hnc : s.NoConsult k i) :
    Lawful k (talkAgain p l i s) := by
  have hu := autoHold_lawful h p l
  obtain ⟨hpos, -⟩ := autoHold_keeps p l s
  unfold talkAgain
  refine (want_neutral i _ _).lawful (hu.reseated (autoHold_call_of h hc (.inr hh)) hst _ rfl rfl rfl
    (.inr ?_) ?_)
  · intro q r hq hr
    rw [State.pos, hpos] at hr ⊢
    exact hnc q r hq hr
  · intro _ _ q m hqm
    obtain ⟨rfl, rfl⟩ := isHomeAt_inj hh hqm
    exact autoHold_hushed p l s i

/-! ## Seating, parking and recalling -/

/-- A call leaves its collection for an empty loop of a position whose other loops are quiet. -/
theorem Lawful.seated (h : Lawful (k.sparing i) s) (hc : s.call i = some c) (hno : s.NoOffer i)
    (hnc : s.NoConsult k i) {p : PosNo} {l : LoopNo} (hempty : ((s.pos p).loop l).slot = none)
    (hhush : s.HushedBut p l i) (x : Loop) (hx : x.slot = some i) (f : Call → Call)
    (hf : ∀ c, (f c).state = .talking ∧ (f c).home = some { pos := p, loop := some l } ∧ (f c).offer = none) :
    Lawful k (((leave i s).setLoop p l x).modCall i f) := by
  have v := h.leave_vacated hc
  obtain ⟨n, hn⟩ := (leave_left i s).call_some hc
  set t := ((leave i s).setLoop p l x).modCall i f with ht
  have hcall : t.call i = some (f { c with campOrder := n }) := by
    rw [ht, modCall_call, if_pos rfl, setLoop_call, hn]; rfl
  have one : ∀ d, t.call i = some d → d.state = .talking ∧ d.home = some { pos := p, loop := some l } ∧
      d.offer = none := fun d hd => by rw [hcall] at hd; cases hd; exact hf _
  have hothers : ∀ j, j ≠ i → t.call j = (leave i s).call j := fun j hj => by
    rw [ht, modCall_call, if_neg (Ne.symm hj), setLoop_call]
  have hloop : ∀ q m, (t.pos q).loop m = if p = q ∧ l = m then x else ((leave i s).pos q).loop m :=
    fun q m => by rw [ht, modCall_pos, setLoop_loop]
  have hpos : ∀ q, (t.pos q).offer = ((leave i s).pos q).offer ∧
      (t.pos q).consult = ((leave i s).pos q).consult := fun q => by
    rw [ht, modCall_pos, setLoop_pos]
    by_cases hq : p = q
    · subst hq; simp
    · simp [hq]
  have hm : CallMoved i s t := by
    refine v.moved hothers (fun q m j hj => ?_) (fun q m => ?_) (fun _ _ _ => .rfl) (fun o => ?_)
      (fun q => (hpos q).1) (fun q => (hpos q).2) rfl
    · rw [hloop]
      by_cases hql : p = q ∧ l = m
      · obtain ⟨rfl, rfl⟩ := hql
        rw [if_pos ⟨rfl, rfl⟩, hx, v.loops, hempty]
        simp [Ne.symm hj]
      · rw [if_neg hql]
    · rw [hloop, hcall]
      obtain ⟨hst, hh, _⟩ := hf { c with campOrder := n }
      simp only [Option.some.injEq, exists_eq_left', hst, Call.isHomeAt, hh, beq_iff_eq, Home.mk.injEq]
      by_cases hql : p = q ∧ l = m
      · rw [if_pos hql, hx]; simpa [CallState.seated] using hql
      · rw [if_neg hql]
        refine ⟨fun hl => absurd hl (v.loop_ne q m), fun g => absurd g.2 hql⟩
    · exact ⟨fun ho => absurd ho (v.orbit_ne o),
        fun ⟨d, hd, hst, _⟩ => by rw [(one d hd).1] at hst; cases hst⟩
  refine hm.lawful h (hm.others.queueLaw_left h.queue ?_ fun d hd => ?_)
    ((h.leave_camps hc).of_left rfl hothers fun d hd => ?_) hno (fun q r hq hr hl => absurd hl (hnc q r hq hr))
    (fun d hd => ?_) (fun _ d hd => ?_) (fun _ d q m hd _ hh => ?_)
  · rw [ht, modCall_queue, setLoop_queue, h.leave_queue hc]
  · rw [(one d hd).1]; rfl
  · rw [(one d hd).1]; decide
  · rw [(one d hd).1]; exact ⟨(one d hd).2.2, by decide⟩
  · refine ⟨fun _ => ⟨p, l, by rw [Call.isHomeAt, (one d hd).2.1]; exact beq_self_eq_true _⟩, fun g => ?_,
      fun g => ?_⟩ <;> (rw [(one d hd).1] at g; cases g)
  · have hpl : d.isHomeAt p l = true := by rw [Call.isHomeAt, (one d hd).2.1]; exact beq_self_eq_true _
    obtain ⟨rfl, rfl⟩ := isHomeAt_inj hpl hh
    exact hhush

theorem seat_lawful (h : Lawful (k.sparing i) s) (hc : s.call i = some c) (hst : c.state ≠ .talking)
    (hno : s.NoOffer i) (hnc : s.NoConsult k i) {p : PosNo} {l : LoopNo}
    (hempty : ((s.pos p).loop l).slot = none) (fresh : Bool) : Lawful k (seat p l i fresh s) := by
  obtain ⟨hpos, -⟩ := autoHold_keeps p l s
  have hp : ∀ q, (autoHold p l s).pos q = s.pos q := fun q => by rw [State.pos, State.pos, hpos]
  unfold seat
  refine (want_neutral i _ _).lawful ((autoHold_lawful h p l).seated
    (autoHold_call_of h hc (.inl hst)) (fun q => by rw [hp]; exact hno q)
    (fun q r hq hr => by rw [hp] at hr ⊢; exact hnc q r hq hr) (by rw [hp]; exact hempty)
    (autoHold_hushed p l s i) _ rfl _ fun c => ⟨rfl, rfl, rfl⟩)

theorem parkCall_lawful (h : Lawful k s) (hc : s.call i = some c) (hno : s.NoOffer i) (hnc : s.NoConsult k i)
    {o : OrbitNo} (hempty : s.orbitSlot o = none) : Lawful k (parkCall i o s) := by
  have v := h.leave_vacated hc
  obtain ⟨n, hn⟩ := (leave_left i s).call_some hc
  unfold parkCall
  dsimp only
  set t : State := { (leave i s).modCall i (fun c => { c.enter .parked with orbit := some o }) with
    orbits := vset ((leave i s).modCall i (fun c => { c.enter .parked with orbit := some o })).orbits o
      (some i) } with ht
  refine (want_neutral i _ _).lawful ?_
  have hcall : ∀ j, t.call j = ((leave i s).modCall i
      (fun c => { c.enter .parked with orbit := some o })).call j := fun _ => rfl
  have one : ∀ d, t.call i = some d → d.state = .parked ∧ d.orbit = some o ∧ d.offer = none := fun d hd => by
    rw [hcall, modCall_call, if_pos rfl, hn] at hd; cases hd; exact ⟨rfl, rfl, rfl⟩
  have hsome : ∃ d, t.call i = some d := ⟨_, by rw [hcall, modCall_call, if_pos rfl, hn]; rfl⟩
  have hothers : ∀ j, j ≠ i → t.call j = (leave i s).call j := fun j hj => by
    rw [hcall, modCall_call, if_neg (Ne.symm hj)]
  have horbit : ∀ m, t.orbitSlot m = if o = m then some i else (leave i s).orbitSlot m := fun m =>
    writeOrbit_orbitSlot _ o m _
  have hm : CallMoved i s t := by
    refine v.moved hothers (fun _ _ _ _ => .rfl) (fun p l => ?_) (fun m j hj => ?_) (fun m => ?_)
      (fun _ => rfl) (fun _ => rfl) rfl
    · exact ⟨fun hl => absurd hl (v.loop_ne p l),
        fun ⟨d, hd, hst, _⟩ => by rw [(one d hd).1] at hst; cases hst⟩
    · rw [horbit]
      by_cases hom : o = m
      · subst hom; rw [if_pos rfl, v.orbits, hempty]; simp [Ne.symm hj]
      · rw [if_neg hom]
    · obtain ⟨d, hd⟩ := hsome
      obtain ⟨hst, hdo, _⟩ := one d hd
      rw [horbit, hd]
      simp only [Option.some.injEq, exists_eq_left', hst, hdo, true_and]
      by_cases hom : o = m
      · simp [hom]
      · rw [if_neg hom]
        exact ⟨fun ho => absurd ho (v.orbit_ne m), fun g => absurd g hom⟩
  refine hm.lawful (h.sparing i) (hm.others.queueLaw_left h.queue (h.leave_queue hc) fun d hd => ?_)
    ((h.leave_camps hc).of_left rfl hothers fun d hd => ?_) hno (fun q r hq hr hl => absurd hl (hnc q r hq hr))
    (fun d hd => ?_) (fun _ d hd => ?_) (fun _ d q m hd g => ?_)
  · rw [(one d hd).1]; rfl
  · rw [(one d hd).1]; decide
  · rw [(one d hd).1]; exact ⟨(one d hd).2.2, by decide⟩
  · refine ⟨fun g => ?_, fun _ => ⟨o, (one d hd).2.1⟩, fun g => ?_⟩ <;> (rw [(one d hd).1] at g; cases g)
  · rw [(one d hd).1] at g; cases g

/-- A vacated call that waits again and is placed in the queue by its stored score (R63). -/
theorem Vacated.queued_lawful (v : Vacated i s u) (h : Lawful (k.sparing i) s) (hno : s.NoOffer i)
    (hnc : s.NoConsult k i) (ht : ∀ j, j ≠ i → t.call j = u.call j)
    (hi : ∃ d, t.call i = some d ∧ d.state = .waiting ∧ d.offer = none)
    (hpositions : t.positions = u.positions) (horbits : t.orbits = u.orbits) (hcamps : t.camps = u.camps)
    (hmode : t.eff.mode = u.eff.mode)
    (hqueue : t.queue = insertByScore t.storedScore i (u.queue.filter (· != i))) : Lawful k t := by
  obtain ⟨d, hd, hst, hoff⟩ := hi
  have one : ∀ e, t.call i = some e → e.state = .waiting ∧ e.offer = none := fun e he => by
    rw [hd] at he; cases he; exact ⟨hst, hoff⟩
  have hm : CallMoved i s t := by
    refine v.moved_placeless ht (fun e he => ?_) hpositions horbits hmode
    rw [(one e he).1]; decide
  refine hm.lawful h (hm.others.queueLaw_placed h.queue (by rw [hqueue, v.queue]) ⟨d, hd, by rw [hst]; rfl⟩)
    (v.camps.of_left hcamps ht fun e he => ?_) hno (fun q r hq hr hl => absurd hl (hnc q r hq hr))
    (fun e he => ?_) (fun _ e he => ?_) (fun _ e q m he g => ?_)
  · rw [(one e he).1]; decide
  · rw [(one e he).1]; exact ⟨(one e he).2, by decide⟩
  · refine ⟨?_, ?_, ?_⟩ <;> intro g <;> (rw [(one e he).1] at g; cases g)
  · rw [(one e he).1] at g; cases g

/-- Steps 2 to 4 of a recall, of a call that has been vacated. -/
theorem Vacated.recalled_lawful (v : Vacated i s u) (h : Lawful (k.sparing i) s) (hno : s.NoOffer i)
    (hnc : s.NoConsult k i) (hc : u.call i = some c) (reason : RecallReason) :
    Lawful k (bump .recalls (place i (rescore i (issue i (u.modCall i (·.recalled reason)))))) := by
  refine (bump_neutral .recalls _).lawful ?_
  have hr := issue_onlyRecords i (u.modCall i (·.recalled reason))
  have hother : ∀ j, j ≠ i → (issue i (u.modCall i (·.recalled reason))).call j = u.call j := fun j hj => by
    have hmod : (u.modCall i (·.recalled reason)).call j = u.call j := by
      rw [modCall_call, if_neg (Ne.symm hj)]
    rcases issue_cases i (u.modCall i (·.recalled reason)) with hx | ⟨_, _, _, hx⟩
    · rw [hx, hmod]
    · rw [hx, ← hmod]; simp [State.call, Ne.symm hj]
  have hown : ∃ d, (issue i (u.modCall i (·.recalled reason))).call i = some d ∧ d.state = .waiting ∧
      d.offer = none := by
    obtain ⟨o, ho⟩ := issue_call i i (u.modCall i (·.recalled reason))
    rw [modCall_call, if_pos rfl, hc] at ho
    exact ⟨_, ho, rfl, rfl⟩
  have hkept : (issue i (u.modCall i (·.recalled reason))).positions = u.positions ∧
      (issue i (u.modCall i (·.recalled reason))).orbits = u.orbits ∧
      (issue i (u.modCall i (·.recalled reason))).camps = u.camps ∧
      (issue i (u.modCall i (·.recalled reason))).queue = u.queue ∧
      (issue i (u.modCall i (·.recalled reason))).eff = u.eff := by
    rw [hr.state]; exact ⟨rfl, rfl, rfl, rfl, rfl⟩
  generalize issue i (u.modCall i (·.recalled reason)) = w at hother hown hkept ⊢
  obtain ⟨hpositions, horbits, hcamps, hqueue, heff⟩ := hkept
  obtain ⟨d, hd, hst, hoff⟩ := hown
  refine v.queued_lawful h hno hnc (fun j hj => ?_) ⟨{ d with score := scoreOf w.eff d }, ?_, hst, hoff⟩
    hpositions horbits hcamps (by rw [← heff]; rfl) (by rw [← hqueue]; rfl)
  · rw [← hother j hj]
    change (w.modCall i _).call j = _
    rw [modCall_call, if_neg (Ne.symm hj)]
  · change (w.modCall i _).call i = _
    rw [modCall_call, if_pos rfl, hd]; rfl

end

end Sys2Proof.Machine
end

section
/-! PROOFS. Offers, the effective plan and distribution keep the laws (R43 to R45, R75 to R81, R84). -/
namespace Sys2Proof.Machine

section
variable {k : Scope} {s t : State} {i j : SlotNo} {c : Call} {p q : PosNo}

/-! ## Folds over the positions -/

theorem all_positions (p : PosNo) : p ∈ allPos := by revert p; decide

/-- What a step brings about for its own position and keeps for every other holds for all in the end. -/
theorem foldl_positions {P : State → PosNo → Prop} {f : State → PosNo → State}
    (hown : ∀ s p, P (f s p) p) (hkeep : ∀ s p q, P s q → P (f s p) q) (s : State) (q : PosNo) :
    P (allPos.foldl f s) q := by
  have hkept : ∀ (l : List PosNo) (s : State), P s q → P (l.foldl f s) q := fun l => by
    induction l with
    | nil => exact fun _ => id
    | cons p l ih => exact fun s h => ih _ (hkeep s p q h)
  have hall : ∀ (l : List PosNo) (s : State), q ∈ l → P (l.foldl f s) q := fun l => by
    induction l with
    | nil => exact fun _ h => by cases h
    | cons p l ih =>
      intro s h
      rcases List.mem_cons.1 h with rfl | h
      · exact hkept l _ (hown s q)
      · exact ih _ h
  exact hall allPos s (all_positions q)

/-! ## Changes of the offers -/

@[simp] theorem setOffer_offer (p q : PosNo) (o : Option SlotNo) (s : State) :
    ((setOffer p o s).pos q).offer = if p = q then o else (s.pos q).offer := by
  rw [setOffer, setPos_pos]; split <;> rfl

/-- The offers have changed, and with them the record of one call of the queue; all else stands. -/
structure Reoffered (i : SlotNo) (s t : State) : Prop where
  others : ∀ j, j ≠ i → t.call j = s.call j
  own : t.call i = s.call i ∨ ∃ c d, s.call i = some c ∧ t.call i = some d ∧ c.state.queued = true ∧
    d.state.queued = true ∧ d.score = c.score
  loops : ∀ p l, ((t.pos p).loop l).slot = ((s.pos p).loop l).slot
  consults : ∀ p, (t.pos p).consult = (s.pos p).consult
  orbits : t.orbits = s.orbits
  camps : t.camps = s.camps
  queue : t.queue = s.queue
  mode : t.eff.mode = s.eff.mode

theorem Reoffered.shuffled (m : Reoffered i s t) : Shuffled s t := by
  refine ⟨fun j v hv => ?_, m.loops, fun p => by rw [m.consults], m.orbits, m.camps⟩
  by_cases hj : j = i
  · subst hj
    rcases m.own with ho | ⟨c, d, hc, hd, hcq, hdq, _⟩
    · rw [ho]
    · rw [hc, hd]
      simp only [Option.some.injEq, exists_eq_left']
      constructor <;> rintro rfl
      · exact absurd hdq (by have hv : d.state.queued = false := hv; simp [hv])
      · exact absurd hcq (by have hv : c.state.queued = false := hv; simp [hv])
  · rw [m.others j hj]

theorem Reoffered.queueLaw (m : Reoffered i s t) (h : s.QueueLaw) : t.QueueLaw := by
  have hscore : ∀ j, t.storedScore j = s.storedScore j := fun j => by
    by_cases hj : j = i
    · subst hj
      rcases m.own with ho | ⟨c, d, hc, hd, _, _, hs⟩
      · rw [State.storedScore, State.storedScore, ho]
      · rw [State.storedScore, State.storedScore, hc, hd]; exact hs
    · rw [State.storedScore, State.storedScore, m.others j hj]
  refine ⟨m.queue ▸ h.nodup, fun j => ?_, ?_⟩
  · rw [m.queue, h.listed]
    by_cases hj : j = i
    · subst hj
      rcases m.own with ho | ⟨c, d, hc, hd, hcq, hdq, _⟩
      · rw [ho]
      · simp [hc, hd, hcq, hdq]
    · rw [m.others j hj]
  · rw [m.queue]; exact h.sorted.imp fun hx => by rwa [hscore, hscore]

theorem Reoffered.lawful (m : Reoffered i s t) (h : Lawful k s)
    (ho : ∀ p i, (t.pos p).offer = some i → ∃ c, t.call i = some c ∧ c.state = .offered)
    (hoffers : k.offers → OffersIn t.eff.mode k.held t) : Lawful k t :=
  m.shuffled.lawful h (m.queueLaw h.queue) ho hoffers

/-! ## The end of the offers of one call -/

theorem endOffers_noOffer (i : SlotNo) (s : State) : (endOffers i s).NoOffer i := by
  refine fun q => foldl_positions (P := fun s q => (s.pos q).offer ≠ some i) (fun s p => ?_)
    (fun s p q hq => ?_) s q
  · by_cases h : (s.pos p).offer = some i
    · rw [if_pos h]; simp
    · rw [if_neg h]; exact h
  · by_cases h : (s.pos p).offer = some i
    · rw [if_pos h, setOffer_offer]; split
      · simp
      · exact hq
    · rw [if_neg h]; exact hq

theorem endOffers_call (i : SlotNo) (s : State) (j : SlotNo) : (endOffers i s).call j = s.call j := by
  unfold endOffers
  generalize allPos = l
  induction l generalizing s with
  | nil => rfl
  | cons p l ih =>
    rw [List.foldl_cons, ih]
    split
    · exact setPos_call s p _ j
    · rfl

/-- Ending the offers of a call leaves its slot out of the scope. -/
theorem endOffers_lawful (h : Lawful (k.sparing i) s) : Lawful (k.sparing i) (endOffers i s) := by
  refine Lawful.foldl (fun s p h => ?_) allPos h
  split
  · rename_i hp
    have m : Reoffered i s (setOffer p none s) := by
      refine ⟨fun _ _ => rfl, .inl rfl, fun q l => ?_, fun q => ?_, rfl, rfl, rfl, rfl⟩ <;>
        (rw [setOffer, setPos_pos]; split)
      · rename_i hq; subst hq; rfl
      · rfl
      · rename_i hq; subst hq; rfl
      · rfl
    have back : ∀ q j, ((setOffer p none s).pos q).offer = some j → (s.pos q).offer = some j :=
      fun q j hq => by
        rw [setOffer_offer] at hq
        split at hq
        · cases hq
        · exact hq
    refine m.lawful h (fun q j hq => h.offered q j (back q j hq)) fun hk => ?_
    have ho := h.offers hk
    refine ⟨fun hm q j c hq => ho.single hm q j c (back q j hq),
      fun hm q r j hq hr => ho.alone hm q r j (back q j hq) (back r j hr),
      fun hm q j c hq => ho.common hm q j c (back q j hq), fun j c hj hc hst => ?_, ho.others⟩
    obtain ⟨q, hq⟩ := ho.held j c hj hc hst
    refine ⟨q, ?_⟩
    rw [setOffer_offer, if_neg]
    · exact hq
    · rintro rfl
      rw [hp] at hq
      exact hj.2 (Option.some.inj hq).symm
  · exact h

/-! ## Withdrawals (R84) -/

theorem withdrawAt_none (h : (s.pos p).offer = none) : withdrawAt p s = s := by
  unfold withdrawAt; rw [h]

theorem modCall_modCall (i : SlotNo) (f g : Call → Call) (s : State) :
    (s.modCall i f).modCall i g = s.modCall i (g ∘ f) := by
  have h : (s.modCall i f).call i = (s.call i).map f := by rw [modCall_call, if_pos rfl]
  unfold State.modCall at h ⊢
  rw [h]
  simp only [State.setCall, vset_vset, Option.map_map]

theorem modCall_congr {f g : Call → Call} (hc : s.call i = some c) (h : f c = g c) :
    s.modCall i f = s.modCall i g := by
  rw [modCall_eq hc, modCall_eq hc, h]

/-- The record of a call whose offer at one position is withdrawn. -/
def Call.withdrawn (c : Call) (shown : Bool) : Call :=
  if shown then { c with preferred := none } else ({ c with preferred := none } : Call).enter .waiting

theorem withdrawAt_eq (h : (s.pos p).offer = some i) (hc : s.call i = some c) (hst : c.state = .offered) :
    withdrawAt p s = (setOffer p none s).modCall i
      (fun c => c.withdrawn ((setOffer p none s).shownAnywhere i)) := by
  have hc' : (setOffer p none s).call i = some c := by rw [setOffer, setPos_call]; exact hc
  unfold withdrawAt
  rw [h]
  dsimp only
  change (if (setOffer p none s).shownAnywhere i = true then _ else _) = _
  unfold modOffered
  cases (setOffer p none s).shownAnywhere i with
  | true =>
    refine (if_pos rfl).trans (modCall_congr hc' ?_)
    rw [if_pos hst]; rfl
  | false =>
    refine (if_neg (by simp)).trans ((modCall_modCall _ _ _ _).trans (modCall_congr hc' ?_))
    simp only [Function.comp_apply, if_pos hst]
    rfl

theorem withdrawAt_offer (p q : PosNo) (s : State) :
    ((withdrawAt p s).pos q).offer = if p = q then none else (s.pos q).offer := by
  have hmod : ∀ (f : Call → Call) (s : State) (i : SlotNo) q, ((modOffered i f s).pos q) = s.pos q :=
    fun f s i q => modCall_pos s i _ q
  cases h : (s.pos p).offer with
  | none =>
    rw [withdrawAt_none h]
    split
    · rename_i hpq; rw [← hpq, h]
    · rfl
  | some i =>
    unfold withdrawAt
    rw [h]
    dsimp only
    split
    · rw [hmod, setOffer_offer]
    · rw [hmod, hmod, setOffer_offer]

theorem shownAnywhere_iff (s : State) (i : SlotNo) :
    s.shownAnywhere i = true ↔ ∃ q, (s.pos q).offer = some i := by
  simp only [State.shownAnywhere, List.any_eq_true, beq_iff_eq]
  exact ⟨fun ⟨q, _, hq⟩ => ⟨q, hq⟩, fun ⟨q, hq⟩ => ⟨q, all_positions q, hq⟩⟩

theorem Call.withdrawn_queued (hst : c.state = .offered) (b : Bool) :
    (c.withdrawn b).state.queued = true ∧ (c.withdrawn b).score = c.score := by
  cases b
  · exact ⟨rfl, rfl⟩
  · simp [Call.withdrawn, hst, CallState.queued]

theorem setOffer_reoffered (p : PosNo) (o : Option SlotNo) {f : Call → Call} (hc : s.call i = some c)
    (hq : c.state.queued = true) (hf : (f c).state.queued = true ∧ (f c).score = c.score) :
    Reoffered i s ((setOffer p o s).modCall i f) := by
  refine ⟨fun j hj => ?_, .inr ⟨c, f c, hc, ?_, hq, hf.1, hf.2⟩, fun q l => ?_, fun q => ?_,
    rfl, rfl, rfl, rfl⟩
  · rw [modCall_call, if_neg (Ne.symm hj)]; rfl
  · rw [modCall_call, if_pos rfl, setOffer, setPos_call, hc]; rfl
  · rw [modCall_pos, setOffer, setPos_pos]
    split
    · rename_i hpq; rw [← hpq]; rfl
    · rfl
  · rw [modCall_pos, setOffer, setPos_pos]
    split
    · rename_i hpq; rw [← hpq]
    · rfl

theorem withdrawAt_lawful (h : Lawful k s) (p : PosNo) : Lawful k (withdrawAt p s) := by
  cases hp : (s.pos p).offer with
  | none => rw [withdrawAt_none hp]; exact h
  | some i =>
    obtain ⟨c, hc, hst⟩ := h.offered p i hp
    have hoff := fun q => withdrawAt_offer p q s
    rw [withdrawAt_eq hp hc hst] at hoff ⊢
    set b := (setOffer p none s).shownAnywhere i with hb
    set t := (setOffer p none s).modCall i (fun c => c.withdrawn b) with ht
    have m : Reoffered i s t := setOffer_reoffered p none hc (by rw [hst]; rfl) (Call.withdrawn_queued hst b)
    have hown : t.call i = some (c.withdrawn b) := by
      rw [ht, modCall_call, if_pos rfl, setOffer, setPos_call, hc]; rfl
    have back : ∀ q j, (t.pos q).offer = some j → (s.pos q).offer = some j := fun q j hq => by
      rw [hoff] at hq
      split at hq
      · cases hq
      · exact hq
    -- while some position still holds the offer the call stays OFFERED with its offer field
    have hshown : ∀ q, (t.pos q).offer = some i → b = true := fun q hq =>
      hb ▸ (shownAnywhere_iff _ i).2 ⟨q, by rw [ht, modCall_pos] at hq; exact hq⟩
    refine m.lawful h (fun q j hq => ?_) fun hk => ?_
    · by_cases hj : j = i
      · subst hj
        exact ⟨_, hown, by rw [hshown q hq]; exact hst⟩
      · rw [m.others j hj]; exact h.offered q j (back q j hq)
    · have ho := h.offers hk
      have hkeep : ∀ q j d, (t.pos q).offer = some j → t.call j = some d →
          ∃ e, s.call j = some e ∧ e.offer = d.offer := fun q j d hq hd => by
        by_cases hj : j = i
        · subst hj
          rw [hown, hshown q hq] at hd; cases hd
          exact ⟨c, hc, rfl⟩
        · exact ⟨d, by rw [← m.others j hj]; exact hd, rfl⟩
      refine ⟨fun hm q j d hq hd => ?_, fun hm q r j hq hr => ho.alone hm q r j (back q j hq) (back r j hr),
        fun hm q j d hq hd => ?_, fun j d hj hd hs => ?_, fun j d hd hs => ?_⟩
      · obtain ⟨e, he, heo⟩ := hkeep q j d hq hd
        exact heo ▸ ho.single hm q j e (back q j hq) he
      · obtain ⟨e, he, heo⟩ := hkeep q j d hq hd
        exact heo ▸ ho.common hm q j e (back q j hq) he
      · by_cases hji : j = i
        · subst hji
          rw [hown] at hd; cases hd
          have hbt : b = true := by
            cases hbv : b with
            | true => rfl
            | false => rw [hbv] at hs; cases hs
          obtain ⟨q, hq⟩ := (shownAnywhere_iff _ j).1 (hb ▸ hbt)
          exact ⟨q, by rw [ht, modCall_pos]; exact hq⟩
        · obtain ⟨q, hq⟩ := ho.held j d hj (by rw [← m.others j hji]; exact hd) hs
          refine ⟨q, ?_⟩
          rw [hoff, if_neg]
          · exact hq
          · rintro rfl
            rw [hp] at hq; exact hji (Option.some.inj hq).symm
      · by_cases hji : j = i
        · subst hji
          rw [hown] at hd; cases hd
          cases hbv : b with
          | true => rw [hbv] at hs; exact absurd hst hs
          | false => rfl
        · exact ho.others j d (by rw [← m.others j hji]; exact hd) hs

theorem withdrawCall_lawful (h : Lawful k s) (i : SlotNo) : Lawful k (withdrawCall i s) := by
  refine Lawful.foldl (fun s p h => ?_) allPos h
  split
  · exact withdrawAt_lawful h p
  · exact h

theorem withdrawCall_noOffer (i : SlotNo) (s : State) : (withdrawCall i s).NoOffer i := by
  refine fun q => foldl_positions (P := fun s q => (s.pos q).offer ≠ some i) (fun s p => ?_)
    (fun s p q hq => ?_) s q
  · by_cases h : (s.pos p).offer = some i
    · rw [if_pos h, withdrawAt_offer, if_pos rfl]; simp
    · rw [if_neg h]; exact h
  · by_cases h : (s.pos p).offer = some i
    · rw [if_pos h, withdrawAt_offer]; split
      · simp
      · exact hq
    · rw [if_neg h]; exact hq

/-! ## The effective plan -/

theorem withdrawAll_clear (s : State) (p : PosNo) : ((withdrawAll s).pos p).offer = none :=
  foldl_positions (P := fun s q => (s.pos q).offer = none)
    (fun s p => by rw [withdrawAt_offer, if_pos rfl])
    (fun s p q hq => by rw [withdrawAt_offer]; split <;> [rfl; exact hq]) s p

/-- A withdrawal reads nothing of the effective plan. -/
theorem withdrawAt_writePlan (p : PosNo) (s : State) (e : Plan) (bd : Band) :
    withdrawAt p { s with eff := e, band := bd } = { withdrawAt p s with eff := e, band := bd } := by
  cases hp : (s.pos p).offer with
  | none => rw [withdrawAt_none hp]; exact withdrawAt_none hp
  | some i =>
    have hp' : (State.pos { s with eff := e, band := bd } p).offer = some i := hp
    unfold withdrawAt
    rw [hp, hp']
    dsimp only
    by_cases hs : (modOffered i (fun c => { c with preferred := none }) (setOffer p none s)).shownAnywhere i
        = true
    · exact (if_pos hs).trans (by rw [if_pos hs]; rfl)
    · exact (if_neg hs).trans (by rw [if_neg hs]; rfl)

theorem withdrawAll_writePlan (s : State) (e : Plan) (bd : Band) :
    withdrawAll { s with eff := e, band := bd } = { withdrawAll s with eff := e, band := bd } := by
  unfold withdrawAll
  generalize allPos = l
  induction l generalizing s with
  | nil => rfl
  | cons p l ih =>
    rw [List.foldl_cons, List.foldl_cons, withdrawAt_writePlan, ih]

/-- Without an offer anywhere the law of the offers says the same in both modes. -/
theorem Lawful.writePlan_clear (h : Lawful k s) (hclear : ∀ p, (s.pos p).offer = none) (e : Plan) (bd : Band) :
    Lawful k { s with eff := e, band := bd } := by
  have m : Shuffled s { s with eff := e, band := bd } := ⟨fun _ _ _ => .rfl, fun _ _ => rfl, fun _ => rfl, rfl, rfl⟩
  have hclear' : ∀ p i, (State.pos { s with eff := e, band := bd } p).offer ≠ some i := fun p i hp => by
    have hp : (s.pos p).offer = some i := hp
    rw [hclear] at hp; cases hp
  refine m.lawful h ⟨h.queue.nodup, h.queue.listed, h.queue.sorted⟩
    (fun p i hp => absurd hp (hclear' p i)) fun hk => ?_
  have ho := h.offers hk
  exact ⟨fun _ p i _ hp => absurd hp (hclear' p i), fun _ p _ i hp => absurd hp (hclear' p i),
    fun _ p i _ hp => absurd hp (hclear' p i), ho.held, ho.others⟩

theorem withdrawMasked_lawful (h : Lawful k s) : Lawful k (withdrawMasked s) := by
  refine Lawful.foldl (fun s p h => ?_) allPos h
  split
  · exact h
  · split
    · exact h
    · split
      · exact h
      · exact withdrawAt_lawful h p

theorem recompute_lawful (h : Lawful k s) : Lawful k (recompute s) := by
  unfold recompute
  dsimp only
  split
  · rw [withdrawAll_writePlan]
    exact Lawful.writePlan_clear (Lawful.foldl (fun s p h => withdrawAt_lawful h p) allPos h)
      (withdrawAll_clear s) _ _
  · rename_i hm
    have hm : s.eff.mode = (planInForce s.selection s.plans s.depth).mode := by simpa using hm
    have h' := (Neutral.of_same (s := s) (t := { s with
      eff := planInForce s.selection s.plans s.depth
      band := bandInForce s.selection s.plans s.depth }) (hmode := hm.symm)).lawful h
    split
    · exact withdrawMasked_lawful h'
    · exact h'

theorem recomputeUnderLoad_lawful (h : Lawful k s) : Lawful k (recomputeUnderLoad s) := by
  unfold recomputeUnderLoad
  split
  · exact recompute_lawful h
  · exact h

theorem dropShowings_lawful (h : Lawful k s) : Lawful k (dropShowings s) := by
  unfold dropShowings
  split
  · refine Lawful.foldl (fun s p h => ?_) allPos h
    split
    · exact h
    · exact withdrawAt_lawful h p
  · exact h

/-! ## Distribution -/

theorem nightRoute_lawful (h : Lawful k s) : Lawful k (nightRoute s) := by
  refine Lawful.foldl (fun s i h => ?_) s.queue h
  split
  · exact h
  · rename_i c hc
    dsimp only
    split
    · rename_i hw
      exact depart_lawful h hc (h.noOffer hc (by rw [hw.1]; decide)) (h.noConsult hc (by rw [hw.1]; decide)) _ _
    · exact h

/-- In SINGLE mode no listed position holds an offer. -/
def State.Vacant (s : State) : Prop := s.eff.mode = .single → ∀ p ∈ s.available, (s.pos p).offer = none

theorem rejudge_vacant (s : State) : (rejudge s).Vacant := by
  intro hm p hp
  have hm : s.eff.mode = .single := hm
  have : s.isAvailable p = true := by
    simp only [rejudge, List.mem_append, List.mem_filter, Bool.and_eq_true] at hp
    rcases hp with hp | hp
    · exact hp.2
    · exact hp.2.1
  simp only [State.isAvailable, hm, Bool.and_eq_true, Bool.or_eq_true] at this
  change (s.pos p).offer = none
  simpa using this.2

theorem dropShowings_vacant (h : s.Vacant) : (dropShowings s).Vacant := by
  intro hm p hp
  have hmode : s.eff.mode = .single := by rw [← (dropShowings_plan s).eff]; exact hm
  have : dropShowings s = s := by unfold dropShowings; rw [hmode, if_neg (by decide)]
  rw [this] at hp ⊢
  exact h hmode p hp

theorem nightRoute_vacant (h : s.Vacant) : (nightRoute s).Vacant := by
  have hkeep : (nightRoute s).positions = s.positions ∧ (nightRoute s).available = s.available := by
    unfold nightRoute
    generalize s.queue = l
    clear h
    induction l generalizing s with
    | nil => exact ⟨rfl, rfl⟩
    | cons i l ih =>
      rw [List.foldl_cons]
      cases hi : s.call i with
      | none => exact ih
      | some e =>
        dsimp only
        split
        · rename_i hw
          have ha := depart_waiting_apart hi hw.1 (.away (s.nightDestination e.origin))
          exact ⟨ih.1.trans ha.positions, ih.2.trans ha.available⟩
        · exact ih
  intro hm p hp
  rw [nightRoute_eff] at hm
  rw [hkeep.2] at hp
  rw [State.pos, hkeep.1]
  exact h hm p hp

theorem offerTo_lawful (h : Lawful k s) (hc : s.call i = some c) (hst : c.state = .waiting)
    (hm : s.eff.mode = .single) (hp : (s.pos p).offer = none) : Lawful k (offerTo p i s) := by
  have hno := h.noOffer hc (by rw [hst]; decide)
  let f : Call → Call := fun c => { c.enter .offered with offer := some (.one p) }
  have heq : Neutral ((setOffer p (some i) s).modCall i f) (offerTo p i s) := .of_same
  refine heq.lawful ?_
  set t := (setOffer p (some i) s).modCall i f with ht
  have m : Reoffered i s t := setOffer_reoffered p _ hc (by rw [hst]; rfl) ⟨rfl, by simp [f, Call.enter, CallState.queued]⟩
  have hown : t.call i = some (f c) := by
    rw [ht, modCall_call, if_pos rfl, setOffer, setPos_call, hc]; rfl
  have hoff : ∀ q, (t.pos q).offer = if p = q then some i else (s.pos q).offer := fun q => by
    rw [ht, modCall_pos, setOffer_offer]
  -- a held offer is the new one, or an old one of another call
  have cases_of : ∀ q j, (t.pos q).offer = some j → q = p ∧ j = i ∨ j ≠ i ∧ (s.pos q).offer = some j :=
    fun q j hq => by
      rw [hoff] at hq
      split at hq
      · rename_i hpq; exact .inl ⟨hpq.symm, (Option.some.inj hq).symm⟩
      · exact .inr ⟨fun hji => hno q (hji ▸ hq), hq⟩
  refine m.lawful h (fun q j hq => ?_) fun hk => ?_
  · rcases cases_of q j hq with ⟨-, rfl⟩ | ⟨hji, hq⟩
    · exact ⟨_, hown, rfl⟩
    · rw [m.others j hji]; exact h.offered q j hq
  · have ho := h.offers hk
    have hm' : t.eff.mode = .single := m.mode.trans hm
    refine ⟨fun _ q j d hq hd => ?_, fun _ q r j hq hr => ?_, fun hcm => absurd (hm'.symm.trans hcm) (by decide),
      fun j d hj hd hs => ?_, fun j d hd hs => ?_⟩
    · rcases cases_of q j hq with ⟨rfl, rfl⟩ | ⟨hji, hq⟩
      · rw [hown] at hd; cases hd; rfl
      · exact ho.single hm q j d hq (by rw [← m.others j hji]; exact hd)
    · rcases cases_of q j hq with ⟨rfl, rfl⟩ | ⟨hji, hq⟩ <;>
        rcases cases_of r _ hr with ⟨hrp, hri⟩ | ⟨hri, hr⟩
      · exact hrp.symm
      · exact absurd rfl hri
      · exact absurd hri hji
      · exact ho.alone hm q r j hq hr
    · by_cases hji : j = i
      · exact ⟨p, by rw [hoff, if_pos rfl, hji]⟩
      · obtain ⟨q, hq⟩ := ho.held j d hj (by rw [← m.others j hji]; exact hd) hs
        refine ⟨q, ?_⟩
        rw [hoff, if_neg]
        · exact hq
        · rintro rfl; rw [hp] at hq; cases hq
    · by_cases hji : j = i
      · subst hji; rw [hown] at hd; cases hd; exact absurd rfl hs
      · exact ho.others j d (by rw [← m.others j hji]; exact hd) hs

theorem showTo_lawful (h : Lawful k s) (hc : s.call i = some c) (hst : c.state.queued = true)
    (hm : s.eff.mode = .common) (hp : (s.pos p).offer = none) : Lawful k (showTo p i s) := by
  let f : Call → Call := fun c => { c.enter .offered with offer := some .all }
  have heq : showTo p i s = (setOffer p (some i) s).modCall i f := rfl
  rw [heq]
  set t := (setOffer p (some i) s).modCall i f with ht
  have m : Reoffered i s t := setOffer_reoffered p _ hc hst ⟨rfl, by simp [f, Call.enter, CallState.queued]⟩
  have hown : t.call i = some (f c) := by
    rw [ht, modCall_call, if_pos rfl, setOffer, setPos_call, hc]; rfl
  have hoff : ∀ q, (t.pos q).offer = if p = q then some i else (s.pos q).offer := fun q => by
    rw [ht, modCall_pos, setOffer_offer]
  have cases_of : ∀ q j, j ≠ i → (t.pos q).offer = some j → (s.pos q).offer = some j := fun q j hj hq => by
    rw [hoff] at hq
    split at hq
    · exact absurd (Option.some.inj hq).symm hj
    · exact hq
  refine m.lawful h (fun q j hq => ?_) fun hk => ?_
  · by_cases hji : j = i
    · subst hji; exact ⟨_, hown, rfl⟩
    · rw [m.others j hji]; exact h.offered q j (cases_of q j hji hq)
  · have ho := h.offers hk
    have hm' : t.eff.mode = .common := m.mode.trans hm
    refine ⟨fun hsm => absurd (hm'.symm.trans hsm) (by decide), fun hsm => absurd (hm'.symm.trans hsm) (by decide),
      fun _ q j d hq hd => ?_, fun j d hj hd hs => ?_, fun j d hd hs => ?_⟩
    · by_cases hji : j = i
      · subst hji; rw [hown] at hd; cases hd; rfl
      · exact ho.common hm q j d (cases_of q j hji hq) (by rw [← m.others j hji]; exact hd)
    · by_cases hji : j = i
      · exact ⟨p, by rw [hoff, if_pos rfl, hji]⟩
      · obtain ⟨q, hq⟩ := ho.held j d hj (by rw [← m.others j hji]; exact hd) hs
        refine ⟨q, ?_⟩
        rw [hoff, if_neg]
        · exact hq
        · rintro rfl; rw [hp] at hq; cases hq
    · by_cases hji : j = i
      · subst hji; rw [hown] at hd; cases hd; exact absurd rfl hs
      · exact ho.others j d (by rw [← m.others j hji]; exact hd) hs

theorem walk_lawful (h : Lawful k s) (hv : s.Vacant) (hm : s.eff.mode = .single) : Lawful k (walk s) := by
  unfold walk
  generalize s.queue = l
  induction l generalizing s with
  | nil => exact h
  | cons i l ih =>
    rw [List.foldl_cons]
    cases hc : s.call i with
    | none => exact ih h hv hm
    | some c =>
      dsimp only
      split
      · rename_i hw
        cases hp : chooseCandidate s c with
        | none => exact ih h hv hm
        | some p =>
          refine ih (offerTo_lawful h hc hw hm (hv hm p (chooseCandidate_mem hp))) (fun _ q hq => ?_) hm
          have hq : q ∈ s.available.filter (· != p) := hq
          obtain ⟨hqa, hqp⟩ := List.mem_filter.1 hq
          have hqp : q ≠ p := by simpa using hqp
          change ((setOffer p (some i) _).pos q).offer = none
          rw [setOffer_offer, if_neg (Ne.symm hqp)]
          exact hv hm q hqa
      · exact ih h hv hm

theorem showing_lawful (h : Lawful k s) (hm : s.eff.mode = .common) : Lawful k (showing s) := by
  unfold showing
  generalize s.available = l
  induction l generalizing s with
  | nil => exact h
  | cons p l ih =>
    rw [List.foldl_cons]
    split
    · exact ih h hm
    · rename_i hp
      have hp : (s.pos p).offer = none := by simpa using hp
      cases hi : firstFor s p with
      | none => exact ih h hm
      | some i =>
        obtain ⟨c, hc, hq, _⟩ := firstFor_queued hi
        exact ih (showTo_lawful h hc hq hm hp) hm

theorem distribute_lawful (h : Lawful k s) (hv : s.Vacant) : Lawful k (distribute s) := by
  unfold distribute
  split
  · rename_i hm; exact walk_lawful h hv hm
  · rename_i hm; exact showing_lawful h hm

theorem settleWith_lawful (fuel : Nat) (h : Lawful k s) : Lawful k (settleWith fuel s) := by
  induction fuel generalizing s with
  | zero => exact h
  | succ fuel ih =>
    have hu : Lawful k (dropShowings (rejudge (recomputeUnderLoad s))) :=
      dropShowings_lawful ((rejudge_neutral _).lawful (recomputeUnderLoad_lawful h))
    have huv := dropShowings_vacant (rejudge_vacant (recomputeUnderLoad s))
    unfold settleWith
    dsimp only
    generalize dropShowings (rejudge (recomputeUnderLoad s)) = u at hu huv
    have ht : Lawful k (if u.nightFlag = true then nightRoute u else u) ∧
        (if u.nightFlag = true then nightRoute u else u).Vacant := by
      split
      · exact ⟨nightRoute_lawful hu, nightRoute_vacant huv⟩
      · exact ⟨hu, huv⟩
    generalize (if u.nightFlag = true then nightRoute u else u) = t at ht
    split
    · exact ih ht.1
    · exact distribute_lawful ht.1 ht.2

theorem settle_lawful (h : Lawful k s) : Lawful k (settle s) := settleWith_lawful _ h

theorem replan_lawful (h : Lawful k s) : Lawful k (replan s) := by
  unfold replan
  dsimp only
  split
  · exact settle_lawful (recompute_lawful h)
  · exact recompute_lawful h

end

end Sys2Proof.Machine
end

section
/-! PROOFS. Recalls, freed and admitted calls, consults, camps and positions keep the laws. -/
namespace Sys2Proof.Machine

section
variable {k : Scope} {s t u : State} {i j : SlotNo} {c d : Call} {p q : PosNo} {l : LoopNo} {x : Ext}

/-! ## Recalls (R119) -/

theorem withdrawCall_queue (i : SlotNo) (s : State) : (withdrawCall i s).queue = s.queue :=
  (PlanKept.foldl (fun s p => by
    split
    · exact withdrawAt_plan p s
    · exact .refl s) allPos s : PlanKept s (withdrawCall i s)).queue

theorem recallCall_lawful (h : Lawful k s) (hc : s.call i = some c) (hnc : s.NoConsult k i)
    (reason : RecallReason) : Lawful k (recallCall i reason s) := by
  rw [recallCall_eq hc]
  unfold recallStart
  split
  · rename_i hq
    have hu := withdrawCall_lawful h i
    obtain ⟨d, hd, hdq⟩ := (hu.queue.listed i).1
      (by rw [withdrawCall_queue]; exact (h.queue.listed i).2 ⟨c, hc, hq⟩)
    exact (hu.queued_vacated hd hdq).recalled_lawful (hu.sparing i) (withdrawCall_noOffer i s)
      (hu.noConsult hd (by rintro g; rw [g] at hdq; cases hdq)) hd reason
  · rename_i hq
    obtain ⟨n, hn⟩ := (leave_left i s).call_some hc
    exact (h.leave_vacated hc).recalled_lawful (h.sparing i)
      (h.noOffer hc (by rintro g; rw [g] at hq; exact hq rfl)) hnc hn reason

theorem recallNow_lawful (h : Lawful k s) (hc : s.call i = some c) (hnc : s.NoConsult k i)
    (reason : RecallReason) : Lawful k (recallNow i reason s) :=
  settle_lawful (recallCall_lawful h hc hnc reason)

/-! ## Freed and admitted calls (R10, R13) -/

theorem freeSlot_lawful (h : Lawful k s) (hnc : s.NoConsult k i) : Lawful k (freeSlot i s) := by
  cases hc : s.call i with
  | none => rw [freeSlot_none hc]; exact h
  | some c =>
    have hneutral : Neutral ((s.emptied i c).setCall i none) (freeSlot i s) := by
      rw [freeSlot_eq hc]; exact .of_same
    refine hneutral.lawful ?_
    unfold State.emptied
    split
    · rename_i hst
      have hu := endOffers_lawful (h.sparing i)
      have hcu : (endOffers i s).call i = some c := by rw [endOffers_call]; exact hc
      exact hu.unplaced hcu (endOffers_noOffer i s)
        (hu.noConsult hcu (by rw [hst]; decide)) none fun _ h => by cases h
    · rename_i hst
      exact (h.sparing i).unplaced hc (h.noOffer hc hst) hnc none fun _ h => by cases h

/-- A slot that holds no call is in no collection. -/
theorem Lawful.free_vacated (h : Lawful k s) (hc : s.call i = none) : Vacated i s s := by
  have hno : ∀ P : Call → Prop, ¬ ∃ c, s.call i = some c ∧ P c := fun P ⟨c, hc', _⟩ => by
    rw [hc] at hc'; cases hc'
  refine ⟨fun _ _ => rfl, fun p l j => ?_, fun o j => ?_, rfl, h.camps.congr rfl fun j v _ _ => ?_,
    fun _ => rfl, fun _ => rfl, rfl⟩
  · exact ⟨fun hj => ⟨by rintro rfl; exact hno _ ((h.loops p l j).1 hj), hj⟩, And.right⟩
  · exact ⟨fun hj => ⟨by rintro rfl; exact hno _ ((h.orbits o j).1 hj), hj⟩, And.right⟩
  · rw [setCall_call]
    split
    · rename_i hij; subst hij; rw [hc]
    · rfl

theorem Lawful.free_noOffer (h : Lawful k s) (hc : s.call i = none) : s.NoOffer i := fun p hp => by
  obtain ⟨c, hc', _⟩ := h.offered p i hp
  rw [hc] at hc'; cases hc'

theorem Lawful.free_noConsult (h : Lawful k s) (hc : s.call i = none) : s.NoConsult k i :=
  fun p r _ _ hl => by
    obtain ⟨c, hc', _⟩ := (h.loops p r.loop i).1 hl
    rw [hc] at hc'; cases hc'

theorem admitCall_lawful (h : Lawful k s) (hi : s.call i = none) (hst : c.state = .waiting)
    (hoff : c.offer = none) : Lawful k (admitCall i c s) := by
  have hcall : ∀ j, (allocate i c (bump .admitted s)).call j = if i = j then some c else s.call j :=
    fun j => allocate_call i j c (bump .admitted s)
  have hkept : (allocate i c (bump .admitted s)).positions = s.positions ∧
      (allocate i c (bump .admitted s)).orbits = s.orbits ∧
      (allocate i c (bump .admitted s)).camps = s.camps ∧
      (allocate i c (bump .admitted s)).queue = s.queue ∧
      (allocate i c (bump .admitted s)).eff = s.eff := ⟨rfl, rfl, rfl, rfl, rfl⟩
  unfold admitCall
  generalize allocate i c (bump .admitted s) = w at hcall hkept ⊢
  obtain ⟨hpositions, horbits, hcamps, hqueue, heff⟩ := hkept
  refine settle_lawful ((h.free_vacated hi).queued_lawful (h.sparing i) (h.free_noOffer hi)
    (h.free_noConsult hi) (fun j hj => ?_) ⟨{ c with score := scoreOf w.eff c }, ?_, hst, hoff⟩
    hpositions horbits hcamps (by rw [← heff]; rfl) (by rw [← hqueue]; rfl))
  · change (w.modCall i _).call j = _
    rw [modCall_call, if_neg (Ne.symm hj), hcall, if_neg (Ne.symm hj)]
  · change (w.modCall i _).call i = _
    rw [modCall_call, if_pos rfl, hcall, if_pos rfl]; rfl

/-- The call of the queue takes its place again after a visit (R66). -/
theorem requeue_lawful (h : Lawful k s) (hc : s.call i = some c) (hq : c.state.queued = true) :
    Lawful k (place i (rescore i s)) := by
  have hothers : ∀ j, j ≠ i → (place i (rescore i s)).call j = s.call j := fun j hj => by
    change (s.modCall i _).call j = _
    rw [modCall_call, if_neg (Ne.symm hj)]
  have hown : (place i (rescore i s)).call i = some { c with score := scoreOf s.eff c } := by
    change (s.modCall i _).call i = _
    rw [modCall_call, if_pos rfl, hc]; rfl
  have hsame : OthersSame i s (place i (rescore i s)) := fun j hj => by rw [hothers j hj]
  have back : ∀ j e, (place i (rescore i s)).call j = some e →
      ∃ e', s.call j = some e' ∧ e'.placeView = e.placeView ∧ e'.offer = e.offer := fun j e he => by
    by_cases hj : j = i
    · subst hj; rw [hown] at he; cases he; exact ⟨c, hc, rfl, rfl⟩
    · exact ⟨e, by rw [← hothers j hj]; exact he, rfl, rfl⟩
  have forth : ∀ j e, s.call j = some e →
      ∃ e', (place i (rescore i s)).call j = some e' ∧ e'.placeView = e.placeView := fun j e he => by
    by_cases hj : j = i
    · subst hj; rw [hc] at he; cases he; exact ⟨_, hown, rfl⟩
    · exact ⟨e, by rw [hothers j hj]; exact he, rfl⟩
  have m : Shuffled s (place i (rescore i s)) := by
    refine ⟨fun j v _ => ⟨?_, ?_⟩, fun _ _ => rfl, fun _ => rfl, rfl, rfl⟩
    · rintro ⟨e, he, hv⟩
      obtain ⟨e', he', hv', _⟩ := back j e he
      exact ⟨e', he', hv'.trans hv⟩
    · rintro ⟨e, he, hv⟩
      obtain ⟨e', he', hv'⟩ := forth j e he
      exact ⟨e', he', hv'.trans hv⟩
  refine m.lawful h (hsame.queueLaw_placed h.queue rfl ⟨_, hown, hq⟩) (fun q j hqj => ?_) fun hk => ?_
  · obtain ⟨e, he, hst⟩ := h.offered q j hqj
    obtain ⟨e', he', hv⟩ := forth j e he
    exact ⟨e', he', (congrArg PlaceView.state hv).trans hst⟩
  · have ho := h.offers hk
    refine ⟨fun hm q j e hq he => ?_, ho.alone, fun hm q j e hq he => ?_, fun j e hj he hst => ?_,
      fun j e he hst => ?_⟩ <;> obtain ⟨e', he', hv, hoff⟩ := back j e he
    · exact hoff ▸ ho.single hm q j e' hq he'
    · exact hoff ▸ ho.common hm q j e' hq he'
    · exact ho.held j e' hj he' ((congrArg PlaceView.state hv).trans hst)
    · exact hoff ▸ ho.others j e' he' fun g => hst ((congrArg PlaceView.state hv).symm.trans g)

/-! ## Consults (R125, R126) -/

theorem consultTaken_lawful (h : Lawful k s) (hl : s.loopCall p l = some (i, c))
    (hst : c.state = .talking) : Lawful k (consultTaken p l i x s) := by
  obtain ⟨hsl, hc, _, _⟩ := h.loopCall hl
  unfold consultTaken
  refine settle_lawful ?_
  dsimp only
  set r : Consult := { loop := l, ext := x, phase := .asked, leg := some s.nextNumber }
  have h1 : Lawful (k.without p) { s with reqCounter := s.nextNumber } :=
    (Neutral.of_same (s := s)).lawful (h.without p)
  have h2 := (placeTested_neutral (.legReq s.nextNumber p x) _).lawful (h1.setConsult (some r))
  generalize hu : placeTested (.legReq s.nextNumber p x)
    (State.setPos { s with reqCounter := s.nextNumber } p
      { State.pos { s with reqCounter := s.nextNumber } p with consult := some r }) = u at h2
  have hkept : u.call i = s.call i ∧ u.pos p = { s.pos p with consult := some r } := by
    rw [← hu]
    rcases placeTested_cases (.legReq s.nextNumber p x)
      (State.setPos { s with reqCounter := s.nextNumber } p
        { State.pos { s with reqCounter := s.nextNumber } p with consult := some r }) with hp | hp <;>
      rw [hp]
    · exact ⟨rfl, by rw [enlist_pos, setPos_pos, if_pos rfl]; rfl⟩
    · exact ⟨rfl, by rw [setPos_pos, if_pos rfl]; rfl⟩
  have hcu : u.call i = some c := hkept.1.trans hc
  have hpos : ∀ q, (holdSeated i u).pos q = u.pos q := fun q => by rw [holdSeated_eq hcu, asked_pos]
  refine (holdSeated_lawful h2 hcu hst).within fun r' hr' => ?_
  rw [hpos, hkept.2] at hr' ⊢
  cases hr'
  exact ⟨i, _, hsl, by rw [holdSeated_eq hcu, asked_call, if_pos rfl], rfl⟩

/-- Where the position of a seated call has no consult, none is open on the loop of the call. -/
theorem Lawful.noConsult_at (h : Lawful k s) (hc : s.call i = some c) (hh : c.isHomeAt p l = true)
    (hnone : (s.pos p).consult = none) : s.NoConsult k i :=
  h.noConsult_of_home hc fun q m r hq _ hr => by
    obtain ⟨rfl, rfl⟩ := isHomeAt_inj hh hq
    rw [hnone] at hr; cases hr

theorem closeConsult_call (p : PosNo) (drop : Bool) (s : State) (j : SlotNo) :
    (closeConsult p drop s).call j = s.call j := by
  obtain ⟨f, n, hw⟩ := closeConsult_writes p drop s
  rw [hw]; rfl

theorem closeConsult_consult (p : PosNo) (drop : Bool) (s : State) :
    ((closeConsult p drop s).pos p).consult = none := by
  obtain ⟨f, n, hw⟩ := closeConsult_writes p drop s
  rw [hw]
  change ((s.setPos p _).pos p).consult = none
  rw [setPos_pos, if_pos rfl]

/-- The call of a loop whose consult is closed, ready to leave. -/
theorem Lawful.closed (h : Lawful k s) (hl : s.loopCall p l = some (i, c)) (drop : Bool) :
    Lawful k (closeConsult p drop s) ∧ (closeConsult p drop s).call i = some c ∧
      c.state.seated = true ∧ c.isHomeAt p l = true ∧ (closeConsult p drop s).NoConsult k i ∧
      (closeConsult p drop s).NoOffer i := by
  obtain ⟨_, hc, hst, hh⟩ := h.loopCall hl
  have hu := closeConsult_lawful drop (h.without p)
  have hcu : (closeConsult p drop s).call i = some c := by rw [closeConsult_call]; exact hc
  exact ⟨hu, hcu, hst, hh, hu.noConsult_at hcu hh (closeConsult_consult p drop s),
    hu.noOffer hcu (by rintro g; rw [g] at hst; cases hst)⟩

theorem joinScreened_lawful (h : Lawful k s) (hl : s.loopCall p l = some (i, c)) (r : Consult) :
    Lawful k (joinScreened p i r s) :=
  have ⟨hu, hc, _, _, hnc, hno⟩ := h.closed hl false
  settle_lawful (depart_lawful hu hc hno hnc _ _)

theorem joinUnscreened_lawful (h : Lawful k s) (hl : s.loopCall p l = some (i, c)) (r : Consult) :
    Lawful k (joinUnscreened p i r s) :=
  have ⟨hu, hc, _, _, hnc, hno⟩ := h.closed hl true
  settle_lawful (ringAt_lawful hu hc hno hnc _)

theorem cancel_lawful (h : Lawful k s) (hl : s.loopCall p l = some (i, c)) :
    Lawful k (settle (talkAgain p l i (closeConsult p true s))) :=
  have ⟨hu, hc, hst, hh, hnc, _⟩ := h.closed hl true
  settle_lawful (talkAgain_lawful hu hc hst hh hnc)

/-! ## Camps (R131) -/

/-- The camp list of an extension, empty where it has no entry. -/
def State.campList (s : State) (x : Ext) : List SlotNo :=
  ((s.camps.find? (fun e => e.ext == x)).map (·.list)).getD []

/-- The camp table with the call at the tail of the list of the extension. -/
def State.campsWith (s : State) (x : Ext) (i : SlotNo) : List CampEntry :=
  (openCamp x s).camps.map (fun e => if e.ext == x then { e with list := e.list ++ [i] } else e)

theorem openCamp_writes (x : Ext) (s : State) : ∃ frames, openCamp x s = { s with
    camps := match s.camps.find? (fun e => e.ext == x) with
      | some _ => s.camps
      | none => s.camps ++ [{ ext := x, list := [] }]
    txList := frames } := by
  unfold openCamp
  cases s.camps.find? (fun e => e.ext == x) with
  | some e => exact ⟨_, rfl⟩
  | none =>
    rcases placeTested_cases (.watch x) { s with camps := s.camps ++ [{ ext := x, list := [] }] }
      with hp | hp <;> dsimp only <;> rw [hp] <;> exact ⟨_, rfl⟩

/-- An extension without an entry. -/
theorem no_campEntry (h : s.camps.find? (fun e => e.ext == x) = none) {e : CampEntry} (he : e ∈ s.camps) :
    e.ext ≠ x := by simpa using List.find?_eq_none.1 h e he

/-- The table with the call appended, entry by entry, and its room (R131, R136). -/
theorem campsWith_spec (h : s.CampLaw) {r : Consult} (hroom : campRefusal r s = none) (i : SlotNo) :
    (∀ e, e ∈ s.campsWith r.ext i ↔
      e ∈ s.camps ∧ e.ext ≠ r.ext ∨ e = { ext := r.ext, list := s.campList r.ext ++ [i] }) ∧
    ((s.campsWith r.ext i).map (·.ext)).Nodup ∧ (s.campsWith r.ext i).length ≤ 16 ∧
    (s.campList r.ext).length < 3 ∧
    (⟨r.ext, s.campList r.ext⟩ ∈ s.camps ∨ s.campList r.ext = [] ∧ ∀ e ∈ s.camps, e.ext ≠ r.ext) := by
  have hext : ∀ es : List CampEntry, (es.map (fun e => if e.ext == r.ext then
      { e with list := e.list ++ [i] } else e)).map (·.ext) = es.map (·.ext) := fun es => by
    rw [List.map_map]
    exact List.map_congr_left fun e _ => by by_cases h : e.ext = r.ext <;> simp [h]
  unfold campRefusal at hroom
  split at hroom
  · cases hroom
  · obtain ⟨f, hw⟩ := openCamp_writes r.ext s
    cases hfind : s.camps.find? (fun e => e.ext == r.ext) with
    | some e =>
      rw [hfind] at hw hroom
      have he := List.mem_of_find?_eq_some hfind
      have hx : e.ext = r.ext := by simpa using List.find?_some hfind
      have hlist : s.campList r.ext = e.list := by simp [State.campList, hfind]
      have hcamps : s.campsWith r.ext i = s.camps.map (fun e => if e.ext == r.ext then
          { e with list := e.list ++ [i] } else e) := by rw [State.campsWith, hw]
      have he' : ({ ext := r.ext, list := e.list } : CampEntry) = e := by rw [← hx]
      refine ⟨fun g => ?_, ?_, ?_, ?_, .inl (by rw [hlist, he']; exact he)⟩
      · rw [hcamps, hlist, List.mem_map]
        constructor
        · rintro ⟨g, hg, rfl⟩
          by_cases hgx : g.ext = r.ext
          · have : g = e := by
              have := find_campEntry h.entries hg
              rw [hgx, hfind] at this
              exact (Option.some.inj this).symm
            subst this
            right; simp [hgx]
          · left; simp [hgx, hg]
        · rintro (⟨hg, hgx⟩ | rfl)
          · exact ⟨g, hg, by simp [hgx]⟩
          · exact ⟨e, he, by simp [hx]⟩
      · rw [hcamps, hext]; exact h.entries
      · rw [hcamps, List.length_map]; exact h.size
      · rw [hlist]
        dsimp only at hroom
        split at hroom
        · cases hroom
        · rename_i hn; exact Nat.lt_of_not_le hn
    | none =>
      rw [hfind] at hw hroom
      have hnone := fun e he => no_campEntry hfind (e := e) he
      have hlist : s.campList r.ext = [] := by simp [State.campList, hfind]
      have hsame : s.camps.map (fun e => if e.ext == r.ext then { e with list := e.list ++ [i] } else e) =
          s.camps := by
        conv_rhs => rw [← List.map_id s.camps]
        exact List.map_congr_left fun e he => by simp [hnone e he]
      have hcamps : s.campsWith r.ext i = s.camps ++ [{ ext := r.ext, list := [i] }] := by
        rw [State.campsWith, hw]
        simp only [List.map_append, hsame]
        simp
      refine ⟨fun g => ?_, ?_, ?_, by rw [hlist]; decide, .inr ⟨hlist, hnone⟩⟩
      · rw [hcamps, hlist]
        simp only [List.mem_append, List.mem_singleton, List.nil_append]
        exact or_congr ⟨fun hg => ⟨hg, hnone g hg⟩, And.left⟩ Iff.rfl
      · rw [hcamps, List.map_append, List.nodup_append]
        refine ⟨h.entries, by simp, ?_⟩
        simp only [List.mem_map, List.map_cons, List.map_nil, List.mem_singleton]
        rintro _ ⟨e, he, rfl⟩ _ rfl
        exact hnone e he
      · rw [hcamps, List.length_append]
        dsimp only at hroom
        split at hroom
        · cases hroom
        · rename_i hn
          have : s.camps.length < 16 := Nat.lt_of_not_le hn
          simp only [List.length_cons, List.length_nil]; omega

/-- The law of the camp table after a call has joined the tail of a list. -/
theorem State.CampLaw.joined (h : s.CampLaw) {r : Consult} (hroom : campRefusal r s = none)
    (hc : ∀ c, s.call i = some c → c.state ≠ .camped) (hcamps : t.camps = s.campsWith r.ext i)
    (ht : ∀ j, j ≠ i → t.call j = s.call j) (hi : t.call i = some d) (hst : d.state = .camped)
    (hx : d.extension = some r.ext) (ho : d.campOrder = some ((s.campList r.ext).length + 1)) :
    t.CampLaw := by
  obtain ⟨hmem, hnodup, hsize, hshort, hold⟩ := campsWith_spec h hroom i
  set l := s.campList r.ext with hl
  -- the list held exactly the calls of the extension, each in its place
  have hlisted : ∀ j, j ∈ l ↔ ∃ c, s.call j = some c ∧ c.state = .camped ∧ c.extension = some r.ext := by
    intro j
    rw [← h.listed]
    rcases hold with hold | ⟨hnil, hnone⟩
    · constructor
      · exact fun hj => ⟨_, hold, rfl, hj⟩
      · rintro ⟨e, he, hex, hj⟩
        have h1 := find_campEntry h.entries he
        rw [hex, find_campEntry h.entries hold] at h1
        cases h1; exact hj
    · rw [hnil]
      simp only [List.not_mem_nil, false_iff]
      rintro ⟨e, he, hex, _⟩
      exact hnone e he hex
  have hil : i ∉ l := fun hil => by
    obtain ⟨c, hc', hst', _⟩ := (hlisted i).1 hil
    exact hc c hc' hst'
  have hother : ∀ e ∈ s.camps, i ∉ e.list := fun e he hie => by
    obtain ⟨c, hc', hst', _⟩ := (h.listed i e.ext).1 ⟨e, he, rfl, hie⟩
    exact hc c hc' hst'
  have hln : l.Nodup := by
    rcases hold with hold | ⟨hnil, _⟩
    · exact (h.filled _ hold).2
    · rw [hnil]; exact List.nodup_nil
  refine ⟨by rw [hcamps]; exact hsize, fun e he => ?_, by rw [hcamps]; exact hnodup, fun e he => ?_,
    fun j y => ?_, fun e he n j b hj hb => ?_⟩
  · rcases (hmem e).1 (hcamps ▸ he) with ⟨he, _⟩ | rfl
    · exact h.short e he
    · simp only [List.length_append, List.length_cons, List.length_nil]; omega
  · rcases (hmem e).1 (hcamps ▸ he) with ⟨he, _⟩ | rfl
    · exact h.filled e he
    · refine ⟨by simp, List.nodup_append.2 ⟨hln, by simp, ?_⟩⟩
      intro a ha b hb hab
      rw [List.mem_singleton] at hb; subst hb; subst hab; exact hil ha
  · rw [hcamps]
    have hentries : (∃ e ∈ s.campsWith r.ext i, e.ext = y ∧ j ∈ e.list) ↔
        (∃ e ∈ s.camps, e.ext = y ∧ y ≠ r.ext ∧ j ∈ e.list) ∨ y = r.ext ∧ (j ∈ l ∨ j = i) := by
      constructor
      · rintro ⟨e, he, rfl, hj⟩
        rcases (hmem e).1 he with ⟨he, hex⟩ | rfl
        · exact .inl ⟨e, he, rfl, hex, hj⟩
        · exact .inr ⟨rfl, by simpa using hj⟩
      · rintro (⟨e, he, rfl, hy, hj⟩ | ⟨rfl, hj⟩)
        · exact ⟨e, (hmem e).2 (.inl ⟨he, hy⟩), rfl, hj⟩
        · exact ⟨_, (hmem _).2 (.inr rfl), rfl, by simpa using hj⟩
    rw [hentries]
    by_cases hji : j = i
    · subst hji
      rw [hi]
      simp only [Option.some.injEq, exists_eq_left', hst, hx, true_and]
      constructor
      · rintro (⟨e, he, _, _, hj⟩ | ⟨rfl, _⟩)
        · exact absurd hj (hother e he)
        · rfl
      · rintro rfl; exact .inr ⟨rfl, .inr trivial⟩
    · rw [ht j hji, ← h.listed]
      constructor
      · rintro (⟨e, he, hey, _, hj⟩ | ⟨rfl, hj⟩)
        · exact ⟨e, he, hey, hj⟩
        · exact (h.listed j _).2 ((hlisted j).1 (hj.resolve_right hji))
      · rintro ⟨e, he, rfl, hj⟩
        by_cases hy : e.ext = r.ext
        · exact .inr ⟨hy, .inl ((hlisted j).2 (hy ▸ (h.listed j e.ext).1 ⟨e, he, rfl, hj⟩))⟩
        · exact .inl ⟨e, he, rfl, hy, hj⟩
  · rcases (hmem e).1 (hcamps ▸ he) with ⟨he, _⟩ | rfl
    · have hji : j ≠ i := by rintro rfl; exact hother e he (List.mem_of_getElem? hj)
      exact h.order e he n j b hj (by rw [← ht j hji]; exact hb)
    · rcases Nat.lt_or_ge n l.length with hn | hn
      · rw [List.getElem?_append_left hn] at hj
        have hjl := List.mem_of_getElem? hj
        have hji : j ≠ i := by rintro rfl; exact hil hjl
        rcases hold with hold | ⟨hnil, _⟩
        · exact h.order _ hold n j b hj (by rw [← ht j hji]; exact hb)
        · rw [hnil] at hjl; cases hjl
      · rw [List.getElem?_append_right hn] at hj
        have hn' : n - l.length = 0 := by
          by_contra hne
          rw [List.getElem?_eq_none (by simp only [List.length_cons, List.length_nil]; omega)] at hj
          cases hj
        rw [hn', List.getElem?_cons_zero] at hj
        cases hj
        rw [hi] at hb; cases hb
        rw [ho, show n = l.length by omega]

theorem setLoop_positions (h : t.positions = s.positions) (p : PosNo) (l : LoopNo) (x : Loop) :
    (t.setLoop p l x).positions = (s.setLoop p l x).positions := by
  unfold State.setLoop State.setPos State.pos
  rw [h]

/-- The place at the tail of the list that the call joins. -/
theorem openCamp_place (x : Ext) (s : State) :
    (((openCamp x s).camps.find? (fun e => e.ext == x)).map (·.list.length)).getD 0 =
      (s.campList x).length := by
  obtain ⟨f, hw⟩ := openCamp_writes x s
  rw [hw, State.campList]
  cases hfind : s.camps.find? (fun e => e.ext == x) with
  | some e => simp [hfind]
  | none => simp [hfind]

theorem campTaken_lawful (h : Lawful k s) (hl : s.loopCall p l = some (i, c)) {r : Consult}
    (hroom : campRefusal r s = none) : Lawful k (campTaken p i r s) := by
  obtain ⟨_, hc, hst, hh⟩ := h.loopCall hl
  have hnot : c.state ≠ .camped := by rintro g; rw [g] at hst; cases hst
  refine settle_lawful ?_
  -- the state before the call moves differs from b in its camp table and its frames alone
  set b := s.setPos p { s.pos p with consult := none } with hb
  have hbl : Lawful k b := (h.without p).clearConsult
  have hcb : b.call i = some c := hc
  obtain ⟨f, hopen⟩ := openCamp_writes r.ext s
  obtain ⟨f', n, hclose⟩ := closeConsult_writes p true (openCamp r.ext s)
  have hw : (closeConsult p true (openCamp r.ext s)).slots = s.slots ∧
      (closeConsult p true (openCamp r.ext s)).positions = b.positions ∧
      (closeConsult p true (openCamp r.ext s)).orbits = s.orbits ∧
      (closeConsult p true (openCamp r.ext s)).queue = s.queue ∧
      (closeConsult p true (openCamp r.ext s)).eff = s.eff ∧
      (closeConsult p true (openCamp r.ext s)).camps = (openCamp r.ext s).camps := by
    rw [hclose]
    refine ⟨?_, ?_, ?_, ?_, ?_, rfl⟩ <;> rw [hopen] <;> rfl
  generalize closeConsult p true (openCamp r.ext s) = w at hw
  obtain ⟨hslots, hpositions, horbits, hqueue, heff, hcamps⟩ := hw
  have hcallw : ∀ j, w.call j = s.call j := fun j => by rw [State.call, State.call, hslots]
  unfold campCall
  rw [leave_seated ((hcallw i).trans hc) hst hh]
  dsimp only
  refine (want_neutral i _ _).lawful ?_
  rw [setLoop_camps, hcamps, openCamp_place]
  set t : State := { (w.setLoop p l Loop.empty).modCall i (fun c => { c.enter .camped with
    extension := some r.ext, campOrder := some ((s.campList r.ext).length + 1) }) with camps := _ } with ht
  have hcall : ∀ j, t.call j = ((w.setLoop p l Loop.empty).modCall i (fun c => { c.enter .camped with
      extension := some r.ext, campOrder := some ((s.campList r.ext).length + 1) })).call j := fun _ => rfl
  have hown : t.call i = some { c.enter .camped with
      extension := some r.ext, campOrder := some ((s.campList r.ext).length + 1) } := by
    rw [hcall, modCall_call, if_pos rfl, setLoop_call, hcallw, hc]; rfl
  have hothers : ∀ j, j ≠ i → t.call j = s.call j := fun j hj => by
    rw [hcall, modCall_call, if_neg (Ne.symm hj), setLoop_call, hcallw]
  have hcampsT : t.camps = s.campsWith r.ext i := by
    rw [ht, State.campsWith, ← hcamps]; rfl
  have hleave : leave i b = b.setLoop p l Loop.empty := leave_seated hcb hst hh
  have v := hbl.leave_vacated hcb
  rw [hleave] at v
  have one : ∀ e, t.call i = some e → e.state = .camped ∧ e.extension = some r.ext ∧ e.offer = none :=
    fun e he => by rw [hown] at he; cases he; exact ⟨rfl, rfl, rfl⟩
  have hm : CallMoved i b t := v.moved_placeless hothers (fun e he => by rw [(one e he).1]; decide)
    (setLoop_positions hpositions p l _) horbits (by rw [ht]; change w.eff.mode = s.eff.mode; rw [heff])
  refine hm.lawful (hbl.sparing i) (hm.others.queueLaw_left hbl.queue ?_ fun e he => by rw [(one e he).1]; rfl)
    (h.camps.joined hroom (fun e he => by rw [hc] at he; cases he; exact hnot) hcampsT hothers hown rfl rfl rfl)
    (hbl.noOffer hcb (by rintro g; rw [g] at hst; cases hst)) (fun q x hq hx hlx => ?_) (fun e he => ?_)
    (fun _ e he => ?_) (fun _ e q m he g => ?_)
  · rw [← hbl.leave_queue hcb, hleave]; exact hqueue
  · exact absurd hlx (hbl.noConsult_at hcb hh (by rw [hb, setPos_pos, if_pos rfl]) q x hq hx)
  · rw [(one e he).1]; exact ⟨(one e he).2.2, by decide⟩
  · refine ⟨fun g => ?_, fun g => ?_, fun _ => ⟨r.ext, (one e he).2.1⟩⟩ <;>
      (rw [(one e he).1] at g; cases g)
  · rw [(one e he).1] at g; cases g

/-! ## Resets (R175, R178) -/

/-- A part without a call or an offer is lawful. -/
theorem Lawful.of_empty (hcall : ∀ i, t.call i = none) (hloop : ∀ p l, ((t.pos p).loop l).slot = none)
    (hoffer : ∀ p, (t.pos p).offer = none) (hconsult : ∀ p, (t.pos p).consult = none)
    (horbit : ∀ o, t.orbitSlot o = none) (hqueue : t.queue = []) (hcamps : t.camps = []) : Lawful k t := by
  have hno : ∀ {i c}, ¬ t.call i = some c := fun {i c} h => by rw [hcall] at h; cases h
  refine ⟨fun p l i => ?_, fun o i => ?_, fun p i hp => ?_, fun p r _ hr => ?_, ?_, ?_, fun _ => ?_,
    fun _ => ?_, fun _ p l n i j c d _ hc => absurd hc hno⟩
  · rw [hloop]; simp [hcall]
  · rw [horbit]; simp [hcall]
  · rw [hoffer] at hp; cases hp
  · rw [hconsult] at hr; cases hr
  · refine ⟨hqueue ▸ List.nodup_nil, fun i => ?_, hqueue ▸ List.Pairwise.nil⟩
    rw [hqueue]; simp [hcall]
  · refine ⟨by rw [hcamps]; decide, ?_, by rw [hcamps]; exact List.nodup_nil, ?_, fun i x => ?_, ?_⟩ <;>
      rw [hcamps] <;> simp [hcall]
  · exact ⟨fun i c hc => absurd hc hno, fun i c hc => absurd hc hno, fun i c hc => absurd hc hno⟩
  · refine ⟨fun _ p i c _ hc => absurd hc hno, fun _ p q i hp => ?_, fun _ p i c _ hc => absurd hc hno,
      fun i c _ hc => absurd hc hno, fun i c hc => absurd hc hno⟩
    rw [hoffer] at hp; cases hp

theorem wiped_lawful (toStandby : Bool) (s : State) : Lawful k (s.wiped toStandby) := by
  have hp := wiped_pos toStandby s
  refine .of_empty (wiped_call toStandby s) (fun p l => ?_) (fun p => by rw [hp]; rfl)
    (fun p => by rw [hp]; rfl) (fun o => ?_) rfl rfl
  · rw [hp]; simp [Position.serviceReset, Position.loop, Loop.empty]
  · simp [State.wiped, State.orbitSlot]

theorem serviceReset_lawful (toStandby : Bool) (s : State) : Lawful k (serviceReset toStandby s) := by
  rw [serviceReset_eq]
  refine Lawful.foldl (fun s p h => ?_) allPos
    (Neutral.lawful ((rejudgeGroup_neutral _).trans (rejudge_neutral _))
      (recompute_lawful (wiped_lawful toStandby s)))
  split
  · exact (makePending_neutral p _ s).lawful h
  · exact h

theorem powerOnState_lawful (rate : LineRate) (held : Bool) (s : State) :
    Lawful k (powerOnState rate held s) := by
  have hp : ∀ p, (powerOnState rate held s).pos p = Position.powerOn := fun p => by
    simp [powerOnState, State.reset, State.pos]
  refine .of_empty (powerOnState_call rate held s) (fun p l => ?_) (fun p => by rw [hp]; rfl)
    (fun p => by rw [hp]; rfl) (fun o => ?_) rfl rfl
  · rw [hp]; simp [Position.powerOn, Position.loop, Loop.empty]
  · simp [powerOnState, State.reset, State.orbitSlot]

/-! ## Positions and links (R107, R108, R174) -/

theorem recallLoops_lawful (h : Lawful (k.without p) s) : Lawful (k.without p) (recallLoops p s) := by
  refine Lawful.foldl (fun s l h => ?_) allLoops h
  split
  · exact h
  · rename_i i c hl
    obtain ⟨_, hc, hst, hh⟩ := h.loopCall hl
    rw [if_pos hst]
    refine recallCall_lawful h hc (h.noConsult_of_home hc fun q m r hq hk _ => ?_) _
    exact absurd (isHomeAt_inj hq hh).1 hk.2

theorem positionLoss_lawful (h : Lawful k s) (p : PosNo) : Lawful k (positionLoss p s) := by
  unfold positionLoss
  refine settle_lawful (Neutral.lawful (((setPosState_neutral p .down .closed _).trans
    (rejudgeGroup_neutral _)).trans ((placeLow_neutral _ _).trans (bump_neutral _ _))) ?_)
  exact withdrawAt_lawful (closeConsult_lawful true (recallLoops_lawful (h.without p))) p

theorem restoration_lawful (h : Lawful k s) (p : PosNo) : Lawful k (restoration p s) := by
  unfold restoration
  refine Neutral.lawful ((placeLow_neutral _ _).trans (makePending_neutral p _ _)) (settle_lawful ?_)
  exact Neutral.lawful (((setPosState_neutral p .closed .closed s).trans (setMisses_neutral p 0 _)).trans
    (rejudgeGroup_neutral _)) h

theorem receive_lawful (h : Lawful k s) (link : Link) : Lawful k (receive link s) := by
  have h1 := (setLink_neutral link (s.link link).hear s).lawful h
  cases link with
  | switch => exact h1
  | console p =>
    cases hu : (s.link (.console p)).up with
    | true => rw [receive_up hu]; exact h1
    | false => rw [receive_down hu]; exact (announce_neutral s _).lawful (restoration_lawful h1 p)

theorem linkLoss_lawful (h : Lawful k s) (link : Link) : Lawful k (linkLoss link s) := by
  unfold linkLoss
  cases link with
  | console p =>
    exact positionLoss_lawful ((Neutral.of_same (s := s)).lawful h) p
  | switch =>
    dsimp only
    split
    · exact serviceReset_lawful true _
    · exact (setLink_neutral .switch _ s).lawful h

end

end Sys2Proof.Machine
end

section
/-! PROOFS. Every command, row by row, keeps the law of R9 and the laws that go with it (O8). -/
namespace Sys2Proof.Machine

section
variable {k : Scope} {s t : State} {i : SlotNo} {c : Call} {p : PosNo} {l : LoopNo}

/-! ## What surrounds the work of a command -/

theorem unlessHeld_lawful {f : State → State} (h : unlessHeld f s = .next t) (hs : Lawful k s)
    (hf : Lawful k s → Lawful k (f s)) : Lawful k t := by
  unfold unlessHeld at h
  split at h
  · cases h; exact hs
  · cases h; exact hf hs

theorem act_lawful {f : State → State} (hf : Lawful k (f s)) : Lawful k (act f s) :=
  (announce_neutral s (f s)).lawful hf

theorem switchOrder_lawful {kind : Byte} {len : Nat} {f : State → State}
    (h : unlessHeld (switchOrder kind len f) s = .next t) (hs : Lawful k s)
    (hf : ∀ u, Lawful k u → Lawful k (f u)) : Lawful k t := by
  refine unlessHeld_lawful h hs fun hs => ?_
  have hu := receive_lawful hs .switch
  unfold switchOrder
  dsimp only
  split
  · exact act_lawful (hf _ hu)
  · exact (bump_neutral _ _).lawful hu

theorem consoleOrder_lawful {kind : Byte} {len : Nat} {f : State → State}
    (h : unlessHeld (consoleOrder p kind len f) s = .next t) (hs : Lawful k s)
    (hf : ∀ u, Lawful k u → Lawful k (f u)) : Lawful k t := by
  refine unlessHeld_lawful h hs fun hs => ?_
  have hu := receive_lawful hs (.console p)
  unfold consoleOrder
  dsimp only
  split
  · exact act_lawful (hf _ hu)
  · exact (bump_neutral _ _).lawful hu

/-- An answer to a console touches no collection. -/
theorem answered_lawful (h : Lawful k s) (p : PosNo) (seq kind : Byte) (code : ResultCode)
    (orbit : Option OrbitNo) : Lawful k (answerConsole p seq kind code orbit s) :=
  (answerConsole_neutral p seq kind code orbit s).lawful h

theorem told_lawful (h : Lawful k s) (kind : Byte) (code : ResultCode) :
    Lawful k (answerSwitch kind code s) := (answerSwitch_neutral kind code s).lawful h

/-! ## Sweep visits and ticks -/

theorem waitLimitCheck_lawful (h : Lawful k s) (i : SlotNo) : Lawful k (waitLimitCheck i s) := by
  unfold waitLimitCheck
  split
  · exact h
  · rename_i c hc
    split
    · rename_i hw
      have hst : c.state = .waiting := by
        simp only [waitLimitHolds, Bool.and_eq_true, beq_iff_eq] at hw; exact hw.1.1.1
      exact settle_lawful ((bump_neutral _ _).lawful (depart_lawful h hc
        (h.noOffer hc (by rw [hst]; decide)) (h.noConsult hc (by rw [hst]; decide)) _ _))
    · exact h

theorem countMiss_neutral (p : PosNo) (s : State) : Neutral s (countMiss p s) := by
  have h := (setMisses_neutral p (min maxMissCount ((s.pos p).missCount + 1)) s).trans
    (bump_neutral .missedOffers _)
  unfold countMiss
  dsimp only
  split
  · exact (h.trans (setPosState_neutral p _ _ _)).trans (rejudgeGroup_neutral _)
  · exact h

theorem offerExpiryCheck_lawful (h : Lawful k s) (i : SlotNo) : Lawful k (offerExpiryCheck i s) := by
  unfold offerExpiryCheck
  split
  · exact h
  · split
    · dsimp only
      split
      · refine (Neutral.modCall i _ s ?_).lawful h
        exact fun _ _ => rfl
      · exact settle_lawful ((countMiss_neutral _ _).lawful (withdrawAt_lawful h _))
    · exact h

theorem holdReminderCheck_lawful (h : Lawful k s) (i : SlotNo) : Lawful k (holdReminderCheck i s) := by
  unfold holdReminderCheck
  split
  · exact h
  · split
    · refine (Neutral.modCall i _ s ?_).lawful h
      exact fun _ _ => rfl
    · exact h

/-- A HELD call that is not consulting has no consult open on its loop (R103). -/
theorem Lawful.noConsult_of_consulting (h : Lawful k s) (hc : s.call i = some c)
    (hn : s.consulting c = false) : s.NoConsult k i :=
  h.noConsult_of_home hc fun p l r hh _ hr hl => by
    have hhome : c.home = some { pos := p, loop := some l } := by simpa [Call.isHomeAt] using hh
    simp [State.consulting, hhome, State.consultOn, hr, hl] at hn

theorem holdRecallCheck_lawful (h : Lawful k s) (i : SlotNo) : Lawful k (holdRecallCheck i s) := by
  unfold holdRecallCheck
  split
  · exact h
  · rename_i c hc
    split
    · rename_i hr
      simp only [holdLimitReached, Bool.and_eq_true, Bool.not_eq_true'] at hr
      exact recallNow_lawful h hc (h.noConsult_of_consulting hc hr.1.1.2) _
    · exact h

theorem parkCheck_lawful (h : Lawful k s) (i : SlotNo) : Lawful k (parkCheck i s) := by
  unfold parkCheck
  split
  · exact h
  · rename_i c hc
    split
    · rename_i hst; exact recallNow_lawful h hc (h.noConsult hc (by rw [hst.1]; decide)) _
    · exact h

theorem ringCheck_lawful (h : Lawful k s) (i : SlotNo) : Lawful k (ringCheck i s) := by
  unfold ringCheck
  split
  · exact h
  · rename_i c hc
    split
    · rename_i hst; exact recallNow_lawful h hc (h.noConsult hc (by rw [hst.1]; decide)) _
    · exact h

theorem campCheck_lawful (h : Lawful k s) (i : SlotNo) : Lawful k (campCheck i s) := by
  unfold campCheck
  split
  · exact h
  · rename_i c hc
    split
    · rename_i hst; exact recallNow_lawful h hc (h.noConsult hc (by rw [hst.1]; decide)) _
    · exact h

theorem queueCheck_lawful (h : Lawful k s) (found : Call) (hc : s.call i = some c)
    (hq : c.state.queued = true) : Lawful k (queueCheck found i s) := by
  have hu := settle_lawful (requeue_lawful h hc hq)
  unfold queueCheck
  dsimp only
  split
  · exact hu
  · split
    · exact waitLimitCheck_lawful hu i
    · split
      · exact offerExpiryCheck_lawful hu i
      · exact hu

theorem ownersCheck_lawful (h : Lawful k s) {found : Call} (hc : s.call i = some c)
    (hst : c.state = found.state) : Lawful k (ownersCheck found i s) := by
  unfold ownersCheck
  split
  case h_1 hf => exact queueCheck_lawful h found hc (by rw [hst, hf]; rfl)
  case h_2 hf => exact queueCheck_lawful h found hc (by rw [hst, hf]; rfl)
  case h_3 => exact h
  case h_4 =>
    split
    · exact holdRecallCheck_lawful h i
    · exact holdReminderCheck_lawful h i
  case h_5 => exact parkCheck_lawful h i
  case h_6 => exact ringCheck_lawful h i
  case h_7 => exact campCheck_lawful h i
  case h_8 => exact h

theorem visitSlot_lawful (h : Lawful k s) (i : SlotNo) : Lawful k (visitSlot i s) := by
  unfold visitSlot
  split
  · exact h
  · rename_i c hc
    have hn : Neutral s (issue i (s.modCall i (fun c => { c with retryWait := false }))) :=
      (Neutral.modCall i (fun c => { c with retryWait := false }) s fun _ _ => rfl).trans (issue_neutral i _)
    -- the record found keeps its state until its owner's check
    have hcheck : ∀ u, Neutral s u → Lawful k (ownersCheck c i u) := fun u hu => by
      obtain ⟨d, hd, hv⟩ := hu.call_some hc
      exact ownersCheck_lawful (hu.lawful h) hd (congrArg (fun v => v.place.state) hv)
    dsimp only
    split
    · exact hcheck _ (hn.trans (Neutral.modCall i (fun c => { c with age := min maxAge (c.age + 1) }) _
        fun _ _ => rfl))
    · exact hcheck _ hn

theorem periodicReport_neutral (s : State) : Neutral s (periodicReport s) := by
  unfold periodicReport
  split <;> exact .of_same

theorem reportEnd_neutral (s : State) : Neutral s (reportEnd s) := (periodicReport_neutral s).trans .of_same

theorem advancePointer_neutral (s : State) : Neutral s (advancePointer s) := by
  unfold advancePointer
  split
  · unfold endPass
    split
    · exact .of_same
    · dsimp only
      split
      · exact Neutral.trans (t := { s with pointer := s.rangeFirst, passCount := s.passCount + 1 }) .of_same
          (reportEnd_neutral _)
      · exact .of_same
  · exact .of_same

theorem sweepStep_lawful (h : Lawful k s) : Lawful k (sweepStep s) :=
  (advancePointer_neutral _).lawful (visitSlot_lawful h s.pointer)

theorem abandonFrame_neutral (link : Link) (s : State) : Neutral s (abandonFrame link s) := by
  unfold abandonFrame
  split
  · exact .refl s
  · exact (setLink_neutral link _ s).trans (bump_neutral _ _)

theorem runPart_lawful (h : Lawful k s) (part : TickPart) : Lawful k (runPart part s) := by
  cases part with
  | lose link => exact act_lawful (linkLoss_lawful h link)
  | abandon link => exact (abandonFrame_neutral link s).lawful h
  | visit =>
    unfold runPart
    dsimp only
    split
    · exact act_lawful (sweepStep_lawful h)
    · exact h

theorem countedTick_lawful (h : Lawful k s) : Lawful k (countedTick s) := by
  have hsup : Lawful k s.supervised := (supervised_onlyLinks s).neutral.lawful
    ((Neutral.of_same (s := s)).lawful h)
  exact (countedTick_onlyLinks s).neutral.lawful (Lawful.foldl (fun _ part h => runPart_lawful h part) _ hsup)

/-! ## Orders of the switch -/

theorem rejectArrival_neutral (tag : Tag) (why : RejectReason) (s : State) :
    Neutral s (rejectArrival tag why s) := (bump_neutral _ s).trans (placeAnswer_neutral _ _)

theorem divertArrival_neutral (tag : Tag) (dest : Half) (why : DivertReason) (x : Counter) (s : State) :
    Neutral s (divertArrival tag dest why x s) := (bump_neutral _ s).trans (placeAnswer_neutral _ _)

theorem overflowArrival_neutral (tag : Tag) (s : State) : Neutral s (overflowArrival tag s) := by
  unfold overflowArrival
  split
  · exact divertArrival_neutral _ _ _ _ s
  · exact rejectArrival_neutral _ _ s

theorem arriveDecision_lawful (h : Lawful k s) (tag : Tag) (group circuit : Byte) :
    Lawful k (arriveDecision tag group circuit s) := by
  have hu := (bump_neutral .arrivals s).lawful h
  unfold arriveDecision
  generalize bump .arrivals s = u at hu ⊢
  dsimp only
  split
  · exact (rejectArrival_neutral _ _ u).lawful hu
  · split
    · exact ((rejectArrival_neutral _ _ u).trans (placeLow_neutral _ _)).lawful hu
    · split
      · exact ((rejectArrival_neutral _ _ u).trans (placeLow_neutral _ _)).lawful hu
      · unfold decideMapped
        split
        · exact ((rejectArrival_neutral _ _ u).trans (placeLow_neutral _ _)).lawful hu
        · split
          · exact (divertArrival_neutral _ _ _ _ u).lawful hu
          · split
            · exact (overflowArrival_neutral _ u).lawful hu
            · split
              · exact (overflowArrival_neutral _ u).lawful hu
              · rename_i j hj
                exact admitCall_lawful hu (lowestFree_spec hj).2 rfl rfl

/-- The consult that GONE closes leaves none on the loop of the call (R17). -/
theorem closeConsultOf_lawful (h : Lawful k s) (hc : s.call i = some c) :
    Lawful k (closeConsultOf c s) ∧ (closeConsultOf c s).NoConsult k i := by
  unfold closeConsultOf
  split
  · rename_i p l hhome
    have hh : c.isHomeAt p l = true := by rw [Call.isHomeAt, hhome]; exact beq_self_eq_true _
    split
    · have hu := closeConsult_lawful true (h.without p)
      exact ⟨hu, hu.noConsult_at (by rw [closeConsult_call]; exact hc) hh (closeConsult_consult p true s)⟩
    · rename_i hn
      refine ⟨h, h.noConsult_of_home hc fun q m r hq _ hr hl => hn ?_⟩
      obtain ⟨rfl, rfl⟩ := isHomeAt_inj hh hq
      rw [State.consultOn, hr]
      exact beq_iff_eq.2 hl
  · rename_i hn
    refine ⟨h, h.noConsult_of_home hc fun q m r hq _ _ _ => hn q m ?_⟩
    simpa [Call.isHomeAt] using hq

theorem goneReport_lawful (h : Lawful k s) (tag : Tag) : Lawful k (goneReport tag s) := by
  unfold goneReport
  split
  · exact (bump_neutral _ s).lawful h
  · rename_i i _
    split
    · exact (bump_neutral _ s).lawful h
    · rename_i c hc
      unfold goneCall
      dsimp only
      have hu : Lawful k (if c.state.queued = true then bump .abandoned s else s) ∧
          (if c.state.queued = true then bump .abandoned s else s).call i = some c := by
        split
        · exact ⟨(bump_neutral _ s).lawful h, hc⟩
        · exact ⟨h, hc⟩
      generalize (if c.state.queued = true then bump .abandoned s else s) = u at hu
      obtain ⟨hu, hcu⟩ := hu
      refine settle_lawful ?_
      split
      · have ⟨hv, hnc⟩ := closeConsultOf_lawful hu hcu
        exact freeSlot_lawful hv hnc
      · rename_i hst
        exact freeSlot_lawful hu (hu.noConsult hcu (by rintro g; rw [g] at hst; exact hst rfl))

theorem acked_neutral (s : State) (i : SlotNo) (c : Call) (r : Request) : Neutral s (s.acked i c r) :=
  .modCall i _ s fun _ _ => rfl

theorem ackDone_lawful (h : Lawful k s) (hc : s.call i = some c) (r : Request) :
    Lawful k (ackDone i c r s) := by
  rw [ackDone_eq]
  split
  · rename_i ht
    simp only [Bool.and_eq_true, beq_iff_eq] at ht
    have hn : Neutral s (if r.target.isDeliver = true then bump .delivered (s.acked i c r)
        else s.acked i c r) := by
      split
      · exact (acked_neutral s i c r).trans (bump_neutral _ _)
      · exact acked_neutral s i c r
    obtain ⟨d, hd, hv⟩ := hn.call_some hc
    have hst : d.state = .departing := (congrArg (fun v => v.place.state) hv).trans ht.2
    exact settle_lawful (freeSlot_lawful (hn.lawful h)
      ((hn.lawful h).noConsult hd (by rw [hst]; decide)))
  · exact ((acked_neutral s i c r).trans (issue_neutral i _)).lawful h

theorem failed_neutral (s : State) (i : SlotNo) (c : Call) (r : Request) : Neutral s (s.failed i c r) := by
  unfold State.failed
  refine (((Neutral.modCall i (fun c => { c with outstanding := none }) s fun _ _ => rfl).trans
    (bump_neutral _ _)).trans (placeLow_neutral _ _)).trans
    (.modCall i (fun c => { c with retryWait := true }) _ fun _ _ => rfl)

/-- A failure sends back a call that is not HELD, so no consult is open on its loop (R152). -/
theorem failConsequence_lawful (h : Lawful k s) {d : Call} (hd : s.call i = some d)
    (hst : d.state = c.state) (target : Conn) : Lawful k (failConsequence i c target s) := by
  have recalled : ∀ reason, c.state ≠ .held → Lawful k (recallNow i reason s) := fun reason hne =>
    recallNow_lawful h hd (h.noConsult hd (by rw [hst]; exact hne)) reason
  unfold failConsequence
  split
  case h_1 =>
    split
    · rename_i hc; exact recalled _ (by rw [hc.1]; decide)
    · exact h
  case h_2 =>
    split
    · rename_i hc; exact recalled _ (by rcases hc with hc | hc | hc <;> simp [hc])
    · exact h
  case h_3 =>
    split
    · rename_i hc; exact recalled _ (by rw [hc]; decide)
    · exact h
  case h_4 =>
    split
    · exact (Neutral.modCall i (fun c => { c with wanted := .drop }) s fun _ _ => rfl).lawful h
    · exact h
  case h_5 =>
    split
    · rename_i hc
      exact settle_lawful (freeSlot_lawful h (h.noConsult hd (by rw [hst, hc]; decide)))
    · exact h
  case h_6 => exact h
  case h_7 => exact h

theorem legAck_lawful (h : Lawful k s) {r : Consult} (hr : (s.pos p).consult = some r) (n : ReqNo)
    (done : Bool) : Lawful k (legAck p r n done s) := by
  unfold legAck
  split
  · split
    · exact (setPhase_neutral _ _ hr).lawful h
    · exact (((setPhase_neutral _ _ hr).trans (bump_neutral _ _)).trans (placeLow_neutral _ _)).lawful h
  · exact (bump_neutral _ s).lawful h

theorem pathAckReport_lawful (h : Lawful k s) (n : ReqNo) (done : Bool) :
    Lawful k (pathAckReport n done s) := by
  unfold pathAckReport
  split
  · rename_i i _
    split
    · exact h
    · rename_i c hc
      split
      · exact h
      · rename_i r _
        split
        · exact ackDone_lawful h hc r
        · rw [ackFail_eq]
          obtain ⟨d, hd, hv⟩ := (failed_neutral s i c r).call_some hc
          exact (issue_neutral i _).lawful (failConsequence_lawful ((failed_neutral s i c r).lawful h) hd
            (congrArg (fun v => v.place.state) hv) _)
  · split
    · split
      · exact h
      · rename_i hr; exact legAck_lawful h hr n done
    · exact ((bump_neutral _ s).trans (placeLow_neutral _ _)).lawful h

theorem legReport_lawful (h : Lawful k s) (n : ReqNo) (v : LegReport) : Lawful k (legReport n v s) := by
  unfold legReport
  split
  · split
    · exact h
    · rename_i hr; exact (setPhase_neutral _ _ hr).lawful h
  · split
    · rename_i i hi
      obtain ⟨a, ha, hst, _⟩ := slotOfWatch_spec hi
      have hnc : s.NoConsult k i := h.noConsult ha (by rw [hst]; decide)
      unfold watchReport
      split
      · exact settle_lawful (freeSlot_lawful ((bump_neutral .delivered s).lawful h) hnc)
      · exact recallNow_lawful h ha hnc _
      · exact recallNow_lawful h ha hnc _
      · exact h
      · exact h
    · exact (bump_neutral _ s).lawful h

theorem extFreeReport_lawful (h : Lawful k s) (x : Ext) : Lawful k (extFreeReport x s) := by
  unfold extFreeReport
  split
  · rename_i i hi
    unfold State.campHead at hi
    split at hi
    · cases hi
    · rename_i e he
      obtain ⟨c, hc, hst, _⟩ := (h.camps.listed i e.ext).1
        ⟨e, List.mem_of_find?_eq_some he, rfl, List.mem_of_mem_head? hi⟩
      exact ringAt_lawful h hc (h.noOffer hc (by rw [hst]; decide)) (h.noConsult hc (by rw [hst]; decide)) x
  · exact (placeDroppable_neutral _ s).lawful h

theorem pickupReport_lawful (h : Lawful k s) (o : OrbitNo) (x : Ext) : Lawful k (pickupReport o x s) := by
  unfold pickupReport
  split
  · exact (bump_neutral _ s).lawful h
  · rename_i i hi
    obtain ⟨c, hc, hst, _⟩ := (h.orbits o i).1 hi
    exact depart_lawful h hc (h.noOffer hc (by rw [hst]; decide)) (h.noConsult hc (by rw [hst]; decide)) _ _

theorem closed_positions_neutral (s : State) : Neutral s s.stopping := by
  have hp : ∀ p, s.stopping.pos p = closeOpenPosition (s.pos p) := stopping_pos s
  have hkeep : ∀ c : Position, (closeOpenPosition c).loops = c.loops ∧
      (closeOpenPosition c).offer = c.offer ∧ (closeOpenPosition c).consult = c.consult := fun c => by
    unfold closeOpenPosition; split <;> exact ⟨rfl, rfl, rfl⟩
  refine ⟨fun _ => rfl, fun p l => ?_, fun p => ?_, fun p => ?_, rfl, rfl, rfl, rfl⟩
  · rw [hp, Position.loop, (hkeep _).1]; rfl
  · rw [hp, (hkeep _).2.1]
  · rw [hp, (hkeep _).2.2]

theorem stopOrder_lawful (h : Lawful k s) (mode : Byte) : Lawful k (stopOrder mode s) := by
  unfold stopOrder
  split
  · unfold stopOrderlyNow
    split
    · exact told_lawful ((Neutral.of_same (s := s)).lawful h) _ _
    · split
      · exact told_lawful (settle_lawful
          (((closed_positions_neutral s).trans (rejudgeGroup_neutral _)).lawful h)) _ _
      · exact told_lawful h _ _
  · split
    · exact told_lawful (serviceReset_lawful true s) _ _
    · exact told_lawful h _ _

/-- An order that is taken in STANDBY and writes settings alone. -/
theorem inStandby_lawful (h : Lawful k s) {kind : Byte} {f : State → State} (hf : Neutral s (f s)) :
    Lawful k (inStandby kind f s) := by
  unfold inStandby
  split
  · exact hf.lawful h
  · exact told_lawful h _ _

theorem startOrder_neutral (s : State) : Neutral s (startOrder s) := by
  unfold startOrder
  split
  · exact Neutral.trans .of_same (answerSwitch_neutral _ _ _)
  · exact answerSwitch_neutral _ _ s

theorem groupSetOrder_neutral (group valid bits : Byte) (base : Half) (cls : Byte) (night : Half)
    (s : State) : Neutral s (groupSetOrder group valid bits base cls night s) := by
  unfold groupSetOrder
  split
  · exact answerSwitch_neutral _ _ s
  · split
    · exact answerSwitch_neutral _ _ s
    · exact Neutral.trans .of_same (answerSwitch_neutral _ _ _)

theorem originSetOrder_neutral (index : Half) (valid override : Byte) (label : Half) (s : State) :
    Neutral s (originSetOrder index valid override label s) := by
  unfold originSetOrder
  split
  · exact Neutral.trans .of_same (answerSwitch_neutral _ _ _)
  · exact answerSwitch_neutral _ _ s

theorem positionSetOrder_neutral (subject value : Byte) (s : State) :
    Neutral s (positionSetOrder subject value s) := by
  unfold positionSetOrder
  split
  · exact Neutral.trans .of_same (answerSwitch_neutral _ _ _)
  · split
    · rename_i p v _ _
      have h : Neutral s (s.setPos p { s.pos p with leadEligible := v }) := .setPos p _ s (fun _ => rfl) rfl rfl
      exact Neutral.trans (h.trans .of_same) (answerSwitch_neutral _ _ _)
    · exact answerSwitch_neutral _ _ s

theorem rangeSetOrder_neutral (first last : Half) (s : State) : Neutral s (rangeSetOrder first last s) := by
  unfold rangeSetOrder
  split
  · exact Neutral.trans .of_same (answerSwitch_neutral _ _ _)
  · exact answerSwitch_neutral _ _ s

theorem planHoldOrder_neutral (s : State) : Neutral s (planHoldOrder s) := by
  unfold planHoldOrder
  split
  · exact Neutral.trans .of_same (answerSwitch_neutral _ _ _)
  · exact answerSwitch_neutral _ _ s

theorem planAbandonOrder_neutral (s : State) : Neutral s (planAbandonOrder s) := by
  unfold planAbandonOrder
  split
  · exact answerSwitch_neutral _ _ s
  · exact Neutral.trans .of_same (answerSwitch_neutral _ _ _)

theorem planWriteOrder_lawful (h : Lawful k s) (target field : Byte) (value : Half) :
    Lawful k (planWriteOrder target field value s) := by
  unfold planWriteOrder
  split
  · exact told_lawful h _ _
  · split
    · split
      · exact told_lawful h _ _
      · exact told_lawful ((Neutral.of_same (s := s)).lawful h) _ _
    · split
      · unfold writeNow
        dsimp only
        split
        · exact replan_lawful (told_lawful ((Neutral.of_same (s := s)).lawful h) _ _)
        · exact told_lawful h _ _
      · exact told_lawful h _ _

theorem planReleaseOrder_lawful (h : Lawful k s) : Lawful k (planReleaseOrder s) := by
  unfold planReleaseOrder
  split
  · exact told_lawful h _ _
  · dsimp only
    split
    · exact replan_lawful (told_lawful ((Neutral.of_same (s := s)).lawful h) _ _)
    · exact told_lawful ((Neutral.of_same (s := s)).lawful h) _ _

theorem planSelectOrder_lawful (h : Lawful k s) (selection : Byte) :
    Lawful k (planSelectOrder selection s) := by
  unfold planSelectOrder
  split
  · exact told_lawful h _ _
  · exact replan_lawful (told_lawful ((Neutral.of_same (s := s)).lawful h) _ _)

theorem setNight_lawful (h : Lawful k s) (v : NightSetting) : Lawful k (setNight v s) := by
  have hu : Lawful k { s with nightSetting := v, nightFlag := nightFlagOf v s.positions } :=
    (Neutral.of_same (s := s)).lawful h
  unfold setNight
  dsimp only
  split
  · exact hu
  · exact settle_lawful hu

theorem nightOrder_lawful (h : Lawful k s) (value : Byte) : Lawful k (nightOrder value s) := by
  unfold nightOrder
  split
  · exact told_lawful h _ _
  · exact setNight_lawful (told_lawful h _ _) _

theorem countersReadOrder_neutral (clear : Byte) (s : State) : Neutral s (countersReadOrder clear s) := by
  unfold countersReadOrder
  split
  · exact answerSwitch_neutral _ _ s
  · rename_i v _
    unfold countersAnswer
    dsimp only
    have h : Neutral s (if v = true then clearCounters s else s) := by
      split
      · exact .of_same
      · exact .refl s
    split
    · exact h.trans .of_same
    · exact h.trans (bump_neutral _ _)

/-! ## Orders of the consoles -/

theorem selectOrder_lawful (h : Lawful k s) (p : PosNo) (seq selection : Byte) :
    Lawful k (selectOrder p seq selection s) := by
  unfold selectOrder
  split
  · split
    · exact answered_lawful h p _ _ _ _
    · exact replan_lawful (answered_lawful ((Neutral.of_same (s := s)).lawful h) p _ _ _ _)
  · exact answered_lawful h p _ _ _ _

theorem nightConsoleOrder_lawful (h : Lawful k s) (p : PosNo) (seq value : Byte) :
    Lawful k (nightConsoleOrder p seq value s) := by
  unfold nightConsoleOrder
  split
  · split
    · exact answered_lawful h p _ _ _ _
    · exact setNight_lawful (answered_lawful h p _ _ _ _) _
  · exact answered_lawful h p _ _ _ _

theorem openOrder_lawful (h : Lawful k s) (p : PosNo) (seq : Byte) : Lawful k (openOrder p seq s) := by
  unfold openOrder
  split
  · exact answered_lawful h p _ _ _ _
  · have hu := (setMisses_neutral p 0 _).lawful (answered_lawful h p seq Kind.openPosition .accepted none)
    unfold openTaken
    dsimp only
    split
    · exact hu
    · exact settle_lawful (((setPosState_neutral p _ _ _).trans (rejudgeGroup_neutral _)).lawful hu)

theorem closeOrder_lawful (h : Lawful k s) (p : PosNo) (seq : Byte) : Lawful k (closeOrder p seq s) := by
  have hu := answered_lawful h p seq Kind.closePosition .accepted none
  unfold closeOrder closeTaken
  split
  · exact settle_lawful (((setPosState_neutral p _ _ _).trans (rejudgeGroup_neutral _)).lawful
      (withdrawAt_lawful hu p))
  · exact hu

theorem answerTests_spec {loop slot : Byte} (h : answerTests p loop slot s = .ok (l, i)) :
    ((s.pos p).loop l).slot = none ∧ (s.pos p).offer = some i := by
  unfold answerTests at h
  split at h
  · cases h
  · split at h
    · cases h
    · split at h
      · cases h
      · rename_i hfree
        split at h
        · cases h
        · split at h
          · rename_i hoff; cases h; exact ⟨by simpa using hfree, hoff⟩
          · cases h

theorem pickTests_spec {loop slot : Byte} (h : pickTests p slot loop s = .ok (l, i)) :
    ((s.pos p).loop l).slot = none ∧ ∃ c, s.call i = some c ∧ c.state.queued = true := by
  unfold pickTests at h
  split at h
  · cases h
  · split at h
    · cases h
    · split at h
      · cases h
      · rename_i hfree
        split at h
        · cases h
        · split at h
          · cases h
          · rename_i c hc
            split at h
            · rename_i hq; cases h; exact ⟨by simpa using hfree, c, hc, hq⟩
            · cases h

theorem retrieveTests_spec {loop orbit : Byte} (h : retrieveTests p orbit loop s = .ok (l, i)) :
    ((s.pos p).loop l).slot = none ∧ ∃ o, s.orbitSlot o = some i := by
  unfold retrieveTests at h
  split at h
  · cases h
  · cases h
  · split at h
    · cases h
    · rename_i hfree
      split at h
      · cases h
      · split at h
        · cases h
        · rename_i hi; cases h; exact ⟨by simpa using hfree, _, hi⟩

theorem loopTests_spec {loop : Byte} (h : loopTests p loop s = .ok (l, i, c)) :
    s.loopCall p l = some (i, c) := by
  unfold loopTests at h
  split at h
  · cases h
  · split at h
    · cases h
    · rename_i hl; cases h; exact hl

theorem holdTests_spec {loop : Byte} (h : holdTests p loop s = .ok i) :
    ∃ l c, s.loopCall p l = some (i, c) ∧ c.state = .talking := by
  unfold holdTests at h
  split at h
  · cases h
  · rename_i hl
    split at h
    · rename_i hst; cases h; exact ⟨_, _, loopTests_spec hl, hst⟩
    · cases h

theorem returnTests_spec {loop : Byte} (h : returnTests p loop s = .ok (l, i)) :
    ∃ c, s.loopCall p l = some (i, c) ∧ s.consultOn p l = false := by
  unfold returnTests at h
  split at h
  · cases h
  · rename_i hl
    split at h
    · cases h
    · split at h
      · cases h
      · rename_i hn; cases h; exact ⟨_, loopTests_spec hl, by simpa using hn⟩

theorem releaseTests_spec {loop : Byte} (h : releaseTests p loop s = .ok i) :
    ∃ l c, s.loopCall p l = some (i, c) ∧ s.consultOn p l = false := by
  unfold releaseTests at h
  split at h
  · cases h
  · rename_i hl
    split at h
    · cases h
    · rename_i hn; cases h; exact ⟨_, _, loopTests_spec hl, by simpa using hn⟩

theorem parkTests_spec {loop orbit : Byte} {o : OrbitNo} (h : parkTests p loop orbit s = .ok (i, o)) :
    (∃ l c, s.loopCall p l = some (i, c) ∧ s.consultOn p l = false) ∧ s.orbitSlot o = none := by
  unfold parkTests at h
  split at h
  · cases h
  · rename_i hl
    split at h
    · cases h
    · rename_i hn
      split at h
      · split at h
        · rename_i hlow
          cases h
          exact ⟨⟨_, _, loopTests_spec hl, by simpa using hn⟩, by simpa using List.find?_some hlow⟩
        · cases h
      · split at h
        · cases h
        · split at h
          · cases h
          · rename_i hfree
            cases h
            exact ⟨⟨_, _, loopTests_spec hl, by simpa using hn⟩, by simpa using hfree⟩

theorem callerTests_spec {loop : Byte} {x : Ext} (h : callerTests p loop x s = .ok (l, i)) :
    ∃ c, s.loopCall p l = some (i, c) ∧ c.state = .talking := by
  unfold callerTests at h
  split at h
  · cases h
  · split at h
    · cases h
    · split at h
      · cases h
      · rename_i hl
        split at h
        · cases h
        · rename_i hst
          split at h
          · cases h
          · cases h; exact ⟨_, hl, by simpa using hst⟩

theorem endTests_spec {loop : Byte} {r : Consult} (h : endTests p loop s = .ok (l, i, r)) :
    ∃ c, s.loopCall p l = some (i, c) := by
  unfold endTests at h
  split at h
  · cases h
  · split at h
    · rename_i hl
      split at h
      · cases h; exact ⟨_, hl⟩
      · cases h
    · cases h

/-- A call on a loop that is not consulting can leave it. -/
theorem Lawful.loopCall_free (h : Lawful k s) (hl : s.loopCall p l = some (i, c))
    (hn : s.consultOn p l = false) :
    s.call i = some c ∧ c.state.seated = true ∧ c.isHomeAt p l = true ∧ s.NoOffer i ∧ s.NoConsult k i := by
  obtain ⟨_, hc, hst, hh⟩ := h.loopCall hl
  refine ⟨hc, hst, hh, h.noOffer hc (by rintro g; rw [g] at hst; cases hst),
    h.noConsult_of_home hc fun q m r hq _ hr hrm => ?_⟩
  obtain ⟨rfl, rfl⟩ := isHomeAt_inj hh hq
  simp [State.consultOn, hr, hrm] at hn

theorem answerTaken_lawful (h : Lawful k s) (hempty : ((s.pos p).loop l).slot = none)
    (hoff : (s.pos p).offer = some i) : Lawful k (answerTaken p l i s) := by
  obtain ⟨c, hc, hst⟩ := h.offered p i hoff
  have hu := endOffers_lawful (h.sparing i)
  have hcu : (endOffers i s).call i = some c := by rw [endOffers_call]; exact hc
  have hno := endOffers_noOffer i s
  have hloop : (((endOffers i s).pos p).loop l).slot = none := by
    rw [Position.loop, ((endOffers_settled i s).positions p).loops]; exact hempty
  unfold answerTaken
  generalize endOffers i s = u at hu hcu hno hloop
  dsimp only
  have hv : Lawful (k.sparing i) { u with available := u.available.filter (· != p) } :=
    (Neutral.of_same (s := u)).lawful hu
  refine settle_lawful (Neutral.lawful ((setMisses_neutral p 0 _).trans (bump_neutral _ _))
    (seat_lawful hv hcu (by rw [hst]; decide) hno (hv.noConsult hcu (by rw [hst]; decide)) hloop true))

theorem pickTaken_lawful (h : Lawful k s) (hempty : ((s.pos p).loop l).slot = none)
    (hc : s.call i = some c) (hq : c.state.queued = true) : Lawful k (pickTaken p l i s) := by
  have hu := endOffers_lawful (h.sparing i)
  have hcu : (endOffers i s).call i = some c := by rw [endOffers_call]; exact hc
  have hloop : (((endOffers i s).pos p).loop l).slot = none := by
    rw [Position.loop, ((endOffers_settled i s).positions p).loops]; exact hempty
  refine settle_lawful ((bump_neutral _ _).lawful (seat_lawful hu hcu ?_ (endOffers_noOffer i s)
    (hu.noConsult hcu ?_) hloop true)) <;> (rintro g; rw [g] at hq; cases hq)

theorem answerOrder_lawful (h : Lawful k s) (p : PosNo) (seq loop slot : Byte) :
    Lawful k (answerOrder p seq loop slot s) := by
  unfold answerOrder
  split
  · exact answered_lawful h p _ _ _ _
  · rename_i ht
    obtain ⟨hempty, hoff⟩ := answerTests_spec ht
    exact answerTaken_lawful (answered_lawful h p _ _ _ _) hempty hoff

theorem pickOrder_lawful (h : Lawful k s) (p : PosNo) (seq slot loop : Byte) :
    Lawful k (pickOrder p seq slot loop s) := by
  unfold pickOrder
  split
  · exact answered_lawful h p _ _ _ _
  · rename_i ht
    obtain ⟨hempty, c, hc, hq⟩ := pickTests_spec ht
    exact pickTaken_lawful (answered_lawful h p _ _ _ _) hempty hc hq

theorem holdOrder_lawful (h : Lawful k s) (p : PosNo) (seq loop : Byte) :
    Lawful k (holdOrder p seq loop s) := by
  unfold holdOrder
  split
  · exact answered_lawful h p _ _ _ _
  · rename_i ht
    obtain ⟨l, c, hl, hst⟩ := holdTests_spec ht
    exact holdSeated_lawful (answered_lawful h p _ _ _ _) (h.loopCall hl).2.1 hst

theorem returnOrder_lawful (h : Lawful k s) (p : PosNo) (seq loop : Byte) :
    Lawful k (returnOrder p seq loop s) := by
  unfold returnOrder
  split
  · exact answered_lawful h p _ _ _ _
  · rename_i ht
    obtain ⟨c, hl, hn⟩ := returnTests_spec ht
    obtain ⟨hc, hst, hh, _, hnc⟩ := h.loopCall_free hl hn
    exact talkAgain_lawful (answered_lawful h p _ _ _ _) hc hst hh hnc

theorem releaseOrder_lawful (h : Lawful k s) (p : PosNo) (seq loop : Byte) :
    Lawful k (releaseOrder p seq loop s) := by
  unfold releaseOrder
  split
  · exact answered_lawful h p _ _ _ _
  · rename_i ht
    obtain ⟨l, c, hl, hn⟩ := releaseTests_spec ht
    obtain ⟨hc, _, _, hno, hnc⟩ := h.loopCall_free hl hn
    exact settle_lawful ((bump_neutral _ _).lawful
      (depart_lawful (answered_lawful h p _ _ _ _) hc hno hnc _ _))

theorem parkOrder_lawful (h : Lawful k s) (p : PosNo) (seq loop orbit : Byte) :
    Lawful k (parkOrder p seq loop orbit s) := by
  unfold parkOrder
  split
  · exact answered_lawful h p _ _ _ _
  · rename_i ht
    obtain ⟨⟨l, c, hl, hn⟩, hempty⟩ := parkTests_spec ht
    obtain ⟨hc, _, _, hno, hnc⟩ := h.loopCall_free hl hn
    exact settle_lawful (parkCall_lawful (answered_lawful h p _ _ _ _) hc hno hnc hempty)

theorem retrieveOrder_lawful (h : Lawful k s) (p : PosNo) (seq orbit loop : Byte) :
    Lawful k (retrieveOrder p seq orbit loop s) := by
  unfold retrieveOrder
  split
  · exact answered_lawful h p _ _ _ _
  · rename_i ht
    obtain ⟨hempty, o, ho⟩ := retrieveTests_spec ht
    obtain ⟨c, hc, hst, _⟩ := (h.orbits o _).1 ho
    exact settle_lawful (seat_lawful ((answered_lawful h p _ _ _ _).sparing _) hc (by rw [hst]; decide)
      (h.noOffer hc (by rw [hst]; decide)) (h.noConsult hc (by rw [hst]; decide)) hempty false)

theorem consultOrder_lawful (h : Lawful k s) (p : PosNo) (seq loop : Byte) (x : Ext) :
    Lawful k (consultOrder p seq loop x s) := by
  unfold consultOrder consultTests
  split
  · exact answered_lawful h p _ _ _ _
  · rename_i ht
    split at ht
    · cases ht
    · rename_i hcaller
      split at ht
      · cases ht
      · cases ht
        obtain ⟨c, hl, hst⟩ := callerTests_spec hcaller
        exact consultTaken_lawful (answered_lawful h p _ _ _ _) hl hst

theorem sendOrder_lawful (h : Lawful k s) (p : PosNo) (seq loop : Byte) (x : Ext) :
    Lawful k (sendOrder p seq loop x s) := by
  unfold sendOrder
  split
  · exact answered_lawful h p _ _ _ _
  · rename_i ht
    obtain ⟨c, hl, hst⟩ := callerTests_spec ht
    have hc := (h.loopCall hl).2.1
    exact settle_lawful (ringAt_lawful (answered_lawful h p _ _ _ _) hc (h.noOffer hc (by rw [hst]; decide))
      (h.noConsult hc (by rw [hst]; decide)) x)

theorem joinOrder_lawful (h : Lawful k s) (p : PosNo) (seq loop : Byte) :
    Lawful k (joinOrder p seq loop s) := by
  have hu := fun code => answered_lawful h p seq Kind.join code none
  unfold joinOrder
  split
  · exact hu _
  · rename_i ht
    obtain ⟨c, hl⟩ := endTests_spec ht
    dsimp only
    split
    case h_1 => exact joinScreened_lawful (hu _) hl _
    case h_2 => exact joinUnscreened_lawful (hu _) hl _
    case h_3 => exact joinUnscreened_lawful (hu _) hl _
    case h_4 => exact hu _
    case h_5 => exact hu _
    case h_6 => exact hu _
    case h_7 => exact hu _

theorem cancelOrder_lawful (h : Lawful k s) (p : PosNo) (seq loop : Byte) :
    Lawful k (cancelOrder p seq loop s) := by
  unfold cancelOrder
  split
  · exact answered_lawful h p _ _ _ _
  · rename_i ht
    obtain ⟨c, hl⟩ := endTests_spec ht
    exact cancel_lawful (answered_lawful h p _ _ _ _) hl

theorem campOrder_lawful (h : Lawful k s) (p : PosNo) (seq loop : Byte) :
    Lawful k (campOrder p seq loop s) := by
  unfold campOrder
  split
  · exact answered_lawful h p _ _ _ _
  · rename_i ht
    obtain ⟨c, hl⟩ := endTests_spec ht
    split
    · exact answered_lawful h p _ _ _ _
    · rename_i hroom
      exact campTaken_lawful (answered_lawful h p _ _ _ _) hl hroom

/-! ## The rows of the links -/

theorem tickPulse_lawful (h : execTickPulse s = .next t) (hs : Lawful k s) : Lawful k t := by
  refine unlessHeld_lawful h hs fun hs => ?_
  split
  · exact (Neutral.of_same (s := s)).lawful hs
  · exact countedTick_lawful hs

theorem idle_lawful {link : Link} {len : Nat} (h : execIdle link len s = .next t) (hs : Lawful k s) :
    Lawful k t := by
  refine unlessHeld_lawful h hs fun hs => ?_
  have hu := receive_lawful hs link
  dsimp only
  split
  · exact hu
  · exact (bump_neutral _ _).lawful hu

theorem otherKindFrame_lawful {link : Link} {kind : Byte} (h : execOtherKindFrame link kind s = .next t)
    (hs : Lawful k s) : Lawful k t := by
  refine unlessHeld_lawful h hs fun hs => ?_
  have hu := receive_lawful hs link
  dsimp only
  split
  · exact (bump_neutral _ _).lawful hu
  · exact hu

theorem consoleNoticeSent_lawful (h : execConsoleNoticeSent p s = .next t) (hs : Lawful k s) :
    Lawful k t :=
  unlessHeld_lawful h hs fun hs => (Neutral.of_same (s := s)).lawful hs

end

/-! ## Every command -/

/-- Every command keeps the laws, each with whichever of the others the scope asks for. -/
theorem exec_lawful {k : Scope} {x : Instr} {s t : State} (h : exec x s = .next t) (hs : Lawful k s) :
    Lawful k t := by
  cases x with
  | powerOnReset r => cases h; exact powerOnState_lawful r false s
  | resetAsserted => cases h; exact powerOnState_lawful _ true s
  | tickPulse => exact tickPulse_lawful h hs
  | countedTick => exact unlessHeld_lawful h hs countedTick_lawful
  | linkLost link =>
    refine unlessHeld_lawful h hs fun hs => ?_
    split
    · exact act_lawful (linkLoss_lawful hs link)
    · exact hs
  | frameAbandoned link => exact unlessHeld_lawful h hs (abandonFrame_neutral link s).lawful
  | badFrames link bytes =>
    refine unlessHeld_lawful h hs fun hs => ?_
    split
    · exact ((setLink_neutral link _ s).trans (bump_neutral _ _)).lawful hs
    · exact hs
  | idle link len => exact idle_lawful h hs
  | otherKindFrame link kind => exact otherKindFrame_lawful h hs
  | leadByteReceived link =>
    refine unlessHeld_lawful h hs fun hs => ?_
    split
    · exact (setLink_neutral link _ s).lawful hs
    · exact hs
  | switchFrameSent =>
    refine unlessHeld_lawful h hs fun hs => ?_
    unfold switchFrameDone
    split
    · exact (Neutral.of_same (s := s)).lawful hs
    · exact (Neutral.of_same (s := s)).lawful hs
  | consoleNoticeSent p => exact consoleNoticeSent_lawful h hs
  | arrive len tag g n => exact switchOrder_lawful h hs fun _ hu => arriveDecision_lawful hu tag g n
  | gone len tag => exact switchOrder_lawful h hs fun _ hu => goneReport_lawful hu tag
  | pathAck len n v =>
    refine switchOrder_lawful h hs fun u hu => ?_
    split
    · exact (bump_neutral _ _).lawful hu
    · exact pathAckReport_lawful hu n _
  | legState len n v =>
    refine switchOrder_lawful h hs fun u hu => ?_
    split
    · exact (bump_neutral _ _).lawful hu
    · exact legReport_lawful hu n _
  | extFree len x =>
    refine switchOrder_lawful h hs fun u hu => ?_
    split
    · exact extFreeReport_lawful hu x
    · exact (bump_neutral _ _).lawful hu
  | pickup len o x =>
    refine switchOrder_lawful h hs fun u hu => ?_
    split
    · exact (bump_neutral _ _).lawful hu
    · split
      · exact pickupReport_lawful hu _ x
      · exact (bump_neutral _ _).lawful hu
  | start len => exact switchOrder_lawful h hs fun u hu => (startOrder_neutral u).lawful hu
  | stopOrderly len mode => exact switchOrder_lawful h hs fun _ hu => stopOrder_lawful hu mode
  | stopForced len => exact switchOrder_lawful h hs fun _ hu => stopOrder_lawful hu 1
  | restart len =>
    exact switchOrder_lawful h hs fun u _ => told_lawful (serviceReset_lawful false u) _ _
  | groupSet len g v b x n d =>
    exact switchOrder_lawful h hs fun u hu => inStandby_lawful hu (groupSetOrder_neutral _ _ _ _ _ _ u)
  | originSet len x v o l =>
    exact switchOrder_lawful h hs fun u hu => inStandby_lawful hu (originSetOrder_neutral _ _ _ _ u)
  | positionSetLeadEligible len x v =>
    exact switchOrder_lawful h hs fun u hu => inStandby_lawful hu (positionSetOrder_neutral _ _ u)
  | positionSetReportInterval len v =>
    exact switchOrder_lawful h hs fun u hu => inStandby_lawful hu (positionSetOrder_neutral _ _ u)
  | timingSet len a b x y z =>
    exact switchOrder_lawful h hs fun u hu =>
      inStandby_lawful hu (Neutral.trans .of_same (answerSwitch_neutral _ _ _))
  | rangeSet len a b =>
    exact switchOrder_lawful h hs fun u hu => inStandby_lawful hu (rangeSetOrder_neutral a b u)
  | planHold len => exact switchOrder_lawful h hs fun u hu => (planHoldOrder_neutral u).lawful hu
  | planWrite len a b v => exact switchOrder_lawful h hs fun _ hu => planWriteOrder_lawful hu a b v
  | planRelease len => exact switchOrder_lawful h hs fun _ hu => planReleaseOrder_lawful hu
  | planAbandon len => exact switchOrder_lawful h hs fun u hu => (planAbandonOrder_neutral u).lawful hu
  | planSelect len v => exact switchOrder_lawful h hs fun _ hu => planSelectOrder_lawful hu v
  | select p len q v => exact consoleOrder_lawful h hs fun _ hu => selectOrder_lawful hu p q v
  | night len v => exact switchOrder_lawful h hs fun _ hu => nightOrder_lawful hu v
  | nightConsole p len q v => exact consoleOrder_lawful h hs fun _ hu => nightConsoleOrder_lawful hu p q v
  | countersRead len v =>
    exact switchOrder_lawful h hs fun u hu => (countersReadOrder_neutral v u).lawful hu
  | statusRead len => exact switchOrder_lawful h hs fun u hu => (placeAnswer_neutral _ u).lawful hu
  | openPosition p len q => exact consoleOrder_lawful h hs fun _ hu => openOrder_lawful hu p q
  | closePosition p len q => exact consoleOrder_lawful h hs fun _ hu => closeOrder_lawful hu p q
  | answer p len q l i => exact consoleOrder_lawful h hs fun _ hu => answerOrder_lawful hu p q l i
  | pick p len q i l => exact consoleOrder_lawful h hs fun _ hu => pickOrder_lawful hu p q i l
  | hold p len q l => exact consoleOrder_lawful h hs fun _ hu => holdOrder_lawful hu p q l
  | returnCall p len q l => exact consoleOrder_lawful h hs fun _ hu => returnOrder_lawful hu p q l
  | release p len q l => exact consoleOrder_lawful h hs fun _ hu => releaseOrder_lawful hu p q l
  | park p len q l o => exact consoleOrder_lawful h hs fun _ hu => parkOrder_lawful hu p q l o
  | retrieve p len q o l => exact consoleOrder_lawful h hs fun _ hu => retrieveOrder_lawful hu p q o l
  | consult p len q l x => exact consoleOrder_lawful h hs fun _ hu => consultOrder_lawful hu p q l x
  | join p len q l => exact consoleOrder_lawful h hs fun _ hu => joinOrder_lawful hu p q l
  | cancel p len q l => exact consoleOrder_lawful h hs fun _ hu => cancelOrder_lawful hu p q l
  | camp p len q l => exact consoleOrder_lawful h hs fun _ hu => campOrder_lawful hu p q l
  | send p len q l x => exact consoleOrder_lawful h hs fun _ hu => sendOrder_lawful hu p q l x
  | sweepVisit =>
    refine unlessHeld_lawful h hs fun hs => ?_
    split
    · exact act_lawful (sweepStep_lawful hs)
    · exact hs
  | waitLimitRouting i => exact unlessHeld_lawful h hs fun hs => act_lawful (waitLimitCheck_lawful hs i)
  | offerExpiry i =>
    refine unlessHeld_lawful h hs fun hs => act_lawful ?_
    split
    · exact offerExpiryCheck_lawful hs i
    · exact hs
  | holdReminder i => exact unlessHeld_lawful h hs fun hs => act_lawful (holdReminderCheck_lawful hs i)
  | holdRecall i => exact unlessHeld_lawful h hs fun hs => act_lawful (holdRecallCheck_lawful hs i)
  | parkExpiry i => exact unlessHeld_lawful h hs fun hs => act_lawful (parkCheck_lawful hs i)
  | ringExpiry i => exact unlessHeld_lawful h hs fun hs => act_lawful (ringCheck_lawful hs i)
  | campExpiry i => exact unlessHeld_lawful h hs fun hs => act_lawful (campCheck_lawful hs i)
  | reportIntervalEnd =>
    refine unlessHeld_lawful h hs fun hs => act_lawful ?_
    split
    · exact (reportEnd_neutral s).lawful hs
    · exact hs

theorem step_lawful {k : Scope} {s t : State} (h : step s = .next t) (hs : Lawful k s) : Lawful k t := by
  rcases step_cases h with rfl | ⟨x, rest, _, he⟩
  · exact hs
  · exact exec_lawful he ((Neutral.of_same (s := s)).lawful hs)

end Sys2Proof.Machine

open Sys2Proof.Machine in
/-- Settles O8. The law of R9 and the laws of the queue, the consults and the camp table are one predicate
whose scope says which of the laws of the homes, of the offers and of the loops are asked too; every
operation keeps it in every scope, and the four clauses are four scopes. -/
theorem collectionLawsKept : Obligations.CollectionLawsKept := by
  unfold Obligations.CollectionLawsKept
  have keep : ∀ (homes offers talk : Prop) (s t : State), s.PlacesLaw → s.QueueLaw → s.CampLaw →
      (homes → s.HomesLaw) → (offers → s.OfferLaw) → (talk → s.TalkLaw) → step s = .next t →
      t.PlacesLaw ∧ t.QueueLaw ∧ t.CampLaw ∧ (homes → t.HomesLaw) ∧ (offers → t.OfferLaw) ∧
        (talk → t.TalkLaw) := fun homes offers talk s t hp hq hc hh ho ht h =>
    (lawful_full_iff homes offers talk t).1
      (step_lawful h ((lawful_full_iff homes offers talk s).2 ⟨hp, hq, hc, hh, ho, ht⟩))
  refine ⟨fun s t hp hq hc h => ?_, fun s t hp hq hc hh h => ?_, fun s t hp hq hc ho h => ?_,
    fun s t hp hq hc ht h => ?_⟩
  · obtain ⟨hp', hq', hc', _⟩ := keep False False False s t hp hq hc False.elim False.elim False.elim h
    exact ⟨hp', hq', hc'⟩
  · obtain ⟨_, _, _, hh', _⟩ := keep True False False s t hp hq hc (fun _ => hh) False.elim False.elim h
    exact hh' trivial
  · obtain ⟨_, _, _, _, ho', _⟩ := keep False True False s t hp hq hc False.elim (fun _ => ho) False.elim h
    exact ho' trivial
  · obtain ⟨_, _, _, _, _, ht'⟩ := keep False False True s t hp hq hc False.elim False.elim (fun _ => ht) h
    exact ht' trivial

end

section
/-! PROOFS. The service reset (R178): what it forms anew, and the notices that it makes pending (O60). -/
namespace Sys2Proof.Machine

/-! ## Notices and the console sets -/

section
variable {s t : State}

/-- A notice reads nothing of the console sets. -/
theorem OnlySubjects.notice (h : OnlySubjects s t) (p : PosNo) (k : Subject) : t.notice p k = s.notice p k := by
  rw [h.state]; cases k <;> rfl

theorem OnlySubjects.link (h : OnlySubjects s t) (l : Link) : t.link l = s.link l := by
  rw [h.state]; cases l <;> rfl

/-- A notice reads nothing of what the end of an action changes. -/
theorem Announced.notice (h : Announced s t) (p : PosNo) (k : Subject) : t.notice p k = s.notice p k := by
  have hcall : ∀ q l, t.loopCall q l = s.loopCall q l := fun q l => by
    simp only [State.loopCall, h.loop, h.call]
  have hlist : t.queueNotice = s.queueNotice := by rw [h.state]; rfl
  cases k with
  | loop l =>
    simp only [State.notice, State.loopNotice, State.lamp, hcall, h.positions]
    rfl
  | offer => simp only [State.notice, State.offerNotice, h.call, h.positions]
  | queue => exact hlist
  | park => simp only [State.notice, State.parkNotice, State.parkItems, h.orbitSlot, h.call]
  | position => simp only [State.notice, State.positionNotice, h.lead, h.positions]

/-- A subject made pending has its content in the list. -/
theorem mem_pend_self (l : List ConsoleNotice) (n : ConsoleNotice) : n ∈ pend l n := by
  unfold pend
  split
  · rename_i h
    obtain ⟨m, hm, hs⟩ := List.any_eq_true.1 h
    exact List.mem_map.2 ⟨m, hm, if_pos hs⟩
  · exact List.mem_append_right _ (List.mem_singleton.2 rfl)

/-- An entry stays when another subject becomes pending. -/
theorem mem_pend_of_ne {l : List ConsoleNotice} {m n : ConsoleNotice} (hm : m ∈ l)
    (h : m.subject ≠ n.subject) : m ∈ pend l n := by
  unfold pend
  split
  · exact List.mem_map.2 ⟨m, hm, if_neg (by simpa using h)⟩
  · exact List.mem_append_left _ hm

/-- The present content of a subject is pending once it was, or once the subject is made pending. -/
theorem mem_pendAll (s : State) (p : PosNo) (k : Subject) (ks : List Subject) (l : List ConsoleNotice)
    (h : s.notice p k ∈ l ∨ k ∈ ks) :
    s.notice p k ∈ ks.foldl (fun l k => pend l (s.notice p k)) l := by
  induction ks generalizing l with
  | nil => exact h.resolve_right List.not_mem_nil
  | cons j ks ih =>
    refine ih _ ?_
    by_cases hjk : k = j
    · subst hjk; exact .inl (mem_pend_self l _)
    · rcases h with h | h
      · refine .inl (mem_pend_of_ne h ?_)
        rw [notice_subject, notice_subject]
        exact fun hx => hjk (Option.some.inj hx)
      · exact .inr ((List.mem_cons.1 h).resolve_left hjk)

theorem makePending_pending (p q : PosNo) (ks : List Subject) (s : State) :
    ((makePending p ks s).console q).pending =
      if p = q then ks.foldl (fun l k => pend l (s.notice q k)) (s.console q).pending
      else (s.console q).pending := by
  unfold makePending
  rw [setConsole_console]
  by_cases h : p = q
  · subst h; simp
  · simp [h]

/-- The present contents of all subjects are pending for a console whose link is UP. -/
def State.Shows (s : State) (p : PosNo) : Prop :=
  (s.link (.console p)).up = true → ∀ k, s.notice p k ∈ (s.console p).pending

theorem makePending_shows (p q : PosNo) (ks : List Subject) (h : s.Shows q) :
    (makePending p ks s).Shows q := by
  have ho := makePending_onlySubjects p ks s
  intro hup k
  have hk := h (ho.link _ ▸ hup) k
  rw [ho.notice, makePending_pending]
  split
  · exact mem_pendAll s q k ks _ (.inl hk)
  · exact hk

theorem announce_shows (old new : State) (p : PosNo) (h : new.Shows p) : (announce old new).Shows p := by
  have hfold : ∀ (l : List PosNo) (s : State), s.Shows p →
      (l.foldl (fun s q => announceTo old new q s) s).Shows p := fun l => by
    induction l with
    | nil => exact fun _ => id
    | cons q l ih =>
      refine fun s hs => ih _ ?_
      change (announceTo old new q s).Shows p
      unfold announceTo
      split
      · exact makePending_shows q p _ hs
      · exact hs
  have ho := announce_onlySubjects old new
  have ha := announce_announced old new
  intro hup k
  rw [ha.link, ← ho.link] at hup
  rw [ha.notice, ← ho.notice]
  exact hfold allPos new h hup k

theorem pendFull_onlySubjects (s : State) : OnlySubjects s (pendFull s) := by
  unfold pendFull
  generalize allPos = l
  induction l generalizing s with
  | nil => exact .refl s
  | cons p l ih =>
    rw [List.foldl_cons]
    refine .trans ?_ (ih _)
    split
    · exact makePending_onlySubjects p _ s
    · exact .refl s

theorem mem_fullNotices (k : Subject) : k ∈ fullNotices := by
  cases k with
  | loop l => revert l; decide
  | offer => decide
  | queue => decide
  | park => decide
  | position => decide

/-- The full notices are pending for every console whose link is UP (step 5 of R178). -/
theorem pendFull_shows (s : State) (p : PosNo) : (pendFull s).Shows p := by
  refine foldl_positions (P := State.Shows) (fun s q => ?_) (fun s q p h => ?_) s p
  · split
    · intro _ k
      rw [(makePending_onlySubjects q fullNotices s).notice, makePending_pending, if_pos rfl]
      exact mem_pendAll s q k _ _ (.inr (mem_fullNotices k))
    · rename_i hup; exact fun h => absurd h hup
  · split
    · exact makePending_shows q p _ h
    · exact h

/-! ## The plan without offers, the lead and the night flag -/

/-- Without an offer anywhere a recompute writes the plan and its band alone. -/
theorem recompute_clear (h : ∀ p, (s.pos p).offer = none) :
    recompute s = { s with
      eff := planInForce s.selection s.plans s.depth
      band := bandInForce s.selection s.plans s.depth } := by
  set u : State := { s with
    eff := planInForce s.selection s.plans s.depth
    band := bandInForce s.selection s.plans s.depth } with hu
  have hclear : ∀ p, (u.pos p).offer = none := h
  have hfold : ∀ (f : State → PosNo → State), (∀ p, f u p = u) → ∀ l : List PosNo, l.foldl f u = u :=
    fun f hf l => by
      induction l with
      | nil => rfl
      | cons p l ih => rw [List.foldl_cons, hf, ih]
  have hall : withdrawAll u = u := hfold _ (fun p => withdrawAt_none (hclear p)) allPos
  have hmasked : withdrawMasked u = u := hfold _ (fun p => by rw [hclear p]) allPos
  unfold recompute
  dsimp only
  split
  · exact hall
  · split
    · exact hmasked
    · rfl

/-- Two tables of positions that the lead and the night flag cannot tell apart. -/
def SameDuty (a b : Vector Position 8) : Prop :=
  ∀ p : PosNo, a[p].leadEligible = b[p].leadEligible ∧ a[p].state = b[p].state

theorem SameDuty.leadOf {a b : Vector Position 8} (h : SameDuty a b) : leadOf a = leadOf b := by
  simp only [Sys2Proof.Machine.leadOf, fun p => (h p).1, fun p => (h p).2]

theorem SameDuty.nightFlagOf {a b : Vector Position 8} (h : SameDuty a b) (v : NightSetting) :
    nightFlagOf v a = nightFlagOf v b := by
  cases v with
  | manualOn => rfl
  | manualOff => rfl
  | auto => simp only [Sys2Proof.Machine.nightFlagOf, fun p => (h p).2]

end

/-! ## The service reset -/

/-- The state that a service reset forms, before its notices become pending. -/
def State.reformed (toStandby : Bool) (s : State) : State :=
  rejudge (rejudgeGroup { s.wiped toStandby with
    eff := planInForce s.selection s.plans 0
    band := bandInForce s.selection s.plans 0 })

theorem serviceReset_reformed (b : Bool) (s : State) :
    serviceReset b s = pendFull (s.reformed b) := by
  rw [serviceReset_eq, recompute_clear fun p => by rw [wiped_pos]; rfl]
  rfl

section
variable (s : State) (toStandby : Bool)

/-- The available list starts empty, so the judgement of R75 forms it anew in ascending order. -/
theorem reformed_available_eq : (s.reformed toStandby).available =
    allPos.filter fun p => (s.reformed toStandby).isAvailable p && !([] : List PosNo).contains p := rfl

theorem reformed_available (p : PosNo) :
    p ∈ (s.reformed toStandby).available ↔ (s.reformed toStandby).isAvailable p = true := by
  rw [reformed_available_eq, List.mem_filter]
  simp [all_positions p]

theorem reformed_ascending : (s.reformed toStandby).available.Pairwise (· < ·) := by
  rw [reformed_available_eq]
  exact List.Pairwise.filter _ (by decide)

end

/-- No call and no consult: no number is live (R145). -/
theorem liveNumbers_empty {s : State} (hc : ∀ i, s.call i = none) (hp : ∀ p, (s.pos p).consult = none) :
    s.liveNumbers = [] := by
  have hslots : ∀ o ∈ s.slots.toList, o = none := fun o ho => by
    obtain ⟨i, hi, rfl⟩ := List.getElem_of_mem ho
    exact hc ⟨i, by simpa using hi⟩
  have hpositions : ∀ c ∈ s.positions.toList, c.consult = none := fun c hcm => by
    obtain ⟨i, hi, rfl⟩ := List.getElem_of_mem hcm
    exact hp ⟨i, by simpa using hi⟩
  unfold State.liveNumbers
  rw [List.append_eq_nil_iff, List.flatMap_eq_nil_iff, List.flatMap_eq_nil_iff]
  refine ⟨fun o ho => by rw [hslots o ho], fun c hcm => ?_⟩
  simp [Position.leg, hpositions c hcm]

/-- The answer of an order of the switch, as the statements name it. -/
theorem answerSwitch_told (kind : Byte) (code : ResultCode) (s : State) :
    answerSwitch kind code s = s.toldSwitch kind code := by
  unfold State.toldSwitch
  split
  · rename_i h; exact answerSwitch_room kind code h
  · rename_i h; exact answerSwitch_full kind code (Nat.le_of_not_lt h)

/-- An answer writes the switch list and the counters alone. -/
theorem toldSwitch_writes (s : State) (kind : Byte) (code : ResultCode) : s.toldSwitch kind code = { s with
    txList := (s.toldSwitch kind code).txList, counters := (s.toldSwitch kind code).counters } := by
  unfold State.toldSwitch
  split <;> rfl

/-- How the action of a reset ordered by the switch ends, from the state `x` that the reset forms anew. -/
structure ResetEnds (x : State) (kind : Byte) (t : State) : Prop where
  state : t = { x with
    txList := (x.toldSwitch kind .accepted).txList
    counters := (x.toldSwitch kind .accepted).counters
    consoles := t.consoles
    positions := t.positions
    draws := x.draws + 1 }
  pos : ∀ p, t.pos p = { x.pos p with offerNews := false }
  sending : ∀ p, (t.console p).sending = (x.console p).sending
  results : ∀ p, t.results p = x.results p
  shows : ∀ p, t.Shows p

theorem toldSwitch_congr {x w : State} (hl : w.txList = x.txList) (hn : w.counters = x.counters)
    (kind : Byte) (code : ResultCode) :
    (w.toldSwitch kind code).txList = (x.toldSwitch kind code).txList ∧
      (w.toldSwitch kind code).counters = (x.toldSwitch kind code).counters := by
  unfold State.toldSwitch
  rw [hl]
  split
  · exact ⟨rfl, hn⟩
  · exact ⟨hl, by simp only [bump, hn]⟩

/-- The notices, the answer and the end of the action touch only the lists, the counters and the news. -/
theorem OnlySubjects.resetEnds {x w u t : State} (ho : OnlySubjects x w) (hw : ∀ p, w.Shows p) {kind : Byte}
    (hu : u = w.toldSwitch kind .accepted) (ha : Announced u t) (hsh : ∀ p, u.Shows p → t.Shows p) :
    ResetEnds x kind t := by
  obtain ⟨hl, hn⟩ := toldSwitch_congr (x := x) (w := w) (by rw [ho.state]) (by rw [ho.state]) kind .accepted
  rw [toldSwitch_writes, hl, hn] at hu
  have hstate : u = { x with
      txList := (x.toldSwitch kind .accepted).txList
      counters := (x.toldSwitch kind .accepted).counters
      consoles := w.consoles } := by rw [hu, ho.state]
  refine ⟨?_, fun p => ?_, fun p => ?_, fun p => ?_, fun p => hsh p ?_⟩
  · rw [ha.state, hstate]
  · rw [ha.positions, hstate]; rfl
  · rw [ha.sending, ← ho.sending, hu]; rfl
  · exact (ha.results p).trans (.trans (by rw [hu]; rfl) (ho.results p))
  · have h := hw p
    rw [hu]
    intro hup k
    have hk := h hup k
    cases k <;> exact hk

/-- The state in which a reset ordered by the switch ends. -/
def State.resetBy (s : State) (toStandby : Bool) (kind : Byte) : State :=
  announce (s.hearing .switch) (answerSwitch kind .accepted (serviceReset toStandby (s.hearing .switch)))

section
variable (s : State) (b : Bool) (kind : Byte)

theorem resetBy_ends : ResetEnds ((s.hearing .switch).reformed b) kind (s.resetBy b kind) :=
  (pendFull_onlySubjects _).resetEnds (pendFull_shows _)
    ((answerSwitch_told kind .accepted _).trans (by rw [serviceReset_reformed]))
    (announce_announced _ _) (announce_shows _ _)

end

section
variable {s x t : State} {b : Bool} {kind : Byte}

/-- What a service reset forms anew, field by field where it differs from a cleared state. -/
structure Reformed (s : State) (toStandby : Bool) (x : State) : Prop where
  state : x = { s.wiped toStandby with
    eff := planInForce s.selection s.plans 0
    band := bandInForce s.selection s.plans 0
    lead := leadOf (s.wiped toStandby).positions
    nightFlag := nightFlagOf s.nightSetting (s.wiped toStandby).positions
    available := x.available }
  available : ∀ p, p ∈ x.available ↔ x.isAvailable p = true
  ascending : x.available.Pairwise (· < ·)

theorem reformed_spec (s : State) (b : Bool) : Reformed s b (s.reformed b) :=
  ⟨rfl, reformed_available s b, reformed_ascending s b⟩

theorem Reformed.pos (h : Reformed s b x) (p : PosNo) : x.pos p = (s.pos p).serviceReset b := by
  rw [h.state]; exact wiped_pos b s p

theorem ResetEnds.taken (h : ResetEnds x kind t) (hx : Reformed (s.hearing .switch) b x) : TakenOn .switch
    { s with service := if b then .standby else s.service, staging := none } t := by
  obtain ⟨hl, hn⟩ := toldSwitch_congr (x := s) (w := x) (by rw [hx.state]; rfl) (by rw [hx.state]; rfl)
    kind .accepted
  refine ⟨?_, ?_, fun k => ?_, fun p => ?_⟩
  · rw [h.state, hx.state]; constructor <;> rfl
  · have hrc : t.reqCounter = s.reqCounter := by rw [h.state, hx.state]; rfl
    have htx : t.txList = (s.toldSwitch kind .accepted).txList := by rw [h.state]; exact hl
    by_cases hroom : s.txList.length < 64
    · exact ⟨[.result kind .accepted], by rw [htx]; simp [State.toldSwitch, hroom], hrc⟩
    · exact ⟨[], by rw [htx]; simp [State.toldSwitch, hroom, bump], hrc⟩
  · rw [h.state, hx.state]; cases k <;> rfl
  · rw [h.sending, hx.state]; rfl

theorem ResetEnds.cleared (h : ResetEnds x kind t) (hx : Reformed (s.hearing .switch) b x) :
    ServiceCleared s t := by
  have hcall : ∀ i, t.call i = none := fun i => by
    rw [h.state, hx.state]; exact wiped_call b (s.hearing .switch) i
  have hpos : ∀ p, t.pos p = { (s.pos p).serviceReset b with offerNews := false } := fun p => by
    rw [h.pos, hx.pos]; rfl
  have hqueue : t.queue = [] := by rw [h.state, hx.state]; rfl
  have hconsult : ∀ p, (t.pos p).consult = none := fun p => by rw [hpos]; rfl
  have heff : t.eff = planInForce s.selection s.plans 0 := by rw [h.state, hx.state]; rfl
  have havail : t.available = x.available := by rw [h.state]
  have hduty : SameDuty ((s.hearing .switch).wiped b).positions t.positions := fun p => by
    have h1 : ((s.hearing .switch).wiped b).positions[p] = _ := wiped_pos b (s.hearing .switch) p
    have h2 : t.positions[p] = _ := hpos p
    rw [h1, h2]; exact ⟨rfl, rfl⟩
  have hiff : ∀ p, t.isAvailable p = x.isAvailable p := fun p => by
    have hex : x.eff = t.eff := by rw [h.state]
    simp only [State.isAvailable, h.pos, hex]
    rfl
  refine
    { slots := hcall, queue := hqueue, depth := by rw [State.depth, hqueue]; rfl
      oldestAge := by rw [State.oldestAge, hqueue]; rfl
      tagIndex := by rw [h.state, hx.state]; rfl
      origins := fun o => by rw [h.state, hx.state]; exact wiped_origin b (s.hearing .switch) o
      freeSlots := by rw [h.state, hx.state]; rfl
      orbits := fun o => ?_
      camps := by rw [h.state, hx.state]; rfl
      staging := by rw [h.state, hx.state]; rfl
      liveNumbers := liveNumbers_empty hcall hconsult
      reqCounter := by rw [h.state, hx.state]; rfl
      loops := fun p l => by rw [hpos]; simp [Position.serviceReset, Position.loop]
      positions := fun p => by rw [hpos]; exact ⟨rfl, rfl, rfl, rfl⟩
      eff := heff
      band := by rw [h.state, hx.state]; rfl
      lead := ?_, nightFlag := ?_
      available := fun p => by rw [havail, hiff, hx.available]
      ascending := by rw [havail]; exact hx.ascending
      results := fun p => by rw [h.results, hx.state]; rfl
      notices := fun p k hup => h.shows p hup k }
  · have horbits : t.orbits = Vector.replicate 16 none := by rw [h.state, hx.state]; rfl
    rw [State.orbitSlot, horbits]; simp
  · rw [← hduty.leadOf, h.state, hx.state]
  · rw [← hduty.nightFlagOf, h.state, hx.state]; rfl

end

theorem hearing_pos (s : State) (l : Link) (p : PosNo) : (s.hearing l).pos p = s.pos p := by
  cases l <;> rfl

/-- A running part takes an order of the switch in the state that hears it. -/
theorem unlessHeld_switchOrder {s : State} (hr : s.Runs) {kind : Byte} {len : Nat} {f : State → State}
    (hl : orderLength .switch kind = some len) :
    unlessHeld (switchOrder kind len f) s = .next (act f (s.hearing .switch)) := by
  unfold unlessHeld
  rw [show s.resetHeld = false from hr, switchOrder_taken hl, receive_switch]
  rfl

theorem stopForced_exec {s : State} (hr : s.Runs) :
    exec (.stopForced 1) s = .next (s.resetBy true Sys2Proof.Kind.stop) := by
  have hstop : ∀ u, stopOrder 1 u = answerSwitch Sys2Proof.Kind.stop .accepted (serviceReset true u) := fun u => by
    unfold stopOrder
    rw [if_neg (by decide), if_pos rfl, stopForcedNow]
  change unlessHeld (switchOrder Sys2Proof.Kind.stop 1 (stopOrder 1)) s = _
  rw [unlessHeld_switchOrder hr rfl, act, hstop, State.resetBy]

theorem restart_exec {s : State} (hr : s.Runs) :
    exec (.restart 0) s = .next (s.resetBy false Sys2Proof.Kind.restart) :=
  unlessHeld_switchOrder (f := fun u => answerSwitch Sys2Proof.Kind.restart .accepted (serviceReset false u)) hr rfl

end Sys2Proof.Machine

open Sys2Proof Sys2Proof.Machine in
/-- Settles O60. Both orders end in the state of one reset, which differs in the service state alone. -/
theorem serviceResets : Obligations.ServiceResets := by
  intro s hr
  have hforced := resetBy_ends s true Kind.stop
  have hrestart := resetBy_ends s false Kind.restart
  have hx := fun b => reformed_spec (s.hearing .switch) b
  have hanswer : ∀ (b : Bool) (kind : Byte) (t : State), ResetEnds ((s.hearing .switch).reformed b) kind t →
      t.txList = (s.toldSwitch kind .accepted).txList ∧
        t.counters = (s.toldSwitch kind .accepted).counters := fun b kind t h => by
    rw [h.state]
    exact toldSwitch_congr (by rw [(hx b).state]; rfl) (by rw [(hx b).state]; rfl) kind .accepted
  refine ⟨⟨_, stopForced_exec hr, hforced.cleared (hx true), hanswer _ _ _ hforced, hforced.taken (hx true),
      fun p => ?_⟩,
    ⟨_, restart_exec hr, hrestart.cleared (hx false), hanswer _ _ _ hrestart, hrestart.taken (hx false),
      fun p => ?_⟩⟩
  · rw [hforced.pos, (hx true).pos]
    simp [Position.serviceReset, hearing_pos]
  · rw [hrestart.pos, (hx false).pos]
    simp [Position.serviceReset, hearing_pos]

end

section
/-! PROOFS. The end of an action of the switch: what distribution leaves of the slots that the action did not
touch, and what an admitted arrival becomes (O22). -/
namespace Sys2Proof.Machine

/-! ## The frames of calls routed away -/

section
variable {s t u v w : State} {i j : SlotNo} {c : Call}

theorem RoutesJoin.mono {l : List SwitchNotice} (h : RoutesJoin t l) (hu : u.txList = t.txList)
    (hn : u.nightFlag = t.nightFlag) (hc : ∀ i, u.call i = t.call i) : RoutesJoin u l := by
  obtain ⟨away, hall, htx⟩ := h
  refine ⟨away, List.all_eq_true.2 fun m hm => ?_, hu.trans htx⟩
  exact routes_mono hn (fun i => .of_eq (hc i)) (List.all_eq_true.1 hall m hm)

/-! ## A slot that the action left alone -/

/-- What an action has left alone of slot j before the distribution that ends it: the call, the offers that
show it, and the plan by which they stand; at most four calls have joined the queue. -/
structure Aside (s u : State) (j : SlotNo) : Prop where
  call : u.call j = s.call j
  offers : ∀ q, (u.pos q).offer = some j ↔ (s.pos q).offer = some j
  settings : SettingsKept s u
  eff : u.eff = s.eff
  depth : u.depth ≤ s.depth + 4

/-- A standing offer stands through distribution where no depth that it takes brings another mode or mask. -/
theorem settle_standing_within {m : Mode} {P : PosNo → Prop} (h : Standing m i c P u)
    (hP : m = .common → ∃ q, P q) (hend : plansDiffer u.eff (settle u).eff = false)
    (hload : u.selection = .load → u.nightFlag = true → ∀ n, (settle u).depth ≤ n → n ≤ u.depth →
      plansDiffer u.eff (planInForce .load u.plans n) = false) : Standing m i c P (settle u) := by
  refine settleWith_standing _ h hP fun hl n hn hle => ?_
  cases hnight : u.nightFlag with
  | true => exact hload hl hnight n hn hle
  | false =>
    obtain ⟨heff, hdepth⟩ := settleWith_plan (fuel := u.depth) (.inr hnight)
    have hn' : n = u.depth := Nat.le_antisymm hle (by rw [← hdepth hnight]; exact hn)
    have hplan : (settle u).eff = planInForce .load u.plans u.depth := by
      rw [show (settle u).eff = (recomputeUnderLoad u).eff from heff, recomputeUnderLoad, if_pos hl,
        (recompute_plan u).1, hl]
    rw [hn', ← hplan]
    exact hend

/-- Distribution makes of a slot that the action left alone what it makes of any slot (R77, R81, R84). -/
theorem Aside.slotSettled (h : Aside s u j) (ha : Announced (settle u) t) : SlotSettled s t j := by
  have hset := settle_settled u
  have hdest : u.nightDestination = s.nightDestination := nightDestination_eq h.settings.groups
  have hslots := settle_slots u j
  have hcall : t.call j = (settle u).call j := ha.call j
  refine ⟨?_, fun c d hc hw hd => hslots.waited c d (h.call.trans hc) hw (hcall ▸ hd), fun c hc ho hsteady => ?_⟩
  · have hp := hslots.passed
    unfold SlotPassed at hp ⊢
    rw [h.call, hdest] at hp
    rw [hcall, ha.nightFlag]
    exact hp
  · have hstand : ∀ m P, Standing m j c P u → (m = .common → ∃ q, P q) → Standing m j c P (settle u) :=
      fun m P hst hP => settle_standing_within hst hP (by rw [h.eff, ← ha.eff]; exact hsteady.1)
        fun hl hn n hlo hhi => by
          rw [h.eff, h.settings.plans]
          exact hsteady.2 (h.settings.selection ▸ hl)
            (ha.nightFlag.trans (hset.nightFlag.trans hn)) n (by rw [State.depth, ha.queue]; exact hlo)
            (Nat.le_trans hhi h.depth)
    have hmode : (settle u).eff.mode = u.eff.mode := by
      rw [h.eff, ← ha.eff]; exact (plansDiffer_false.1 hsteady.1).1.symm
    have hu := offerStands_of (h.call.trans hc) ho hset hmode hstand
    have hpos : ∀ q, (t.pos q).offer = ((settle u).pos q).offer ∧ (t.pos q).state = ((settle u).pos q).state :=
      fun q => by rw [ha.positions]; exact ⟨rfl, rfl⟩
    have hav : ∀ q, (settle u).isAvailable q = t.isAvailable q := fun q => by
      simp only [State.isAvailable, ha.positions, ha.eff]; rfl
    refine ⟨fun hm hopen => ?_, fun hm q hq hq' => ?_⟩
    · obtain ⟨hsame, hoffers⟩ := hu.single (by rw [h.eff]; exact hm) fun q hq => by
        rw [← (hpos q).2]; exact hopen q ((h.offers q).1 hq)
      exact ⟨hcall.trans hsame, fun q hq => (hpos q).1.trans (hoffers q ((h.offers q).2 hq))⟩
    · obtain ⟨hoffer, hrecord⟩ := hu.common (by rw [h.eff]; exact hm) q ((h.offers q).2 hq) ((hav q).trans hq')
      exact ⟨(hpos q).1.trans hoffer, by rw [hcall]; exact hrecord⟩

/-! ## The end of an order of the switch -/

/-- What an order of the switch has left alone before the distribution that ends it. -/
structure SwitchStarted (s u : State) : Prop where
  settings : SettingsKept s u
  frames : FramesJoin s u
  links : ∀ k, u.link k = (s.hearing .switch).link k
  consoles : u.consoles = s.consoles

theorem SwitchStarted.taken (h : SwitchStarted s u) (ha : Announced (settle u) t) : TakenFromSwitch s t := by
  have hset := settle_settled u
  have hconsole : ∀ q, (settle u).console q = s.console q := fun q => by
    rw [State.console, hset.consoles, h.consoles]; rfl
  refine ⟨⟨(h.settings.trans hset.settings).trans ha.settings, (h.frames.trans hset.frames).trans ha.frames,
    fun k => (ha.link k).trans ((hset.links k).trans (h.links k)), fun q => ?_⟩, fun q => ?_⟩
  · rw [ha.sending, hconsole]
  · exact (ha.results q).trans (by rw [hconsole]; rfl)

theorem Announced.positionKept (ha : Announced s t) (p : PosNo) : PositionKept (s.pos p) (t.pos p) := by
  rw [ha.positions]; exact ⟨rfl, rfl, rfl, rfl, rfl, rfl⟩

/-- Distribution and the end of the action add the frames of calls routed away and no other. -/
theorem Announced.routesJoin (ha : Announced (settle u) t) : RoutesJoin t u.txList :=
  (settle_settled u).txList.mono ha.txList ha.nightFlag ha.call

/-! ## The queue through distribution -/

/-- A queued slot stays in the queue, or its call has been routed away. -/
def Queueing (s t : State) : Prop := ∀ i ∈ s.queue, i ∈ t.queue ∨ ∃ d, t.call i = some d ∧ d.state = .departing

theorem Queueing.of_eq (h : t.queue = s.queue) : Queueing s t := fun _ hi => .inl (h ▸ hi)

/-- A call routed away stays DEPARTING through what follows. -/
theorem Queueing.trans (h : Queueing s t) (hset : Settled t u) (k : Queueing t u) : Queueing s u :=
  fun i hi => (h i hi).elim (k i) fun ⟨d, hd, hst⟩ => .inr ⟨d, by
    have hp := hset.slots i
    unfold SlotPassed at hp
    rw [hd] at hp
    simpa [hst, CallState.queued] using hp, hst⟩

/-- Routing a WAITING call away takes it alone out of the queue. -/
theorem depart_queueing (hc : s.call i = some c) (hw : c.state = .waiting) (x : Conn) :
    Queueing s (depart i none x s) := fun j hj => by
  rw [depart_eq (leave_queued hc (by rw [hw]; rfl)) hc]
  by_cases hij : i = j
  · exact .inr ⟨_, by rw [asked_call, if_pos hij], rfl⟩
  · exact .inl (by rw [asked_queue]; simpa [Ne.symm hij] using hj)

theorem nightRoute_queueing (s : State) (hn : s.nightFlag = true) : Queueing s (nightRoute s) := by
  suffices h : Settled s (nightRoute s) ∧ Queueing s (nightRoute s) from h.2
  unfold nightRoute
  generalize s.queue = l
  induction l generalizing s with
  | nil => exact ⟨.refl s, .of_eq rfl⟩
  | cons i l ih =>
    rw [List.foldl_cons]
    cases hc : s.call i with
    | none => exact ih s hn
    | some c =>
      dsimp only
      split
      · rename_i h
        have hd := depart_away_settled i s c hc h.1 h.2 hn
        obtain ⟨hset, hq⟩ := ih _ (hd.nightFlag.trans hn)
        exact ⟨hd.trans hset, (depart_queueing hc h.1 _).trans hset hq⟩
      · exact ih s hn

theorem settleWith_queueing (fuel : Nat) (s : State) : Queueing s (settleWith fuel s) := by
  induction fuel generalizing s with
  | zero => exact .of_eq rfl
  | succ fuel ih =>
    have hload : (recomputeUnderLoad s).queue = s.queue := by
      unfold recomputeUnderLoad
      split
      · exact (recompute_plan s).2
      · rfl
    have hstart : Queueing s (dropShowings (rejudge (recomputeUnderLoad s))) :=
      .of_eq ((dropShowings_plan _).queue.trans hload)
    unfold settleWith
    dsimp only
    generalize dropShowings (rejudge (recomputeUnderLoad s)) = u at hstart ⊢
    have hroute : Settled u (if u.nightFlag = true then nightRoute u else u) ∧
        Queueing u (if u.nightFlag = true then nightRoute u else u) := by
      split
      · rename_i hn; exact ⟨nightRoute_settled u hn, nightRoute_queueing u hn⟩
      · exact ⟨.refl u, .of_eq rfl⟩
    obtain ⟨hset, hq⟩ := hroute
    generalize (if u.nightFlag = true then nightRoute u else u) = v at hset hq ⊢
    split
    · have hrest := settleWith_settled fuel v
      exact hstart.trans (hset.trans hrest) (hq.trans hrest (ih v))
    · have hrest := distribute_settled v
      exact hstart.trans (hset.trans hrest) (hq.trans hrest (.of_eq (distribute_plan v).queue))

/-! ## An admitted arrival -/

theorem insertByScore_length (f : SlotNo → Nat) (i : SlotNo) (l : List SlotNo) :
    (insertByScore f i l).length = l.length + 1 := by
  induction l with
  | nil => rfl
  | cons j l ih =>
    unfold insertByScore
    split
    · rfl
    · rw [List.length_cons, ih, List.length_cons]

/-- The lowest-numbered FREE slot of the range is the one that the search finds. -/
theorem lowestFree_of_least (hr : s.inRange i = true) (hf : s.call i = none)
    (hmin : ∀ j < i, s.inRange j = true → s.call j ≠ none) : s.lowestFree = some i := by
  have hi : i ∈ allSlots := List.mem_finRange i
  cases hfind : s.lowestFree with
  | none => exact absurd (List.find?_eq_none.1 hfind i hi) (by simp [hr, hf])
  | some j =>
    obtain ⟨hjr, hjf⟩ := lowestFree_spec hfind
    obtain ⟨_, before, after, hl, hbefore⟩ := List.find?_eq_some_iff_append.1 hfind
    have hsorted : allSlots.Pairwise (· < ·) := List.pairwise_lt_finRange 256
    rw [hl] at hi hsorted
    rcases List.mem_append.1 hi with h | h
    · exact absurd (hbefore i h) (by simp [hr, hf])
    · rcases List.mem_cons.1 h with h | h
      · rw [h]
      · have hji : j < i := List.rel_of_pairwise_cons (List.pairwise_append.1 hsorted).2.1 h
        exact absurd hjf (hmin j hji hjr)

/-- What the mapping of an arrival finds (R26). -/
theorem mapOrigin_spec {group circuit : Byte} {e : Group} {o : OriginNo}
    (h : mapOrigin s group circuit = some (e, o)) : ∃ g : GroupNo, s.group g = e ∧ e.valid = true ∧
      circuit.toNat < 2 ^ e.bits ∧ o.val = e.base + circuit.toNat := by
  unfold mapOrigin at h
  split at h
  · cases h
  · rename_i g _
    dsimp only at h
    split at h
    · rename_i hvalid
      split at h
      · cases h
      · rename_i n hn
        split at h
        · cases h
          refine ⟨g, rfl, hvalid.1, hvalid.2, ?_⟩
          unfold originArg at hn
          split at hn <;> cases hn
          rfl
        · cases h
    · cases h

/-- The ranges of valid groups are disjoint: the night destination of an origin is its own group's. -/
theorem nightDestination_mapOrigin (h : s.CapacityLaw) {group circuit : Byte} {e : Group} {o : OriginNo}
    (hm : mapOrigin s group circuit = some (e, o)) : s.nightDestination o = e.night := by
  obtain ⟨g, hg, hvalid, hlt, ho⟩ := mapOrigin_spec hm
  have hmem : ∀ k : GroupNo, s.group k ∈ s.groups.toList := fun k => by
    rw [Vector.mem_toList_iff]; exact Vector.getElem_mem k.isLt
  unfold State.nightDestination
  cases hfind : s.groups.toList.find?
      (fun g => g.valid && g.base ≤ o.val && o.val < g.base + 2 ^ g.bits) with
  | none => exact absurd (List.find?_eq_none.1 hfind e (hg ▸ hmem g)) (by simp [hvalid]; omega)
  | some f =>
    have hp := List.find?_some hfind
    simp only [Bool.and_eq_true, decide_eq_true_eq] at hp
    obtain ⟨k, hk, hkf⟩ := List.getElem_of_mem (List.mem_of_find?_eq_some hfind)
    have hkf' : s.group ⟨k, by simpa using hk⟩ = f := hkf
    have hgk : g = ⟨k, by simpa using hk⟩ := by
      by_contra hne
      have := h.disjoint g _ hne (by rw [hg]; exact hvalid) (by rw [hkf']; exact hp.1.1)
      rw [hg, hkf'] at this
      omega
    rw [← hkf', ← hgk, hg]

/-- A state with an admitted call: its record has the score by the plan in force, and it is queued. -/
structure Admitted (w : State) (i : SlotNo) (c : Call) (u : State) : Prop where
  state : u = { w with
    slots := u.slots
    queue := u.queue
    tagIndex := w.tagIndex ++ [(c.tag, i)]
    origins := u.origins
    freeSlots := w.freeSlots - 1 }
  call : ∀ j, u.call j = if i = j then some { c with score := scoreOf w.eff c } else w.call j
  origin : ∀ o, u.origin o = if o = c.origin then { w.origin o with current := some i } else w.origin o
  queued : i ∈ u.queue
  depth : u.depth ≤ w.depth + 1

theorem admitCall_admitted (i : SlotNo) (c : Call) (s : State) :
    ∃ u, Admitted (bump .admitted s) i c u ∧ admitCall i c s = settle u := by
  refine ⟨_, ⟨rfl, fun j => ?_, fun o => ?_, (insertByScore_mem _ i i _).2 (.inl rfl), ?_⟩, rfl⟩
  · change ((allocate i c (bump .admitted s)).modCall i _).call j = _
    rw [modCall_call, allocate_call]
    split
    · rfl
    · rfl
  · change (allocate i c (bump .admitted s)).origin o = _
    rw [allocate_origin]
    simp only [eq_comm]
  · change (insertByScore _ i _).length ≤ _
    rw [insertByScore_length]
    exact Nat.succ_le_succ (List.length_filter_le ..)

/-- The exact action of an admitted ARRIVE (R27, R34). -/
theorem arriveDecision_admits {tag : Tag} {group circuit : Byte} {e : Group} {o : OriginNo}
    (hservice : s.service = .service) (htag : s.tagIndex.lookup tag = none)
    (hmap : mapOrigin s group circuit = some (e, o)) (hcur : (s.origin o).current = none)
    (hnight : s.nightFlag = false ∨ e.night = 0) (hroom : s.depth < s.eff.queueLimit) (hfree : s.freeSlots ≠ 0)
    (hlow : s.lowestFree = some i) : arriveDecision tag group circuit s =
      admitCall i (newCall tag o (classOf e (s.origin o)) (s.origin o).label) (bump .arrivals s) := by
  have hcur' : ((bump .arrivals s).origin o).current = none := hcur
  have hnight' : ¬((bump .arrivals s).nightFlag = true ∧ e.night ≠ 0) := fun h =>
    hnight.elim (fun hx => by rw [bump_nightFlag, hx] at h; cases h.1) h.2
  have hfull : ¬((bump .arrivals s).eff.queueLimit ≤ (bump .arrivals s).depth ∨
      (bump .arrivals s).freeSlots = 0) := fun h => h.elim (Nat.not_le_of_lt hroom) hfree
  have hlow' : (bump .arrivals s).lowestFree = some i := hlow
  unfold arriveDecision
  dsimp only
  rw [if_neg (by rw [bump_service, hservice]; decide),
    show (bump .arrivals s).slotOfTag tag = none from htag,
    show mapOrigin (bump .arrivals s) group circuit = some (e, o) from hmap]
  dsimp only
  rw [decideMapped, hcur']
  dsimp only
  rw [if_neg hnight', if_neg hfull, hlow']
  rfl

/-- What the allocation leaves alone before distribution. -/
theorem Admitted.started (h : Admitted (bump .admitted (bump .arrivals (s.hearing .switch))) i c u) :
    SwitchStarted s u := by
  rw [h.state]
  exact ⟨by constructor <;> rfl, .of_eq rfl rfl, fun k => by cases k <;> rfl, rfl⟩

theorem Admitted.aside (h : Admitted (bump .admitted (bump .arrivals (s.hearing .switch))) i c u)
    (hj : j ≠ i) : Aside s u j := by
  have hcall : u.call j = s.call j := by rw [h.call, if_neg (Ne.symm hj)]; rfl
  exact ⟨hcall, fun q => by rw [h.state]; rfl, h.started.settings, by rw [h.state]; rfl,
    Nat.le_trans h.depth (Nat.add_le_add_left (by decide) s.depth)⟩

/-- The score of a new call: its class's weight, with age 0 and no recall reason (R61). -/
theorem scoreOf_newCall (plan : Plan) (tag : Tag) (o : OriginNo) (k : ClassNo) (label : Half) :
    scoreOf plan (newCall tag o k label) = min 4095 (8 * plan.weights[k]) := by
  simp [scoreOf, newCall, maxScore]

end

end Sys2Proof.Machine

open Sys2Proof Sys2Proof.Machine in
/-- Settles O22. The allocation is known exactly; distribution may offer the new call or, where the night
flag is ON, route it away, and `CapacityLaw` makes its night destination the one that the decision tested. -/
theorem arrivalsAdmitted : Obligations.ArrivalsAdmitted := by
  intro s tag group circuit e o i hr hservice htag hmap hcur hnight hroom hfree hin hempty hmin k
  obtain ⟨u, hu, hadmit⟩ := admitCall_admitted i (newCall tag o k (s.origin o).label)
    (bump .arrivals (s.hearing .switch))
  have hset := settle_settled u
  have hexec : exec (.arrive 6 tag group circuit) s = .next (announce (s.hearing .switch) (settle u)) := by
    have hact := arriveDecision_admits (s := s.hearing .switch) hservice htag hmap hcur hnight hroom hfree
      (lowestFree_of_least hin hempty hmin)
    change unlessHeld (switchOrder Kind.arrive 6 (arriveDecision tag group circuit)) s = _
    rw [unlessHeld_switchOrder hr rfl, act, hact]
    exact congrArg (fun v => Host.Outcome.next (announce (s.hearing .switch) v)) hadmit
  have ha : Announced (settle u) (announce (s.hearing .switch) (settle u)) := announce_announced _ _
  generalize announce (s.hearing .switch) (settle u) = t at hexec ha
  have horigin : ∀ o', t.origin o' = u.origin o' := fun o' => by
    rw [ha.origin, State.origin, hset.register.origins]; rfl
  refine ⟨t, hexec, hu.started.taken ha, ⟨?_, ?_⟩, ?_, fun o' => ?_, ?_, ?_, ?_, ?_, fun p => ?_, ?_,
    fun j hj => (hu.aside hj).slotSettled ha, ?_⟩
  · rw [ha.lead, hset.lead, hu.state]; rfl
  · rw [ha.nightFlag, hset.nightFlag, hu.state]; rfl
  · rw [ha.register.tagIndex, hset.register.tagIndex, hu.state]; rfl
  · rw [horigin, hu.origin]
    by_cases ho : o' = o
    · rw [ho, if_pos rfl]; exact if_pos rfl
    · rw [if_neg ho]; exact if_neg ho
  · rw [ha.register.freeSlots, hset.register.freeSlots, hu.state]; rfl
  · rw [ha.counters, hset.counters, hu.state]; rfl
  · rw [ha.orbits, hset.orbits, hu.state]; rfl
  · rw [ha.camps, hset.camps, hu.state]; rfl
  · have hpos : u.pos p = s.pos p := by rw [hu.state]; rfl
    exact hpos ▸ (hset.positions p).trans (ha.positionKept p)
  · have := ha.routesJoin
    rwa [show u.txList = s.txList by rw [hu.state]; rfl] at this
  intro record
  have hrecord : u.call i = some record := by
    rw [hu.call, if_pos rfl, scoreOf_newCall]; rfl
  have hpassed := hset.slots i
  rw [SlotPassed, hrecord] at hpassed
  obtain ⟨d, hd, hre⟩ := hpassed
  have hdest : u.nightDestination = s.nightDestination := nightDestination_eq hu.started.settings.groups
  have hnightFlag : (settle u).nightFlag = s.nightFlag := by rw [hset.nightFlag, hu.state]; rfl
  rw [hdest] at hre
  refine ⟨d, (ha.call i).trans hd, ha.nightFlag ▸ hre, hre.preferred.elim id id,
    Option.map_eq_none_iff.1 hre.same.home, fun hlaw hst => ?_, fun hst => ?_⟩
  · obtain ⟨hon, _, _, haway, _⟩ := hre.routed hst
    rw [hnightFlag] at hon
    have hoff : e.night = 0 := hnight.resolve_left (by rw [hon]; decide)
    have hcap : s.CapacityLaw := hlaw.resolve_left (by rw [hon]; decide)
    exact haway ((nightDestination_mapOrigin hcap hmap).trans hoff)
  · obtain ⟨_, _, hwanted, hout⟩ := hre.stays hst
    refine ⟨?_, hwanted, hout⟩
    rcases settleWith_queueing (u.depth + 1) u i hu.queued with hq | ⟨f, hf, hdep⟩
    · rw [ha.queue]; exact hq
    · exact absurd ((Option.some.inj (hd.symm.trans hf)) ▸ hdep) hst

end

section
/-! PROOFS. GONE: what the freeing of a slot takes from the collection that held its call, and the frame that
follows (O23). -/
namespace Sys2Proof.Machine

section
variable {s t u v w : State} {i j : SlotNo} {c e : Call}

/-! ## A frame that is placed or dropped -/

theorem placeDroppable_placing (n : SwitchNotice) (s : State) : placeDroppable n s = s.placing (some n) := by
  have hroom : 1 ≤ s.freeEntries ↔ s.txList.length < 64 := by unfold State.freeEntries; omega
  simp only [placeDroppable, hroom]
  rfl

theorem placing_writes (s : State) (n : Option SwitchNotice) : s.placing n = { s with
    txList := (s.placing n).txList, counters := (s.placing n).counters } := by
  unfold State.placing
  split
  · rfl
  · split <;> rfl

theorem placing_txList (h : t.txList = s.txList) (n : Option SwitchNotice) :
    (t.placing n).txList = (s.placing n).txList := by
  unfold State.placing
  split
  · exact h
  · rw [h]
    split
    · rfl
    · exact h

theorem placing_counters (h : t.txList = s.txList) (hd : t.counters = s.counters) (n : Option SwitchNotice) :
    (t.placing n).counters = (s.placing n).counters := by
  unfold State.placing
  split
  · exact hd
  · rw [h]
    split
    · exact hd
    · simp only [bump, hd]

theorem placing_dropped (h : t.txList = s.txList) (hd : t.count .droppedNotices = s.count .droppedNotices)
    (n : Option SwitchNotice) :
    (t.placing n).count .droppedNotices = (s.placing n).count .droppedNotices := by
  unfold State.placing
  split
  · exact hd
  · rw [h]
    split
    · exact hd
    · rw [bump_count, bump_count, hd]

theorem placing_count (s : State) (n : Option SwitchNotice) {k : Counter} (hk : k ≠ .droppedNotices) :
    (s.placing n).count k = s.count k := by
  unfold State.placing
  split
  · rfl
  · split
    · rfl
    · rw [bump_count, if_neg (Ne.symm hk)]

/-! ## The consult that closes -/

theorem consulting_iff : s.consulting c = true ↔
    ∃ p l r, c.home = some { pos := p, loop := some l } ∧ (s.pos p).consult = some r ∧ r.loop = l := by
  unfold State.consulting
  constructor
  · intro h
    split at h
    · rename_i p l hhome
      unfold State.consultOn at h
      split at h
      · cases h
      · rename_i r hr
        exact ⟨p, l, r, hhome, hr, beq_iff_eq.1 h⟩
    · cases h
  · rintro ⟨p, l, r, hhome, hr, hl⟩
    simp [hhome, State.consultOn, hr, hl]

/-- The LEG_DROP of a consult that closes with its call (R17). -/
def State.consultFrame (s : State) (c : Call) : Option SwitchNotice :=
  if s.consulting c then
    c.home.bind fun h => (s.pos h.pos).consult.bind fun r => r.leg.map .legDrop
  else none

theorem consultFrame_consulting {p : PosNo} {r : Consult} (hcons : s.consulting c = true)
    (hp : c.home.map (·.pos) = some p) (hr : (s.pos p).consult = some r) :
    s.consultFrame c = r.leg.map .legDrop := by
  obtain ⟨h, hh, rfl⟩ := Option.map_eq_some_iff.1 hp
  rw [State.consultFrame, if_pos hcons, hh, Option.bind_some, hr, Option.bind_some]

theorem closeConsult_placing {p : PosNo} {r : Consult} (hr : (s.pos p).consult = some r) :
    closeConsult p true s = (s.setPos p { s.pos p with consult := none }).placing (r.leg.map .legDrop) := by
  unfold closeConsult
  rw [hr]
  dsimp only
  cases r.leg with
  | none => rfl
  | some n => exact placeDroppable_placing _ _

theorem closeConsultOf_idle (h : s.consulting c = false) : closeConsultOf c s = s := by
  unfold closeConsultOf
  unfold State.consulting at h
  split
  · rename_i p l hhome
    rw [hhome] at h
    exact if_neg (by rw [show s.consultOn p l = false from h]; decide)
  · rfl

theorem closeConsultOf_consulting (h : s.consulting c = true) : ∃ p,
    c.home.map (·.pos) = some p ∧
    closeConsultOf c s = (s.setPos p { s.pos p with consult := none }).placing (s.consultFrame c) := by
  obtain ⟨p, l, r, hhome, hr, hl⟩ := consulting_iff.1 h
  have hp : c.home.map (·.pos) = some p := by rw [hhome]; rfl
  refine ⟨p, hp, ?_⟩
  rw [consultFrame_consulting h hp hr, ← closeConsult_placing hr]
  unfold closeConsultOf
  rw [hhome]
  exact if_pos (by simp [State.consultOn, hr, hl])

/-! ## The offers that end -/

theorem endOffers_spec (i : SlotNo) (s : State) :
    endOffers i s = { s with positions := (endOffers i s).positions } ∧
      ∀ p j, j ≠ i → (((endOffers i s).pos p).offer = some j ↔ (s.pos p).offer = some j) := by
  unfold endOffers
  generalize allPos = l
  induction l generalizing s with
  | nil => exact ⟨rfl, fun _ _ _ => .rfl⟩
  | cons q l ih =>
    rw [List.foldl_cons]
    obtain ⟨hstate, hoffers⟩ := ih (if (s.pos q).offer = some i then setOffer q none s else s)
    refine ⟨hstate.trans ?_, fun p j hj => (hoffers p j hj).trans ?_⟩
    · split <;> rfl
    · split
      · rename_i hq
        rw [setOffer_offer]
        split
        · rename_i hqp
          subst hqp
          rw [hq]
          simp [Ne.symm hj]
        · exact .rfl
      · exact .rfl

/-! ## Leaving a collection -/

/-- The UNWATCH of a camp list that empties (R137). -/
def State.campFrame (s : State) (i : SlotNo) (c : Call) : Option SwitchNotice :=
  if c.state = .camped then
    c.extension.bind fun x => if (⟨x, [i]⟩ : CampEntry) ∈ s.camps then some (.unwatch x) else none
  else none

/-- What the removal of the call c of slot i from its collection makes of the state. -/
structure Departure (s : State) (i : SlotNo) (c : Call) (w : State) : Prop where
  state : w = { s with slots := w.slots, queue := w.queue, positions := w.positions, orbits := w.orbits,
                       camps := w.camps, txList := w.txList, counters := w.counters }
  queue : w.queue.Sublist s.queue
  behind : ∀ j e, s.behindInCamp i c j → s.call j = some e →
    w.call j = some { e with campOrder := e.campOrder.map (· - 1) }
  others : ∀ j, ¬ s.behindInCamp i c j → w.call j = s.call j
  positions : ∀ p, w.pos p = { s.pos p with loops := (w.pos p).loops }
  loops : ∀ p l, (w.pos p).loop l =
    if c.state.seated = true ∧ c.isHomeAt p l = true then Loop.empty else (s.pos p).loop l
  orbits : ∀ o, w.orbitSlot o = if c.state = .parked ∧ c.orbit = some o then none else s.orbitSlot o
  camps : CampLeft s w i c
  txList : w.txList = (s.placing (s.campFrame i c)).txList
  counters : w.counters = (s.placing (s.campFrame i c)).counters

/-- A call outside the camp table leaves the records and the camp lists alone. -/
theorem campFrame_of_not_camped (h : c.state ≠ .camped ∨ c.extension = none) : s.campFrame i c = none := by
  unfold State.campFrame
  split
  · rename_i hst; rw [h.resolve_left (not_not_intro hst)]; rfl
  · rfl

theorem Departure.of_uncamped (hn : c.state ≠ .camped ∨ c.extension = none)
    (hstate : w = { s with queue := w.queue, positions := w.positions, orbits := w.orbits })
    (hqueue : w.queue.Sublist s.queue)
    (hpositions : ∀ p, w.pos p = { s.pos p with loops := (w.pos p).loops })
    (hloops : ∀ p l, (w.pos p).loop l =
      if c.state.seated = true ∧ c.isHomeAt p l = true then Loop.empty else (s.pos p).loop l)
    (horbits : ∀ o, w.orbitSlot o = if c.state = .parked ∧ c.orbit = some o then none else s.orbitSlot o) :
    Departure s i c w := by
  have hnot : ∀ j, ¬ s.behindInCamp i c j := fun j ⟨hst, e, _, hx, _⟩ =>
    hn.elim (· hst) fun h => by rw [h] at hx; cases hx
  have hframe := campFrame_of_not_camped (s := s) (i := i) hn
  refine ⟨?_, hqueue, fun j e h => absurd h (hnot j), fun j _ => ?_, hpositions, hloops, horbits,
    ⟨fun _ => ?_, fun x list hst hx => ?_⟩, ?_, ?_⟩
  · rw [hstate]
  · rw [hstate]; rfl
  · rw [hstate]
  · exact hn.elim (absurd hst) fun h => by rw [h] at hx; cases hx
  · rw [hframe, hstate]; rfl
  · rw [hframe, hstate]; rfl

/-- One extension has one camp list. -/
theorem State.CampLaw.list_unique (h : s.CampLaw) {x : Ext} {l m : List SlotNo}
    (hl : (⟨x, l⟩ : CampEntry) ∈ s.camps) (hm : (⟨x, m⟩ : CampEntry) ∈ s.camps) : l = m := by
  have hfind : ∀ n : List SlotNo, (⟨x, n⟩ : CampEntry) ∈ s.camps →
      s.camps.find? (fun e => e.ext == x) = some ⟨x, n⟩ := fun n hn => find_campEntry h.entries hn
  exact congrArg CampEntry.list (Option.some.inj ((hfind l hl).symm.trans (hfind m hm)))

section
variable {x : Ext} {a b : List SlotNo}

/-- The camp list of a call holds it alone exactly when nothing is left. -/
theorem singleton_iff_rest_nil : a ++ i :: b = [i] ↔ a ++ b = [] := by
  simp [List.append_eq_cons_iff]

theorem CampSplit.behindInCamp_iff (h : s.CampLaw) (hs : CampSplit s i x a b) (hst : c.state = .camped)
    (hx : c.extension = some x) (j : SlotNo) : s.behindInCamp i c j ↔ j ∈ b := by
  constructor
  · rintro ⟨_, ⟨y, l⟩, he, hxe, hj⟩
    obtain rfl : x = y := Option.some.inj (hx.symm.trans hxe)
    rwa [h.list_unique he hs.entry, hs.behind_eq] at hj
  · intro hj
    exact ⟨hst, _, hs.entry, hx, by rwa [hs.behind_eq]⟩

theorem CampSplit.campFrame_eq (h : s.CampLaw) (hs : CampSplit s i x a b) (hst : c.state = .camped)
    (hx : c.extension = some x) :
    s.campFrame i c = if (a ++ b).isEmpty then some (.unwatch x) else none := by
  have hiff : (⟨x, [i]⟩ : CampEntry) ∈ s.camps ↔ (a ++ b).isEmpty = true := by
    rw [List.isEmpty_iff, ← singleton_iff_rest_nil (i := i)]
    exact ⟨fun hm => h.list_unique hs.entry hm, fun hl => hl ▸ hs.entry⟩
  rw [State.campFrame, if_pos hst, hx, Option.bind_some]
  simp only [hiff]

/-- A CAMPED call leaves its camp list, and an emptied list goes with its UNWATCH (R136, R137). -/
theorem leaveCamp_departure (h : s.CampLaw) (hs : CampSplit s i x a b) (hst : c.state = .camped)
    (hx : c.extension = some x) : Departure s i c (leaveCamp i x s) := by
  obtain ⟨frames, counters, hw⟩ := leaveCamp_writes h hs
  rw [moveUp_only] at hw
  have hcall := leaveCamp_call h hs
  have hcamps : (leaveCamp i x s).camps = campsLeft s.camps x (a ++ b) := by rw [hw]
  have hplaced : leaveCamp i x s =
      State.placing { moveUp b s with camps := campsLeft s.camps x (a ++ b) } (s.campFrame i c) := by
    rw [leaveCamp_eq h hs, hs.campFrame_eq h hst hx, placeDroppable_placing]
    split <;> rfl
  refine ⟨(leaveCamp_left i x s).state, by rw [hw], fun j e hj he => ?_, fun j hj => ?_, fun p => ?_,
    fun p l => ?_, fun o => ?_, ⟨fun hn => ?_, fun y l _ hy hl => ?_⟩, ?_, ?_⟩
  · rw [hcall, if_pos ((hs.behindInCamp_iff h hst hx j).1 hj), he]; rfl
  · rw [hcall, if_neg fun hb => hj ((hs.behindInCamp_iff h hst hx j).2 hb)]
  · rw [hw]; rfl
  · rw [if_neg fun g => by rw [hst] at g; exact absurd g.1 (by decide), hw]; rfl
  · rw [if_neg fun g => by rw [hst] at g; exact absurd g.1 (by decide), hw]; rfl
  · exact hn.elim (absurd hst) fun g => by rw [g] at hx; cases hx
  · obtain rfl : x = y := Option.some.inj (hx.symm.trans hy)
    obtain rfl := h.list_unique hl hs.entry
    rw [hcamps, ne_eq, singleton_iff_rest_nil, hs.rest_eq]
    simp only [mem_campsLeft hs]
    refine ⟨fun e he => ?_, fun hnil e he => ?_, fun hne => .inr ⟨hne, trivial⟩⟩
    · refine ⟨fun g => g.elim (·.1) fun g => absurd (congrArg CampEntry.ext g.2) he, fun g => .inl ⟨g, he⟩⟩
    · exact he.elim (·.2) fun g => absurd hnil g.1
  · rw [hplaced]
    exact placing_txList (by rw [moveUp_only]) _
  · rw [hplaced]
    exact placing_counters (by rw [moveUp_only]) (by rw [moveUp_only]) _

end

theorem leave_departure (h : s.CampLaw) (hc : s.call i = some c) : Departure s i c (leave i s) := by
  cases leave_leaving hc with
  | queue hq hu =>
    rw [hu]
    have hst := (queued_iff _).1 hq
    refine .of_uncamped (.inl ?_) rfl List.filter_sublist (fun _ => rfl) (fun p l => ?_) fun o => ?_
    · rintro g; rw [g] at hq; cases hq
    · exact (if_neg fun g => by rcases hst with hst | hst <;> rw [hst] at g <;> exact absurd g.1 (by decide)).symm
    · exact (if_neg fun g => by rw [g.1] at hq; cases hq).symm
  | loop p l hq hh hu =>
    rw [hu]
    refine .of_uncamped (.inl ?_) rfl (List.Sublist.refl _) (fun q => ?_) (fun q m => ?_) fun o => ?_
    · rintro g; rw [g] at hq; cases hq
    · rw [setLoop_pos]; split <;> simp_all
    · have hiff : (p = q ∧ l = m) ↔ c.state.seated = true ∧ c.isHomeAt q m = true :=
        ⟨by rintro ⟨rfl, rfl⟩; exact ⟨hq, hh⟩, fun g => isHomeAt_inj hh g.2⟩
      rw [setLoop_loop]
      simp only [hiff]
    · exact (if_neg fun g => by rw [g.1] at hq; cases hq).symm
  | orbit o hq ho hu =>
    rw [hu]
    refine .of_uncamped (.inl (by rw [hq]; decide)) rfl (List.Sublist.refl _) (fun _ => rfl) (fun p l => ?_)
      fun n => ?_
    · exact (if_neg fun g => by rw [hq] at g; exact absurd g.1 (by decide)).symm
    · rw [writeOrbit_orbitSlot]
      simp [hq, ho]
  | camp x hq hx hu =>
    rw [hu]
    obtain ⟨a, b, hs⟩ := h.split hc hq hx
    exact leaveCamp_departure h hs hq hx
  | nowhere hq hl ho hx hu =>
    rw [hu]
    refine .of_uncamped (Decidable.not_or_of_imp hx) rfl (List.Sublist.refl _) (fun _ => rfl) (fun p l => ?_)
      fun n => ?_
    · exact (if_neg fun g => by rw [hl g.1] at g; exact absurd g.2 (by decide)).symm
    · exact (if_neg fun g => by rw [ho g.1] at g; cases g.2).symm

/-! ## The slot that is freed -/

/-- What GONE does before the call leaves its collection (R16, R17): the count of a queued call, the close of
the consult on a seated one's loop, and the end of its offers. -/
def State.atGone (s : State) (i : SlotNo) (c : Call) : State :=
  let u := if c.state.queued = true then bump .abandoned s else s
  let v := if c.state.seated = true then closeConsultOf c u else u
  if c.state = .offered then endOffers i v else v

/-- The frame of the consult that closes with the call of slot i. -/
def State.seatFrame (s : State) (c : Call) : Option SwitchNotice :=
  if c.state.seated = true then s.consultFrame c else none

/-- What that makes of the state, field by field; nothing else is written. -/
structure GoneStart (s : State) (i : SlotNo) (c : Call) (v : State) : Prop where
  state : v = { s with positions := v.positions, txList := v.txList, counters := v.counters }
  positions : ∀ p, v.pos p = { s.pos p with
    offer := (v.pos p).offer, offerNews := (v.pos p).offerNews, consult := (v.pos p).consult }
  offers : ∀ p j, j ≠ i → ((v.pos p).offer = some j ↔ (s.pos p).offer = some j)
  consult : ∀ p, (v.pos p).consult =
    if c.state.seated = true ∧ c.home.map (·.pos) = some p ∧ s.consulting c = true then none
    else (s.pos p).consult
  txList : v.txList = (s.placing (s.seatFrame c)).txList
  dropped : v.count .droppedNotices = (s.placing (s.seatFrame c)).count .droppedNotices
  abandoned : v.count .abandoned =
    if c.state.queued = true then min counterMax (s.count .abandoned + 1) else s.count .abandoned
  counters : ∀ k, k ≠ .abandoned → k ≠ .droppedNotices → v.count k = s.count k

/-- A call that is neither queued nor consulting changes nothing before it leaves. -/
theorem GoneStart.idle (hq : c.state.queued = false) (hc : c.state.seated = false ∨ s.consulting c = false) :
    GoneStart s i c s := by
  have hframe : s.seatFrame c = none := by
    unfold State.seatFrame State.consultFrame
    rcases hc with h | h <;> simp [h]
  refine ⟨rfl, fun _ => rfl, fun _ _ _ => .rfl, fun p => (if_neg fun g => ?_).symm, by rw [hframe]; rfl,
    by rw [hframe]; rfl, by rw [hq]; rfl, fun _ _ _ => rfl⟩
  rcases hc with h | h
  · rw [h] at g; cases g.1
  · rw [h] at g; cases g.2.2

/-- A queued call is counted, and its offers end where it has any. -/
theorem GoneStart.queued (hq : c.state.queued = true) (hv : v = { s with
    positions := v.positions, counters := (bump .abandoned s).counters })
    (hkept : ∀ p, PositionKept (s.pos p) (v.pos p))
    (hoffers : ∀ p j, j ≠ i → ((v.pos p).offer = some j ↔ (s.pos p).offer = some j)) :
    GoneStart s i c v := by
  have hst : c.state.seated = false := by
    rcases (queued_iff _).1 hq with h | h <;> rw [h] <;> rfl
  have hframe : s.seatFrame c = none := if_neg (by rw [hst]; decide)
  have hcount : ∀ k, v.count k = (bump .abandoned s).count k := fun k => by rw [hv]; rfl
  refine ⟨?_, fun p => ?_, hoffers, fun p => ?_, ?_, ?_, ?_, fun k hk _ => ?_⟩
  · rw [hv]
  · obtain ⟨h1, h2, h3, h4, h5, h6⟩ := hkept p
    dsimp only
    rw [← h1, ← h2, ← h3, ← h4, ← h5]
  · rw [if_neg fun g => by rw [hst] at g; cases g.1]
    exact (hkept p).consult
  · rw [hframe, hv]; rfl
  · rw [hframe, hcount, bump_count]; rfl
  · rw [hcount, bump_count, if_pos rfl, if_pos hq]
  · rw [hcount, bump_count, if_neg (Ne.symm hk)]

/-- The consult on the loop of a seated call closes, with its LEG_DROP. -/
theorem GoneStart.consulting (hst : c.state.seated = true) (hcons : s.consulting c = true) {p : PosNo}
    (hp : c.home.map (·.pos) = some p)
    (hv : v = (s.setPos p { s.pos p with consult := none }).placing (s.consultFrame c)) :
    GoneStart s i c v := by
  have hq : c.state.queued = false := by
    rcases (seated_iff _).1 hst with h | h <;> rw [h] <;> rfl
  have hframe : s.seatFrame c = s.consultFrame c := if_pos hst
  have hw := placing_writes (s.setPos p { s.pos p with consult := none }) (s.consultFrame c)
  rw [← hv] at hw
  have hpos : ∀ q, v.pos q = if p = q then { s.pos p with consult := none } else s.pos q := fun q => by
    rw [hw]; exact setPos_pos s p q _
  have hcount : ∀ k, k ≠ .droppedNotices → v.count k = s.count k := fun k hk => by
    rw [hv, placing_count _ _ hk]; rfl
  refine ⟨?_, fun q => ?_, fun q j _ => ?_, fun q => ?_, ?_, ?_, ?_, fun k _ hk => hcount k hk⟩
  · rw [hw]; rfl
  · rw [hpos]
    by_cases h : p = q
    · subst h; rw [if_pos rfl]
    · rw [if_neg h]
  · rw [hpos]
    by_cases h : p = q
    · subst h; rw [if_pos rfl]
    · rw [if_neg h]
  · rw [hpos, hp]
    simp only [hst, hcons, true_and, and_true, Option.some.injEq]
    split
    · rfl
    · rfl
  · rw [hframe, hv]; exact placing_txList (by rfl) _
  · rw [hframe, hv]; exact placing_dropped (by rfl) (by rfl) _
  · rw [hcount _ (by decide), hq]; rfl

theorem atGone_start (s : State) (i : SlotNo) (c : Call) : GoneStart s i c (s.atGone i c) := by
  unfold State.atGone
  dsimp only
  by_cases hq : c.state.queued = true
  · have hst : ¬c.state.seated = true := by
      rcases (queued_iff _).1 hq with h | h <;> rw [h] <;> decide
    rw [if_pos hq, if_neg hst]
    split
    · obtain ⟨hstate, hoffers⟩ := endOffers_spec i (bump .abandoned s)
      have hkept : ∀ p, PositionKept (s.pos p) ((endOffers i (bump .abandoned s)).pos p) :=
        (endOffers_settled i (bump .abandoned s)).positions
      generalize endOffers i (bump .abandoned s) = v at *
      exact .queued hq hstate hkept hoffers
    · exact .queued hq rfl (fun _ => .refl _) fun _ _ _ => .rfl
  · rw [if_neg hq]
    have hoff : c.state ≠ .offered := by rintro h; rw [h] at hq; exact hq rfl
    rw [if_neg hoff]
    have hq' : c.state.queued = false := by simpa using hq
    split
    · rename_i hst
      cases hcons : s.consulting c with
      | true =>
        obtain ⟨p, hp, hclose⟩ := closeConsultOf_consulting hcons
        exact .consulting hst hcons hp hclose
      | false => rw [closeConsultOf_idle hcons]; exact .idle hq' (.inr hcons)
    · rename_i hst; exact .idle hq' (.inl (by simpa using hst))

theorem closeConsultOf_call (c : Call) (s : State) (j : SlotNo) : (closeConsultOf c s).call j = s.call j := by
  unfold closeConsultOf
  split
  · split
    · exact closeConsult_call _ true s j
    · rfl
  · rfl

theorem goneCall_eq (hc : s.call i = some c) :
    goneCall i c s = settle ((leave i (s.atGone i c)).forget i c) := by
  unfold goneCall State.atGone
  dsimp only
  have hu : (if c.state.queued = true then bump .abandoned s else s).call i = some c := by
    split <;> exact hc
  generalize (if c.state.queued = true then bump .abandoned s else s) = u at *
  have hv : (if c.state.seated = true then closeConsultOf c u else u).call i = some c := by
    split
    · rw [closeConsultOf_call]; exact hu
    · exact hu
  generalize (if c.state.seated = true then closeConsultOf c u else u) = v at *
  rw [freeSlot_forget hv]
  rfl

/-- The frame that goes with the call: the LEG_DROP of its consult, or the UNWATCH of its camp list. -/
def State.goneFrame (s : State) (i : SlotNo) (c : Call) : Option SwitchNotice :=
  if c.state.seated = true then s.consultFrame c else s.campFrame i c

theorem goneFrame_issued {n : SwitchNotice} (h : s.goneFrame i c = some n) : n.issued = none := by
  unfold State.goneFrame State.consultFrame State.campFrame at h
  split at h
  · split at h
    · obtain ⟨g, _, h⟩ := Option.bind_eq_some_iff.1 h
      obtain ⟨r, _, h⟩ := Option.bind_eq_some_iff.1 h
      obtain ⟨m, _, rfl⟩ := Option.map_eq_some_iff.1 h
      rfl
    · cases h
  · split at h
    · obtain ⟨x, _, h⟩ := Option.bind_eq_some_iff.1 h
      split at h <;> cases h
      rfl
    · cases h

/-- A frame that carries no request number joins the list, or is dropped. -/
theorem placing_frames {n : Option SwitchNotice} (hn : ∀ m, n = some m → m.issued = none)
    (h : t.txList = (s.placing n).txList) (hr : t.reqCounter = s.reqCounter) : FramesJoin s t := by
  cases n with
  | none => exact .of_eq h hr
  | some m =>
    by_cases hroom : s.txList.length < 64
    · refine ⟨[m], by rw [h]; simp [State.placing, hroom], ?_⟩
      rw [hr, counterAfter, List.foldl_cons, hn m rfl]; rfl
    · exact .of_eq (by rw [h]; simp [State.placing, hroom, bump]) hr

/-- What the freeing of the call c of slot i by GONE makes of the state, before distribution. -/
structure GoneFreed (s : State) (i : SlotNo) (c : Call) (u : State) : Prop where
  state : u = { s with slots := u.slots, queue := u.queue, positions := u.positions, orbits := u.orbits,
                       camps := u.camps, txList := u.txList, counters := u.counters, origins := u.origins,
                       tagIndex := s.tagIndex.filter (fun e => e.1 != c.tag), freeSlots := s.freeSlots + 1 }
  freed : u.call i = none
  behind : ∀ j e, j ≠ i → s.behindInCamp i c j → s.call j = some e →
    u.call j = some { e with campOrder := e.campOrder.map (· - 1) }
  others : ∀ j, j ≠ i → ¬ s.behindInCamp i c j → u.call j = s.call j
  origin : ∀ o, u.origin o = if o = c.origin then { s.origin o with current := none } else s.origin o
  queue : u.queue.Sublist s.queue
  states : ∀ p, (u.pos p).state = (s.pos p).state ∧ (u.pos p).missCount = (s.pos p).missCount
  offers : ∀ p j, j ≠ i → ((u.pos p).offer = some j ↔ (s.pos p).offer = some j)
  loops : ∀ p l, (u.pos p).loop l =
    if c.state.seated = true ∧ c.isHomeAt p l = true then Loop.empty else (s.pos p).loop l
  consult : ∀ p, (u.pos p).consult =
    if c.state.seated = true ∧ c.home.map (·.pos) = some p ∧ s.consulting c = true then none
    else (s.pos p).consult
  orbits : ∀ o, u.orbitSlot o = if c.state = .parked ∧ c.orbit = some o then none else s.orbitSlot o
  camps : CampLeft s u i c
  txList : u.txList = (s.placing (s.goneFrame i c)).txList
  dropped : u.count .droppedNotices = (s.placing (s.goneFrame i c)).count .droppedNotices
  abandoned : u.count .abandoned =
    if c.state.queued = true then min counterMax (s.count .abandoned + 1) else s.count .abandoned
  counters : ∀ k, k ≠ .abandoned → k ≠ .droppedNotices → u.count k = s.count k

/-- The two frames of the two stages are the one frame of the call. -/
theorem GoneStart.frame (hv : GoneStart s i c v) (hw : Departure v i c w) :
    w.txList = (s.placing (s.goneFrame i c)).txList ∧
      w.count .droppedNotices = (s.placing (s.goneFrame i c)).count .droppedNotices := by
  have hcamp : v.campFrame i c = s.campFrame i c := by rw [hv.state]; rfl
  have hcount : w.count .droppedNotices = (v.placing (s.campFrame i c)).count .droppedNotices := by
    rw [State.count, hw.counters, hcamp]; rfl
  rw [hw.txList, hcount, hcamp]
  have htx := hv.txList
  have hdrop := hv.dropped
  unfold State.seatFrame at htx hdrop
  unfold State.goneFrame
  split
  · rename_i hst
    rw [if_pos hst] at htx hdrop
    have hnone : s.campFrame i c = none :=
      campFrame_of_not_camped (.inl (by rintro g; rw [g] at hst; cases hst))
    rw [hnone]
    exact ⟨htx, hdrop⟩
  · rename_i hst
    rw [if_neg hst] at htx hdrop
    exact ⟨placing_txList htx _, placing_dropped htx hdrop _⟩

theorem gone_freed (h : s.CampLaw) (hc : s.call i = some c) :
    GoneFreed s i c ((leave i (s.atGone i c)).forget i c) := by
  have hv := atGone_start s i c
  generalize s.atGone i c = v at hv
  have hcall : ∀ j, v.call j = s.call j := fun j => by rw [hv.state]; rfl
  have hcamps : v.camps = s.camps := by rw [hv.state]
  have hbehind : ∀ j, v.behindInCamp i c j ↔ s.behindInCamp i c j := fun j => by
    rw [State.behindInCamp, hcamps]; rfl
  have hlaw : v.CampLaw := h.congr hcamps fun j _ _ _ => by rw [hcall]
  have hw := leave_departure hlaw ((hcall i).trans hc)
  generalize leave i v = w at hw
  obtain ⟨htx, hdropped⟩ := hv.frame hw
  have hother : ∀ j, j ≠ i → (w.forget i c).call j = w.call j := fun j hj => by
    rw [forget_call, if_neg (Ne.symm hj)]
  have horigin : ∀ o, w.origin o = s.origin o := fun o => by rw [hw.state, hv.state]; rfl
  have hcount : ∀ k, k ≠ .droppedNotices → w.count k = v.count k := fun k hk => by
    rw [State.count, hw.counters]; exact placing_count v _ hk
  have hpos : ∀ p, (w.forget i c).pos p = { s.pos p with
      loops := (w.pos p).loops, offer := (v.pos p).offer, offerNews := (v.pos p).offerNews
      consult := (v.pos p).consult } := fun p => by
    change w.pos p = _
    rw [hw.positions, hv.positions]
  refine ⟨?_, by rw [forget_call, if_pos rfl], fun j e hj hb he => ?_, fun j hj hb => ?_, fun o => ?_, ?_,
    fun p => by rw [hpos]; exact ⟨rfl, rfl⟩, fun p j hj => by rw [hpos]; exact hv.offers p j hj,
    fun p l => ?_, fun p => by rw [hpos]; exact hv.consult p, fun o => ?_, ?_, htx, hdropped, ?_,
    fun k h1 h2 => ?_⟩
  · have hs : w = { s with slots := w.slots, queue := w.queue, positions := w.positions, orbits := w.orbits,
                           camps := w.camps, txList := w.txList, counters := w.counters } := by
      rw [hw.state, hv.state]
    rw [hs]; rfl
  · rw [hother j hj]; exact hw.behind j e ((hbehind j).2 hb) ((hcall j).trans he)
  · rw [hother j hj, hw.others j fun hx => hb ((hbehind j).1 hx), hcall]
  · rw [forget_origin, horigin]
    simp only [eq_comm]
  · have : v.queue = s.queue := by rw [hv.state]
    exact this ▸ hw.queue
  · have hl : (v.pos p).loop l = (s.pos p).loop l := by rw [hv.positions]; rfl
    exact hl ▸ hw.loops p l
  · have ho : v.orbitSlot o = s.orbitSlot o := by rw [hv.state]; rfl
    exact ho ▸ hw.orbits o
  · exact ⟨fun hn => (hw.camps.kept hn).trans hcamps, fun x l hst hx hl =>
      hcamps ▸ hw.camps.listed x l hst hx (hcamps ▸ hl)⟩
  · exact (hcount _ (by decide)).trans hv.abandoned
  · exact (hcount k h2).trans (hv.counters k h1 h2)

/-! ## The frame, case by case -/

theorem goneFrame_consult {p : PosNo} {r : Consult} (hst : c.state.seated = true)
    (hp : c.home.map (·.pos) = some p) (hcons : s.consulting c = true) (hr : (s.pos p).consult = some r) :
    s.goneFrame i c = r.leg.map .legDrop :=
  (if_pos hst).trans (consultFrame_consulting hcons hp hr)

theorem goneFrame_camped {x : Ext} (hst : c.state = .camped) (hx : c.extension = some x) :
    s.goneFrame i c = if (⟨x, [i]⟩ : CampEntry) ∈ s.camps then some (.unwatch x) else none := by
  rw [State.goneFrame, if_neg (by rw [hst]; decide), State.campFrame, if_pos hst, hx, Option.bind_some]

theorem goneFrame_none (hst : c.state ≠ .camped) (hc : c.state.seated = false ∨ s.consulting c = false) :
    s.goneFrame i c = none := by
  unfold State.goneFrame
  split
  · rename_i h
    exact if_neg (by rw [hc.resolve_left (by rw [h]; decide)]; decide)
  · exact campFrame_of_not_camped (.inl hst)

/-! ## What distribution adds -/

/-- A call behind in a camp list is CAMPED. -/
theorem State.CampLaw.behind_camped (h : s.CampLaw) (hb : s.behindInCamp i c j) (he : s.call j = some e) :
    e.state = .camped := by
  obtain ⟨_, f, hf, _, hj⟩ := hb
  have hmem : j ∈ f.list := (List.dropWhile_sublist _).subset (List.mem_of_mem_drop hj)
  obtain ⟨d, hd, hst, _⟩ := (h.listed j f.ext).1 ⟨f, hf, rfl, hmem⟩
  rwa [Option.some.inj (he.symm.trans hd)]

theorem GoneFreed.started (h : GoneFreed (s.hearing .switch) i c u) : SwitchStarted s u := by
  have hframes : FramesJoin (s.hearing .switch) u :=
    placing_frames (fun _ => goneFrame_issued) h.txList (by rw [h.state])
  refine ⟨?_, hframes, fun k => ?_, ?_⟩
  · rw [h.state]; constructor <;> rfl
  · rw [h.state]; cases k <;> rfl
  · rw [h.state]; rfl

theorem GoneFreed.aside (h : GoneFreed (s.hearing .switch) i c u) (hj : j ≠ i)
    (hb : ¬ s.behindInCamp i c j) : Aside s u j where
  call := h.others j hj hb
  offers q := h.offers q j hj
  settings := h.started.settings
  eff := by rw [h.state]; rfl
  depth := Nat.le_trans h.queue.length_le (Nat.le_add_right s.depth 4)

theorem GoneFreed.othersLeft (h : GoneFreed (s.hearing .switch) i c u) (hcamp : s.CampLaw)
    (ha : Announced (settle u) t) : OthersLeft s t i c where
  behind j e hj hb he := by
    have hu : u.call j = some { e with campOrder := e.campOrder.map (· - 1) } := h.behind j e hj hb he
    have hp := (settle_settled u).slots j
    unfold SlotPassed at hp
    rw [hu] at hp
    rw [ha.call]
    simpa [hcamp.behind_camped hb he, CallState.queued] using hp
  others _ hj hb := (h.aside hj hb).slotSettled ha

theorem GoneFreed.frames (h : GoneFreed (s.hearing .switch) i c u) (ha : Announced (settle u) t)
    {n : Option SwitchNotice} (hn : s.goneFrame i c = n) :
    RoutesJoin t (s.placing n).txList ∧ t.count .droppedNotices = (s.placing n).count .droppedNotices := by
  have hn' : (s.hearing .switch).goneFrame i c = n := hn
  have htx := h.txList
  have hdropped := h.dropped
  rw [hn'] at htx hdropped
  constructor
  · have := ha.routesJoin
    rwa [htx, placing_txList (s := s) (by rfl)] at this
  · rw [ha.count, State.count, (settle_settled u).counters]
    exact hdropped.trans (placing_dropped (by rfl) (by rfl) n)

/-- GONE for a tag of the index (R15). -/
theorem goneReport_settles (htag : s.tagIndex.lookup c.tag = some i) (hc : s.call i = some c)
    (hcamp : s.CampLaw) : ∃ u, GoneFreed s i c u ∧ goneReport c.tag s = settle u := by
  refine ⟨_, gone_freed hcamp hc, ?_⟩
  rw [← goneCall_eq hc, goneReport, State.slotOfTag, htag]
  dsimp only
  rw [hc]

theorem goneReport_stale {tag : Tag} (htag : s.tagIndex.lookup tag = none) :
    goneReport tag s = bump .staleReplies s := by
  rw [goneReport, State.slotOfTag, htag]
  rfl

/-- A report that changes a counter alone makes no subject pending. -/
theorem announce_bump (hn : s.NewsClear) (k : Counter) : announce s (bump k s) = (bump k s).ended :=
  announce_quiet (changedSubjects_same (new := bump k s) rfl rfl rfl rfl rfl rfl rfl hn) hn

/-- A FREE slot stands in no collection. -/
theorem Lawful.free_nowhere {k : Scope} (h : Lawful k s) (hi : s.call i = none) :
    i ∉ s.queue ∧ (∀ p, (s.pos p).offer ≠ some i) ∧ (∀ o, s.orbitSlot o ≠ some i) ∧
      ∀ e ∈ s.camps, i ∉ e.list := by
  have hno : ∀ P : Call → Prop, ¬∃ c, s.call i = some c ∧ P c := fun P ⟨c, hc, _⟩ => by
    rw [hi] at hc; cases hc
  exact ⟨fun hq => hno _ ((h.queue.listed i).1 hq), fun p hp => hno _ (h.offered p i hp),
    fun o ho => hno _ ((h.orbits o i).1 ho), fun e he hm => hno _ ((h.camps.listed i e.ext).1 ⟨e, he, rfl, hm⟩)⟩

end

end Sys2Proof.Machine

open Sys2Proof Sys2Proof.Machine in
/-- Settles O23. The freed state is known exactly; distribution adds only what it may make of any slot, and
the laws that the step keeps show that no collection holds the freed slot. -/
theorem gone : Obligations.Gone := by
  have hexec : ∀ (s : State) (tag : Tag), s.Runs → exec (.gone 4 tag) s =
      .next (announce (s.hearing .switch) (goneReport tag (s.hearing .switch))) := fun s tag hr => by
    change unlessHeld (switchOrder Kind.gone 4 (goneReport tag)) s = _
    rw [unlessHeld_switchOrder hr rfl, act]
  refine ⟨fun s tag hr hnews htag => ?_, fun s tag i c hr hplaces hqueue hcamp htag hc htagc => ?_⟩
  · rw [hexec s tag hr, goneReport_stale (s := s.hearing .switch) htag,
      announce_bump (s := s.hearing .switch) hnews]
  subst htagc
  have hcamp' : (s.hearing .switch).CampLaw := hcamp.congr rfl fun _ _ _ _ => .rfl
  obtain ⟨u, hu, hsettle⟩ := goneReport_settles (s := s.hearing .switch) htag hc hcamp'
  have hset := settle_settled u
  have hnext := hexec s c.tag hr
  rw [hsettle] at hnext
  have ha : Announced (settle u) (announce (s.hearing .switch) (settle u)) := announce_announced _ _
  generalize announce (s.hearing .switch) (settle u) = t at hnext ha
  have hfree : t.call i = none := by
    have hp := hset.slots i
    rw [SlotPassed, hu.freed] at hp
    exact (ha.call i).trans hp
  have hlawful : Lawful (.full False False False) t := exec_lawful hnext
    ((lawful_full_iff _ _ _ s).2 ⟨hplaces, hqueue, hcamp, False.elim, False.elim, False.elim⟩)
  obtain ⟨hnoQueue, hnoOffer, hnoOrbit, hnoCamp⟩ := hlawful.free_nowhere hfree
  have hcamps : t.camps = u.camps := ha.camps.trans hset.camps
  have hcount : ∀ k, t.count k = u.count k := fun k => by
    rw [ha.count, State.count, hset.counters]; rfl
  have hpos : ∀ p, PositionKept (u.pos p) (t.pos p) := fun p => (hset.positions p).trans (ha.positionKept p)
  refine ⟨t, hnext, hu.started.taken ha, ⟨?_, ?_⟩, hfree, hu.othersLeft hcamp ha, ?_, ?_, ?_, fun o => ?_,
    hnoQueue, hnoOffer, fun p l => ?_, fun p => ?_,
    ⟨fun p r hst hp hcons hr => hu.frames ha (goneFrame_consult hst hp hcons hr),
      fun x hst hx hm => hu.frames ha ((goneFrame_camped hst hx).trans (if_pos hm)),
      fun x l hst hx hm hl => hu.frames ha ((goneFrame_camped hst hx).trans
        (if_neg fun hm' => hl (hcamp.list_unique hm hm'))),
      fun hst hcons => hu.frames ha (goneFrame_none hst hcons)⟩,
    fun p => ?_, fun o => ?_, hnoOrbit, hnoCamp, ?_, fun k h1 h2 => ?_⟩
  · rw [ha.lead, hset.lead, hu.state]; rfl
  · rw [ha.nightFlag, hset.nightFlag, hu.state]; rfl
  · exact ⟨fun h => hcamps.trans (hu.camps.kept h), fun x l hst hx hm =>
      hcamps ▸ hu.camps.listed x l hst hx hm⟩
  · rw [ha.register.tagIndex, hset.register.tagIndex, hu.state]; rfl
  · rw [ha.register.freeSlots, hset.register.freeSlots, hu.state]; rfl
  · rw [ha.origin, State.origin, hset.register.origins]; exact hu.origin o
  · have hl : (t.pos p).loop l = (u.pos p).loop l := by rw [Position.loop, (hpos p).loops]; rfl
    exact hl.trans (hu.loops p l)
  · exact (hpos p).consult.trans (hu.consult p)
  · exact ⟨(hpos p).state.trans (hu.states p).1, (hpos p).missCount.trans (hu.states p).2⟩
  · rw [ha.orbitSlot, State.orbitSlot, hset.orbits]; exact hu.orbits o
  · exact (hcount _).trans hu.abandoned
  · exact (hcount k).trans (hu.counters k h1 h2)

end

section
/-! PROOFS. Orders of the switch that the consoles are not shown: their whole effect, the room of their frames on
the switch list, and the operands of the origin lookup. -/
namespace Sys2Proof.Machine

section
variable {s t u : State}

/-! ## Changes that no console notice shows (R171) -/

/-- What the console notices are made from is as it was. -/
structure ShownKept (s t : State) : Prop where
  slots : t.slots = s.slots
  positions : t.positions = s.positions
  orbits : t.orbits = s.orbits
  queue : t.queue = s.queue
  lead : t.lead = s.lead
  band : t.band = s.band
  nightFlag : t.nightFlag = s.nightFlag

theorem ShownKept.refl (s : State) : ShownKept s s := ⟨rfl, rfl, rfl, rfl, rfl, rfl, rfl⟩

theorem ShownKept.trans (h : ShownKept s t) (k : ShownKept t u) : ShownKept s u :=
  ⟨k.slots.trans h.slots, k.positions.trans h.positions, k.orbits.trans h.orbits, k.queue.trans h.queue,
    k.lead.trans h.lead, k.band.trans h.band, k.nightFlag.trans h.nightFlag⟩

theorem ShownKept.newsClear (h : ShownKept s t) (hn : s.NewsClear) : t.NewsClear := fun p => by
  rw [State.pos, h.positions]; exact hn p

/-- An action that the consoles are not shown makes no subject pending. -/
theorem announce_shownKept (h : ShownKept s t) (hn : s.NewsClear) : announce s t = t.ended :=
  have hn' := h.newsClear hn
  announce_quiet
    (changedSubjects_same h.slots h.positions h.orbits h.queue h.lead h.band h.nightFlag hn') hn'

theorem bump_shownKept (k : Counter) (s : State) : ShownKept s (bump k s) :=
  ⟨rfl, rfl, rfl, rfl, rfl, rfl, rfl⟩

theorem groups_shownKept (v : Vector Group 64) (s : State) : ShownKept s { s with groups := v } :=
  ⟨rfl, rfl, rfl, rfl, rfl, rfl, rfl⟩

theorem origins_shownKept (v : Vector Origin 1024) (s : State) : ShownKept s { s with origins := v } :=
  ⟨rfl, rfl, rfl, rfl, rfl, rfl, rfl⟩

theorem enlist_shownKept (n : SwitchNotice) (s : State) : ShownKept s (enlist n s) :=
  ⟨rfl, rfl, rfl, rfl, rfl, rfl, rfl⟩

theorem placeAnswer_shownKept (n : SwitchNotice) (s : State) : ShownKept s (placeAnswer n s) := by
  rcases placeAnswer_cases n s with h | h <;> rw [h]
  · exact enlist_shownKept n s
  · exact bump_shownKept _ s

theorem placeLow_shownKept (n : SwitchNotice) (s : State) : ShownKept s (placeLow n s) := by
  rcases placeLow_cases n s with h | h <;> rw [h]
  · exact enlist_shownKept n s
  · exact bump_shownKept _ s

theorem hearing_shownKept (h : ShownKept s t) : ShownKept (s.hearing .switch) (t.hearing .switch) :=
  ⟨h.slots, h.positions, h.orbits, h.queue, h.lead, h.band, h.nightFlag⟩

theorem toldSwitch_shownKept (s : State) (kind : Byte) (code : ResultCode) :
    ShownKept s (s.toldSwitch kind code) := by
  rw [← answerSwitch_told]
  exact placeAnswer_shownKept _ s

/-- The whole effect of an order of the switch that the consoles are not shown. -/
theorem switchOrder_shownKept {kind : Byte} {len : Nat} {f : State → State} (hr : s.Runs)
    (hn : s.NewsClear) (hl : orderLength .switch kind = some len)
    (h : ShownKept (s.hearing .switch) (f (s.hearing .switch))) :
    unlessHeld (switchOrder kind len f) s = .next (f (s.hearing .switch)).ended := by
  rw [unlessHeld_switchOrder hr hl, act, announce_shownKept h hn]

/-! ## Room on the switch list (R169, R170) -/

theorem placeAnswer_room (n : SwitchNotice) (h : s.txList.length < 64) :
    placeAnswer n s = { s with txList := s.txList ++ [n] } :=
  if_pos (show 1 ≤ 64 - s.txList.length by omega)

theorem placeAnswer_full (n : SwitchNotice) (h : 64 ≤ s.txList.length) :
    placeAnswer n s = bump .discardedOrders s :=
  if_neg (show ¬1 ≤ 64 - s.txList.length by omega)

theorem placeAnswer_ended (n : SwitchNotice) (s : State) : (placeAnswer n s).ended =
    if s.txList.length < 64 then { s.ended with txList := s.txList ++ [n] }
    else bump .discardedOrders s.ended := by
  split
  next hroom => rw [placeAnswer_room n hroom]; rfl
  next hfull => rw [placeAnswer_full n (Nat.not_lt.1 hfull)]; rfl

theorem placeLow_room (n : SwitchNotice) (h : s.txList.length ≤ 48) :
    placeLow n s = { s with txList := s.txList ++ [n] } :=
  if_pos (show 16 ≤ 64 - s.txList.length by omega)

/-- The last 15 entries are not for the low frames. -/
theorem placeLow_full (n : SwitchNotice) (h : 48 < s.txList.length) :
    placeLow n s = bump .droppedNotices s :=
  if_neg (show ¬16 ≤ 64 - s.txList.length by omega)

/-! ## Operands (R23, R24, R26, R168) -/

/-- An operand that is taken below a bound. -/
theorem belowArg_eq_some_iff {m n : Nat} {k : Fin n} :
    (if h : m < n then some ⟨m, h⟩ else none) = some k ↔ k.val = m := by
  split
  next h => rw [Option.some.injEq, Fin.ext_iff, eq_comm]
  next h => exact ⟨nofun, fun hk => absurd (hk ▸ k.isLt) h⟩

theorem groupArg_eq_some_iff {b : Byte} {g : GroupNo} : groupArg b = some g ↔ g.val = b.toNat :=
  belowArg_eq_some_iff

theorem originArg_eq_some_iff {n : Nat} {o : OriginNo} : originArg n = some o ↔ o.val = n :=
  belowArg_eq_some_iff

theorem classArg_eq_some_iff {b : Byte} {k : ClassNo} : classArg b = some k ↔ k.val = b.toNat :=
  belowArg_eq_some_iff

theorem validArg_eq_none_iff {b : Byte} : validArg b = none ↔ 1 < b.toNat := by
  unfold validArg
  split
  next h => simp [h]
  next h0 =>
    split
    next h => simp [h]
    next h1 => simp only [true_iff]; bv_omega

theorem overrideArg_eq_some_iff {override : Byte} {k : Option ClassNo} : overrideArg override = some k ↔
    override = 0xFF ∧ k = none ∨ ∃ n, k = some n ∧ n.val = override.toNat := by
  unfold overrideArg
  split
  next h =>
    subst h
    constructor
    · intro hk; exact .inl ⟨rfl, (Option.some.inj hk).symm⟩
    · rintro (⟨_, rfl⟩ | ⟨n, _, hn⟩)
      · rfl
      · exact absurd n.isLt (by rw [hn]; decide)
  next h =>
    simp only [h, false_and, false_or, Option.map_eq_some_iff, classArg_eq_some_iff]
    exact ⟨fun ⟨n, hn, hk⟩ => ⟨n, hk.symm, hn⟩, fun ⟨n, hk, hn⟩ => ⟨n, hn, hk.symm⟩⟩

end

end Sys2Proof.Machine

end

section
/-! PROOFS. The arrivals that are refused (O20) or diverted (O21). -/
namespace Sys2Proof.Machine

section
variable {s u : State} {tag : Tag} {group circuit : Byte} {e : Group} {o : OriginNo}

/-! ## The refusals of an ARRIVE (R28 to R31, R35, R36) -/

theorem rejectArrival_room (tag : Tag) (why : RejectReason) (h : s.txList.length < 64) :
    rejectArrival tag why s = { bump .rejected s with txList := s.txList ++ [.reject tag why] } :=
  placeAnswer_room (s := bump .rejected s) _ h

/-- A refusal with its EXCEPTION, by the length of the list: both frames, the REJECT alone, or neither. -/
theorem rejectArrival_exception (tag : Tag) (why : RejectReason) (d : SwitchNotice) (s : State) :
    (s.txList.length ≤ 47 → placeLow d (rejectArrival tag why s) =
      { bump .rejected s with txList := s.txList ++ [.reject tag why, d] }) ∧
    (47 < s.txList.length → s.txList.length < 64 → placeLow d (rejectArrival tag why s) =
      bump .droppedNotices { bump .rejected s with txList := s.txList ++ [.reject tag why] }) ∧
    (64 ≤ s.txList.length → placeLow d (rejectArrival tag why s) =
      bump .droppedNotices (bump .discardedOrders (bump .rejected s))) := by
  have hlen : (s.txList ++ [SwitchNotice.reject tag why]).length = s.txList.length + 1 :=
    List.length_append
  refine ⟨fun hshort => ?_, fun hlow hroom => ?_, fun hfull => ?_⟩
  · rw [rejectArrival_room tag why (by omega), placeLow_room d (by rw [hlen]; omega), List.append_assoc]
    rfl
  · rw [rejectArrival_room tag why hroom, placeLow_full d (by rw [hlen]; omega)]
  · rw [rejectArrival, placeAnswer_full _ (by rw [bump_txList]; exact hfull),
      placeLow_full d (by rw [bump_txList, bump_txList]; omega)]

theorem rejectArrival_shownKept (tag : Tag) (why : RejectReason) (s : State) :
    ShownKept s (rejectArrival tag why s) :=
  (bump_shownKept _ s).trans (placeAnswer_shownKept _ _)

/-- The whole effect of an ARRIVE whose decision the consoles are not shown. -/
theorem arrive_exec (hr : s.Runs) (hn : s.NewsClear)
    (hdec : arriveDecision tag group circuit (s.hearing .switch) = u)
    (hu : ShownKept (bump .arrivals (s.hearing .switch)) u) :
    exec (.arrive 6 tag group circuit) s = .next u.ended := by
  subst hdec
  exact switchOrder_shownKept hr hn rfl ((bump_shownKept _ _).trans hu)

theorem arriveDecision_standby (h : s.service = .standby) :
    arriveDecision tag group circuit s = rejectArrival tag .notInService (bump .arrivals s) := by
  unfold arriveDecision
  exact if_pos h

theorem arriveDecision_duplicate (h : s.service = .service) {j : SlotNo} {c : Call}
    (htag : s.tagIndex.lookup tag = some j) (hc : s.call j = some c) :
    arriveDecision tag group circuit s =
      placeLow (.exception .duplicateTag tag (BitVec.ofNat 32 j.val) (BitVec.ofNat 32 c.origin.val))
        (rejectArrival tag .duplicateTag (bump .arrivals s)) := by
  have htag' : (bump .arrivals s).slotOfTag tag = some j := htag
  have hc' : (bump .arrivals s).call j = some c := hc
  unfold arriveDecision
  dsimp only
  rw [if_neg (by rw [bump_service, h]; decide), htag']
  dsimp only
  rw [hc']
  rfl

theorem arriveDecision_unmapped (h : s.service = .service) (htag : s.tagIndex.lookup tag = none)
    (hmap : mapOrigin s group circuit = none) : arriveDecision tag group circuit s =
      placeLow (.exception .unknownOrigin (group.setWidth 32) (circuit.setWidth 32) tag)
        (rejectArrival tag .unknownOrigin (bump .arrivals s)) := by
  have htag' : (bump .arrivals s).slotOfTag tag = none := htag
  have hmap' : mapOrigin (bump .arrivals s) group circuit = none := hmap
  unfold arriveDecision
  dsimp only
  rw [if_neg (by rw [bump_service, h]; decide), htag', hmap']

theorem arriveDecision_mapped (h : s.service = .service) (htag : s.tagIndex.lookup tag = none)
    (hmap : mapOrigin s group circuit = some (e, o)) :
    arriveDecision tag group circuit s = decideMapped tag e o (bump .arrivals s) := by
  have htag' : (bump .arrivals s).slotOfTag tag = none := htag
  have hmap' : mapOrigin (bump .arrivals s) group circuit = some (e, o) := hmap
  unfold arriveDecision
  dsimp only
  rw [if_neg (by rw [bump_service, h]; decide), htag', hmap']

theorem decideMapped_busy {j : SlotNo} (h : (s.origin o).current = some j) :
    decideMapped tag e o s =
      placeLow (.exception .circuitBusy tag (BitVec.ofNat 32 o.val) (BitVec.ofNat 32 j.val))
        (rejectArrival tag .circuitBusy s) := by
  unfold decideMapped
  rw [h]

theorem decideMapped_night (hcur : (s.origin o).current = none) (hnight : s.nightFlag = true)
    (hdest : e.night ≠ 0) :
    decideMapped tag e o s = divertArrival tag e.night .night .divertedNight s := by
  unfold decideMapped
  rw [hcur]
  exact if_pos ⟨hnight, hdest⟩

theorem decideMapped_full (hcur : (s.origin o).current = none)
    (hday : s.nightFlag = false ∨ e.night = 0) (hfull : s.eff.queueLimit ≤ s.depth ∨ s.freeSlots = 0) :
    decideMapped tag e o s = overflowArrival tag s := by
  have hnight : ¬(s.nightFlag = true ∧ e.night ≠ 0) := fun ⟨hon, hdest⟩ =>
    hday.elim (fun hoff => by rw [hoff] at hon; cases hon) hdest
  unfold decideMapped
  rw [hcur]
  exact (if_neg hnight).trans (if_pos hfull)

/-! ## The mapping of an arrival (R26) -/

theorem mapOrigin_eq_some_iff : mapOrigin s group circuit = some (e, o) ↔
    ∃ g : GroupNo, g.val = group.toNat ∧ s.group g = e ∧ e.valid = true ∧
      circuit.toNat < 2 ^ e.bits ∧ o.val = e.base + circuit.toNat ∧ (s.origin o).valid = true := by
  constructor
  · intro h
    unfold mapOrigin at h
    split at h
    · cases h
    next g hg =>
      dsimp only at h
      split at h
      next hvalid =>
        split at h
        · cases h
        next o' ho =>
          split at h
          next hov =>
            cases h
            exact ⟨g, groupArg_eq_some_iff.1 hg, rfl, hvalid.1, hvalid.2, originArg_eq_some_iff.1 ho, hov⟩
          · cases h
      · cases h
  · rintro ⟨g, hg, rfl, hvalid, hcircuit, ho, hov⟩
    simp [mapOrigin, groupArg_eq_some_iff.2 hg, originArg_eq_some_iff.2 ho, hvalid, hcircuit, hov]

end

end Sys2Proof.Machine

open Sys2Proof Sys2Proof.Machine in
/-- Settles O20. Each refusal of the decision is known exactly, and the length of the switch list says which of
its two frames join it. -/
theorem arrivalsRejected : Obligations.ArrivalsRejected := by
  refine ⟨fun s tag group circuit hr hn => ?_, fun s group circuit e o =>
    ⟨mapOrigin_eq_some_iff, fun k hk => by rw [classOf, hk]; rfl, fun hk => by rw [classOf, hk]; rfl⟩⟩
  intro h refused
  have hrefused : ∀ (why : RejectReason) (d : SwitchNotice),
      arriveDecision tag group circuit (s.hearing .switch) =
        placeLow d (rejectArrival tag why (bump .arrivals (s.hearing .switch))) → refused why d := by
    intro why d hdec
    obtain ⟨hboth, hreject, hneither⟩ :=
      rejectArrival_exception tag why d (bump .arrivals (s.hearing .switch))
    have hexec := arrive_exec hr hn hdec
      ((rejectArrival_shownKept tag why _).trans (placeLow_shownKept d _))
    exact ⟨fun hlen => by rw [hexec, hboth hlen]; rfl,
      fun hlow hlen => by rw [hexec, hreject hlow hlen]; rfl,
      fun hlen => by rw [hexec, hneither hlen]; rfl⟩
  have hstandby : s.service = .standby → exec (.arrive 6 tag group circuit) s =
      .next (if s.txList.length < 64 then { h with txList := s.txList ++ [.reject tag .notInService] }
        else bump .discardedOrders h) := fun hs =>
    (arrive_exec hr hn (arriveDecision_standby (s := s.hearing .switch) hs)
      (rejectArrival_shownKept tag .notInService _)).trans (congrArg Host.Outcome.next (placeAnswer_ended _ _))
  exact ⟨fun hs hroom => by rw [hstandby hs, if_pos hroom],
    fun hs hfull => by rw [hstandby hs, if_neg (Nat.not_lt.2 hfull)], fun hs =>
    ⟨fun j k htag hk => hrefused _ _ (arriveDecision_duplicate (s := s.hearing .switch) hs htag hk),
      fun htag hmap => hrefused _ _ (arriveDecision_unmapped (s := s.hearing .switch) hs htag hmap),
      fun e o j htag hmap hj => hrefused _ _
        ((arriveDecision_mapped (s := s.hearing .switch) hs htag hmap).trans (decideMapped_busy hj))⟩⟩

open Sys2Proof Sys2Proof.Machine in
/-- Settles O21. The decision is known exactly in each case, and its one frame is an answer. -/
theorem arrivalsDiverted : Obligations.ArrivalsDiverted := by
  intro s tag group circuit e o hr hn hs htag hmap hcur h full answered
  have hanswered : ∀ (k : Counter) (n : SwitchNotice),
      decideMapped tag e o (bump .arrivals (s.hearing .switch)) =
        placeAnswer n (bump k (bump .arrivals (s.hearing .switch))) → answered (bump k h) n := by
    intro k n hdec
    exact (arrive_exec hr hn ((arriveDecision_mapped (s := s.hearing .switch) hs htag hmap).trans hdec)
      ((bump_shownKept k _).trans (placeAnswer_shownKept n _))).trans
        (congrArg Host.Outcome.next (placeAnswer_ended n _))
  have hover := fun hday hfull => decideMapped_full (s := bump .arrivals (s.hearing .switch)) (tag := tag)
    (e := e) (o := o) hcur hday hfull
  refine ⟨fun hnight hdest => hanswered _ _ (decideMapped_night hcur hnight hdest),
    fun hday hfull hdest => hanswered _ _ ((hover hday hfull).trans (if_pos hdest)),
    fun hday hfull hdest => hanswered _ _ ((hover hday hfull).trans (if_neg (not_not.2 hdest)))⟩

end

section
/-! PROOFS. Configuration by the service state, and the entries that GROUP_SET and ORIGIN_SET write (O24). -/
namespace Sys2Proof.Machine

section
variable {s u : State} {kind : Byte} {len : Nat} {f : State → State}

/-! ## Configuration by the service state (R175) -/

/-- A configuration order in SERVICE. -/
theorem inStandby_refused (hr : s.Runs) (hn : s.NewsClear) (hs : s.service = .service)
    (hl : orderLength .switch kind = some len) : unlessHeld (switchOrder kind len (inStandby kind f)) s =
      .next ((s.hearing .switch).toldSwitch kind .notInStandby).ended := by
  have htold : inStandby kind f (s.hearing .switch) =
      (s.hearing .switch).toldSwitch kind .notInStandby := by
    rw [← answerSwitch_told]
    exact if_neg fun h => by rw [show s.service = .standby from h] at hs; cases hs
  rw [switchOrder_shownKept hr hn hl (by rw [htold]; exact toldSwitch_shownKept _ _ _), htold]

/-- A configuration order in STANDBY that makes u of the state and answers with the code. -/
theorem inStandby_answered {code : ResultCode} (hr : s.Runs) (hn : s.NewsClear)
    (hs : s.service = .standby) (hl : orderLength .switch kind = some len) (hu : ShownKept s u)
    (hf : f (s.hearing .switch) = answerSwitch kind code (u.hearing .switch)) :
    unlessHeld (switchOrder kind len (inStandby kind f)) s =
      .next ((u.hearing .switch).toldSwitch kind code).ended := by
  have htold : inStandby kind f (s.hearing .switch) = (u.hearing .switch).toldSwitch kind code := by
    rw [← answerSwitch_told, ← hf]
    exact if_pos hs
  rw [switchOrder_shownKept hr hn hl (by
    rw [htold]; exact (hearing_shownKept hu).trans (toldSwitch_shownKept _ _ _)), htold]

end

section
variable {s : State} {g : GroupNo} {o : OriginNo} {group valid bits cls override : Byte}
variable {base night index label : Half}

/-! ## The entry of a GROUP_SET (R23) -/

theorem rangeIsOpen_iff {g : GroupNo} {base bits : Nat} : rangeIsOpen s g base bits = true ↔
    ∀ k, k ≠ g → (s.group k).valid = true →
      base + 2 ^ bits ≤ (s.group k).base ∨ (s.group k).base + 2 ^ (s.group k).bits ≤ base := by
  unfold rangeIsOpen rangesDisjoint
  rw [List.all_eq_true]
  refine ⟨fun h k hk hv => ?_, fun h k _ => ?_⟩
  · simpa [hk, hv] using h k (List.mem_finRange k)
  · by_cases hk : k = g
    · simp [hk]
    · cases hv : (s.group k).valid with
      | false => simp
      | true => simpa [hk] using h k hk hv

/-- A range that GROUP_SET may write: of at most 128 indices of the origin table, none of them another valid
group's. -/
def State.RangeOpen (s : State) (bits : Byte) (base : Half) (g : GroupNo) : Prop :=
  bits.toNat ≤ 7 ∧ base.toNat + 2 ^ bits.toNat ≤ 1024 ∧
    ∀ k, k ≠ g → (s.group k).valid = true →
      base.toNat + 2 ^ bits.toNat ≤ (s.group k).base ∨
      (s.group k).base + 2 ^ (s.group k).bits ≤ base.toNat

theorem rangeOpen_iff : s.RangeOpen bits base g ↔
    bits.toNat ≤ 7 ∧ base.toNat ≤ 1023 ∧ base.toNat + 2 ^ bits.toNat ≤ 1024 ∧
      rangeIsOpen s g base.toNat bits.toNat = true := by
  rw [rangeIsOpen_iff, State.RangeOpen]
  have hpos : 0 < 2 ^ bits.toNat := Nat.two_pow_pos _
  exact ⟨fun ⟨h7, hend, hopen⟩ => ⟨h7, by omega, hend, hopen⟩,
    fun ⟨h7, _, hend, hopen⟩ => ⟨h7, hend, hopen⟩⟩

theorem groupEntry_written {k : ClassNo} (hk : k.val = cls.toNat) (ho : s.RangeOpen bits base g) :
    groupEntry s g 1 bits base cls night =
      some { valid := true, bits := bits.toNat, base := base.toNat, cls := k, night := night } := by
  unfold groupEntry
  rw [classArg_eq_some_iff.2 hk]
  exact if_pos (rangeOpen_iff.1 ho)

theorem groupEntry_cleared : groupEntry s g 0 bits base cls night = some Group.cleared := rfl

theorem groupEntry_refused (h : 1 < valid.toNat ∨ valid = 1 ∧ 8 ≤ cls.toNat ∨
    valid = 1 ∧ ¬s.RangeOpen bits base g) : groupEntry s g valid bits base cls night = none := by
  rcases h with hvalid | ⟨rfl, hcls⟩ | ⟨rfl, hopen⟩
  · unfold groupEntry
    rw [validArg_eq_none_iff.2 hvalid]
  · have hnone : classArg cls = none := dif_neg (Nat.not_lt.2 hcls)
    unfold groupEntry
    rw [hnone]
    rfl
  · unfold groupEntry
    cases classArg cls with
    | none => rfl
    | some k => exact if_neg fun h => hopen (rangeOpen_iff.2 h)

theorem groupSetOrder_written {e : Group} (hg : g.val = group.toNat)
    (he : groupEntry s g valid bits base cls night = some e) :
    groupSetOrder group valid bits base cls night s =
      answerSwitch Kind.groupSet .accepted { s with groups := vset s.groups g e } := by
  unfold groupSetOrder
  rw [groupArg_eq_some_iff.2 hg]
  dsimp only
  rw [he]

theorem groupSetOrder_refused
    (h : ∀ g : GroupNo, g.val = group.toNat → groupEntry s g valid bits base cls night = none) :
    groupSetOrder group valid bits base cls night s = answerSwitch Kind.groupSet .badRange s := by
  unfold groupSetOrder
  cases hg : groupArg group with
  | none => rfl
  | some g =>
    dsimp only
    rw [h g (groupArg_eq_some_iff.1 hg)]

/-! ## The entry of an ORIGIN_SET (R24) -/

theorem originSetOrder_written {v : Bool} {k : Option ClassNo} (ho : o.val = index.toNat)
    (hv : validArg valid = some v) (hk : overrideArg override = some k) :
    originSetOrder index valid override label s =
      answerSwitch Kind.originSet .accepted { s with origins := (vset s.origins o { s.origin o with
        valid := v, override := if v then k else none, label := if v then label else 0 }) } := by
  unfold originSetOrder
  rw [originArg_eq_some_iff.2 ho, hv, hk]

theorem originSetOrder_refused (h : 1024 ≤ index.toNat ∨ 1 < valid.toNat ∨
    8 ≤ override.toNat ∧ override ≠ 0xFF) :
    originSetOrder index valid override label s = answerSwitch Kind.originSet .badRange s := by
  unfold originSetOrder
  split
  next o v k ho hv hk =>
    rcases h with hindex | hvalid | ⟨hover, hpresent⟩
    · exact absurd o.isLt (by rw [originArg_eq_some_iff.1 ho]; omega)
    · rw [validArg_eq_none_iff.2 hvalid] at hv; cases hv
    · rcases overrideArg_eq_some_iff.1 hk with ⟨habsent, _⟩ | ⟨n, _, hn⟩
      · exact absurd habsent hpresent
      · exact absurd n.isLt (by omega)
  · rfl

end

end Sys2Proof.Machine

open Sys2Proof Sys2Proof.Machine in
/-- Settles O24. In SERVICE every configuration order is refused alike; in STANDBY the operands decide which
entry, if any, is written. -/
theorem configuration : Obligations.Configuration := by
  refine ⟨fun s a b c d e x y hr hn hs => ?_,
    fun s group valid bits base cls night hr hn hs => ?_,
    fun s index valid override label hr hn hs => ?_⟩
  · exact ⟨inStandby_refused hr hn hs rfl, inStandby_refused hr hn hs rfl, inStandby_refused hr hn hs rfl,
      inStandby_refused hr hn hs rfl, inStandby_refused hr hn hs rfl, inStandby_refused hr hn hs rfl⟩
  · refine ⟨fun g k hg hvalid hk hopen => ?_, fun g hg hvalid => ?_, fun hbad => ?_⟩
    · subst hvalid
      exact inStandby_answered hr hn hs rfl (groups_shownKept _ s)
        (groupSetOrder_written (s := s.hearing .switch) hg (groupEntry_written hk hopen))
    · subst hvalid
      exact inStandby_answered hr hn hs rfl (groups_shownKept _ s)
        (groupSetOrder_written (s := s.hearing .switch) hg groupEntry_cleared)
    · refine inStandby_answered hr hn hs rfl (.refl s)
        (groupSetOrder_refused (s := s.hearing .switch) fun g hg => groupEntry_refused ?_)
      rcases hbad with hgroup | hvalid | hcls | ⟨g', hg', hvalid, hopen⟩
      · exact absurd g.isLt (by omega)
      · exact .inl hvalid
      · exact .inr (.inl hcls)
      · exact .inr (.inr ⟨hvalid, Fin.ext (hg.trans hg'.symm) ▸ hopen⟩)
  · refine ⟨fun o k ho hvalid hk => ?_, fun o ho hvalid hover => ?_, fun hbad => ?_⟩
    · subst hvalid
      exact inStandby_answered hr hn hs rfl (origins_shownKept _ s)
        (originSetOrder_written (s := s.hearing .switch) ho rfl (overrideArg_eq_some_iff.2 hk))
    · subst hvalid
      obtain ⟨k, hk⟩ : ∃ k, overrideArg override = some k := by
        rcases hover with habsent | hlt
        · exact ⟨none, overrideArg_eq_some_iff.2 (.inl ⟨habsent, rfl⟩)⟩
        · exact ⟨some ⟨_, hlt⟩, overrideArg_eq_some_iff.2 (.inr ⟨_, rfl, rfl⟩)⟩
      exact inStandby_answered hr hn hs rfl (origins_shownKept _ s)
        (originSetOrder_written (s := s.hearing .switch) ho rfl hk)
    · exact inStandby_answered hr hn hs rfl (.refl s)
        (originSetOrder_refused (s := s.hearing .switch) hbad)

end

section
/-! PROOFS. The rows of the table by what surrounds their work: the orders of the links, the part's own events,
and the rows that touch the links alone. -/
namespace Sys2Proof.Machine

/-! ## The work of a row -/

/-- The orders: the link of a row, its kind, the length it was received with, and the work of its action. -/
inductive Orders : Instr → Link → Byte → Nat → (State → State) → Prop
  | arrive (n tag g k) : Orders (.arrive n tag g k) .switch Kind.arrive n (arriveDecision tag g k)
  | gone (n tag) : Orders (.gone n tag) .switch Kind.gone n (goneReport tag)
  | pathAck (n x v) : Orders (.pathAck n x v) .switch Kind.pathAck n (fun s =>
      match outcomeArg v with
      | none => notTaken s
      | some done => pathAckReport x done s)
  | legState (n x v) : Orders (.legState n x v) .switch Kind.legState n (fun s =>
      match legReportArg v with
      | none => notTaken s
      | some v => legReport x v s)
  | extFree (n x) : Orders (.extFree n x) .switch Kind.extFree n (fun s =>
      if extInRange x then extFreeReport x s else notTaken s)
  | pickup (n o x) : Orders (.pickup n o x) .switch Kind.pickup n (fun s =>
      match orbitArg o with
      | none => notTaken s
      | some o => if extInRange x then pickupReport o x s else notTaken s)
  | start (n) : Orders (.start n) .switch Kind.start n startOrder
  | stopOrderly (n mode) : Orders (.stopOrderly n mode) .switch Kind.stop n (stopOrder mode)
  | stopForced (n) : Orders (.stopForced n) .switch Kind.stop n (stopOrder 1)
  | restart (n) : Orders (.restart n) .switch Kind.restart n restartOrder
  | groupSet (n g v b x k d) : Orders (.groupSet n g v b x k d) .switch Kind.groupSet n
      (inStandby Kind.groupSet (groupSetOrder g v b x k d))
  | originSet (n x v o l) : Orders (.originSet n x v o l) .switch Kind.originSet n
      (inStandby Kind.originSet (originSetOrder x v o l))
  | positionSetLeadEligible (n x v) : Orders (.positionSetLeadEligible n x v) .switch Kind.positionSet n
      (inStandby Kind.positionSet (positionSetOrder x v))
  | positionSetReportInterval (n v) : Orders (.positionSetReportInterval n v) .switch Kind.positionSet n
      (inStandby Kind.positionSet (positionSetOrder 0x80 v))
  | timingSet (n a b x y z) : Orders (.timingSet n a b x y z) .switch Kind.timingSet n
      (inStandby Kind.timingSet (timingSetOrder a b x y z))
  | rangeSet (n a b) : Orders (.rangeSet n a b) .switch Kind.rangeSet n
      (inStandby Kind.rangeSet (rangeSetOrder a b))
  | planHold (n) : Orders (.planHold n) .switch Kind.planHold n planHoldOrder
  | planWrite (n a b v) : Orders (.planWrite n a b v) .switch Kind.planWrite n (planWriteOrder a b v)
  | planRelease (n) : Orders (.planRelease n) .switch Kind.planRelease n planReleaseOrder
  | planAbandon (n) : Orders (.planAbandon n) .switch Kind.planAbandon n planAbandonOrder
  | planSelect (n v) : Orders (.planSelect n v) .switch Kind.planSelect n (planSelectOrder v)
  | select (p n q v) : Orders (.select p n q v) (.console p) Kind.select n (selectOrder p q v)
  | night (n v) : Orders (.night n v) .switch Kind.night n (nightOrder v)
  | nightConsole (p n q v) : Orders (.nightConsole p n q v) (.console p) Kind.nightConsole n
      (nightConsoleOrder p q v)
  | countersRead (n v) : Orders (.countersRead n v) .switch Kind.countersRead n (countersReadOrder v)
  | statusRead (n) : Orders (.statusRead n) .switch Kind.statusRead n statusReadOrder
  | openPosition (p n q) : Orders (.openPosition p n q) (.console p) Kind.openPosition n (openOrder p q)
  | closePosition (p n q) : Orders (.closePosition p n q) (.console p) Kind.closePosition n (closeOrder p q)
  | answer (p n q l i) : Orders (.answer p n q l i) (.console p) Kind.answer n (answerOrder p q l i)
  | pick (p n q i l) : Orders (.pick p n q i l) (.console p) Kind.pick n (pickOrder p q i l)
  | hold (p n q l) : Orders (.hold p n q l) (.console p) Kind.hold n (holdOrder p q l)
  | returnCall (p n q l) : Orders (.returnCall p n q l) (.console p) Kind.returnCall n (returnOrder p q l)
  | release (p n q l) : Orders (.release p n q l) (.console p) Kind.release n (releaseOrder p q l)
  | park (p n q l o) : Orders (.park p n q l o) (.console p) Kind.park n (parkOrder p q l o)
  | retrieve (p n q o l) : Orders (.retrieve p n q o l) (.console p) Kind.retrieve n (retrieveOrder p q o l)
  | consult (p n q l x) : Orders (.consult p n q l x) (.console p) Kind.consult n (consultOrder p q l x)
  | join (p n q l) : Orders (.join p n q l) (.console p) Kind.join n (joinOrder p q l)
  | cancel (p n q l) : Orders (.cancel p n q l) (.console p) Kind.cancel n (cancelOrder p q l)
  | camp (p n q l) : Orders (.camp p n q l) (.console p) Kind.camp n (campOrder p q l)
  | send (p n q l x) : Orders (.send p n q l x) (.console p) Kind.send n (sendOrder p q l x)

/-- The part's own events that are one action each. -/
inductive Events : Instr → (State → State) → Prop
  | sweepVisit : Events .sweepVisit sweepStep
  | waitLimitRouting (i) : Events (.waitLimitRouting i) (waitLimitCheck i)
  | offerExpiry (i) : Events (.offerExpiry i)
      (fun s => if s.eff.mode = .single then offerExpiryCheck i s else s)
  | holdReminder (i) : Events (.holdReminder i) (holdReminderCheck i)
  | holdRecall (i) : Events (.holdRecall i) (holdRecallCheck i)
  | parkExpiry (i) : Events (.parkExpiry i) (parkCheck i)
  | ringExpiry (i) : Events (.ringExpiry i) (ringCheck i)
  | campExpiry (i) : Events (.campExpiry i) (campCheck i)
  | reportIntervalEnd : Events .reportIntervalEnd
      (fun s => if s.service = .service ∧ s.reportInterval ≠ 0 then reportEnd s else s)

/-- Only the links, the transmit lists, the counters and the pulse count differ, and no link is lost or
restored. -/
structure OnlyLines (s t : State) : Prop where
  state : t = { s with switchLink := t.switchLink, consoleLinks := t.consoleLinks, txList := t.txList,
                       consoles := t.consoles, counters := t.counters, pulseCount := t.pulseCount }
  up : ∀ l, (t.link l).up = (s.link l).up

/-- What a row makes of the state. -/
inductive Taken (c : Instr) (s : State) : State → Prop
  | quiet : Taken c s s
  | reset (rate held) (why : (∃ r, c = .powerOnReset r) ∨ c = .resetAsserted) :
      Taken c s (powerOnState rate held s)
  | ordered {l kind n f} (row : Orders c l kind n f) (length : orderLength l kind = some n) :
      Taken c s (act f (receive l s))
  | discarded (l) : Taken c s (bump .discardedOrders (receive l s))
  | heard (l) : Taken c s (receive l s)
  | event {f} (row : Events c f) : Taken c s (act f s)
  | lost (l) (why : c = .linkLost l) (up : (s.link l).up = true) : Taken c s (act (linkLoss l) s)
  | ticked (why : c = .tickPulse ∨ c = .countedTick) : Taken c s (countedTick s)
  | lines {t} (only : OnlyLines s t) : Taken c s t

section
variable {c : Instr} {s t : State}

theorem unlessHeld_taken {f : State → State} (h : unlessHeld f s = .next t) (hf : Taken c s (f s)) :
    Taken c s t := by
  unfold unlessHeld at h
  split at h
  · cases h; exact .quiet
  · cases h; exact hf

theorem switchOrder_row {kind : Byte} {n : Nat} {f : State → State}
    (h : unlessHeld (switchOrder kind n f) s = .next t) (row : Orders c .switch kind n f) : Taken c s t := by
  refine unlessHeld_taken h ?_
  unfold switchOrder
  dsimp only
  split
  · rename_i hl; exact .ordered row hl
  · exact .discarded .switch

theorem consoleOrder_row {p : PosNo} {kind : Byte} {n : Nat} {f : State → State}
    (h : unlessHeld (consoleOrder p kind n f) s = .next t) (row : Orders c (.console p) kind n f) :
    Taken c s t := by
  refine unlessHeld_taken h ?_
  unfold consoleOrder
  dsimp only
  split
  · rename_i hl; exact .ordered row hl.1
  · exact .discarded (.console p)

theorem event_row {f : State → State} (h : unlessHeld (act f) s = .next t) (row : Events c f) :
    Taken c s t := unlessHeld_taken h (.event row)

/-- A write to one link that keeps it UP or LOST. -/
theorem setLink_onlyLines (l : Link) (u : LinkUnit) (s : State) (hu : u.up = (s.link l).up) :
    OnlyLines s (s.setLink l u) := by
  refine ⟨by cases l <;> rfl, fun m => ?_⟩
  rw [setLink_link]
  split
  · rename_i h; rw [← h, hu]
  · rfl

theorem OnlyLines.refl (s : State) : OnlyLines s s := ⟨rfl, fun _ => rfl⟩

theorem OnlyLines.trans {u : State} (h : OnlyLines s t) (k : OnlyLines t u) : OnlyLines s u :=
  ⟨by rw [k.state, h.state], fun l => (k.up l).trans (h.up l)⟩

theorem bump_onlyLines (k : Counter) (s : State) : OnlyLines s (bump k s) :=
  ⟨rfl, fun l => by rw [bump_link]⟩

theorem setConsole_onlyLines (p : PosNo) (x : ConsoleSet) (s : State) : OnlyLines s (s.setConsole p x) :=
  ⟨rfl, fun l => by rw [setConsole_link]⟩

theorem abandonFrame_onlyLines (l : Link) (s : State) : OnlyLines s (abandonFrame l s) := by
  unfold abandonFrame
  split
  · exact .refl s
  · exact (setLink_onlyLines l _ s (by rfl)).trans (bump_onlyLines _ _)

theorem switchFrameDone_onlyLines (s : State) : OnlyLines s (switchFrameDone s) := by
  unfold switchFrameDone
  split <;> exact ⟨rfl, fun l => by cases l <;> rfl⟩

/-- Every row is taken in one of these ways. -/
theorem exec_taken (h : exec c s = .next t) : Taken c s t := by
  cases c with
  | powerOnReset r => cases h; exact .reset r false (.inl ⟨r, rfl⟩)
  | resetAsserted => cases h; exact .reset _ true (.inr rfl)
  | tickPulse =>
    have h : execTickPulse s = .next t := h
    refine unlessHeld_taken h ?_
    split
    · exact .lines ⟨rfl, fun l => by cases l <;> rfl⟩
    · exact .ticked (.inl rfl)
  | countedTick => exact unlessHeld_taken h (.ticked (.inr rfl))
  | linkLost l =>
    refine unlessHeld_taken h ?_
    split
    · rename_i hup; exact .lost l rfl hup
    · exact .quiet
  | frameAbandoned l => exact unlessHeld_taken h (.lines (abandonFrame_onlyLines l s))
  | badFrames l bytes =>
    refine unlessHeld_taken h ?_
    dsimp only
    split
    · exact .lines ((setLink_onlyLines l _ s (by rfl)).trans (bump_onlyLines _ _))
    · exact .quiet
  | idle l n =>
    have h : execIdle l n s = .next t := h
    refine unlessHeld_taken h ?_
    dsimp only
    split
    · exact .heard l
    · exact .discarded l
  | otherKindFrame l kind =>
    have h : execOtherKindFrame l kind s = .next t := h
    refine unlessHeld_taken h ?_
    dsimp only
    split
    · exact .discarded l
    · exact .heard l
  | leadByteReceived l =>
    refine unlessHeld_taken h ?_
    dsimp only
    split
    · exact .lines (setLink_onlyLines l _ s rfl)
    · exact .quiet
  | switchFrameSent => exact unlessHeld_taken h (.lines (switchFrameDone_onlyLines s))
  | consoleNoticeSent p =>
    have h : execConsoleNoticeSent p s = .next t := h
    exact unlessHeld_taken h (.lines ((setConsole_onlyLines p _ s).trans
      (setLink_onlyLines _ _ _ (by rfl))))
  | arrive => exact switchOrder_row h (.arrive ..)
  | gone => exact switchOrder_row h (.gone ..)
  | pathAck => exact switchOrder_row h (.pathAck ..)
  | legState => exact switchOrder_row h (.legState ..)
  | extFree => exact switchOrder_row h (.extFree ..)
  | pickup => exact switchOrder_row h (.pickup ..)
  | start => exact switchOrder_row h (.start ..)
  | stopOrderly => exact switchOrder_row h (.stopOrderly ..)
  | stopForced => exact switchOrder_row h (.stopForced ..)
  | restart => exact switchOrder_row h (.restart ..)
  | groupSet => exact switchOrder_row h (.groupSet ..)
  | originSet => exact switchOrder_row h (.originSet ..)
  | positionSetLeadEligible => exact switchOrder_row h (.positionSetLeadEligible ..)
  | positionSetReportInterval => exact switchOrder_row h (.positionSetReportInterval ..)
  | timingSet => exact switchOrder_row h (.timingSet ..)
  | rangeSet => exact switchOrder_row h (.rangeSet ..)
  | planHold => exact switchOrder_row h (.planHold ..)
  | planWrite => exact switchOrder_row h (.planWrite ..)
  | planRelease => exact switchOrder_row h (.planRelease ..)
  | planAbandon => exact switchOrder_row h (.planAbandon ..)
  | planSelect => exact switchOrder_row h (.planSelect ..)
  | select => exact consoleOrder_row h (.select ..)
  | night => exact switchOrder_row h (.night ..)
  | nightConsole => exact consoleOrder_row h (.nightConsole ..)
  | countersRead => exact switchOrder_row h (.countersRead ..)
  | statusRead => exact switchOrder_row h (.statusRead ..)
  | openPosition => exact consoleOrder_row h (.openPosition ..)
  | closePosition => exact consoleOrder_row h (.closePosition ..)
  | answer => exact consoleOrder_row h (.answer ..)
  | pick => exact consoleOrder_row h (.pick ..)
  | hold => exact consoleOrder_row h (.hold ..)
  | returnCall => exact consoleOrder_row h (.returnCall ..)
  | release => exact consoleOrder_row h (.release ..)
  | park => exact consoleOrder_row h (.park ..)
  | retrieve => exact consoleOrder_row h (.retrieve ..)
  | consult => exact consoleOrder_row h (.consult ..)
  | join => exact consoleOrder_row h (.join ..)
  | cancel => exact consoleOrder_row h (.cancel ..)
  | camp => exact consoleOrder_row h (.camp ..)
  | send => exact consoleOrder_row h (.send ..)
  | sweepVisit =>
    refine unlessHeld_taken h ?_
    split
    · exact .event .sweepVisit
    · exact .quiet
  | waitLimitRouting => exact event_row h (.waitLimitRouting _)
  | offerExpiry => exact event_row h (.offerExpiry _)
  | holdReminder => exact event_row h (.holdReminder _)
  | holdRecall => exact event_row h (.holdRecall _)
  | parkExpiry => exact event_row h (.parkExpiry _)
  | ringExpiry => exact event_row h (.ringExpiry _)
  | campExpiry => exact event_row h (.campExpiry _)
  | reportIntervalEnd => exact event_row h .reportIntervalEnd

end

end Sys2Proof.Machine
end

section
/-! PROOFS. What the operations leave of the settings, of the lead and the night flag, of the state of positions
and links, and of the plan in force (R39, R40, R43, R56, R93, R105). -/
namespace Sys2Proof.Machine

section
variable {s t u : State} {i : SlotNo} {p : PosNo}

/-! ## The relations -/

/-- The plans, the selection, the staging list, the night setting and the judgements made of the positions are
as they were, and so are the states of the positions and of the links. -/
structure Steady (s t : State) : Prop where
  plans : t.plans = s.plans
  selection : t.selection = s.selection
  staging : t.staging = s.staging
  nightSetting : t.nightSetting = s.nightSetting
  lead : t.lead = s.lead
  nightFlag : t.nightFlag = s.nightFlag
  up : ∀ l, (t.link l).up = (s.link l).up
  duty : SameDuty t.positions s.positions

/-- Beside that, the effective plan and the band have not been computed anew. -/
structure Level (s t : State) : Prop extends Steady s t where
  eff : t.eff = s.eff
  band : t.band = s.band

theorem SameDuty.refl (v : Vector Position 8) : SameDuty v v := fun _ => ⟨rfl, rfl⟩

theorem SameDuty.trans {a b c : Vector Position 8} (h : SameDuty a b) (k : SameDuty b c) : SameDuty a c :=
  fun p => ⟨(h p).1.trans (k p).1, (h p).2.trans (k p).2⟩

theorem Steady.trans (h : Steady s t) (k : Steady t u) : Steady s u :=
  ⟨k.plans.trans h.plans, k.selection.trans h.selection, k.staging.trans h.staging,
    k.nightSetting.trans h.nightSetting, k.lead.trans h.lead, k.nightFlag.trans h.nightFlag,
    fun l => (k.up l).trans (h.up l), k.duty.trans h.duty⟩

theorem Level.trans (h : Level s t) (k : Level t u) : Level s u :=
  ⟨h.toSteady.trans k.toSteady, k.eff.trans h.eff, k.band.trans h.band⟩

theorem Level.of_same
    (h : (t.plans, t.selection, t.staging, t.nightSetting, t.lead, t.nightFlag, t.switchLink, t.consoleLinks,
        t.positions, t.eff, t.band) =
      (s.plans, s.selection, s.staging, s.nightSetting, s.lead, s.nightFlag, s.switchLink, s.consoleLinks,
        s.positions, s.eff, s.band)) : Level s t := by
  simp only [Prod.mk.injEq] at h
  obtain ⟨hplans, hsel, hstaging, hset, hlead, hflag, hswitch, hlinks, hpos, heff, hband⟩ := h
  exact ⟨⟨hplans, hsel, hstaging, hset, hlead, hflag,
    fun l => by cases l <;> simp only [State.link, hswitch, hlinks], hpos ▸ .refl _⟩, heff, hband⟩

theorem Level.refl (s : State) : Level s s := .of_same rfl

theorem Level.foldl {α : Type} {f : State → α → State} (hf : ∀ s a, Level s (f s a)) (l : List α) (s : State) :
    Level s (l.foldl f s) := by
  induction l generalizing s with
  | nil => exact .refl s
  | cons a l ih => exact (hf s a).trans (ih _)

theorem Level.setPos (p : PosNo) (c : Position) (s : State) (he : c.leadEligible = (s.pos p).leadEligible)
    (hst : c.state = (s.pos p).state) : Level s (s.setPos p c) := by
  refine { Level.refl s with up := fun l => by rw [setPos_link], duty := fun q => ?_ }
  change ((s.setPos p c).pos q).leadEligible = (s.pos q).leadEligible ∧
    ((s.setPos p c).pos q).state = (s.pos q).state
  rw [setPos_pos]
  split
  · rename_i h; rw [← h]; exact ⟨he, hst⟩
  · exact ⟨rfl, rfl⟩

theorem Level.setLink (l : Link) (x : LinkUnit) (s : State) (hx : x.up = (s.link l).up) :
    Level s (s.setLink l x) := by
  have h := setLink_onlyLines l x s hx
  refine ⟨⟨?_, ?_, ?_, ?_, ?_, ?_, h.up, ?_⟩, ?_, ?_⟩ <;> rw [h.state]
  exact .refl _

theorem OnlyLines.level (h : OnlyLines s t) : Level s t := by
  refine ⟨⟨?_, ?_, ?_, ?_, ?_, ?_, h.up, ?_⟩, ?_, ?_⟩ <;> rw [h.state]
  exact .refl _

theorem OnlyRecords.level (h : OnlyRecords s t) : Level s t := by rw [h.state]; exact .of_same rfl

theorem OnlySubjects.level (h : OnlySubjects s t) : Level s t := by rw [h.state]; exact .of_same rfl

theorem Left.level (h : Left s t) : Level s t := by
  refine ⟨⟨?_, ?_, ?_, ?_, ?_, ?_, fun l => ?_, fun q => ?_⟩, ?_, ?_⟩
  case refine_8 =>
    obtain ⟨ls, hl⟩ := h.positions q
    have hl : t.positions[q] = { s.pos q with loops := ls } := hl
    rw [hl]; exact ⟨rfl, rfl⟩
  case refine_7 => rw [h.state]; cases l <;> rfl
  all_goals rw [h.state]

theorem Settled.steady (h : Settled s t) : Steady s t :=
  ⟨h.settings.plans, h.settings.selection, h.settings.staging, h.settings.nightSetting, h.lead, h.nightFlag,
    fun l => by rw [h.links], fun p => ⟨(h.positions p).leadEligible, (h.positions p).state⟩⟩

theorem Announced.level (h : Announced s t) : Level s t := by
  refine ⟨⟨?_, ?_, ?_, ?_, h.lead, h.nightFlag, fun l => by rw [h.link], fun q => ?_⟩, h.eff, h.band⟩
  case refine_5 =>
    have hq : t.positions[q] = { s.pos q with offerNews := false } := h.positions q
    rw [hq]; exact ⟨rfl, rfl⟩
  all_goals rw [h.state]

/-! ## Frames and counters -/

theorem bump_level (k : Counter) (s : State) : Level s (bump k s) := .of_same rfl

theorem placeLow_level (n : SwitchNotice) (s : State) : Level s (placeLow n s) := by
  rcases placeLow_cases n s with h | h <;> rw [h] <;> exact .of_same rfl

theorem placeDroppable_level (n : SwitchNotice) (s : State) : Level s (placeDroppable n s) := by
  rcases placeDroppable_cases n s with h | h <;> rw [h] <;> exact .of_same rfl

theorem placeAnswer_level (n : SwitchNotice) (s : State) : Level s (placeAnswer n s) := by
  rcases placeAnswer_cases n s with h | h <;> rw [h] <;> exact .of_same rfl

theorem placeTested_level (n : SwitchNotice) (s : State) : Level s (placeTested n s) := by
  rcases placeTested_cases n s with h | h <;> rw [h] <;> exact .of_same rfl

theorem answerSwitch_level (kind : Byte) (code : ResultCode) (s : State) : Level s (answerSwitch kind code s) :=
  placeAnswer_level _ s

theorem answerConsole_level (p : PosNo) (seq kind : Byte) (code : ResultCode) (orbit : Option OrbitNo)
    (s : State) : Level s (answerConsole p seq kind code orbit s) := .of_same rfl

theorem announce_level (old new : State) : Level new (announce old new) := (announce_announced old new).level

/-! ## Moves of one call -/

theorem modCall_level (i : SlotNo) (f : Call → Call) (s : State) : Level s (s.modCall i f) := .of_same rfl

theorem setLoop_level (p : PosNo) (l : LoopNo) (x : Loop) (s : State) : Level s (s.setLoop p l x) :=
  .setPos p _ s rfl rfl

theorem issue_level (i : SlotNo) (s : State) : Level s (issue i s) := (issue_onlyRecords i s).level

theorem want_level (i : SlotNo) (w : Conn) (s : State) : Level s (want i w s) := by
  unfold want
  split
  · exact .refl s
  · split
    · exact .refl s
    · exact (modCall_level i _ s).trans (issue_level i _)

theorem leave_level (i : SlotNo) (s : State) : Level s (leave i s) := (leave_left i s).level

theorem depart_level (i : SlotNo) (x : Option Ext) (w : Conn) (s : State) : Level s (depart i x w s) :=
  ((leave_level i s).trans (modCall_level i _ _)).trans (want_level i w _)

theorem ringAt_level (i : SlotNo) (x : Ext) (s : State) : Level s (ringAt i x s) :=
  ((leave_level i s).trans (modCall_level i _ _)).trans (want_level i _ _)

theorem holdSeated_level (i : SlotNo) (s : State) : Level s (holdSeated i s) :=
  (holdSeated_onlyRecords i s).level

theorem autoHold_level (p : PosNo) (l : LoopNo) (s : State) : Level s (autoHold p l s) :=
  (autoHold_onlyRecords p l s).level

theorem seat_level (p : PosNo) (l : LoopNo) (i : SlotNo) (fresh : Bool) (s : State) :
    Level s (seat p l i fresh s) :=
  ((((autoHold_level p l s).trans (leave_level i _)).trans (setLoop_level p l _ _)).trans
    (modCall_level i _ _)).trans (want_level i _ _)

theorem talkAgain_level (p : PosNo) (l : LoopNo) (i : SlotNo) (s : State) : Level s (talkAgain p l i s) :=
  ((autoHold_level p l s).trans (modCall_level i _ _)).trans (want_level i _ _)

theorem parkCall_level (i : SlotNo) (o : OrbitNo) (s : State) : Level s (parkCall i o s) := by
  unfold parkCall
  exact ((leave_level i s).trans (.of_same (by rfl))).trans (want_level i .hold _)

theorem campCall_level (i : SlotNo) (x : Ext) (s : State) : Level s (campCall i x s) := by
  unfold campCall
  exact ((leave_level i s).trans (.of_same (by rfl))).trans (want_level i .hold _)

theorem openCamp_level (x : Ext) (s : State) : Level s (openCamp x s) := by
  unfold openCamp
  split
  · exact .refl s
  · exact Level.trans (.of_same (by rfl)) (placeTested_level _ _)

theorem closeConsult_level (p : PosNo) (drop : Bool) (s : State) : Level s (closeConsult p drop s) := by
  have h : Level s (s.setPos p { s.pos p with consult := none }) := .setPos p _ s rfl rfl
  rcases closeConsult_cases p drop s with hc | ⟨n, _, _, hc⟩ <;> rw [hc]
  · exact h
  · exact h.trans (placeDroppable_level _ _)

theorem closeConsultOf_level (c : Call) (s : State) : Level s (closeConsultOf c s) := by
  unfold closeConsultOf
  split
  · split
    · exact closeConsult_level _ _ s
    · exact .refl s
  · exact .refl s

theorem place_level (i : SlotNo) (s : State) : Level s (place i s) := .of_same rfl

theorem rescore_level (i : SlotNo) (s : State) : Level s (rescore i s) := modCall_level i _ s

theorem requeue_level (i : SlotNo) (s : State) : Level s (place i (rescore i s)) :=
  (rescore_level i s).trans (place_level i _)

/-! ## Offers and distribution -/

theorem setOffer_level (p : PosNo) (o : Option SlotNo) (s : State) : Level s (setOffer p o s) :=
  .setPos p _ s rfl rfl

theorem withdrawAt_level (p : PosNo) (s : State) : Level s (withdrawAt p s) := by
  unfold withdrawAt
  split
  · exact .refl s
  · have h := fun i => (setOffer_level p none s).trans
      (modCall_level i (fun c => if c.state = .offered then { c with preferred := none } else c) _)
    dsimp only
    split
    · exact h _
    · exact (h _).trans (modCall_level _ _ _)

theorem endOffers_level (i : SlotNo) (s : State) : Level s (endOffers i s) :=
  .foldl (fun s p => by
    split
    · exact setOffer_level p none s
    · exact .refl s) _ s

theorem withdrawCall_level (i : SlotNo) (s : State) : Level s (withdrawCall i s) :=
  .foldl (fun s p => by
    split
    · exact withdrawAt_level p s
    · exact .refl s) _ s

theorem withdrawAll_level (s : State) : Level s (withdrawAll s) := .foldl (fun s p => withdrawAt_level p s) _ s

theorem withdrawMasked_level (s : State) : Level s (withdrawMasked s) :=
  .foldl (fun s p => by
    split
    · exact .refl s
    · split
      · exact .refl s
      · split
        · exact .refl s
        · exact withdrawAt_level p s) _ s

theorem rejudge_level (s : State) : Level s (rejudge s) := .of_same rfl

theorem dropShowings_level (s : State) : Level s (dropShowings s) := by
  unfold dropShowings
  split
  · exact .foldl (fun s p => by
      split
      · exact .refl s
      · exact withdrawAt_level p s) _ s
  · exact .refl s

theorem nightRoute_level (s : State) : Level s (nightRoute s) :=
  .foldl (fun s i => by
    split
    · exact .refl s
    · dsimp only
      split
      · exact depart_level _ _ _ s
      · exact .refl s) _ s

theorem offerTo_level (p : PosNo) (i : SlotNo) (s : State) : Level s (offerTo p i s) :=
  ((modCall_level i _ s).trans (setOffer_level p _ _)).trans (.of_same rfl)

theorem showTo_level (p : PosNo) (i : SlotNo) (s : State) : Level s (showTo p i s) :=
  (modCall_level i _ s).trans (setOffer_level p _ _)

theorem distribute_level (s : State) : Level s (distribute s) := by
  unfold distribute
  split
  · exact .foldl (fun s i => by
      split
      · exact .refl s
      · split
        · split
          · exact offerTo_level _ _ s
          · exact .refl s
        · exact .refl s) _ s
  · exact .foldl (fun s p => by
      split
      · exact .refl s
      · split
        · exact showTo_level _ _ s
        · exact .refl s) _ s

theorem settle_steady (s : State) : Steady s (settle s) := (settle_settled s).steady

theorem replan_steady (s : State) : Steady s (replan s) := (replan_settled s).steady

/-! ## Recalls, freed and admitted calls -/

theorem recallStart_level (i : SlotNo) (c : Call) (s : State) : Level s (recallStart i c s) := by
  unfold recallStart
  split
  · exact withdrawCall_level i s
  · exact leave_level i s

theorem recallCall_level (i : SlotNo) (reason : RecallReason) (s : State) :
    Level s (recallCall i reason s) := by
  cases hc : s.call i with
  | none => unfold recallCall; rw [hc]; exact .refl s
  | some c =>
    rw [recallCall_eq hc]
    exact (((recallStart_level i c s).trans (modCall_level i _ _)).trans (issue_level i _)).trans
      ((requeue_level i _).trans (bump_level _ _))

theorem recallLoops_level (p : PosNo) (s : State) : Level s (recallLoops p s) :=
  .foldl (fun s l => by
    split
    · exact .refl s
    · split
      · exact recallCall_level _ _ s
      · exact .refl s) _ s

theorem freeSlot_level (i : SlotNo) (s : State) : Level s (freeSlot i s) := by
  cases hc : s.call i with
  | none => rw [freeSlot_none hc]; exact .refl s
  | some c =>
    have h : Level s (s.emptied i c) := by
      unfold State.emptied
      split
      · exact (endOffers_level i s).trans (leave_level i _)
      · exact leave_level i s
    rw [freeSlot_eq hc]
    exact h.trans (.of_same rfl)

/-! ## The plan in force (R40 to R43) -/

/-- Unless the selection is LOAD the effective plan and the band are right: what holds within an action while
the depth moves. -/
def State.PlanDue (s : State) : Prop := s.selection ≠ .load → s.PlanLaw

theorem planInForce_manual (n : PlanName) (ps : Plans) (d e : Nat) :
    planInForce (.manual n) ps d = planInForce (.manual n) ps e := by cases n <;> rfl

/-- Under MANUAL the depth has no bearing on the plan (R40). -/
theorem Level.planDue (h : Level s t) (hs : s.PlanDue) : t.PlanDue := by
  intro hl
  rw [h.selection] at hl
  obtain ⟨heff, hband⟩ := hs hl
  cases hsel : s.selection with
  | load => exact absurd hsel hl
  | manual n =>
    rw [hsel] at heff hband
    refine ⟨?_, ?_⟩
    · rw [h.eff, heff, h.selection, hsel, h.plans]; exact planInForce_manual _ _ _ _
    · rw [h.band, hband, h.selection, hsel]; rfl

theorem Level.planLaw (h : Level s t) (hd : t.depth = s.depth) (hs : s.PlanLaw) : t.PlanLaw :=
  ⟨by rw [h.eff, hs.eff, h.selection, h.plans, hd], by rw [h.band, hs.band, h.selection, h.plans, hd]⟩

/-- The recompute brings the plan and the band of the depth (R43). -/
theorem recompute_planLaw (s : State) : (recompute s).PlanLaw := by
  have h : Level
      { s with
        eff := planInForce s.selection s.plans s.depth
        band := bandInForce s.selection s.plans s.depth } (recompute s) := by
    unfold recompute
    dsimp only
    split
    · exact withdrawAll_level _
    · split
      · exact withdrawMasked_level _
      · exact .refl _
  exact h.planLaw (congrArg List.length (recompute_plan s).2) ⟨rfl, rfl⟩

theorem recompute_steady_settings (s : State) : Steady s (recompute s) := (recompute_settled s).steady

theorem recomputeUnderLoad_planLaw (h : s.PlanDue) : (recomputeUnderLoad s).PlanLaw := by
  unfold recomputeUnderLoad
  split
  · exact recompute_planLaw s
  · rename_i hl; exact h hl

theorem settleWith_planLaw (fuel : Nat) (h : s.PlanDue) (hd : s.depth < fuel) : (settleWith fuel s).PlanLaw := by
  induction fuel generalizing s with
  | zero => exact absurd hd (Nat.not_lt_zero _)
  | succ fuel ih =>
    have hu : (dropShowings (rejudge (recomputeUnderLoad s))).PlanLaw :=
      ((rejudge_level _).trans (dropShowings_level _)).planLaw
        (congrArg List.length (dropShowings_plan (rejudge (recomputeUnderLoad s))).queue)
        (recomputeUnderLoad_planLaw h)
    have hdu : (dropShowings (rejudge (recomputeUnderLoad s))).depth = s.depth := by
      have hq : (recomputeUnderLoad s).queue = s.queue := by
        unfold recomputeUnderLoad
        split
        · exact (recompute_plan s).2
        · rfl
      exact congrArg List.length ((dropShowings_plan (rejudge (recomputeUnderLoad s))).queue.trans hq)
    unfold settleWith
    dsimp only
    generalize dropShowings (rejudge (recomputeUnderLoad s)) = u at hu hdu
    have hroute : Level u (if u.nightFlag = true then nightRoute u else u) ∧
        (if u.nightFlag = true then nightRoute u else u).depth ≤ u.depth := by
      split
      · rename_i hn; exact ⟨nightRoute_level u, (nightRoute_settled u hn).queue.length_le⟩
      · exact ⟨.refl u, Nat.le_refl _⟩
    obtain ⟨ht, hle⟩ := hroute
    generalize (if u.nightFlag = true then nightRoute u else u) = t at ht hle
    have hdue : t.PlanDue := ht.planDue fun _ => hu
    split
    · rename_i hlower; exact ih hdue (by omega)
    · rename_i hstay
      refine (distribute_level t).planLaw (congrArg List.length (distribute_plan t).queue) ?_
      by_cases hl : t.selection = .load
      · exact ht.planLaw (by have := not_and.1 hstay hl; omega) hu
      · exact hdue hl

/-- After the re-establishing of the distribution condition the plan is that of the depth (R43, R77). -/
theorem settle_planLaw (h : s.PlanDue) : (settle s).PlanLaw := settleWith_planLaw _ h (Nat.lt_succ_self _)

theorem replan_planLaw (s : State) : (replan s).PlanLaw := by
  unfold replan
  dsimp only
  split
  · exact settle_planLaw fun _ => recompute_planLaw s
  · exact recompute_planLaw s

end

end Sys2Proof.Machine
end

section
/-! PROOFS. The law of the plan in force, the judgements of the group and the law of positions and links, row by
row: what every row but those that write the settings keeps of them (R39, R40, R56, R93, R105). -/
namespace Sys2Proof.Machine

section
variable {s t u : State} {i : SlotNo} {p : PosNo} {W : Prop}

/-! ## The relations -/

/-- Level, with the depth and so the plan of the depth as they were. -/
structure Flat (s t : State) : Prop extends Level s t where
  queue : t.queue = s.queue

theorem Flat.trans (h : Flat s t) (k : Flat t u) : Flat s u := ⟨h.toLevel.trans k.toLevel, k.queue.trans h.queue⟩

theorem Flat.refl (s : State) : Flat s s := ⟨.refl s, rfl⟩

theorem Flat.foldl {α : Type} {f : State → α → State} (hf : ∀ s a, Flat s (f s a)) (l : List α) (s : State) :
    Flat s (l.foldl f s) := by
  induction l generalizing s with
  | nil => exact .refl s
  | cons a l ih => exact (hf s a).trans (ih _)

theorem Level.flat (h : Level s t) (hq : t.queue = s.queue) : Flat s t := ⟨h, hq⟩

theorem Flat.of_same
    (h : (t.plans, t.selection, t.staging, t.nightSetting, t.lead, t.nightFlag, t.switchLink, t.consoleLinks,
        t.positions, t.eff, t.band) =
      (s.plans, s.selection, s.staging, s.nightSetting, s.lead, s.nightFlag, s.switchLink, s.consoleLinks,
        s.positions, s.eff, s.band)) (hq : t.queue = s.queue) : Flat s t := ⟨.of_same h, hq⟩

theorem OnlyRecords.flat (h : OnlyRecords s t) : Flat s t := ⟨h.level, by rw [h.state]⟩

theorem OnlyLines.flat (h : OnlyLines s t) : Flat s t := ⟨h.level, by rw [h.state]⟩

theorem Announced.flat (h : Announced s t) : Flat s t := ⟨h.level, by rw [h.state]⟩

/-- What every row but those that write the settings brings about: the plans, the selection, the staging list
and the night setting stay, and the laws of the group, of the links and of the plan in force are kept, the last
under W. -/
structure Ruled (W : Prop) (s t : State) : Prop where
  plans : t.plans = s.plans
  selection : t.selection = s.selection
  staging : t.staging = s.staging
  group : s.GroupLaw → t.GroupLaw
  linkLaw : s.LinkLaw → t.LinkLaw
  planLaw : W → s.PlanLaw → t.PlanLaw

theorem Ruled.trans (h : Ruled W s t) (k : Ruled W t u) : Ruled W s u :=
  ⟨k.plans.trans h.plans, k.selection.trans h.selection, k.staging.trans h.staging,
    fun hs => k.group (h.group hs), fun hs => k.linkLaw (h.linkLaw hs),
    fun hw hs => k.planLaw hw (h.planLaw hw hs)⟩

theorem Steady.groupLaw (h : Steady s t) (hs : s.GroupLaw) : t.GroupLaw :=
  ⟨by rw [h.lead, h.duty.leadOf, hs.lead], by rw [h.nightFlag, h.nightSetting, h.duty.nightFlagOf, hs.nightFlag]⟩

theorem Steady.linkLaw (h : Steady s t) (hs : s.LinkLaw) : t.LinkLaw := fun p => by
  rw [h.up, show (t.pos p).state = (s.pos p).state from (h.duty p).2]
  exact hs p

theorem Steady.ruled (h : Steady s t) (hp : W → s.PlanLaw → t.PlanLaw) : Ruled W s t :=
  ⟨h.plans, h.selection, h.staging, h.groupLaw, h.linkLaw, hp⟩

theorem Flat.ruled (h : Flat s t) : Ruled W s t :=
  h.toLevel.toSteady.ruled fun _ hs => h.toLevel.planLaw (congrArg List.length h.queue) hs

theorem Ruled.refl (s : State) : Ruled W s s := (Flat.refl s).ruled

/-- A level change followed by the re-establishing of the distribution condition. -/
theorem Level.settled (h : Level s t) : Ruled W s (settle t) :=
  (h.toSteady.trans (settle_steady t)).ruled fun _ hs => settle_planLaw (h.planDue fun _ => hs)

/-! ## Changes that leave the depth -/

theorem bump_flat (k : Counter) (s : State) : Flat s (bump k s) := (bump_level k s).flat rfl

theorem placeLow_flat (n : SwitchNotice) (s : State) : Flat s (placeLow n s) :=
  ⟨placeLow_level n s, by rcases placeLow_cases n s with h | h <;> rw [h] <;> rfl⟩

theorem placeDroppable_flat (n : SwitchNotice) (s : State) : Flat s (placeDroppable n s) :=
  ⟨placeDroppable_level n s, by rcases placeDroppable_cases n s with h | h <;> rw [h] <;> rfl⟩

theorem placeAnswer_flat (n : SwitchNotice) (s : State) : Flat s (placeAnswer n s) :=
  ⟨placeAnswer_level n s, by rcases placeAnswer_cases n s with h | h <;> rw [h] <;> rfl⟩

theorem placeTested_flat (n : SwitchNotice) (s : State) : Flat s (placeTested n s) :=
  ⟨placeTested_level n s, by rcases placeTested_cases n s with h | h <;> rw [h] <;> rfl⟩

theorem answerSwitch_flat (kind : Byte) (code : ResultCode) (s : State) : Flat s (answerSwitch kind code s) :=
  placeAnswer_flat _ s

theorem answerConsole_flat (p : PosNo) (seq kind : Byte) (code : ResultCode) (orbit : Option OrbitNo)
    (s : State) : Flat s (answerConsole p seq kind code orbit s) :=
  (answerConsole_level p seq kind code orbit s).flat rfl

theorem modCall_flat (i : SlotNo) (f : Call → Call) (s : State) : Flat s (s.modCall i f) :=
  (modCall_level i f s).flat rfl

theorem issue_flat (i : SlotNo) (s : State) : Flat s (issue i s) := (issue_onlyRecords i s).flat

theorem want_flat (i : SlotNo) (w : Conn) (s : State) : Flat s (want i w s) := by
  unfold want
  split
  · exact .refl s
  · split
    · exact .refl s
    · exact (modCall_flat i _ s).trans (issue_flat i _)

theorem holdSeated_flat (i : SlotNo) (s : State) : Flat s (holdSeated i s) := (holdSeated_onlyRecords i s).flat

theorem talkAgain_flat (p : PosNo) (l : LoopNo) (i : SlotNo) (s : State) : Flat s (talkAgain p l i s) :=
  ((autoHold_onlyRecords p l s).flat.trans (modCall_flat i _ _)).trans (want_flat i _ _)

theorem setConsult_flat (p : PosNo) (r : Option Consult) (s : State) :
    Flat s (s.setPos p { s.pos p with consult := r }) :=
  (Level.setPos p { s.pos p with consult := r } s rfl rfl).flat rfl

theorem setPhase_flat (p : PosNo) (r : Consult) (phase : Phase) (leg : Option ReqNo) (s : State) :
    Flat s (setPhase p r phase leg s) := setConsult_flat p _ s

theorem setMissCount_flat (p : PosNo) (n : Nat) (s : State) :
    Flat s (s.setPos p { s.pos p with missCount := n }) :=
  (Level.setPos p { s.pos p with missCount := n } s rfl rfl).flat rfl

theorem periodicReport_flat (s : State) : Flat s (periodicReport s) := by
  unfold periodicReport
  split
  · exact Flat.of_same rfl rfl
  · exact bump_flat _ s

theorem reportEnd_flat (s : State) : Flat s (reportEnd s) := (periodicReport_flat s).trans (Flat.of_same rfl rfl)

theorem advancePointer_flat (s : State) : Flat s (advancePointer s) := by
  unfold advancePointer
  split
  · unfold endPass
    split
    · exact Flat.of_same rfl rfl
    · dsimp only
      split
      · exact Flat.trans (Flat.of_same (by rfl) (by rfl)) (reportEnd_flat _)
      · exact Flat.of_same rfl rfl
  · exact Flat.of_same rfl rfl

theorem OnlySubjects.flat (h : OnlySubjects s t) : Flat s t := ⟨h.level, by rw [h.state]⟩

theorem makePending_flat (p : PosNo) (ks : List Subject) (s : State) : Flat s (makePending p ks s) :=
  (makePending_onlySubjects p ks s).flat

/-! ## A position that takes a new state (R94 to R96, R105) -/

/-- The state of position p changed and the lead and the night flag judged again. -/
def State.rejudgedAt (s : State) (p : PosNo) (st : PosState) (why : PosReason) : State :=
  rejudgeGroup (setPosState p st why s)

theorem State.PlanDue.rejudgedAt {st : PosState} {why : PosReason} (h : s.PlanDue) :
    (s.rejudgedAt p st why).PlanDue := fun hl => ⟨(h hl).eff, (h hl).band⟩

theorem rejudgedAt_groupLaw (s : State) (p : PosNo) (st : PosState) (why : PosReason) :
    (s.rejudgedAt p st why).GroupLaw := ⟨rfl, rfl⟩

theorem rejudgedAt_state (s : State) (p q : PosNo) (st : PosState) (why : PosReason) :
    ((s.rejudgedAt p st why).pos q).state = if p = q then st else (s.pos q).state := by
  change ((setPosState p st why s).pos q).state = _
  unfold setPosState
  rw [setPos_pos]
  split <;> rfl

theorem rejudgedAt_link (s : State) (p : PosNo) (st : PosState) (why : PosReason) (l : Link) :
    (s.rejudgedAt p st why).link l = s.link l := by
  change (setPosState p st why s).link l = _
  rw [setPosState, setPos_link]

/-- The law of links survives when the position's own link fits its new state. -/
theorem rejudgedAt_linkLaw {st : PosState} {why : PosReason}
    (hs : ∀ q, q ≠ p → ((s.link (.console q)).up = false ↔ (s.pos q).state = .down))
    (hp : (s.link (.console p)).up = false ↔ st = .down) : (s.rejudgedAt p st why).LinkLaw := by
  intro q
  rw [rejudgedAt_link, rejudgedAt_state]
  split
  · rename_i h; rw [← h]; exact hp
  · rename_i h; exact hs q (Ne.symm h)

/-- A position whose link is UP takes another state than DOWN, and distribution follows. -/
theorem rejudgedAt_settled {st : PosState} {why : PosReason} (h : Level s u) (hst : st ≠ .down)
    (hup : s.LinkLaw → (s.link (.console p)).up = true) : Ruled W s (settle (u.rejudgedAt p st why)) := by
  have hk := settle_steady (u.rejudgedAt p st why)
  refine ⟨hk.plans.trans h.plans, hk.selection.trans h.selection, hk.staging.trans h.staging,
    fun _ => hk.groupLaw (rejudgedAt_groupLaw ..), fun hs => hk.linkLaw ?_, fun _ hs => settle_planLaw ?_⟩
  · refine rejudgedAt_linkLaw (fun q _ => h.linkLaw hs q) ?_
    rw [h.up, hup hs]
    simp [hst]
  · exact (h.planDue fun _ => hs).rejudgedAt

/-! ## The checks of the part's own time -/

theorem waitLimitCheck_ruled (i : SlotNo) (s : State) : Ruled W s (waitLimitCheck i s) := by
  unfold waitLimitCheck
  split
  · exact .refl s
  · split
    · exact ((depart_level i none _ s).trans (bump_level _ _)).settled
    · exact .refl s

theorem recallNow_ruled (i : SlotNo) (why : RecallReason) (s : State) : Ruled W s (recallNow i why s) :=
  (recallCall_level i why s).settled

/-- A miss closes only a position that was OPEN, whose link is UP. -/
theorem settle_countMiss_ruled (h : Level s u) : Ruled W s (settle (countMiss p u)) := by
  have hm : ∀ n, Level s (bump .missedOffers (u.setPos p { u.pos p with missCount := n })) := fun n =>
    h.trans ((setMissCount_flat p n u).toLevel.trans (bump_level _ _))
  unfold countMiss
  dsimp only
  split
  · rename_i hopen
    obtain ⟨-, -, hst⟩ := hopen
    refine rejudgedAt_settled (hm _) nofun fun hl => ?_
    have hs : (s.pos p).state = .opened := by
      rw [← hst]; exact ((hm _).duty p).2.symm
    cases hup : (s.link (.console p)).up with
    | true => rfl
    | false => rw [(hl p).1 hup] at hs; cases hs
  · exact (hm _).settled

theorem offerExpiryCheck_ruled (i : SlotNo) (s : State) : Ruled W s (offerExpiryCheck i s) := by
  unfold offerExpiryCheck
  split
  · exact .refl s
  · split
    · dsimp only
      split
      · exact (modCall_flat i _ s).ruled
      · exact settle_countMiss_ruled (withdrawAt_level _ s)
    · exact .refl s

theorem holdReminderCheck_ruled (i : SlotNo) (s : State) : Ruled W s (holdReminderCheck i s) := by
  unfold holdReminderCheck
  split
  · exact .refl s
  · split
    · exact (modCall_flat i _ s).ruled
    · exact .refl s

theorem holdRecallCheck_ruled (i : SlotNo) (s : State) : Ruled W s (holdRecallCheck i s) := by
  unfold holdRecallCheck
  split
  · exact .refl s
  · split
    · exact recallNow_ruled i _ s
    · exact .refl s

theorem parkCheck_ruled (i : SlotNo) (s : State) : Ruled W s (parkCheck i s) := by
  unfold parkCheck
  split
  · exact .refl s
  · split
    · exact recallNow_ruled i _ s
    · exact .refl s

theorem ringCheck_ruled (i : SlotNo) (s : State) : Ruled W s (ringCheck i s) := by
  unfold ringCheck
  split
  · exact .refl s
  · split
    · exact recallNow_ruled i _ s
    · exact .refl s

theorem campCheck_ruled (i : SlotNo) (s : State) : Ruled W s (campCheck i s) := by
  unfold campCheck
  split
  · exact .refl s
  · split
    · exact recallNow_ruled i _ s
    · exact .refl s

theorem queueCheck_ruled (found : Call) (i : SlotNo) (s : State) : Ruled W s (queueCheck found i s) := by
  have h : Ruled W s (settle (place i (rescore i s))) := (requeue_level i s).settled
  unfold queueCheck
  dsimp only
  split
  · exact h
  · split
    · exact h.trans (waitLimitCheck_ruled i _)
    · split
      · exact h.trans (offerExpiryCheck_ruled i _)
      · exact h

theorem ownersCheck_ruled (found : Call) (i : SlotNo) (s : State) : Ruled W s (ownersCheck found i s) := by
  unfold ownersCheck
  split
  case h_1 => exact queueCheck_ruled found i s
  case h_2 => exact queueCheck_ruled found i s
  case h_3 => exact .refl s
  case h_4 =>
    split
    · exact holdRecallCheck_ruled i s
    · exact holdReminderCheck_ruled i s
  case h_5 => exact parkCheck_ruled i s
  case h_6 => exact ringCheck_ruled i s
  case h_7 => exact campCheck_ruled i s
  case h_8 => exact .refl s

theorem visitSlot_ruled (i : SlotNo) (s : State) : Ruled W s (visitSlot i s) := by
  unfold visitSlot
  split
  · exact .refl s
  · have h : Flat s (issue i (s.modCall i (fun c => { c with retryWait := false }))) :=
      (modCall_flat i _ s).trans (issue_flat i _)
    dsimp only
    refine Ruled.trans ?_ (ownersCheck_ruled _ i _)
    split
    · exact (h.trans (modCall_flat i _ _)).ruled
    · exact h.ruled

theorem sweepStep_ruled (s : State) : Ruled W s (sweepStep s) :=
  (visitSlot_ruled _ s).trans (advancePointer_flat _).ruled

theorem Events.ruled {c : Instr} {f : State → State} (row : Events c f) (s : State) : Ruled W s (f s) := by
  cases row with
  | sweepVisit => exact sweepStep_ruled s
  | waitLimitRouting i => exact waitLimitCheck_ruled i s
  | offerExpiry i =>
    dsimp only
    split
    · exact offerExpiryCheck_ruled i s
    · exact .refl s
  | holdReminder i => exact holdReminderCheck_ruled i s
  | holdRecall i => exact holdRecallCheck_ruled i s
  | parkExpiry i => exact parkCheck_ruled i s
  | ringExpiry i => exact ringCheck_ruled i s
  | campExpiry i => exact campCheck_ruled i s
  | reportIntervalEnd =>
    dsimp only
    split
    · exact (reportEnd_flat s).ruled
    · exact .refl s

/-! ## The orders and reports of the switch -/

theorem rejectArrival_flat (tag : Tag) (why : RejectReason) (s : State) : Flat s (rejectArrival tag why s) :=
  (bump_flat _ s).trans (placeAnswer_flat _ _)

theorem divertArrival_flat (tag : Tag) (dest : Half) (why : DivertReason) (k : Counter) (s : State) :
    Flat s (divertArrival tag dest why k s) := (bump_flat _ s).trans (placeAnswer_flat _ _)

theorem overflowArrival_flat (tag : Tag) (s : State) : Flat s (overflowArrival tag s) := by
  unfold overflowArrival
  split
  · exact divertArrival_flat _ _ _ _ s
  · exact rejectArrival_flat _ _ s

theorem admitCall_ruled (i : SlotNo) (c : Call) (s : State) : Ruled W s (admitCall i c s) :=
  Level.settled (((bump_level .admitted s).trans (.of_same (by rfl))).trans
    (requeue_level i (allocate i c (bump .admitted s))))

theorem decideMapped_ruled (tag : Tag) (e : Group) (o : OriginNo) (s : State) :
    Ruled W s (decideMapped tag e o s) := by
  unfold decideMapped
  split
  · exact ((rejectArrival_flat _ _ s).trans (placeLow_flat _ _)).ruled
  · split
    · exact (divertArrival_flat _ _ _ _ s).ruled
    · split
      · exact (overflowArrival_flat _ s).ruled
      · split
        · exact (overflowArrival_flat _ s).ruled
        · exact admitCall_ruled _ _ s

theorem arriveDecision_ruled (tag : Tag) (g k : Byte) (s : State) : Ruled W s (arriveDecision tag g k s) := by
  have h := bump_flat .arrivals s
  unfold arriveDecision
  dsimp only
  split
  · exact (h.trans (rejectArrival_flat _ _ _)).ruled
  · split
    · exact ((h.trans (rejectArrival_flat _ _ _)).trans (placeLow_flat _ _)).ruled
    · split
      · exact ((h.trans (rejectArrival_flat _ _ _)).trans (placeLow_flat _ _)).ruled
      · exact h.ruled.trans (decideMapped_ruled _ _ _ _)

theorem goneCall_ruled (i : SlotNo) (c : Call) (s : State) : Ruled W s (goneCall i c s) := by
  have h : Level s (if c.state.queued then bump .abandoned s else s) := by
    split
    · exact bump_level _ s
    · exact .refl s
  unfold goneCall
  dsimp only
  refine Level.settled (Level.trans ?_ (freeSlot_level i _))
  split
  · exact h.trans (closeConsultOf_level c _)
  · exact h

theorem stale_flat (s : State) : Flat s (stale s) := bump_flat _ s

theorem notTaken_flat (s : State) : Flat s (notTaken s) := bump_flat _ s

theorem goneReport_ruled (tag : Tag) (s : State) : Ruled W s (goneReport tag s) := by
  unfold goneReport
  split
  · exact (stale_flat s).ruled
  · split
    · exact (stale_flat s).ruled
    · exact goneCall_ruled _ _ s

theorem freed_ruled (h : Level s t) (i : SlotNo) : Ruled W s (settle (freeSlot i t)) :=
  (h.trans (freeSlot_level i t)).settled

theorem ackDone_ruled (i : SlotNo) (c : Call) (r : Request) (s : State) : Ruled W s (ackDone i c r s) := by
  unfold ackDone
  dsimp only
  split
  · refine freed_ruled ?_ i
    split
    · exact (modCall_level i _ s).trans (bump_level _ _)
    · exact modCall_level i _ s
  · exact ((modCall_flat i _ s).trans (issue_flat i _)).ruled

theorem failConsequence_ruled (i : SlotNo) (c : Call) (w : Conn) (s : State) :
    Ruled W s (failConsequence i c w s) := by
  unfold failConsequence
  split
  case h_1 =>
    split
    · exact recallNow_ruled i _ s
    · exact .refl s
  case h_2 =>
    split
    · exact recallNow_ruled i _ s
    · exact .refl s
  case h_3 =>
    split
    · exact recallNow_ruled i _ s
    · exact .refl s
  case h_4 =>
    split
    · exact (modCall_flat i _ s).ruled
    · exact .refl s
  case h_5 =>
    split
    · exact freed_ruled (.refl s) i
    · exact .refl s
  case h_6 => exact .refl s
  case h_7 => exact .refl s

theorem ackFail_ruled (i : SlotNo) (c : Call) (r : Request) (s : State) : Ruled W s (ackFail i c r s) := by
  have h : Flat s ((placeLow (.exception .pathFailed (r.number.setWidth 32) c.tag (BitVec.ofNat 32 i.val))
      (bump .pathFailures (s.modCall i fun c => { c with outstanding := none }))).modCall i
        fun c => { c with retryWait := true }) :=
    (((modCall_flat i _ s).trans (bump_flat _ _)).trans (placeLow_flat _ _)).trans (modCall_flat i _ _)
  exact (h.ruled.trans (failConsequence_ruled i c r.target _)).trans (issue_flat i _).ruled

theorem legAck_flat (p : PosNo) (r : Consult) (n : ReqNo) (done : Bool) (s : State) :
    Flat s (legAck p r n done s) := by
  unfold legAck
  split
  · split
    · exact setPhase_flat _ _ _ _ s
    · exact ((setPhase_flat _ _ _ _ s).trans (bump_flat _ _)).trans (placeLow_flat _ _)
  · exact stale_flat s

theorem pathAckReport_ruled (n : ReqNo) (done : Bool) (s : State) : Ruled W s (pathAckReport n done s) := by
  unfold pathAckReport
  split
  · split
    · exact .refl s
    · split
      · exact .refl s
      · split
        · exact ackDone_ruled _ _ _ s
        · exact ackFail_ruled _ _ _ s
  · split
    · split
      · exact .refl s
      · exact (legAck_flat _ _ _ _ s).ruled
    · exact ((stale_flat s).trans (placeLow_flat _ _)).ruled

theorem watchReport_ruled (i : SlotNo) (v : LegReport) (s : State) : Ruled W s (watchReport i v s) := by
  cases v with
  | answered => exact freed_ruled (bump_level _ s) i
  | busy => exact recallNow_ruled i _ s
  | unobtainable => exact recallNow_ruled i _ s
  | ringing => exact .refl s
  | cleared => exact .refl s

theorem legReport_ruled (n : ReqNo) (v : LegReport) (s : State) : Ruled W s (legReport n v s) := by
  unfold legReport
  split
  · split
    · exact .refl s
    · exact (setPhase_flat _ _ _ _ s).ruled
  · split
    · exact watchReport_ruled _ v s
    · exact (stale_flat s).ruled

theorem leaveCamp_flat (i : SlotNo) (x : Ext) (s : State) : Flat s (leaveCamp i x s) := by
  unfold leaveCamp
  split
  · exact .refl s
  · dsimp only
    split
    · exact ((Flat.foldl (fun s j => modCall_flat j _ s) _ s).trans (Flat.of_same (by rfl) (by rfl))).trans
        (placeDroppable_flat _ _)
    · exact (Flat.foldl (fun s j => modCall_flat j _ s) _ s).trans (Flat.of_same (by rfl) (by rfl))

/-- A PARKED or CAMPED call leaves no place in the queue. -/
theorem leave_flat {c : Call} (hc : s.call i = some c) (hst : c.state = .parked ∨ c.state = .camped) :
    Flat s (leave i s) := by
  rcases hst with hst | hst <;> simp only [leave, hc, hst]
  · split
    · exact Flat.of_same rfl rfl
    · exact .refl s
  · split
    · exact leaveCamp_flat i _ s
    · exact .refl s

/-- The call that an EXT_FREE rings was CAMPED (R138). -/
theorem extFreeReport_ruled (x : Ext) (s : State) : Ruled s.CampLaw s (extFreeReport x s) := by
  unfold extFreeReport
  split
  · rename_i i hhead
    have hl := ringAt_level i x s
    refine hl.toSteady.ruled fun hcamp hs => hl.planLaw (congrArg List.length ?_) hs
    unfold State.campHead at hhead
    split at hhead
    · cases hhead
    · rename_i e hfind
      have hext : e.ext = x := by simpa using List.find?_some hfind
      obtain ⟨c, hc, hst, -⟩ := (hcamp.listed i x).1
        ⟨e, List.mem_of_find?_eq_some hfind, hext, List.mem_of_mem_head? hhead⟩
      exact (((leave_flat hc (.inr hst)).trans (modCall_flat i _ _)).trans (want_flat i (.ring x) _)).queue
  · exact (placeDroppable_flat _ s).ruled

/-- The call that a PICKUP delivers was PARKED (R116). -/
theorem pickupReport_ruled (o : OrbitNo) (x : Ext) (s : State) : Ruled s.PlacesLaw s (pickupReport o x s) := by
  unfold pickupReport
  split
  · exact (stale_flat s).ruled
  · rename_i i horbit
    have hl := depart_level i (some x) (.deliver x none) s
    refine hl.toSteady.ruled fun hplaces hs => hl.planLaw (congrArg List.length ?_) hs
    obtain ⟨c, hc, hst, -⟩ := (hplaces.orbits o i).1 horbit
    exact (((leave_flat hc (.inl hst)).trans (modCall_flat i _ _)).trans (want_flat i (.deliver x none) _)).queue

theorem startOrder_flat (s : State) : Flat s (startOrder s) := by
  unfold startOrder
  split
  · exact Flat.trans (Flat.of_same (by rfl) (by rfl)) (answerSwitch_flat _ _ _)
  · exact answerSwitch_flat _ _ s

theorem inStandby_flat {kind : Byte} {f : State → State} (h : Flat s (f s)) : Flat s (inStandby kind f s) := by
  unfold inStandby
  split
  · exact h
  · exact answerSwitch_flat _ _ s

theorem groupSetOrder_flat (g v b : Byte) (x : Half) (k : Byte) (d : Half) (s : State) :
    Flat s (groupSetOrder g v b x k d s) := by
  unfold groupSetOrder
  split
  · exact answerSwitch_flat _ _ s
  · split
    · exact answerSwitch_flat _ _ s
    · exact Flat.trans (Flat.of_same (by rfl) (by rfl)) (answerSwitch_flat _ _ _)

theorem originSetOrder_flat (x : Half) (v o : Byte) (l : Half) (s : State) :
    Flat s (originSetOrder x v o l s) := by
  unfold originSetOrder
  split
  · exact Flat.trans (Flat.of_same (by rfl) (by rfl)) (answerSwitch_flat _ _ _)
  · exact answerSwitch_flat _ _ s

theorem timingSetOrder_flat (a b x y z : Byte) (s : State) : Flat s (timingSetOrder a b x y z s) :=
  Flat.trans (Flat.of_same (by rfl) (by rfl)) (answerSwitch_flat _ _ _)

theorem rangeSetOrder_flat (a b : Half) (s : State) : Flat s (rangeSetOrder a b s) := by
  unfold rangeSetOrder
  split
  · exact Flat.trans (Flat.of_same (by rfl) (by rfl)) (answerSwitch_flat _ _ _)
  · exact answerSwitch_flat _ _ s

theorem countersReadOrder_flat (v : Byte) (s : State) : Flat s (countersReadOrder v s) := by
  unfold countersReadOrder
  split
  · exact answerSwitch_flat _ _ s
  · rename_i b _
    have h : Flat s (if b then clearCounters s else s) := by
      split
      · exact Flat.of_same rfl rfl
      · exact .refl s
    unfold countersAnswer
    dsimp only
    split
    · exact h.trans (Flat.of_same (by rfl) (by rfl))
    · exact h.trans (bump_flat _ _)

/-! ## The orders of the consoles -/

theorem setAvailable_level (ps : List PosNo) (s : State) : Level s { s with available := ps } := .of_same rfl

theorem setReqCounter_level (n : ReqNo) (s : State) : Level s { s with reqCounter := n } := .of_same rfl

theorem answerOrder_ruled (p : PosNo) (q l i : Byte) (s : State) : Ruled W s (answerOrder p q l i s) := by
  unfold answerOrder
  split
  · exact (answerConsole_flat _ _ _ _ _ s).ruled
  · rename_i l i _
    unfold answerTaken
    dsimp only
    refine Level.settled ?_
    exact (((((answerConsole_level p q Kind.answer .accepted none s).trans (endOffers_level i _)).trans
      (setAvailable_level _ _)).trans (seat_level p l i true _)).trans (setMissCount_flat p 0 _).toLevel).trans
      (bump_level _ _)

theorem pickOrder_ruled (p : PosNo) (q i l : Byte) (s : State) : Ruled W s (pickOrder p q i l s) := by
  unfold pickOrder
  split
  · exact (answerConsole_flat _ _ _ _ _ s).ruled
  · exact Level.settled ((((answerConsole_level _ _ _ _ _ s).trans (endOffers_level _ _)).trans
      (seat_level _ _ _ _ _)).trans (bump_level _ _))

theorem holdOrder_flat (p : PosNo) (q l : Byte) (s : State) : Flat s (holdOrder p q l s) := by
  unfold holdOrder
  split
  · exact answerConsole_flat _ _ _ _ _ s
  · exact (answerConsole_flat _ _ _ _ _ s).trans (holdSeated_flat _ _)

theorem returnOrder_flat (p : PosNo) (q l : Byte) (s : State) : Flat s (returnOrder p q l s) := by
  unfold returnOrder
  split
  · exact answerConsole_flat _ _ _ _ _ s
  · exact (answerConsole_flat _ _ _ _ _ s).trans (talkAgain_flat _ _ _ _)

theorem releaseOrder_ruled (p : PosNo) (q l : Byte) (s : State) : Ruled W s (releaseOrder p q l s) := by
  unfold releaseOrder
  split
  · exact (answerConsole_flat _ _ _ _ _ s).ruled
  · exact Level.settled (((answerConsole_level _ _ _ _ _ s).trans (depart_level _ _ _ _)).trans (bump_level _ _))

theorem parkOrder_ruled (p : PosNo) (q l o : Byte) (s : State) : Ruled W s (parkOrder p q l o s) := by
  unfold parkOrder
  split
  · exact (answerConsole_flat _ _ _ _ _ s).ruled
  · exact Level.settled ((answerConsole_level _ _ _ _ _ s).trans (parkCall_level _ _ _))

theorem retrieveOrder_ruled (p : PosNo) (q o l : Byte) (s : State) : Ruled W s (retrieveOrder p q o l s) := by
  unfold retrieveOrder
  split
  · exact (answerConsole_flat _ _ _ _ _ s).ruled
  · exact Level.settled ((answerConsole_level _ _ _ _ _ s).trans (seat_level _ _ _ _ _))

theorem consultOrder_ruled (p : PosNo) (q l : Byte) (x : Ext) (s : State) :
    Ruled W s (consultOrder p q l x s) := by
  unfold consultOrder
  split
  · exact (answerConsole_flat _ _ _ _ _ s).ruled
  · unfold consultTaken
    dsimp only
    refine Level.settled (Level.trans ?_ (holdSeated_level _ _))
    refine Level.trans ?_ (placeTested_level _ _)
    exact ((answerConsole_level _ _ _ _ _ s).trans (setReqCounter_level _ _)).trans
      (setConsult_flat p _ _).toLevel

theorem joinOrder_ruled (p : PosNo) (q l : Byte) (s : State) : Ruled W s (joinOrder p q l s) := by
  unfold joinOrder
  split
  · exact (answerConsole_flat _ _ _ _ _ s).ruled
  · have h := answerConsole_level p q Kind.join .accepted none s
    have hscreened := fun i x n r => Level.settled (W := W)
      ((h.trans (closeConsult_level p false _)).trans (depart_level i x (.deliver r n) _))
    have hring := fun i x => Level.settled (W := W)
      ((h.trans (closeConsult_level p true _)).trans (ringAt_level i x _))
    have hwrong := (answerConsole_flat p q Kind.join .wrongState none s).ruled (W := W)
    dsimp only
    split
    case h_1 => exact hscreened _ _ _ _
    case h_2 => exact hring _ _
    case h_3 => exact hring _ _
    all_goals exact hwrong

theorem cancelOrder_ruled (p : PosNo) (q l : Byte) (s : State) : Ruled W s (cancelOrder p q l s) := by
  unfold cancelOrder
  split
  · exact (answerConsole_flat _ _ _ _ _ s).ruled
  · exact Level.settled (((answerConsole_level _ _ _ _ _ s).trans (closeConsult_level _ _ _)).trans
      (talkAgain_level _ _ _ _))

theorem campOrder_ruled (p : PosNo) (q l : Byte) (s : State) : Ruled W s (campOrder p q l s) := by
  unfold campOrder
  split
  · exact (answerConsole_flat _ _ _ _ _ s).ruled
  · split
    · exact (answerConsole_flat _ _ _ _ _ s).ruled
    · exact Level.settled ((((answerConsole_level _ _ _ _ _ s).trans (openCamp_level _ _)).trans
        (closeConsult_level _ _ _)).trans (campCall_level _ _ _))

theorem sendOrder_ruled (p : PosNo) (q l : Byte) (x : Ext) (s : State) : Ruled W s (sendOrder p q l x s) := by
  unfold sendOrder
  split
  · exact (answerConsole_flat _ _ _ _ _ s).ruled
  · exact Level.settled ((answerConsole_level _ _ _ _ _ s).trans (ringAt_level _ _ _))

/-! ## The orders that set a position's state -/

theorem openOrder_ruled (p : PosNo) (q : Byte) (s : State) (hup : (s.link (.console p)).up = true) :
    Ruled W s (openOrder p q s) := by
  have h := answerConsole_level p q Kind.openPosition .accepted none s
  have hm := h.trans (setMissCount_flat p 0 _).toLevel
  unfold openOrder
  split
  · exact (answerConsole_flat _ _ _ _ _ s).ruled
  · unfold openTaken
    dsimp only
    split
    · exact ((answerConsole_flat _ _ _ _ _ s).trans (setMissCount_flat p 0 _)).ruled
    · exact rejudgedAt_settled hm nofun fun _ => hup

theorem closeOrder_ruled (p : PosNo) (q : Byte) (s : State) : Ruled W s (closeOrder p q s) := by
  have h := answerConsole_level p q Kind.closePosition .accepted none s
  unfold closeOrder closeTaken
  split
  · rename_i hst
    refine rejudgedAt_settled (h.trans (withdrawAt_level p _)) nofun fun hl => ?_
    cases hup : (s.link (.console p)).up with
    | true => rfl
    | false =>
      have hst : (s.pos p).state = .opened := hst
      rw [(hl p).1 hup] at hst; cases hst
  · exact (answerConsole_flat _ _ _ _ _ s).ruled

/-! ## The rows that write no setting -/

/-- The orders that write a setting, a table of the group or the service state. -/
def administers : Instr → Bool
  | .stopOrderly .. | .stopForced .. | .restart .. | .positionSetLeadEligible .. | .positionSetReportInterval ..
  | .planHold .. | .planWrite .. | .planRelease .. | .planAbandon .. | .planSelect .. | .select ..
  | .night .. | .nightConsole .. => true
  | _ => false

/-- The laws of the collections that say which call a row takes from its place. -/
def State.Placed (s : State) : Prop := s.PlacesLaw ∧ s.CampLaw

theorem Ruled.weaken {V : Prop} (h : Ruled V s t) (hw : W → V) : Ruled W s t :=
  ⟨h.plans, h.selection, h.staging, h.group, h.linkLaw, fun w => h.planLaw (hw w)⟩

theorem Orders.ruled {c : Instr} {l : Link} {kind : Byte} {n : Nat} {f : State → State}
    (row : Orders c l kind n f) (hc : administers c = false) (s : State) (hup : (s.link l).up = true) :
    Ruled s.Placed s (f s) := by
  cases row with
  | arrive => exact arriveDecision_ruled _ _ _ s
  | gone => exact goneReport_ruled _ s
  | pathAck n x v =>
    dsimp only
    split
    · exact (notTaken_flat s).ruled
    · exact pathAckReport_ruled _ _ s
  | legState n x v =>
    dsimp only
    split
    · exact (notTaken_flat s).ruled
    · exact legReport_ruled _ _ s
  | extFree n x =>
    dsimp only
    split
    · exact (extFreeReport_ruled _ s).weaken And.right
    · exact (notTaken_flat s).ruled
  | pickup n o x =>
    dsimp only
    split
    · exact (notTaken_flat s).ruled
    · split
      · exact (pickupReport_ruled _ _ s).weaken And.left
      · exact (notTaken_flat s).ruled
  | start => exact (startOrder_flat s).ruled
  | groupSet => exact (inStandby_flat (groupSetOrder_flat _ _ _ _ _ _ s)).ruled
  | originSet => exact (inStandby_flat (originSetOrder_flat _ _ _ _ s)).ruled
  | timingSet => exact (inStandby_flat (timingSetOrder_flat _ _ _ _ _ s)).ruled
  | rangeSet => exact (inStandby_flat (rangeSetOrder_flat _ _ s)).ruled
  | countersRead => exact (countersReadOrder_flat _ s).ruled
  | statusRead => exact (placeAnswer_flat _ s).ruled
  | openPosition => exact openOrder_ruled _ _ s hup
  | closePosition => exact closeOrder_ruled _ _ s
  | answer => exact answerOrder_ruled _ _ _ _ s
  | pick => exact pickOrder_ruled _ _ _ _ s
  | hold => exact (holdOrder_flat _ _ _ s).ruled
  | returnCall => exact (returnOrder_flat _ _ _ s).ruled
  | release => exact releaseOrder_ruled _ _ _ s
  | park => exact parkOrder_ruled _ _ _ _ s
  | retrieve => exact retrieveOrder_ruled _ _ _ _ s
  | consult => exact consultOrder_ruled _ _ _ _ s
  | join => exact joinOrder_ruled _ _ _ s
  | cancel => exact cancelOrder_ruled _ _ _ s
  | camp => exact campOrder_ruled _ _ _ s
  | send => exact sendOrder_ruled _ _ _ _ s
  | stopOrderly => cases hc
  | stopForced => cases hc
  | restart => cases hc
  | positionSetLeadEligible => cases hc
  | positionSetReportInterval => cases hc
  | planHold => cases hc
  | planWrite => cases hc
  | planRelease => cases hc
  | planAbandon => cases hc
  | planSelect => cases hc
  | select => cases hc
  | night => cases hc
  | nightConsole => cases hc

end

end Sys2Proof.Machine
end

section
/-! PROOFS. The rows that write settings or reset the service, the links and the ticks: what they keep of the
thresholds, of the judgements of the group, of the law of positions and links and of the plan in force (O5, O28),
and which of them close the staging list (O29). -/
namespace Sys2Proof.Machine

section
variable {s t u : State} {p : PosNo} {W : Prop}

/-! ## The laws that every row keeps -/

/-- The thresholds, the judgements of the group, the law of positions and links and, under W, the plan in force
are kept. -/
structure Governed (W : Prop) (s t : State) : Prop where
  thresholds : s.thresholdLaw → t.thresholdLaw
  group : s.GroupLaw → t.GroupLaw
  linkLaw : s.LinkLaw → t.LinkLaw
  planLaw : W → s.PlanLaw → t.PlanLaw

theorem Governed.trans (h : Governed W s t) (k : Governed W t u) : Governed W s u :=
  ⟨fun hs => k.thresholds (h.thresholds hs), fun hs => k.group (h.group hs), fun hs => k.linkLaw (h.linkLaw hs),
    fun hw hs => k.planLaw hw (h.planLaw hw hs)⟩

theorem thresholdLaw_of_plans (h : t.plans = s.plans) (hs : s.thresholdLaw) : t.thresholdLaw := by
  unfold State.thresholdLaw; rw [h]; exact hs

theorem Ruled.governed (h : Ruled W s t) : Governed W s t :=
  ⟨thresholdLaw_of_plans h.plans, h.group, h.linkLaw, h.planLaw⟩

theorem Flat.governed (h : Flat s t) : Governed W s t := h.ruled.governed

theorem Governed.refl (s : State) : Governed W s s := (Flat.refl s).governed

/-! ## The staging list, the plans and the selection -/

theorem setStaging_governed (l : Option (List Edit)) (s : State) : Governed W s { s with staging := l } :=
  ⟨id, fun h => ⟨h.lead, h.nightFlag⟩, id, fun _ h => ⟨h.eff, h.band⟩⟩

/-- The plans, the selection and the staging list are written before a recompute: the plan in force is made anew,
and only the thresholds have to be looked at. -/
theorem replan_governed {f : State → State} {x : State} (hf : ∀ v, Flat v (f v))
    (hx : ∃ ps sel l, x = { s with plans := ps, selection := sel, staging := l } ∧
      (s.thresholdLaw → ps.thresholds.valid = true)) : Governed W s (replan (f x)) := by
  obtain ⟨ps, sel, l, rfl, hv⟩ := hx
  have h := (hf { s with plans := ps, selection := sel, staging := l }).toLevel.toSteady.trans (replan_steady _)
  exact ⟨fun hs => thresholdLaw_of_plans h.plans (hv hs), fun hs => h.groupLaw ⟨hs.lead, hs.nightFlag⟩,
    fun hs => h.linkLaw hs, fun _ _ => replan_planLaw _⟩

theorem apply_field_thresholds (ps : Plans) (n : PlanName) (f : PlanField) (v : Nat) :
    (ps.apply { target := .field n f, value := v }).thresholds = ps.thresholds := by
  cases n <;> rfl

/-- A write that the check of R50 allows leaves a valid set of thresholds. -/
theorem apply_valid {e : EditTarget} {v : Nat} {ps : Plans} (hs : ps.thresholds.valid = true)
    (h : writeAllowed e (ps.apply { target := e, value := v }) = true) :
    (ps.apply { target := e, value := v }).thresholds.valid = true := by
  cases e with
  | threshold k => exact h
  | field n f => rw [apply_field_thresholds]; exact hs

theorem planHoldOrder_governed (s : State) : Governed W s (planHoldOrder s) := by
  unfold planHoldOrder
  split
  · exact (setStaging_governed _ s).trans (answerSwitch_flat _ _ _).governed
  · exact (answerSwitch_flat _ _ s).governed

theorem planWriteOrder_governed (a b : Byte) (v : Half) (s : State) : Governed W s (planWriteOrder a b v s) := by
  have hanswer := fun code => (answerSwitch_flat Kind.planWrite code s).governed (W := W)
  unfold planWriteOrder
  split
  · exact hanswer _
  · split
    · split
      · exact hanswer _
      · exact (setStaging_governed _ s).trans (answerSwitch_flat _ _ _).governed
    · split
      · unfold writeNow
        dsimp only
        split
        · rename_i hallowed
          exact replan_governed (answerSwitch_flat _ _) ⟨_, _, _, rfl, fun hs => apply_valid hs hallowed⟩
        · exact hanswer _
      · exact hanswer _

theorem planReleaseOrder_governed (s : State) : Governed W s (planReleaseOrder s) := by
  unfold planReleaseOrder
  split
  · exact (answerSwitch_flat _ _ s).governed
  · dsimp only
    split
    · rename_i hvalid
      exact replan_governed (answerSwitch_flat _ _) ⟨_, _, _, rfl, fun _ => hvalid⟩
    · exact (setStaging_governed _ s).trans (answerSwitch_flat _ _ _).governed

theorem planAbandonOrder_governed (s : State) : Governed W s (planAbandonOrder s) := by
  unfold planAbandonOrder
  split
  · exact (answerSwitch_flat _ _ s).governed
  · exact (setStaging_governed _ s).trans (answerSwitch_flat _ _ _).governed

theorem planSelectOrder_governed (v : Byte) (s : State) : Governed W s (planSelectOrder v s) := by
  unfold planSelectOrder
  split
  · exact (answerSwitch_flat _ _ s).governed
  · exact replan_governed (answerSwitch_flat _ _) ⟨_, _, _, rfl, id⟩

theorem selectOrder_governed (p : PosNo) (q v : Byte) (s : State) : Governed W s (selectOrder p q v s) := by
  unfold selectOrder
  split
  · split
    · exact (answerConsole_flat _ _ _ _ _ s).governed
    · exact replan_governed (answerConsole_flat _ _ _ _ _) ⟨_, _, _, rfl, id⟩
  · exact (answerConsole_flat _ _ _ _ _ s).governed

/-! ## The night setting and the position settings -/

theorem setNight_governed (v : NightSetting) (s : State) : Governed W s (setNight v s) := by
  have hwrite : Governed W s { s with nightSetting := v, nightFlag := nightFlagOf v s.positions } :=
    ⟨id, fun h => ⟨h.lead, rfl⟩, id, fun _ h => ⟨h.eff, h.band⟩⟩
  unfold setNight
  dsimp only
  split
  · exact hwrite
  · exact hwrite.trans (Level.refl _).settled.governed

theorem nightOrder_governed (v : Byte) (s : State) : Governed W s (nightOrder v s) := by
  unfold nightOrder
  split
  · exact (answerSwitch_flat _ _ s).governed
  · exact (answerSwitch_flat _ _ s).governed.trans (setNight_governed _ _)

theorem nightConsoleOrder_governed (p : PosNo) (q v : Byte) (s : State) :
    Governed W s (nightConsoleOrder p q v s) := by
  unfold nightConsoleOrder
  split
  · split
    · exact (answerConsole_flat _ _ _ _ _ s).governed
    · exact (answerConsole_flat _ _ _ _ _ s).governed.trans (setNight_governed _ _)
  · exact (answerConsole_flat _ _ _ _ _ s).governed

/-- The night flag goes by the states of the positions alone (R56). -/
theorem nightFlagOf_congr {a b : Vector Position 8} (h : ∀ p : PosNo, a[p].state = b[p].state)
    (v : NightSetting) : nightFlagOf v a = nightFlagOf v b := by
  cases v with
  | manualOn => rfl
  | manualOff => rfl
  | auto => simp only [nightFlagOf, h]

theorem setEligible_state (p q : PosNo) (b : Bool) (s : State) :
    ((setEligible p b s).pos q).state = (s.pos q).state := by
  change ((s.setPos p { s.pos p with leadEligible := b }).pos q).state = _
  rw [setPos_pos]
  split
  · rename_i h; rw [← h]
  · rfl

theorem setEligible_link (p : PosNo) (b : Bool) (s : State) (l : Link) :
    (setEligible p b s).link l = s.link l := by
  change (s.setPos p { s.pos p with leadEligible := b }).link l = s.link l
  rw [setPos_link]

theorem setEligible_governed (p : PosNo) (b : Bool) (s : State) : Governed W s (setEligible p b s) := by
  refine ⟨id, fun h => ⟨rfl, ?_⟩, fun h q => ?_, fun _ h => ⟨h.eff, h.band⟩⟩
  · exact h.nightFlag.trans (nightFlagOf_congr (fun q => (setEligible_state p q b s).symm) s.nightSetting)
  · rw [setEligible_state, setEligible_link]
    exact h q

theorem positionSetOrder_governed (x v : Byte) (s : State) : Governed W s (positionSetOrder x v s) := by
  unfold positionSetOrder
  split
  · exact Governed.trans (t := setReportInterval v s) (Flat.of_same (by rfl) (by rfl)).governed (answerSwitch_flat _ _ _).governed
  · split
    · exact (setEligible_governed _ _ s).trans (answerSwitch_flat _ _ _).governed
    · exact (answerSwitch_flat _ _ s).governed

theorem inStandby_governed {kind : Byte} {f : State → State} (h : Governed W s (f s)) :
    Governed W s (inStandby kind f s) := by
  unfold inStandby
  split
  · exact h
  · exact (answerSwitch_flat _ _ s).governed

/-! ## The service reset and the stop (R177, R178) -/

theorem pendFull_flat (s : State) : Flat s (pendFull s) := (pendFull_onlySubjects s).flat

theorem serviceReset_down (b : Bool) (c : Position) : (c.serviceReset b).state = .down ↔ c.state = .down := by
  cases b <;> cases h : c.state <;> simp [Position.serviceReset, h]

/-- A service reset keeps the plans and the selection, and the plan in force is that of the empty queue. -/
theorem reformed_governed (b : Bool) (s : State) : Governed W s (s.reformed b) where
  thresholds := id
  group _ := ⟨rfl, rfl⟩
  linkLaw hs p := by
    have hp : (s.reformed b).pos p = (s.pos p).serviceReset b := wiped_pos b s p
    rw [hp, serviceReset_down]
    exact hs p
  planLaw _ _ := ⟨rfl, rfl⟩

theorem serviceReset_governed (b : Bool) (s : State) : Governed W s (serviceReset b s) := by
  rw [serviceReset_reformed]
  exact (reformed_governed b s).trans (pendFull_flat _).governed

theorem serviceReset_settings (b : Bool) (s : State) : (serviceReset b s).plans = s.plans ∧
    (serviceReset b s).selection = s.selection ∧ (serviceReset b s).staging = none := by
  rw [serviceReset_reformed]
  have h := (pendFull_flat (s.reformed b)).toLevel
  exact ⟨h.plans, h.selection, h.staging⟩

theorem closeOpenPosition_down (c : Position) : (closeOpenPosition c).state = .down ↔ c.state = .down := by
  unfold closeOpenPosition
  split
  · rename_i h; simp [h]
  · rfl

/-- A STOP ORDERLY of an empty part: the positions close and are judged again. -/
theorem stopping_governed (s : State) : Governed W s (rejudgeGroup s.stopping) where
  thresholds := id
  group _ := ⟨rfl, rfl⟩
  linkLaw hs p := by
    have hp : (rejudgeGroup s.stopping).pos p = closeOpenPosition (s.pos p) := stopping_pos s p
    rw [hp, closeOpenPosition_down]
    exact hs p
  planLaw _ h := ⟨h.eff, h.band⟩

theorem stopOrderlyNow_governed (s : State) : Governed W s (stopOrderlyNow s) := by
  unfold stopOrderlyNow
  split
  · exact (setStaging_governed none s).trans (answerSwitch_flat _ _ _).governed
  · split
    · exact ((stopping_governed s).trans (Level.refl _).settled.governed).trans
        (answerSwitch_flat _ _ _).governed
    · exact (answerSwitch_flat _ _ s).governed

theorem stopOrder_governed (mode : Byte) (s : State) : Governed W s (stopOrder mode s) := by
  unfold stopOrder
  split
  · exact stopOrderlyNow_governed s
  · split
    · exact (serviceReset_governed true s).trans (answerSwitch_flat _ _ _).governed
    · exact (answerSwitch_flat _ _ s).governed

/-- Every order keeps the laws, on a link that is UP. -/
theorem Orders.governed {c : Instr} {l : Link} {kind : Byte} {n : Nat} {f : State → State}
    (row : Orders c l kind n f) (s : State) (hup : (s.link l).up = true) : Governed s.Placed s (f s) := by
  cases hc : administers c with
  | false => exact (row.ruled hc s hup).governed
  | true =>
    cases row with
    | stopOrderly => exact stopOrder_governed _ s
    | stopForced => exact stopOrder_governed _ s
    | restart => exact (serviceReset_governed false s).trans (answerSwitch_flat _ _ _).governed
    | positionSetLeadEligible => exact inStandby_governed (positionSetOrder_governed _ _ s)
    | positionSetReportInterval => exact inStandby_governed (positionSetOrder_governed _ _ s)
    | planHold => exact planHoldOrder_governed s
    | planWrite => exact planWriteOrder_governed _ _ _ s
    | planRelease => exact planReleaseOrder_governed s
    | planAbandon => exact planAbandonOrder_governed s
    | planSelect => exact planSelectOrder_governed _ s
    | select => exact selectOrder_governed _ _ _ s
    | night => exact nightOrder_governed _ s
    | nightConsole => exact nightConsoleOrder_governed _ _ _ s
    | _ => cases hc

/-! ## The loss and the restoration of a link (R107, R108, R174) -/

theorem State.PlanDue.setLink (h : s.PlanDue) (l : Link) (x : LinkUnit) : (s.setLink l x).PlanDue := by
  cases l <;> exact fun hl => ⟨(h hl).eff, (h hl).band⟩

theorem setLink_settings (l : Link) (x : LinkUnit) (s : State) : (s.setLink l x).plans = s.plans ∧
    (s.setLink l x).selection = s.selection ∧ (s.setLink l x).staging = s.staging ∧
    (s.setLink l x).positions = s.positions := by
  cases l <;> exact ⟨rfl, rfl, rfl, rfl⟩

/-- The link of position p takes another state, and the position the state that fits it. -/
theorem relinked_settled {x : LinkUnit} {v : State} {st : PosState} {why : PosReason}
    (hv : Level (s.setLink (.console p) x) v) (hx : x.up = false ↔ st = .down) (h : Level (v.rejudgedAt p st why) t) :
    Ruled W s (settle t) := by
  obtain ⟨hplans, hsel, hstaging, hpos⟩ := setLink_settings (.console p) x s
  have hk := h.toSteady.trans (settle_steady t)
  refine ⟨hk.plans.trans (hv.plans.trans hplans), hk.selection.trans (hv.selection.trans hsel),
    hk.staging.trans (hv.staging.trans hstaging), fun _ => hk.groupLaw (rejudgedAt_groupLaw ..),
    fun hs => hk.linkLaw (rejudgedAt_linkLaw (fun q hq => ?_) ?_), fun _ hs => settle_planLaw (h.planDue ?_)⟩
  · rw [hv.up, show (v.pos q).state = ((s.setLink (.console p) x).pos q).state from (hv.duty q).2, setLink_link,
      if_neg (fun hl => hq (Link.console.inj hl).symm)]
    exact (hs q).trans (by rw [show (s.setLink (.console p) x).pos q = s.pos q from rfl])
  · rw [hv.up, setLink_link, if_pos rfl]; exact hx
  · exact (hv.planDue (State.PlanDue.setLink (fun _ => hs) _ _)).rejudgedAt

theorem setConsole_level (p : PosNo) (x : ConsoleSet) (s : State) : Level s (s.setConsole p x) := .of_same rfl

theorem positionLoss_eq (p : PosNo) (s : State) : positionLoss p s =
    settle (bump .positionLosses (placeLow (.positionAlarm p false)
      ((withdrawAt p (closeConsult p true (recallLoops p s))).rejudgedAt p .down .closed))) := rfl

theorem linkLoss_console_ruled (p : PosNo) (s : State) : Ruled W s (linkLoss (.console p) s) := by
  change Ruled W s (positionLoss p _)
  rw [positionLoss_eq]
  exact relinked_settled ((setConsole_level p _ _).trans
    (((recallLoops_level p _).trans (closeConsult_level p true _)).trans (withdrawAt_level p _)))
    (by simp) ((placeLow_level _ _).trans (bump_level _ _))

/-- The loss of the switch link is a service reset into STANDBY in SERVICE and nothing more in STANDBY (R174). -/
theorem linkLoss_switch_cases (s : State) : ∃ x : LinkUnit,
    s.service = .service ∧ linkLoss .switch s = serviceReset true (s.setLink .switch x) ∨
      s.service ≠ .service ∧ linkLoss .switch s = s.setLink .switch x := by
  refine ⟨{ s.link .switch with up := false, quiet := s.lossLimit .switch }, ?_⟩
  by_cases hs : s.service = .service
  · exact .inl ⟨hs, if_pos hs⟩
  · exact .inr ⟨hs, if_neg hs⟩

theorem setSwitchLink_ruled (x : LinkUnit) (s : State) : Ruled W s (s.setLink .switch x) :=
  ⟨rfl, rfl, rfl, fun h => ⟨h.lead, h.nightFlag⟩, id, fun _ h => ⟨h.eff, h.band⟩⟩

theorem linkLoss_governed (l : Link) (s : State) : Governed W s (linkLoss l s) := by
  cases l with
  | console p => exact (linkLoss_console_ruled p s).governed
  | switch =>
    obtain ⟨x, ⟨-, h⟩ | ⟨-, h⟩⟩ := linkLoss_switch_cases s <;> rw [h]
    · exact (setSwitchLink_ruled x s).governed.trans (serviceReset_governed true _)
    · exact (setSwitchLink_ruled x s).governed

theorem setPos_again (p : PosNo) (c d : Position) (s : State) : (s.setPos p c).setPos p d = s.setPos p d := by
  simp only [State.setPos, vset_vset]

/-- A restoration sets the miss count back and then judges the position CLOSED. -/
theorem restoration_eq (p : PosNo) (s : State) : restoration p s =
    makePending p restoreNotices (placeLow (.positionAlarm p true)
      (settle ((s.setPos p { s.pos p with missCount := 0 }).rejudgedAt p .closed .closed))) := by
  unfold restoration State.rejudgedAt setPosState
  simp only [setPos_pos, if_true, setPos_again]

theorem restored_ruled {x : LinkUnit} (hx : x.up = true) :
    Ruled W s (restoration p (s.setLink (.console p) x)) := by
  rw [restoration_eq]
  exact (relinked_settled (setMissCount_flat p 0 _).toLevel (by simp [hx]) (.refl _)).trans
    ((placeLow_flat _ _).trans (makePending_flat _ _ _)).ruled

theorem announce_ruled (old new : State) : Ruled W new (announce old new) := (announce_announced old new).flat.ruled

theorem receive_ruled (l : Link) (s : State) : Ruled W s (receive l s) := by
  cases l with
  | switch => exact setSwitchLink_ruled _ s
  | console p =>
    cases hu : (s.link (.console p)).up with
    | true => rw [receive_up hu]; exact (setLink_onlyLines _ _ s (by rw [hu]; rfl)).flat.ruled
    | false => rw [receive_down hu]; exact (restored_ruled rfl).trans (announce_ruled _ _)

/-- A frame that is received leaves its link UP. -/
theorem receive_link_up (l : Link) (s : State) : ((receive l s).link l).up = true := by
  have hset : ((s.setLink l (s.link l).hear).link l).up = true := by rw [setLink_link, if_pos rfl]; rfl
  cases l with
  | switch => exact hset
  | console p =>
    cases hu : (s.link (.console p)).up with
    | true => rw [receive_up hu]; exact hset
    | false =>
      rw [receive_down hu, (announce_announced s _).link, restoration_eq]
      refine (((placeLow_flat _ _).trans (makePending_flat _ _ _)).up (.console p)).trans ?_
      rw [(settle_steady _).up, rejudgedAt_link, setPos_link]
      exact hset

/-! ## The ticks (R156, R164) -/

theorem act_governed {f : State → State} (h : Governed W s (f s)) : Governed W s (act f s) :=
  h.trans (announce_ruled s (f s)).governed

theorem runPart_governed (part : TickPart) (s : State) : Governed W s (runPart part s) := by
  cases part with
  | lose l => exact act_governed (linkLoss_governed l s)
  | abandon l => exact (abandonFrame_onlyLines l s).flat.governed
  | visit =>
    unfold runPart
    dsimp only
    split
    · exact act_governed (sweepStep_ruled s).governed
    · exact .refl s

theorem supervise_onlyLines (l : Link) (s : State) : OnlyLines s (supervise l s) :=
  setLink_onlyLines l _ s (by rfl)

theorem sendIdle_onlyLines (l : Link) (s : State) : OnlyLines s (sendIdle l s) :=
  setLink_onlyLines l _ s (by rfl)

theorem supervised_onlyLines (s : State) :
    OnlyLines { s with pulseCount := 0, tickCount := s.tickCount + 1 } s.supervised := by
  unfold State.supervised
  generalize { s with pulseCount := 0, tickCount := s.tickCount + 1 } = v
  induction allLinks generalizing v with
  | nil => exact .refl v
  | cons l ls ih =>
    rw [List.foldl_cons]
    exact (supervise_onlyLines l v).trans (ih _)

theorem supervised_flat (s : State) : Flat s s.supervised :=
  Flat.trans (t := { s with pulseCount := 0, tickCount := s.tickCount + 1 }) (Flat.of_same rfl rfl)
    (supervised_onlyLines s).flat

/-- After its parts a counted tick only marks the links that begin an IDLE. -/
theorem countedTick_marks (s : State) : ∃ trail, countedTick s =
    let t := allLinks.foldl (fun v l => if idleJudged s.draws trail s.afterParts l = true then sendIdle l v else v)
      s.afterParts
    { t with draws := t.draws + 1 } := by
  refine ⟨runParts (arrange (Config.tickOrder s.draws) (tickParts s)) s.supervised, ?_⟩
  have hlast : (runParts (arrange (Config.tickOrder s.draws) (tickParts s)) s.supervised).headD
      s.supervised = s.afterParts := runParts_last _ _
  rw [← hlast]
  rfl

theorem countedTick_flat (s : State) : Flat s.afterParts (countedTick s) := by
  obtain ⟨trail, h⟩ := countedTick_marks s
  rw [h]
  refine Flat.trans (Flat.foldl (fun v l => ?_) allLinks s.afterParts) (Flat.of_same rfl rfl)
  split
  · exact (sendIdle_onlyLines l v).flat
  · exact .refl v

theorem countedTick_governed (s : State) : Governed W s (countedTick s) := by
  refine ((supervised_flat s).governed.trans ?_).trans (countedTick_flat s).governed
  unfold State.afterParts
  generalize s.supervised = v
  induction arrange (Config.tickOrder s.draws) (tickParts s) generalizing v with
  | nil => exact .refl v
  | cons part parts ih => exact (runPart_governed part v).trans (ih _)

end

end Sys2Proof.Machine
end

section
/-! PROOFS. Every row keeps the small laws and the plan in force, and which rows write the selection or close the
staging list (O5, O28, O29). -/
namespace Sys2Proof.Machine

section
variable {c : Instr} {s t : State} {p : PosNo} {W : Prop}

/-! ## The power-on state (R175) -/

theorem powerOnState_pos (rate : LineRate) (held : Bool) (s : State) (p : PosNo) :
    (powerOnState rate held s).pos p = Position.powerOn := by
  simp [powerOnState, State.reset, State.pos]

theorem powerOnState_link (rate : LineRate) (held : Bool) (s : State) (l : Link) :
    (powerOnState rate held s).link l = LinkUnit.powerOn := by
  cases l <;> simp [powerOnState, State.reset, State.link]

theorem powerOnState_governed (rate : LineRate) (held : Bool) (s : State) :
    Governed W s (powerOnState rate held s) where
  thresholds _ := by change State.reset.plans.thresholds.valid = true; decide
  group _ := ⟨by change State.reset.lead = leadOf State.reset.positions; decide,
    by change State.reset.nightFlag = nightFlagOf State.reset.nightSetting State.reset.positions; decide⟩
  linkLaw _ q := by rw [powerOnState_pos, powerOnState_link]; decide
  planLaw _ _ := ⟨rfl, rfl⟩

/-! ## Every row -/

theorem unplaced_scope (s : State) : Lawful (.full False False False) s ↔
    s.PlacesLaw ∧ s.QueueLaw ∧ s.CampLaw := by
  rw [lawful_full_iff]
  exact ⟨fun ⟨hp, hq, hc, _⟩ => ⟨hp, hq, hc⟩, fun ⟨hp, hq, hc⟩ => ⟨hp, hq, hc, False.elim, False.elim, False.elim⟩⟩

/-- The plan in force is kept where the laws of the collections hold. -/
theorem exec_governed (h : exec c s = .next t) : Governed (s.PlacesLaw ∧ s.QueueLaw ∧ s.CampLaw) s t := by
  cases exec_taken h with
  | quiet => exact .refl s
  | reset rate held => exact powerOnState_governed rate held s
  | ordered row =>
    rename_i l _ _ _ _
    have hrow := row.governed (receive l s) (receive_link_up l s)
    refine (receive_ruled l s).governed.trans (act_governed
      ⟨hrow.thresholds, hrow.group, hrow.linkLaw, fun hw => hrow.planLaw ?_⟩)
    obtain ⟨hp, -, hc⟩ := (unplaced_scope _).1 (receive_lawful ((unplaced_scope s).2 hw) l)
    exact ⟨hp, hc⟩
  | discarded l => exact (receive_ruled l s).governed.trans (bump_flat _ _).governed
  | heard l => exact (receive_ruled l s).governed
  | event row => exact act_governed (row.ruled s).governed
  | lost l => exact act_governed (linkLoss_governed l s)
  | ticked => exact countedTick_governed s
  | lines only => exact only.flat.governed

/-! ## The marks of changed offers -/

theorem newsClear_of_positions (h : t.positions = s.positions) (hs : s.NewsClear) : t.NewsClear := fun p => by
  have hp : t.pos p = s.pos p := by simp only [State.pos, h]
  rw [hp]; exact hs p

theorem act_newsClear (f : State → State) (s : State) : (act f s).NewsClear := (announce_announced s (f s)).newsClear

theorem OnlyLines.newsClear (h : OnlyLines s t) (hs : s.NewsClear) : t.NewsClear :=
  newsClear_of_positions (by rw [h.state]) hs

theorem OnlyLinks.newsClear (h : OnlyLinks s t) (hs : s.NewsClear) : t.NewsClear := by
  obtain ⟨_, _, _, rfl⟩ := h
  exact hs

theorem receive_newsClear (l : Link) (hs : s.NewsClear) : (receive l s).NewsClear := by
  cases l with
  | switch => exact hs
  | console p =>
    cases hu : (s.link (.console p)).up with
    | true => rw [receive_up hu]; exact hs
    | false => rw [receive_down hu]; exact (announce_announced _ _).newsClear

theorem runPart_newsClear (part : TickPart) (hs : s.NewsClear) : (runPart part s).NewsClear := by
  cases part with
  | lose l => exact act_newsClear _ s
  | abandon l => exact (abandonFrame_onlyLines l s).newsClear hs
  | visit =>
    unfold runPart
    dsimp only
    split
    · exact act_newsClear _ s
    · exact hs

theorem countedTick_newsClear (hs : s.NewsClear) : (countedTick s).NewsClear := by
  refine (countedTick_onlyLinks s).newsClear ?_
  have hsup : s.supervised.NewsClear := (supervised_onlyLines s).newsClear hs
  unfold State.afterParts
  generalize s.supervised = v at hsup
  induction arrange (Config.tickOrder s.draws) (tickParts s) generalizing v with
  | nil => exact hsup
  | cons part parts ih => exact ih _ (runPart_newsClear part hsup)

theorem exec_newsClear (h : exec c s = .next t) (hs : s.NewsClear) : t.NewsClear := by
  cases exec_taken h with
  | quiet => exact hs
  | reset rate held => exact fun p => by rw [powerOnState_pos]; rfl
  | ordered row => exact act_newsClear _ _
  | discarded l => exact newsClear_of_positions rfl (receive_newsClear l hs)
  | heard l => exact receive_newsClear l hs
  | event row => exact act_newsClear _ s
  | lost l => exact act_newsClear _ s
  | ticked => exact countedTick_newsClear hs
  | lines only => exact only.newsClear hs

/-! ## Steps -/

theorem step_governed (h : step s = .next t) : Governed (s.PlacesLaw ∧ s.QueueLaw ∧ s.CampLaw) s t := by
  rcases step_cases h with rfl | ⟨c, rest, _, he⟩
  · exact .refl t
  · have hk := exec_governed he
    exact ⟨hk.thresholds, fun hs => hk.group ⟨hs.lead, hs.nightFlag⟩, hk.linkLaw,
      fun ⟨hp, hq, hc⟩ hs => hk.planLaw ((unplaced_scope _).1
        ((Neutral.of_same (s := s)).lawful ((unplaced_scope s).2 ⟨hp, hq, hc⟩))) ⟨hs.eff, hs.band⟩⟩

theorem step_newsClear (h : step s = .next t) (hs : s.NewsClear) : t.NewsClear := by
  rcases step_cases h with rfl | ⟨c, rest, _, he⟩
  · exact hs
  · exact exec_newsClear he hs

end

end Sys2Proof.Machine

open Sys2Proof.Machine in
/-- Settles O5. Every row keeps the four laws: the rows that write no setting leave the plans alone, judge the
group again where a position changes its state, and change that state only beside its link; the others are looked at
one by one. The mark of a changed offer goes at the end of every action. -/
theorem smallLawsKept : Obligations.SmallLawsKept := by
  unfold Obligations.SmallLawsKept
  exact ⟨fun _ _ hs h => (step_governed h).thresholds hs, fun _ _ hs h => (step_governed h).group hs,
    fun _ _ hs h => (step_governed h).linkLaw hs, fun _ _ hs h => step_newsClear h hs⟩

namespace Sys2Proof.Machine

section
variable {c : Instr} {s t : State}

/-! ## The selection and the staging list, order by order -/

@[simp] theorem answerSwitch_selection (kind : Byte) (code : ResultCode) (s : State) :
    (answerSwitch kind code s).selection = s.selection := (answerSwitch_flat kind code s).selection

@[simp] theorem answerSwitch_staging (kind : Byte) (code : ResultCode) (s : State) :
    (answerSwitch kind code s).staging = s.staging := (answerSwitch_flat kind code s).staging

@[simp] theorem answerConsole_selection (p : PosNo) (q kind : Byte) (code : ResultCode) (o : Option OrbitNo)
    (s : State) : (answerConsole p q kind code o s).selection = s.selection := rfl

@[simp] theorem answerConsole_staging (p : PosNo) (q kind : Byte) (code : ResultCode) (o : Option OrbitNo)
    (s : State) : (answerConsole p q kind code o s).staging = s.staging := rfl

@[simp] theorem replan_selection (s : State) : (replan s).selection = s.selection := (replan_steady s).selection

@[simp] theorem replan_staging (s : State) : (replan s).staging = s.staging := (replan_steady s).staging

@[simp] theorem settle_selection (s : State) : (settle s).selection = s.selection := (settle_steady s).selection

@[simp] theorem settle_staging (s : State) : (settle s).staging = s.staging := (settle_steady s).staging

@[simp] theorem serviceReset_selection (b : Bool) (s : State) : (serviceReset b s).selection = s.selection :=
  (serviceReset_settings b s).2.1

@[simp] theorem serviceReset_staging (b : Bool) (s : State) : (serviceReset b s).staging = none :=
  (serviceReset_settings b s).2.2

theorem setNight_written (v : NightSetting) (s : State) :
    (setNight v s).selection = s.selection ∧ (setNight v s).staging = s.staging := by
  unfold setNight
  dsimp only
  split <;> simp

theorem positionSet_written (x v : Byte) (s : State) :
    (inStandby Kind.positionSet (positionSetOrder x v) s).selection = s.selection ∧
      (inStandby Kind.positionSet (positionSetOrder x v) s).staging = s.staging := by
  unfold inStandby positionSetOrder
  split
  · split
    · simp [setReportInterval]
    · split <;> simp [setEligible]
  · simp

theorem nightOrder_written (v : Byte) (s : State) :
    (nightOrder v s).selection = s.selection ∧ (nightOrder v s).staging = s.staging := by
  unfold nightOrder
  split <;> simp [setNight_written]

theorem nightConsoleOrder_written (p : PosNo) (q v : Byte) (s : State) :
    (nightConsoleOrder p q v s).selection = s.selection ∧ (nightConsoleOrder p q v s).staging = s.staging := by
  unfold nightConsoleOrder
  split
  · split <;> simp [setNight_written]
  · simp

theorem stopOrder_selection (mode : Byte) (s : State) : (stopOrder mode s).selection = s.selection := by
  unfold stopOrder
  split
  · unfold stopOrderlyNow
    split
    · simp
    · split <;> simp [rejudgeGroup]
  · split <;> simp [stopForcedNow]

theorem writeNow_written (e : EditTarget) (v : Nat) (s : State) :
    (writeNow e v s).selection = s.selection ∧ (writeNow e v s).staging = s.staging := by
  unfold writeNow
  dsimp only
  split <;> simp

theorem planWriteOrder_selection (a b : Byte) (v : Half) (s : State) :
    (planWriteOrder a b v s).selection = s.selection := by
  unfold planWriteOrder
  split
  · simp
  · split
    · split <;> simp
    · split <;> simp [writeNow_written]

theorem planReleaseOrder_selection (s : State) : (planReleaseOrder s).selection = s.selection := by
  unfold planReleaseOrder
  split
  · simp
  · dsimp only
    split <;> simp

/-- Only PLAN_SELECT and SELECT write the selection. -/
theorem Orders.selection {l : Link} {kind : Byte} {n : Nat} {f : State → State} (row : Orders c l kind n f)
    (s : State) (hup : (s.link l).up = true) (hsel : (f s).selection ≠ s.selection) :
    (∃ v, c = .planSelect n v) ∨ ∃ p q v, c = .select p n q v := by
  cases hc : administers c with
  | false => exact absurd (row.ruled hc s hup).selection hsel
  | true =>
    cases row with
    | planSelect n v => exact .inl ⟨v, rfl⟩
    | select p n q v => exact .inr ⟨p, q, v, rfl⟩
    | stopOrderly => exact absurd (stopOrder_selection _ s) hsel
    | stopForced => exact absurd (stopOrder_selection _ s) hsel
    | restart => exact absurd (by simp [restartOrder]) hsel
    | positionSetLeadEligible => exact absurd (positionSet_written _ _ s).1 hsel
    | positionSetReportInterval => exact absurd (positionSet_written _ _ s).1 hsel
    | planHold => exact absurd (by unfold planHoldOrder; split <;> simp) hsel
    | planWrite => exact absurd (planWriteOrder_selection _ _ _ s) hsel
    | planRelease => exact absurd (planReleaseOrder_selection s) hsel
    | planAbandon => exact absurd (by unfold planAbandonOrder; split <;> simp) hsel
    | night => exact absurd (nightOrder_written _ s).1 hsel
    | nightConsole => exact absurd (nightConsoleOrder_written _ _ _ s).1 hsel
    | _ => cases hc

theorem planSelectOrder_staging (v : Byte) (s : State) : (planSelectOrder v s).staging = s.staging := by
  unfold planSelectOrder
  split <;> simp

theorem selectOrder_staging (p : PosNo) (q v : Byte) (s : State) :
    (selectOrder p q v s).staging = s.staging := by
  unfold selectOrder
  split
  · split <;> simp
  · simp

/-- PLAN_WRITE adds to an open staging list or leaves it. -/
theorem planWriteOrder_staging (a b : Byte) (v : Half) (s : State) (hopen : s.staging ≠ none) :
    (planWriteOrder a b v s).staging ≠ none := by
  unfold planWriteOrder
  split
  · simpa using hopen
  · split
    · split <;> simp_all
    · contradiction

theorem planHoldOrder_staging (s : State) (hopen : s.staging ≠ none) : (planHoldOrder s).staging ≠ none := by
  unfold planHoldOrder
  split
  · contradiction
  · simpa using hopen

/-- A STOP closes the list by the mode byte: ORDERLY in STANDBY or with every slot FREE, FORCED always (R177). -/
theorem stopOrder_closes {mode : Byte} {s : State} (hopen : s.staging ≠ none)
    (hclosed : (stopOrder mode s).staging = none) :
    mode = 0 ∧ (s.service = .standby ∨ s.allFree = true) ∨ mode = 1 := by
  unfold stopOrder at hclosed
  split at hclosed
  · rename_i hzero
    refine .inl ⟨hzero, ?_⟩
    unfold stopOrderlyNow at hclosed
    split at hclosed
    · rename_i hstandby; exact .inl hstandby
    · split at hclosed
      · rename_i hfree; exact .inr hfree
      · rw [answerSwitch_staging] at hclosed; exact absurd hclosed hopen
  · split at hclosed
    · rename_i hone; exact .inr hone
    · rw [answerSwitch_staging] at hclosed; exact absurd hclosed hopen

/-- What closes an open staging list, by order (R48). -/
theorem Orders.closes {l : Link} {kind : Byte} {n : Nat} {f : State → State} (row : Orders c l kind n f)
    (s : State) (hup : (s.link l).up = true) (hopen : s.staging ≠ none) (hclosed : (f s).staging = none) :
    c = .planRelease n ∨ c = .planAbandon n ∨ (c = .stopOrderly n 0 ∧ (s.service = .standby ∨ s.allFree = true)) ∨
      c = .stopForced n ∨ c = .stopOrderly n 1 ∨ c = .restart n := by
  cases hc : administers c with
  | false => exact absurd ((row.ruled hc s hup).staging.symm.trans hclosed) hopen
  | true =>
    cases row with
    | planRelease n => simp
    | planAbandon n => simp
    | stopForced n => simp
    | restart n => simp
    | stopOrderly n mode =>
      rcases stopOrder_closes hopen hclosed with ⟨rfl, h⟩ | rfl
      · simp [h]
      · simp
    | planHold => exact absurd hclosed (planHoldOrder_staging s hopen)
    | planWrite => exact absurd hclosed (planWriteOrder_staging _ _ _ s hopen)
    | planSelect => exact absurd ((planSelectOrder_staging _ s).symm.trans hclosed) hopen
    | select => exact absurd ((selectOrder_staging _ _ _ s).symm.trans hclosed) hopen
    | positionSetLeadEligible => exact absurd ((positionSet_written _ _ s).2.symm.trans hclosed) hopen
    | positionSetReportInterval => exact absurd ((positionSet_written _ _ s).2.symm.trans hclosed) hopen
    | night => exact absurd ((nightOrder_written _ s).2.symm.trans hclosed) hopen
    | nightConsole => exact absurd ((nightConsoleOrder_written _ _ _ s).2.symm.trans hclosed) hopen
    | _ => cases hc

/-! ## The selection and the staging list in the links' losses and the ticks -/

/-- A lost link leaves the selection, and closes the staging list only as the switch link in SERVICE (R174). -/
structure Severs (s t : State) (cut : Prop) : Prop where
  selection : t.selection = s.selection
  staging : s.staging ≠ none → t.staging = none → cut

theorem Ruled.severs {W cut : Prop} (h : Ruled W s t) : Severs s t cut :=
  ⟨h.selection, fun hopen hclosed => absurd (h.staging.symm.trans hclosed) hopen⟩

theorem linkLoss_severs (l : Link) (s : State) : Severs s (linkLoss l s) (l = .switch ∧ s.service = .service) := by
  cases l with
  | console p => exact (linkLoss_console_ruled (W := True) p s).severs
  | switch =>
    obtain ⟨x, ⟨hs, h⟩ | ⟨-, h⟩⟩ := linkLoss_switch_cases s <;> rw [h]
    · exact ⟨by rw [serviceReset_selection]; rfl, fun _ _ => ⟨rfl, hs⟩⟩
    · exact (setSwitchLink_ruled (W := True) x s).severs

theorem act_severs {cut : Prop} {f : State → State} (h : Severs s (f s) cut) : Severs s (act f s) cut := by
  have hk := announce_ruled (W := True) s (f s)
  exact ⟨hk.selection.trans h.selection, fun hopen hclosed => h.staging hopen (hk.staging.symm.trans hclosed)⟩

theorem runPart_severs (part : TickPart) (s : State) :
    Severs s (runPart part s) (part = .lose .switch ∧ s.service = .service) := by
  cases part with
  | lose l =>
    have h := act_severs (linkLoss_severs l s)
    exact ⟨h.selection, fun hopen hclosed => by
      obtain ⟨rfl, hs⟩ := h.staging hopen hclosed
      exact ⟨rfl, hs⟩⟩
  | abandon l => exact ((abandonFrame_onlyLines l s).flat.ruled (W := True)).severs
  | visit =>
    unfold runPart
    dsimp only
    split
    · exact act_severs ((sweepStep_ruled (W := True) s).severs)
    · exact (Ruled.refl (W := True) s).severs

theorem countedTick_severs (s : State) :
    Severs s (countedTick s) (s.service = .service ∧ s.fallsSilent .switch = true) := by
  have hparts : ∀ (parts : List TickPart) (u : State), (∀ part ∈ parts, part ∈ tickParts s) →
      (u.service = .service → s.service = .service) →
      Severs u (parts.foldl (fun u part => runPart part u) u)
        (s.service = .service ∧ s.fallsSilent .switch = true) := by
    intro parts
    induction parts with
    | nil => exact fun u _ _ => (Ruled.refl (W := True) u).severs
    | cons part parts ih =>
      intro u hmem hservice
      have hpart := runPart_severs part u
      have hrest := ih (runPart part u) (fun q hq => hmem q (List.mem_cons_of_mem _ hq))
        (hservice ∘ runPart_service part u)
      refine ⟨hrest.selection.trans hpart.selection, fun hopen hclosed => ?_⟩
      by_cases hmid : (runPart part u).staging = none
      · obtain ⟨rfl, hs⟩ := hpart.staging hopen hmid
        exact ⟨hservice hs, tickParts_lose (hmem _ List.mem_cons_self)⟩
      · exact hrest.staging hmid hclosed
  have hsup := supervised_flat s
  have hafter := countedTick_flat s
  have h := hparts (arrange (Config.tickOrder s.draws) (tickParts s)) s.supervised
    (fun q hq => (arrange_perm _ _).mem_iff.1 hq) fun h => (supervised_carried s).service.symm.trans h
  exact ⟨hafter.selection.trans (h.selection.trans hsup.selection), fun hopen hclosed =>
    h.staging (by rwa [hsup.staging]) (hafter.staging.symm.trans hclosed)⟩

/-! ## What writes the selection, and what closes the staging list, command by command -/

theorem act_selection (f : State → State) (s : State) : (act f s).selection = (f s).selection :=
  (announce_announced s (f s)).flat.selection

theorem act_staging (f : State → State) (s : State) : (act f s).staging = (f s).staging :=
  (announce_announced s (f s)).flat.staging

theorem receive_selection (l : Link) (s : State) : (receive l s).selection = s.selection :=
  (receive_ruled (W := True) l s).selection

theorem receive_staging (l : Link) (s : State) : (receive l s).staging = s.staging :=
  (receive_ruled (W := True) l s).staging

/-- The selection is written by PLAN_SELECT of 1 byte, by SELECT of 2, and by a reset (R40, R54, R175). -/
theorem exec_selection (h : exec c s = .next t) (hsel : t.selection ≠ s.selection) :
    (∃ b, c = .planSelect 1 b) ∨ (∃ p q b, c = .select p 2 q b) ∨ (∃ r, c = .powerOnReset r) ∨
      c = .resetAsserted := by
  cases exec_taken h with
  | quiet => exact absurd rfl hsel
  | reset rate held why => exact .inr (.inr why)
  | ordered row length =>
    rename_i l kind n f
    rw [act_selection, ← receive_selection l s] at hsel
    rcases row.selection _ (receive_link_up l s) hsel with ⟨v, rfl⟩ | ⟨p, q, v, rfl⟩
    · cases row
      cases Option.some.inj ((by decide : orderLength .switch Kind.planSelect = some 1).symm.trans length)
      exact .inl ⟨v, rfl⟩
    · cases row
      cases Option.some.inj ((by rfl : orderLength (.console p) Kind.select = some 2).symm.trans length)
      exact .inr (.inl ⟨p, q, v, rfl⟩)
  | discarded l => exact absurd (receive_selection l s) hsel
  | heard l => exact absurd (receive_selection l s) hsel
  | event row => exact absurd ((act_selection _ s).trans (row.ruled (W := True) s).selection) hsel
  | lost l => exact absurd (act_severs (linkLoss_severs l s)).selection hsel
  | ticked => exact absurd (countedTick_severs s).selection hsel
  | lines only => exact absurd only.flat.selection hsel

/-- The lengths of the payloads of the orders that close a staging list (section 11.3). -/
theorem closing_lengths : orderLength .switch Kind.planRelease = some 0 ∧
    orderLength .switch Kind.planAbandon = some 0 ∧ orderLength .switch Kind.stop = some 1 ∧
    orderLength .switch Kind.restart = some 0 := by decide

/-- What closes an open staging list (R48). -/
theorem exec_closes (h : exec c s = .next t) (hopen : s.staging ≠ none) (hclosed : t.staging = none) :
    c = .planRelease 0 ∨ c = .planAbandon 0 ∨
      (c = .stopOrderly 1 0 ∧ (s.service = .standby ∨ s.allFree = true)) ∨
      c = .stopForced 1 ∨ c = .stopOrderly 1 1 ∨ c = .restart 0 ∨
      (c = .linkLost .switch ∧ s.service = .service ∧ (s.link .switch).up = true) ∨
      ((c = .tickPulse ∨ c = .countedTick) ∧ s.service = .service ∧ s.fallsSilent .switch = true) ∨
      (∃ r, c = .powerOnReset r) ∨ c = .resetAsserted := by
  obtain ⟨hrelease, habandon, hstop, hrestart⟩ := closing_lengths
  cases exec_taken h with
  | quiet => exact absurd hclosed hopen
  | reset rate held why => rcases why with ⟨r, rfl⟩ | rfl <;> simp
  | ordered row length =>
    rename_i l kind n f
    rw [act_staging] at hclosed
    rcases row.closes _ (receive_link_up l s) (by rwa [receive_staging]) hclosed with
      rfl | rfl | ⟨rfl, hwhy⟩ | rfl | rfl | rfl <;> cases row
    · cases hrelease.symm.trans length; simp
    · cases habandon.symm.trans length; simp
    · cases hstop.symm.trans length; exact .inr (.inr (.inl ⟨rfl, hwhy⟩))
    · cases hstop.symm.trans length; simp
    · cases hstop.symm.trans length; simp
    · cases hrestart.symm.trans length; simp
  | discarded l => exact absurd ((receive_staging l s).symm.trans hclosed) hopen
  | heard l => exact absurd ((receive_staging l s).symm.trans hclosed) hopen
  | event row =>
    rw [act_staging, (row.ruled (W := True) s).staging] at hclosed
    exact absurd hclosed hopen
  | lost l why hup =>
    obtain ⟨rfl, hs⟩ := (act_severs (linkLoss_severs l s)).staging hopen hclosed
    subst why
    simp [hs, hup]
  | ticked why =>
    have hs := (countedTick_severs s).staging hopen hclosed
    simp [hs, why]
  | lines only => exact absurd (only.flat.staging.symm.trans hclosed) hopen

end

end Sys2Proof.Machine
open Sys2Proof.Machine in
/-- Settles O28. The step lemma is that of O5 with the law of the plan in force; the selection is written by its two
orders and by a reset alone. -/
theorem selectionRule : Obligations.SelectionRule := by
  unfold Obligations.SelectionRule
  exact ⟨⟨rfl, rfl, rfl⟩, fun _ _ _ h => exec_selection h,
    fun _ _ hp hq hc hs h => (step_governed h).planLaw ⟨hp, hq, hc⟩ hs, fun _ _ => ⟨rfl, rfl, rfl, rfl⟩⟩

end

section
/-! PROOFS. Orders that are answered and do nothing the consoles are shown: the answer is the whole effect, from the
switch and from a console (O29 to O33). -/
namespace Sys2Proof.Machine

section
variable {s t u : State} {kind : Byte} {code : ResultCode} {len : Nat} {f : State → State}

/-- An order of the switch that is answered and changes nothing the consoles are shown. -/
theorem switchOrder_answered (hr : s.Runs) (hn : s.NewsClear) (hl : orderLength .switch kind = some len)
    (hu : ShownKept s u) (hf : f (s.hearing .switch) = answerSwitch kind code (u.hearing .switch)) :
    unlessHeld (switchOrder kind len f) s = .next ((u.hearing .switch).toldSwitch kind code).ended := by
  rw [answerSwitch_told] at hf
  rw [switchOrder_shownKept hr hn hl (by
    rw [hf]; exact (hearing_shownKept hu).trans (toldSwitch_shownKept _ _ _)), hf]

theorem staging_shownKept (l : Option (List Edit)) (s : State) : ShownKept s { s with staging := l } :=
  ⟨rfl, rfl, rfl, rfl, rfl, rfl, rfl⟩

end

end Sys2Proof.Machine

open Sys2Proof.Machine in
/-- Settles O29. The two answers of PLAN_HOLD are all that it does beside opening the list, and `exec_closes` says
which commands close one. -/
theorem planHold : Obligations.PlanHold := by
  unfold Obligations.PlanHold
  refine fun s edits => ⟨fun hr hn hs => ?_, fun hr hn hs => ?_, fun c t hs h hclosed => exec_closes h (by simp [hs]) hclosed⟩
  · refine switchOrder_answered hr hn rfl (staging_shownKept (some []) s) ?_
    have hstaging : (s.hearing .switch).staging = none := hs
    unfold planHoldOrder
    rw [hstaging]
    rfl
  · refine switchOrder_answered hr hn rfl (.refl s) ?_
    have hstaging : (s.hearing .switch).staging = some edits := hs
    unfold planHoldOrder
    rw [hstaging]

end

section
/-! PROOFS. The band of a depth and the blended plans (R41, R42). -/
namespace Sys2Proof.Machine

/-! ## The table of R41 -/

section
variable {t : Thresholds} {d : Nat}

theorem thresholds_valid_iff {t : Thresholds} :
    t.valid = true ↔ t.t1 < t.t2 ∧ t.t2 ≤ t.t3 ∧ t.t3 < t.t4 := by
  simp [Thresholds.valid, and_assoc]

/-- The table of R41, each band by the depths that lie in it; the five ranges are disjoint and leave no gap. -/
theorem bandOf_spec (h : t.valid = true) :
    d ≤ t.t1 ∧ bandOf t d = .a ∨ (t.t1 < d ∧ d < t.t2) ∧ bandOf t d = .ab ∨
      (t.t2 ≤ d ∧ d ≤ t.t3) ∧ bandOf t d = .b ∨ (t.t3 < d ∧ d < t.t4) ∧ bandOf t d = .bc ∨
      t.t4 ≤ d ∧ bandOf t d = .c := by
  obtain ⟨h12, h23, h34⟩ := thresholds_valid_iff.1 h
  unfold bandOf
  split
  · exact .inl ⟨‹_›, rfl⟩
  · split
    · exact .inr (.inl ⟨⟨by omega, ‹_›⟩, rfl⟩)
    · split
      · exact .inr (.inr (.inl ⟨⟨by omega, ‹_›⟩, rfl⟩))
      · split
        · exact .inr (.inr (.inr (.inl ⟨⟨by omega, ‹_›⟩, rfl⟩)))
        · exact .inr (.inr (.inr (.inr ⟨by omega, rfl⟩)))

theorem bandOf_table (h : t.valid = true) :
    (bandOf t d = .a ↔ d ≤ t.t1) ∧ (bandOf t d = .ab ↔ t.t1 < d ∧ d < t.t2) ∧
    (bandOf t d = .b ↔ t.t2 ≤ d ∧ d ≤ t.t3) ∧ (bandOf t d = .bc ↔ t.t3 < d ∧ d < t.t4) ∧
    (bandOf t d = .c ↔ t.t4 ≤ d) ∧
    (t.t2 = t.t1 + 1 → bandOf t d ≠ .ab) ∧ (t.t4 = t.t3 + 1 → bandOf t d ≠ .bc) := by
  obtain ⟨h12, h23, h34⟩ := thresholds_valid_iff.1 h
  rcases bandOf_spec (d := d) h with ⟨hd, hb⟩ | ⟨hd, hb⟩ | ⟨hd, hb⟩ | ⟨hd, hb⟩ | ⟨hd, hb⟩ <;>
    rw [hb] <;>
    refine ⟨?_, ?_, ?_, ?_, ?_, fun _ => ?_, fun _ => ?_⟩ <;>
    simp only [reduceCtorEq, false_iff, true_iff, ne_eq, not_true_eq_false, not_false_eq_true] <;> omega

end

/-! ## The depth (R41) -/

/-- The queue holds every WAITING and OFFERED call once. -/
theorem depth_eq_queued {s : State} (h : s.QueueLaw) : s.depth = (allSlots.filter
    (fun i => ((s.call i).map (fun c => c.state.queued)).getD false)).length := by
  refine List.Perm.length_eq ((List.perm_ext_iff_of_nodup h.nodup ((List.nodup_finRange 256).filter _)).2 ?_)
  intro i
  rw [h.listed, List.mem_filter]
  cases hc : s.call i <;> simp

/-! ## Blended values (R42) -/

section
variable {x y lo hi d : Nat}

/-- A blended value lies between the two plans' values. -/
theorem blendValue_bounds (hlo : lo < d) (hhi : d < hi) :
    min x y ≤ blendValue x y lo hi d ∧ blendValue x y lo hi d ≤ max x y := by
  have hpos : 0 < hi - lo := by omega
  have hsum : (hi - d) + (d - lo) = hi - lo := by omega
  unfold blendValue
  constructor
  · rw [Nat.le_div_iff_mul_le hpos, ← hsum, Nat.mul_add]
    exact Nat.add_le_add (Nat.mul_le_mul_right _ (Nat.min_le_left x y))
      (Nat.mul_le_mul_right _ (Nat.min_le_right x y))
  · refine (Nat.div_le_iff_le_mul_add_pred hpos).2 (Nat.le_trans ?_ (Nat.le_add_right _ _))
    rw [← hsum, Nat.mul_comm ((hi - d) + (d - lo)), Nat.mul_add]
    exact Nat.add_le_add (Nat.mul_le_mul_right _ (Nat.le_max_left x y))
      (Nat.mul_le_mul_right _ (Nat.le_max_right x y))

theorem blend_weight (l u : Plan) (lo hi d : Nat) (k : ClassNo) :
    (blend l u lo hi d).weights[k] = blendValue l.weights[k] u.weights[k] lo hi d := by
  simp [blend]

/-- The ten blended values, and the lower plan's other fields. -/
theorem blend_spec (l u : Plan) (hlo : lo < d) (hhi : d < hi) :
    (∀ k : ClassNo, (blend l u lo hi d).weights[k] =
      (l.weights[k] * (hi - d) + u.weights[k] * (d - lo)) / (hi - lo)) ∧
    (blend l u lo hi d).gain = (l.gain * (hi - d) + u.gain * (d - lo)) / (hi - lo) ∧
    (blend l u lo hi d).bonus = (l.bonus * (hi - d) + u.bonus * (d - lo)) / (hi - lo) ∧
    blend l u lo hi d = { l with
      weights := (blend l u lo hi d).weights
      gain := (blend l u lo hi d).gain
      bonus := (blend l u lo hi d).bonus } ∧
    (∀ k : ClassNo, min l.weights[k] u.weights[k] ≤ (blend l u lo hi d).weights[k] ∧
      (blend l u lo hi d).weights[k] ≤ max l.weights[k] u.weights[k]) ∧
    min l.gain u.gain ≤ (blend l u lo hi d).gain ∧ (blend l u lo hi d).gain ≤ max l.gain u.gain ∧
    min l.bonus u.bonus ≤ (blend l u lo hi d).bonus ∧
    (blend l u lo hi d).bonus ≤ max l.bonus u.bonus := by
  obtain ⟨hgain, hgain'⟩ := blendValue_bounds (x := l.gain) (y := u.gain) hlo hhi
  obtain ⟨hbonus, hbonus'⟩ := blendValue_bounds (x := l.bonus) (y := u.bonus) hlo hhi
  refine ⟨blend_weight l u lo hi d, rfl, rfl, rfl, fun k => ?_, hgain, hgain', hbonus, hbonus'⟩
  rw [blend_weight]
  exact blendValue_bounds hlo hhi

end

end Sys2Proof.Machine

open Sys2Proof.Machine in
/-- Settles O27. -/
theorem bandsAndBlends : Obligations.BandsAndBlends := by
  unfold Obligations.BandsAndBlends
  exact ⟨⟨fun _ _ => bandOf_table, fun _ _ => ⟨rfl, rfl, rfl, rfl⟩, fun _ => depth_eq_queued, fun _ => ⟨rfl, rfl⟩⟩,
    fun _ _ => ⟨rfl, rfl, rfl, rfl, rfl⟩, fun _ _ _ => rfl, fun l u _ _ _ => blend_spec l u⟩

end

section
/-! PROOFS. What holds through the re-establishing of the distribution condition: an induction over its steps
(R43, R75, R77 to R81), and what follows for one call, one position and the masks. -/
namespace Sys2Proof.Machine

section
variable {s t u : State} {i : SlotNo} {p : PosNo} {c : Call}

/-! ## The steps of distribution -/

/-- A predicate that the parts of distribution keep: the withdrawal of an offer, the judgement of the available
list, the routing of a WAITING call, and an offer or a showing to an OPEN position whose mask holds the class. -/
structure DistributionKeeps (P : State → Prop) : Prop where
  available : ∀ s a, P s → P { s with available := a }
  withdraw : ∀ s p, P s → P (withdrawAt p s)
  depart : ∀ s i c w, P s → s.call i = some c → c.state = .waiting → P (depart i none w s)
  offer : ∀ s p i c, P s → s.call i = some c → c.state = .waiting → s.eff.allows c.cls p = true →
    (s.pos p).state = .opened → P (offerTo p i s)
  showing : ∀ s p i c, P s → s.call i = some c → c.state.queued = true → s.eff.allows c.cls p = true →
    (s.pos p).state = .opened → (s.pos p).offer = none → P (showTo p i s)

/-- Every listed position is OPEN. -/
def State.ListedOpen (s : State) : Prop := ∀ p ∈ s.available, (s.pos p).state = .opened

theorem chooseCandidate_spec (h : chooseCandidate s c = some p) :
    p ∈ s.available ∧ s.eff.allows c.cls p = true := by
  have hhead : ∀ x, (s.available.filter (fun p => s.eff.allows c.cls p)).head? = some x →
      x ∈ s.available ∧ s.eff.allows c.cls x = true := fun x hx => List.mem_filter.1 (List.mem_of_mem_head? hx)
  unfold chooseCandidate at h
  dsimp only at h
  split at h
  · split at h
    · rename_i hc
      cases h
      exact List.mem_filter.1 (List.contains_iff_mem.1 hc)
    · exact hhead p h
  · exact hhead p h

theorem opened_of_available (h : s.isAvailable p = true) : (s.pos p).state = .opened := by
  simp only [State.isAvailable, Bool.and_eq_true, beq_iff_eq] at h
  exact h.1.1.1

theorem withdrawAt_available (p : PosNo) (s : State) : (withdrawAt p s).available = s.available := by
  unfold withdrawAt
  split
  · rfl
  · dsimp only
    split <;> rfl

theorem depart_available (i : SlotNo) (x : Option Ext) (w : Conn) (s : State) :
    (depart i x w s).available = s.available := by
  have hleave : (leave i s).available = s.available := by rw [(leave_left i s).state]
  unfold depart want
  split
  · exact hleave
  · split
    · exact hleave
    · rw [(issue_onlyRecords i _).state]; exact hleave

theorem foldl_keeps {α : Type} {P : State → Prop} {f : State → α → State} (l : List α)
    (hf : ∀ s, ∀ a ∈ l, P s → P (f s a)) (h : P s) : P (l.foldl f s) := by
  induction l generalizing s with
  | nil => exact h
  | cons a l ih =>
    exact ih (fun s b hb => hf s b (List.mem_cons_of_mem _ hb)) (hf s a List.mem_cons_self h)

theorem dropShowings_available (s : State) : (dropShowings s).available = s.available := by
  unfold dropShowings
  split
  · refine foldl_keeps (P := fun t => t.available = s.available) _ (fun t p _ h => ?_) rfl
    split
    · exact h
    · exact (withdrawAt_available p t).trans h
  · rfl

theorem nightRoute_available (s : State) : (nightRoute s).available = s.available := by
  refine foldl_keeps (P := fun t => t.available = s.available) _ (fun t i _ h => ?_) rfl
  split
  · exact h
  · dsimp only
    split
    · exact (depart_available i none _ t).trans h
    · exact h

section
variable {P : State → Prop} (k : DistributionKeeps P)
include k

theorem DistributionKeeps.dropShowings (h : P s) : P (dropShowings s) := by
  unfold Machine.dropShowings
  split
  · refine foldl_keeps _ (fun s p _ h => ?_) h
    split
    · exact h
    · exact k.withdraw s p h
  · exact h

theorem DistributionKeeps.nightRoute (h : P s) : P (nightRoute s) := by
  refine foldl_keeps _ (fun s i _ h => ?_) h
  split
  · exact h
  · rename_i c hc
    dsimp only
    split
    · rename_i hw; exact k.depart s i c _ h hc hw.1
    · exact h

theorem DistributionKeeps.walk (ho : s.ListedOpen) (h : P s) : P (Machine.walk s) := by
  suffices hboth : P (Machine.walk s) ∧ (Machine.walk s).ListedOpen from hboth.1
  refine foldl_keeps (P := fun s => P s ∧ s.ListedOpen) s.queue (fun s i _ ⟨h, ho⟩ => ?_) ⟨h, ho⟩
  split
  · exact ⟨h, ho⟩
  · rename_i c hc
    split
    · rename_i hw
      split
      · rename_i p hp
        obtain ⟨hmem, hmask⟩ := chooseCandidate_spec hp
        refine ⟨k.offer s p i c h hc hw hmask (ho p hmem), fun q hq => ?_⟩
        exact ((offerTo_level p i s).duty q).2.trans (ho q (List.mem_filter.1 hq).1)
      · exact ⟨h, ho⟩
    · exact ⟨h, ho⟩

theorem DistributionKeeps.showTo_all (ho : s.ListedOpen) (h : P s) : P (Machine.showing s) := by
  suffices hboth : P (Machine.showing s) ∧ ∀ p ∈ s.available, ((Machine.showing s).pos p).state = .opened from hboth.1
  refine foldl_keeps (P := fun t => P t ∧ ∀ p ∈ s.available, (t.pos p).state = .opened) s.available
    (fun t p hp ⟨h, ho⟩ => ?_) ⟨h, ho⟩
  split
  · exact ⟨h, ho⟩
  · rename_i hnone
    split
    · rename_i i hi
      obtain ⟨c, hc, hq, hmask⟩ := firstFor_queued hi
      refine ⟨k.showing t p i c h hc hq hmask (ho p hp) (by simpa using hnone), fun q hq' => ?_⟩
      exact ((showTo_level p i t).duty q).2.trans (ho q hq')
    · exact ⟨h, ho⟩

theorem DistributionKeeps.settleWith (hrec : ∀ s, P s → P (recompute s)) (fuel : Nat) (h : P s) :
    P (settleWith fuel s) := by
  induction fuel generalizing s with
  | zero => exact h
  | succ fuel ih =>
    have hload : P (recomputeUnderLoad s) := by
      unfold recomputeUnderLoad
      split
      · exact hrec s h
      · exact h
    have hjudged : P (rejudge (recomputeUnderLoad s)) := k.available _ _ hload
    have hopen : (rejudge (recomputeUnderLoad s)).ListedOpen := fun p hp => by
      have ha : (recomputeUnderLoad s).isAvailable p = true := by
        rcases List.mem_append.1 hp with hp | hp
        · exact (List.mem_filter.1 hp).2
        · exact (Bool.and_eq_true _ _ ▸ (List.mem_filter.1 hp).2).1
      exact opened_of_available ha
    have hset := dropShowings_settled (rejudge (recomputeUnderLoad s))
    have hdropped := k.dropShowings hjudged
    have hlist : (Machine.dropShowings (rejudge (recomputeUnderLoad s))).available =
        (rejudge (recomputeUnderLoad s)).available := dropShowings_available _
    unfold Machine.settleWith
    dsimp only
    generalize Machine.dropShowings (rejudge (recomputeUnderLoad s)) = v at hset hdropped hlist
    have hvopen : v.ListedOpen := fun p hp =>
      (hset.positions p).state.trans (hopen p (hlist ▸ hp))
    have hnight : P (if v.nightFlag = true then Machine.nightRoute v else v) ∧
        (if v.nightFlag = true then Machine.nightRoute v else v).ListedOpen := by
      split
      · rename_i hn
        exact ⟨k.nightRoute hdropped, fun p hp => ((nightRoute_settled v hn).positions p).state.trans
          (hvopen p (nightRoute_available v ▸ hp))⟩
      · exact ⟨hdropped, hvopen⟩
    obtain ⟨hw, hwopen⟩ := hnight
    generalize (if v.nightFlag = true then Machine.nightRoute v else v) = w at hw hwopen
    split
    · exact ih hw
    · unfold distribute
      split
      · exact k.walk hwopen hw
      · exact k.showTo_all hwopen hw

theorem DistributionKeeps.settle (hrec : ∀ s, P s → P (recompute s)) (h : P s) : P (settle s) :=
  k.settleWith hrec _ h

/-- A predicate that reads nothing of the effective plan is kept by a recompute. -/
theorem DistributionKeeps.recompute (hplan : ∀ s e b, P s → P { s with eff := e, band := b }) (h : P s) :
    P (recompute s) := by
  unfold Machine.recompute
  dsimp only
  split
  · exact foldl_keeps _ (fun s p _ h => k.withdraw s p h) (hplan _ _ _ h)
  · split
    · refine foldl_keeps _ (fun s p _ h => ?_) (hplan _ _ _ h)
      split
      · exact h
      · split
        · exact h
        · split
          · exact h
          · exact k.withdraw s p h
    · exact hplan _ _ _ h

end

end

end Sys2Proof.Machine
end

section
/-! PROOFS. A recompute for a new selection or new plans: what it withdraws, what it keeps, and that the masks
hold after it (R43 to R45). -/
namespace Sys2Proof.Machine

section
variable {s t u v : State} {i j : SlotNo} {p q : PosNo} {c d : Call} {e : Plan}

/-! ## The steps of distribution, call by call -/

/-- A withdrawal touches the call that the position is offered, where that call is OFFERED, and no other. -/
theorem withdrawAt_call (p : PosNo) (s : State) (j : SlotNo) : (withdrawAt p s).call j = s.call j ∨
    ∃ c b, (s.pos p).offer = some j ∧ s.call j = some c ∧ c.state = .offered ∧
      (withdrawAt p s).call j = some (c.withdrawn b) := by
  cases hp : (s.pos p).offer with
  | none => rw [withdrawAt_none hp]; exact .inl rfl
  | some i =>
    by_cases hoffered : ∃ c, s.call i = some c ∧ c.state = .offered
    · obtain ⟨c, hc, hst⟩ := hoffered
      rw [withdrawAt_eq hp hc hst, modCall_call, setOffer, setPos_call]
      split
      · rename_i hij; subst hij
        exact .inr ⟨c, _, rfl, hc, hst, by rw [hc]; rfl⟩
      · exact .inl rfl
    · have hmod : ∀ (f : Call → Call) (v : State), v.call i = s.call i → (modOffered i f v).call j = v.call j := by
        intro f v hv
        unfold modOffered
        rw [modCall_call]
        split
        · rename_i hij; subst hij
          cases hc : v.call i with
          | none => rfl
          | some c =>
            rw [Option.map_some, if_neg fun hst => hoffered ⟨c, hv ▸ hc, hst⟩]
        · rfl
      have hset : ∀ k, (setOffer p none s).call k = s.call k := fun k => by rw [setOffer, setPos_call]
      refine .inl ?_
      unfold withdrawAt
      rw [hp]
      dsimp only
      have h1 := hmod (fun c => { c with preferred := none }) (setOffer p none s) (hset i)
      split
      · rw [h1, hset]
      · rw [hmod, h1, hset]
        unfold modOffered
        rw [modCall_call, if_pos rfl, hset]
        cases hc : s.call i with
        | none => rfl
        | some c => rw [Option.map_some, if_neg fun hst => hoffered ⟨c, hc, hst⟩]

theorem Call.withdrawn_cls (c : Call) (b : Bool) : (c.withdrawn b).cls = c.cls := by cases b <;> rfl

theorem Call.withdrawn_preferred (c : Call) (b : Bool) : (c.withdrawn b).preferred = none := by cases b <;> rfl

theorem withdrawAt_cls (p : PosNo) (s : State) (j : SlotNo) :
    ((withdrawAt p s).call j).map (·.cls) = (s.call j).map (·.cls) := by
  rcases withdrawAt_call p s j with h | ⟨c, b, -, hc, -, h⟩
  · rw [h]
  · rw [h, hc, Option.map_some, Option.map_some, Call.withdrawn_cls]

/-- A WAITING call routed away: its own record, and no position, no plan and no other call. -/
theorem depart_waiting (hc : s.call i = some c) (hw : c.state = .waiting) (w : Conn) :
    (∃ o, ∀ j, (depart i none w s).call j = if i = j then some (c.departed none w o) else s.call j) ∧
      (depart i none w s).positions = s.positions ∧ (depart i none w s).eff = s.eff := by
  have ha := depart_waiting_apart hc hw w
  refine ⟨?_, ha.positions, ha.eff⟩
  have hleave := leave_queued hc (by rw [hw]; rfl)
  refine ⟨State.requestAfter { s with queue := s.queue.filter (· != i) } c w, fun j => ?_⟩
  rw [depart_eq hleave (c := c) hc none w, asked_call]
  rfl

theorem offerTo_call (p : PosNo) (i j : SlotNo) (s : State) : (offerTo p i s).call j =
    if i = j then (s.call j).map (fun c => { c.enter .offered with offer := some (.one p) }) else s.call j := by
  change (setOffer p (some i) (s.modCall i fun c => { c.enter .offered with offer := some (.one p) })).call j = _
  rw [setOffer, setPos_call, modCall_call]

theorem showTo_call (p : PosNo) (i j : SlotNo) (s : State) : (showTo p i s).call j =
    if i = j then (s.call j).map (fun c => { c.enter .offered with offer := some .all }) else s.call j := by
  unfold showTo setOffer
  rw [setPos_call, modCall_call]

theorem offerTo_offer (p q : PosNo) (i : SlotNo) (s : State) :
    ((offerTo p i s).pos q).offer = if p = q then some i else (s.pos q).offer :=
  setOffer_offer p q (some i) _

theorem showTo_offer (p q : PosNo) (i : SlotNo) (s : State) :
    ((showTo p i s).pos q).offer = if p = q then some i else (s.pos q).offer :=
  setOffer_offer p q (some i) _

/-! ## The offer age (R82) -/

/-- The call of slot i, if any, has offer age 0. -/
def State.Ageless (s : State) (i : SlotNo) : Prop := ∀ c, s.call i = some c → c.offerAge = 0

theorem ageless_keeps (i : SlotNo) : DistributionKeeps (·.Ageless i) where
  available _ _ h := h
  withdraw s p h d hd := by
    rcases withdrawAt_call p s i with hs | ⟨c, b, -, hc, -, hs⟩ <;> rw [hs] at hd
    · exact h d hd
    · cases hd
      cases b
      · rfl
      · exact h c hc
  depart s j c w h hc hw d hd := by
    obtain ⟨⟨o, hcall⟩, -⟩ := depart_waiting hc hw w
    rw [hcall] at hd
    split at hd
    · cases hd; rfl
    · exact h d hd
  offer s p j c h hc _ _ _ d hd := by
    rw [offerTo_call] at hd
    split at hd
    · rename_i hij; subst hij; rw [hc] at hd; cases hd; rfl
    · exact h d hd
  showing s p j c h hc _ _ _ _ d hd := by
    rw [showTo_call] at hd
    split at hd
    · rename_i hij; subst hij; rw [hc] at hd; cases hd; rfl
    · exact h d hd

/-- Distribution brings no offer age above 0. -/
theorem settle_ageless (h : s.Ageless i) : (settle s).Ageless i :=
  (ageless_keeps i).settle (fun _ h => (ageless_keeps i).recompute (fun _ _ _ h => h) h) h

/-! ## The masks (R45, R79, R81) -/

/-- The offer that position p holds is of a class of its mask in e. -/
def State.MaskedAt (s : State) (e : Plan) (p : PosNo) : Prop :=
  ∀ i c, (s.pos p).offer = some i → s.call i = some c → e.allows c.cls p = true

/-- Every offer is within the masks of the effective plan. -/
def State.Masked (s : State) : Prop := ∀ p, s.MaskedAt s.eff p

theorem State.MaskedAt.mono (h : s.MaskedAt e p) (ho : (t.pos p).offer = none ∨ (t.pos p).offer = (s.pos p).offer)
    (hc : ∀ i, (t.call i).map (·.cls) = (s.call i).map (·.cls)) : t.MaskedAt e p := by
  intro i d hi hd
  rcases ho with ho | ho <;> rw [ho] at hi
  · cases hi
  · have hcls := hc i
    rw [hd, Option.map_some, eq_comm, Option.map_eq_some_iff] at hcls
    obtain ⟨c, hcs, hcd⟩ := hcls
    rw [← hcd]; exact h i c hi hcs

theorem withdrawAt_maskedAt (h : s.MaskedAt e q) (p : PosNo) : (withdrawAt p s).MaskedAt e q :=
  h.mono (by rw [withdrawAt_offer]; split <;> [exact .inl rfl; exact .inr rfl]) (withdrawAt_cls p s)

/-- An offer given within the mask. -/
theorem masked_given {f : Call → Call} (h : s.Masked) (heff : t.eff = s.eff)
    (ho : ∀ q, (t.pos q).offer = if p = q then some i else (s.pos q).offer)
    (hcall : ∀ j, t.call j = if i = j then (s.call j).map f else s.call j) (hf : ∀ c, (f c).cls = c.cls)
    (hc : s.call i = some c) (hmask : s.eff.allows c.cls p = true) : t.Masked := by
  have hcls : ∀ j, (t.call j).map (·.cls) = (s.call j).map (·.cls) := fun j => by
    rw [hcall]
    split
    · cases s.call j with
      | none => rfl
      | some c => exact congrArg some (hf c)
    · rfl
  intro q
  rw [heff]
  by_cases hpq : p = q
  · subst hpq
    intro k d hk hd
    rw [ho, if_pos rfl] at hk
    cases hk
    rw [hcall, if_pos rfl, hc] at hd
    cases hd
    rw [hf]; exact hmask
  · exact (h q).mono (.inr (by rw [ho, if_neg hpq])) hcls

theorem masked_keeps : DistributionKeeps State.Masked where
  available _ _ h := h
  withdraw s p h q := by rw [withdrawAt_eff]; exact withdrawAt_maskedAt (h q) p
  depart s i c w h hc hw q := by
    obtain ⟨⟨o, hcall⟩, hpos, heff⟩ := depart_waiting hc hw w
    rw [heff]
    refine (h q).mono (.inr (by simp only [State.pos, hpos])) fun j => ?_
    rw [hcall]
    split
    · rename_i hij; subst hij; rw [hc]; rfl
    · rfl
  offer s p i c h hc _ hmask _ := masked_given h rfl (offerTo_offer p · i s) (offerTo_call p i · s)
    (fun _ => rfl) hc hmask
  showing s p i c h hc _ hmask _ _ := masked_given h rfl (showTo_offer p · i s) (showTo_call p i · s)
    (fun _ => rfl) hc hmask

/-- A withdrawal by the masks leaves none outside them, whatever stood before (R45). -/
theorem withdrawMasked_masked (s : State) : (withdrawMasked s).Masked := by
  refine foldl_positions (P := fun s q => s.MaskedAt s.eff q) (fun s p => ?_) (fun s p q h => ?_) s
  · split
    · rename_i hnone; intro i c hi; rw [hnone] at hi; cases hi
    · rename_i i hi
      split
      · rename_i hc; intro j c hj hcj; rw [hi] at hj; cases hj; rw [hc] at hcj; cases hcj
      · rename_i c hc
        split
        · rename_i hmask
          intro j d hj hd
          rw [hi] at hj; cases hj; rw [hc] at hd; cases hd
          exact hmask
        · intro j d hj
          rw [withdrawAt_offer, if_pos rfl] at hj; cases hj
  · split
    · exact h
    · split
      · exact h
      · split
        · exact h
        · rw [withdrawAt_eff]; exact withdrawAt_maskedAt h p

/-- A recompute that changes the mode or a mask leaves no offer outside the masks, and one that changes neither
keeps those within them. -/
theorem recompute_masked (h : plansDiffer s.eff (planInForce s.selection s.plans s.depth) = true ∨ s.Masked) :
    (recompute s).Masked := by
  cases hd : plansDiffer s.eff (planInForce s.selection s.plans s.depth) with
  | false =>
    rw [hd] at h
    have hs := h.resolve_left (by simp)
    rw [recompute_steady hd]
    intro q i c hi hc
    have hmask := hs q i c hi hc
    unfold Plan.allows at hmask ⊢
    rw [← (plansDiffer_false.1 hd).2]
    exact hmask
  | true =>
    unfold recompute
    dsimp only
    split
    · intro q i c hi
      rw [withdrawAll_clear] at hi; cases hi
    · split
      · exact withdrawMasked_masked _
      · rename_i hm hk
        simp_all [plansDiffer]

theorem settle_masked (h : s.Masked) : (settle s).Masked :=
  masked_keeps.settle (fun _ h => recompute_masked (.inr h)) h

/-! ## What a recompute takes from a call, and what it leaves it -/

/-- The call as it was, or with an offer of it withdrawn. -/
def Retained (c d : Call) : Prop := d = c ∨ ∃ b, d = c.withdrawn b

theorem Call.withdrawn_again (hst : (c.withdrawn true).state = .offered) (b : Bool) :
    (c.withdrawn true).withdrawn b = c.withdrawn b := by cases b <;> rfl

/-- A call of which one withdrawal has been made after another. -/
theorem withdrawAt_retained (h : ∃ d, s.call i = some d ∧ Retained c d) (p : PosNo) :
    ∃ d, (withdrawAt p s).call i = some d ∧ Retained c d := by
  obtain ⟨d, hd, hr⟩ := h
  rcases withdrawAt_call p s i with hs | ⟨d', b, -, hd', hst, hs⟩
  · exact ⟨d, hs.trans hd, hr⟩
  · rw [hd] at hd'; cases hd'
    refine ⟨_, hs, ?_⟩
    rcases hr with rfl | ⟨b', rfl⟩
    · exact .inr ⟨b, rfl⟩
    · cases b' with
      | true => exact .inr ⟨b, Call.withdrawn_again hst b⟩
      | false => cases hst

/-- The state in which a recompute withdraws: the plan and the band of the depth have been taken. -/
def State.replanned (s : State) : State :=
  { s with
    eff := planInForce s.selection s.plans s.depth
    band := bandInForce s.selection s.plans s.depth }

theorem recompute_of_mode (h : s.eff.mode ≠ s.replanned.eff.mode) : recompute s = withdrawAll s.replanned := by
  have h : s.eff.mode ≠ (planInForce s.selection s.plans s.depth).mode := h
  unfold recompute
  exact if_pos (by simpa using h)

theorem recompute_of_masks (hm : s.eff.mode = s.replanned.eff.mode) (hk : s.eff.masks ≠ s.replanned.eff.masks) :
    recompute s = withdrawMasked s.replanned := by
  have hm : s.eff.mode = (planInForce s.selection s.plans s.depth).mode := hm
  have hk : s.eff.masks ≠ (planInForce s.selection s.plans s.depth).masks := hk
  unfold recompute
  exact (if_neg (by simpa using hm)).trans (if_pos (by simpa using hk))

/-- A property of the state that withdrawals keep, whatever masks and modes bring them. -/
theorem recompute_keeps {P : State → Prop} (hw : ∀ s p, P s → P (withdrawAt p s)) (h : P s.replanned) :
    P (recompute s) := by
  unfold recompute
  dsimp only
  split
  · exact foldl_keeps _ (fun s p _ h => hw s p h) h
  · split
    · refine foldl_keeps _ (fun s p _ h => ?_) h
      split
      · exact h
      · split
        · exact h
        · split
          · exact h
          · exact hw s p h
    · exact h

/-- The call of slot i is c, held or not, or c with an offer withdrawn. -/
def State.Retains (s : State) (i : SlotNo) (c : Call) : Prop := ∃ d, s.call i = some d ∧ Retained c d

theorem recompute_retained (hc : s.call i = some c) : (recompute s).Retains i c :=
  recompute_keeps (P := (·.Retains i c)) (fun _ p h => withdrawAt_retained h p) ⟨c, hc, .inl rfl⟩

/-- The OFFERED call c of slot i is held by a position, or it is WAITING after its last withdrawal. -/
def State.HeldOrEnded (s : State) (i : SlotNo) (c : Call) : Prop :=
  (∃ d, s.call i = some d ∧ d.state = .offered ∧ Retained c d ∧ ∃ q, (s.pos q).offer = some i) ∨
    s.call i = some (c.withdrawn false)

theorem withdrawAt_heldOrEnded (h : s.HeldOrEnded i c) (p : PosNo) : (withdrawAt p s).HeldOrEnded i c := by
  rcases h with ⟨d, hd, hst, hr, q, hq⟩ | hended
  · obtain ⟨d', hd', hr'⟩ := withdrawAt_retained ⟨d, hd, hr⟩ p
    by_cases hp : (s.pos p).offer = some i
    · have hcall : (withdrawAt p s).call i = some (d.withdrawn ((setOffer p none s).shownAnywhere i)) := by
        rw [withdrawAt_eq hp hd hst, modCall_call, if_pos rfl, setOffer, setPos_call, hd]; rfl
      cases hshown : (setOffer p none s).shownAnywhere i with
      | true =>
        obtain ⟨k, hk⟩ := (shownAnywhere_iff _ i).1 hshown
        rw [hshown] at hcall
        rw [hcall] at hd'; cases hd'
        refine .inl ⟨_, hcall, hst, hr', k, ?_⟩
        rw [withdrawAt_offer]
        rwa [setOffer_offer] at hk
      | false =>
        rw [hshown] at hcall
        right
        rw [hcall]
        rcases hr with rfl | ⟨b, rfl⟩
        · rfl
        · cases b with
          | true => rw [Call.withdrawn_again hst]
          | false => cases hst
    · left
      have hcall : (withdrawAt p s).call i = s.call i := by
        rcases withdrawAt_call p s i with hs | ⟨_, _, hp', _⟩
        · exact hs
        · exact absurd hp' hp
      refine ⟨d, hcall.trans hd, hst, hr, q, ?_⟩
      rw [withdrawAt_offer, if_neg (fun hpq : p = q => hp (hpq ▸ hq))]
      exact hq
  · right
    rcases withdrawAt_call p s i with hs | ⟨e, _, _, he, hst, _⟩
    · exact hs.trans hended
    · rw [hended] at he; cases he; cases hst

/-- A change of mode withdraws every offer: an OFFERED call is WAITING, without preference or offer age (R44). -/
theorem recompute_ended (ho : s.OfferLaw) (hm : s.eff.mode ≠ s.replanned.eff.mode) (hc : s.call i = some c)
    (hst : c.state = .offered) : (recompute s).call i = some (c.withdrawn false) := by
  have h : (recompute s).HeldOrEnded i c := recompute_keeps (P := (·.HeldOrEnded i c))
    (fun _ p h => withdrawAt_heldOrEnded h p) (.inl ⟨c, hc, hst, .inl rfl, ho.held i c hc hst⟩)
  rcases h with ⟨_, _, _, _, q, hq⟩ | h
  · rw [recompute_of_mode hm, withdrawAll_clear] at hq; cases hq
  · exact h

/-- An offer of the call c of slot i to position p: the call is OFFERED with its offer and offer age. -/
structure OfferedTo (s : State) (p : PosNo) (i : SlotNo) (c : Call) : Prop where
  offer : (s.pos p).offer = some i
  record : ∃ d, s.call i = some d ∧ d.state = .offered ∧ d.offer = c.offer ∧ d.offerAge = c.offerAge ∧ d.cls = c.cls

theorem withdrawAt_offeredTo (h : OfferedTo s p i c) (hq : q ≠ p) : OfferedTo (withdrawAt q s) p i c := by
  obtain ⟨hoffer, d, hd, hst, ho, hage, hcls⟩ := h
  refine ⟨by rw [withdrawAt_offer, if_neg hq]; exact hoffer, ?_⟩
  by_cases hqi : (s.pos q).offer = some i
  · have hshown : (setOffer q none s).shownAnywhere i = true :=
      (shownAnywhere_iff _ i).2 ⟨p, by rw [setOffer_offer, if_neg hq]; exact hoffer⟩
    refine ⟨d.withdrawn true, ?_, hst, ho, hage, hcls⟩
    rw [withdrawAt_eq hqi hd hst, modCall_call, if_pos rfl, hshown, setOffer, setPos_call, hd]
    rfl
  · rcases withdrawAt_call q s i with hs | ⟨_, _, hqi', _⟩
    · exact ⟨d, hs.trans hd, hst, ho, hage, hcls⟩
    · exact absurd hqi' hqi

/-- A change of masks leaves an offer within the new mask (R45). -/
theorem withdrawMasked_offeredTo (h : OfferedTo s p i c) (hmask : s.eff.allows c.cls p = true) :
    OfferedTo (withdrawMasked s) p i c := by
  suffices hboth : OfferedTo (withdrawMasked s) p i c ∧ (withdrawMasked s).eff = s.eff from hboth.1
  refine foldl_keeps (P := fun t => OfferedTo t p i c ∧ t.eff = s.eff) _ (fun t q _ ⟨h, heff⟩ => ?_) ⟨h, rfl⟩
  split
  · exact ⟨h, heff⟩
  · rename_i j hj
    split
    · exact ⟨h, heff⟩
    · rename_i e he
      split
      · exact ⟨h, heff⟩
      · rename_i hout
        refine ⟨withdrawAt_offeredTo h fun hq => ?_, (withdrawAt_eff q t).trans heff⟩
        subst hq
        obtain ⟨hoffer, d, hd, -, -, -, hcls⟩ := h
        rw [hj] at hoffer; cases hoffer
        rw [he] at hd; cases hd
        rw [heff, hcls] at hout
        exact hout hmask

/-! ## The recompute for a new selection or new plans (R43 to R45) -/

theorem replan_of_steady (h : plansDiffer s.eff s.replanned.eff = false) : replan s = s.replanned := by
  have hrec : recompute s = s.replanned := recompute_steady h
  unfold replan
  dsimp only
  rw [hrec]
  exact if_neg (by rw [h]; simp)

theorem replan_of_change (h : plansDiffer s.eff s.replanned.eff = true) : replan s = settle (recompute s) := by
  unfold replan
  dsimp only
  rw [(recompute_plan s).1]
  exact if_pos h

/-- A call whose offers a change of mode has ended has no preference and no offer age, whatever distribution then
makes of it (R44, R84). -/
theorem replan_ended (ho : s.OfferLaw) (hm : s.eff.mode ≠ s.replanned.eff.mode) (hc : s.call i = some c)
    (hst : c.state = .offered) : ∃ d, (replan s).call i = some d ∧ d.preferred = none ∧ d.offerAge = 0 := by
  have hrec := recompute_ended ho hm hc hst
  rw [replan_of_change (by simp [plansDiffer, hm])]
  obtain ⟨d, hd, hpref⟩ := settleWith_waited _ (recompute s) i _ hrec (by simp [Call.withdrawn, Call.enter])
  refine ⟨d, hd, hpref, settle_ageless (i := i) (fun e he => ?_) d hd⟩
  rw [hrec] at he; cases he; rfl

/-- Where the depth cannot move, the plan after a recompute is that of the depth it found. -/
theorem settle_recompute_eff (h : s.selection ≠ .load ∨ s.nightFlag = false) :
    (settle (recompute s)).eff = s.replanned.eff := by
  have hrec := recompute_settled s
  have hsel : (recompute s).selection = s.selection := hrec.settings.selection
  have hplan := (settleWith_plan (fuel := (recompute s).depth) (s := recompute s)
    (by rw [hsel, hrec.nightFlag]; exact h)).1
  refine Eq.trans (show (settle (recompute s)).eff = _ from hplan) ?_
  unfold recomputeUnderLoad
  split
  · rw [(recompute_plan _).1, hsel, hrec.settings.plans, State.depth, (recompute_plan s).2]
    rfl
  · exact (recompute_plan s).1

/-- A change of masks under one mode keeps an offer within the new mask, with its offer age in SINGLE mode (R45,
R77, R81). -/
theorem replan_kept (hp : s.PlacesLaw) (hm : s.eff.mode = s.replanned.eff.mode)
    (hfix : s.selection ≠ .load ∨ s.nightFlag = false) (hav : s.eff.mode = .single ∨ s.isAvailable p = true)
    (hi : (s.pos p).offer = some i) (hc : s.call i = some c) (hmask : s.replanned.eff.allows c.cls p = true) :
    ((replan s).pos p).offer = some i ∧ ∃ d, (replan s).call i = some d ∧ d.state = .offered ∧
      (s.eff.mode = .single → d.offer = c.offer ∧ d.offerAge = c.offerAge) := by
  obtain ⟨c', hc', hst⟩ := hp.offers p i hi
  rw [hc] at hc'; cases hc'
  cases hd : plansDiffer s.eff s.replanned.eff with
  | false =>
    rw [replan_of_steady hd]
    exact ⟨hi, c, hc, hst, fun _ => ⟨rfl, rfl⟩⟩
  | true =>
    have hk : s.eff.masks ≠ s.replanned.eff.masks := fun hk => by
      rw [plansDiffer_false.2 ⟨hm, hk⟩] at hd; cases hd
    rw [replan_of_change hd]
    have hplan : (recompute s).eff = s.replanned.eff := (recompute_plan s).1
    have hset := recompute_settled s
    obtain ⟨hoffer, d, hdcall, hdst, hdo, hdage, -⟩ : OfferedTo (recompute s) p i c := by
      rw [recompute_of_masks hm hk]
      exact withdrawMasked_offeredTo ⟨hi, c, hc, hst, rfl, rfl, rfl⟩ hmask
    have hstand : Standing s.eff.mode i d (· = p) (recompute s) :=
      ⟨by rw [hplan, hm], ⟨d, hdcall, hdst, fun _ => rfl, .inl rfl⟩, fun q hq => by rw [hq]; exact hoffer,
        fun hcm q hq => by
          rw [hq, isAvailable_common (hset.positions p) hcm (by rw [hplan, ← hm]; exact hcm)]
          exact hav.resolve_left (by rw [hcm]; simp)⟩
    obtain ⟨-, ⟨e, he, hest, hsame, -⟩, hoffers, -⟩ := settle_standing_within hstand (fun _ => ⟨p, rfl⟩)
      (by rw [settle_recompute_eff hfix, hplan]; exact plansDiffer_false.2 ⟨rfl, rfl⟩)
      fun hl hn => by
        rw [hset.settings.selection] at hl
        rw [hset.nightFlag] at hn
        rcases hfix with hfix | hfix
        · exact absurd hl hfix
        · rw [hfix] at hn; cases hn
    refine ⟨hoffers p rfl, e, he, hest, fun hsingle => ?_⟩
    rw [hsame hsingle]; exact ⟨hdo, hdage⟩

/-- A recompute for a new selection or new plans, as R43 to R45 have it. -/
theorem replan_replanned (s : State) : Replanned s (replan s) := by
  have hset := replan_settled s
  have hplan := replan_planLaw s
  refine ⟨?_, ?_, hset.register, ⟨hset.lead, hset.nightFlag⟩, hset.orbits, hset.camps, hset.positions,
    replan_slots s, hset.queue, fun hd => ?_, fun _ ho hm i c => replan_ended ho hm, fun hd p i c hi hc => ?_,
    fun hp hm hfix p i c => replan_kept hp hm hfix⟩
  · rw [hplan.eff, hset.settings.selection, hset.settings.plans]
  · rw [hplan.band, hset.settings.selection, hset.settings.plans]
  · rw [replan_of_steady hd]; exact ⟨rfl, rfl, rfl, fun _ => rfl⟩
  · rw [replan_of_change hd] at hi hc ⊢
    exact settle_masked (recompute_masked (.inl hd)) p i c hi hc

end

end Sys2Proof.Machine
end

section
/-! PROOFS. The frame of an order around the work that re-evaluates the plan or the night flag: the link, the answer
and the end of the action change nothing that R43 to R45 and R77 speak of. -/
namespace Sys2Proof.Machine

section
variable {s t u v x : State} {i : SlotNo} {p : PosNo} {kind : Byte} {code : ResultCode}

/-! ## What an answer leaves -/

/-- Only the links, the switch list, the console sets and the counters differ: what hearing a frame and answering
it change. -/
def Spoken (s x : State) : Prop := ∃ a b l k n,
  x = { s with switchLink := a, consoleLinks := b, txList := l, consoles := k, counters := n }

theorem toldSwitch_spoken (s : State) (kind : Byte) (code : ResultCode) :
    Spoken s ((s.hearing .switch).toldSwitch kind code) := by
  rw [toldSwitch_writes]
  exact ⟨_, _, _, _, _, rfl⟩

theorem toldConsole_spoken (s : State) (p : PosNo) (r : ConsoleNotice) :
    Spoken s ((s.hearing (.console p)).toldConsole p r) := ⟨_, _, _, _, _, rfl⟩

/-! ## One slot -/

/-- What distribution may make of a slot reads the calls, the offers, the plans and the groups alone. -/
structure SameCalls (s x : State) : Prop where
  slots : x.slots = s.slots
  positions : x.positions = s.positions
  groups : x.groups = s.groups
  eff : x.eff = s.eff
  selection : x.selection = s.selection
  plans : x.plans = s.plans
  queue : x.queue = s.queue

theorem Spoken.sameCalls (h : Spoken s x) : SameCalls s x := by
  obtain ⟨_, _, _, _, _, rfl⟩ := h
  exact ⟨rfl, rfl, rfl, rfl, rfl, rfl, rfl⟩

theorem SlotSettled.of_sameCalls (hx : SameCalls s x) (h : SlotSettled x t i) : SlotSettled s t i := by
  have hcall : x.call i = s.call i := by simp only [State.call, hx.slots]
  have hpos : ∀ q, x.pos q = s.pos q := fun q => by simp only [State.pos, hx.positions]
  have hsteady : PlanSteady s t → PlanSteady x t := fun hs => by
    unfold PlanSteady State.depth at hs ⊢
    rw [hx.eff, hx.selection, hx.plans, hx.queue]; exact hs
  refine ⟨?_, fun c d hc => h.waited c d (hcall.trans hc), fun c hc hst hs => ?_⟩
  · have hp := h.passed
    unfold SlotPassed at hp ⊢
    rw [hcall, nightDestination_eq hx.groups] at hp
    exact hp
  · obtain ⟨hsingle, hcommon⟩ := h.stands c (hcall.trans hc) hst (hsteady hs)
    simp only [hpos, hx.eff] at hsingle hcommon
    exact ⟨hsingle, hcommon⟩

theorem Announced.offer (ha : Announced u t) (q : PosNo) : (t.pos q).offer = (u.pos q).offer := by
  rw [ha.positions]

theorem Announced.posState (ha : Announced u t) (q : PosNo) : (t.pos q).state = (u.pos q).state := by
  rw [ha.positions]

theorem Announced.isAvailable (ha : Announced u t) (q : PosNo) : t.isAvailable q = u.isAvailable q := by
  simp only [State.isAvailable, Position.hasEmptyLoop, Position.loop, ha.positions, ha.eff]

theorem Announced.depth (ha : Announced u t) : t.depth = u.depth := congrArg List.length ha.queue

theorem SlotSettled.announced (h : SlotSettled s u i) (ha : Announced u t) : SlotSettled s t i := by
  have hsteady : PlanSteady s t → PlanSteady s u := fun hs => by
    unfold PlanSteady at hs ⊢
    rw [← ha.eff, ← ha.nightFlag, ← ha.depth]; exact hs
  refine ⟨?_, fun c d hc hw hd => h.waited c d hc hw ((ha.call i).symm.trans hd), fun c hc hst hs => ?_⟩
  · have hp := h.passed
    unfold SlotPassed at hp ⊢
    rw [ha.call, ha.nightFlag]
    exact hp
  · obtain ⟨hsingle, hcommon⟩ := h.stands c hc hst (hsteady hs)
    simp only [← ha.call, ← ha.offer, ← ha.posState, ← ha.isAvailable] at hsingle hcommon
    exact ⟨hsingle, hcommon⟩

/-! ## The recompute of an order -/

theorem Replanned.of_spoken (hx : Spoken s x) (h : Replanned x t) : Replanned s t := by
  have hslots := fun i => (h.slots i).of_sameCalls hx.sameCalls
  obtain ⟨_, _, _, _, _, rfl⟩ := hx
  exact ⟨h.eff, h.band, ⟨h.register.tagIndex, h.register.origins, h.register.freeSlots⟩,
    ⟨h.group.lead, h.group.nightFlag⟩, h.orbits, h.camps, h.positions, hslots, h.queue, h.quiet,
    fun hp ho => h.ended ⟨hp.loops, hp.orbits, hp.offers, hp.consults⟩
      ⟨ho.single, ho.alone, ho.common, ho.held, ho.others⟩, h.masked,
    fun hp => h.kept ⟨hp.loops, hp.orbits, hp.offers, hp.consults⟩⟩

theorem Replanned.announced (h : Replanned s u) (ha : Announced u t) : Replanned s t := by
  have hreg := ha.register
  refine ⟨by rw [ha.eff, ha.depth, h.eff], by rw [ha.band, ha.depth, h.band],
    ⟨hreg.tagIndex.trans h.register.tagIndex, hreg.origins.trans h.register.origins,
      hreg.freeSlots.trans h.register.freeSlots⟩,
    ⟨ha.lead.trans h.group.lead, ha.nightFlag.trans h.group.nightFlag⟩, ha.orbits.trans h.orbits,
    ha.camps.trans h.camps, fun p => (h.positions p).trans (ha.positionKept p), fun i => (h.slots i).announced ha,
    by rw [ha.queue]; exact h.queue, fun hd => ?_, ?_, ?_, ?_⟩
  · obtain ⟨hslots, hqueue, hav, hoffer⟩ := h.quiet hd
    exact ⟨ha.slots.trans hslots, ha.queue.trans hqueue, ha.available.trans hav,
      fun p => (ha.offer p).trans (hoffer p)⟩
  · have := h.ended; simpa only [ha.call] using this
  · have := h.masked; simpa only [ha.call, ha.offer, ha.eff] using this
  · have := h.kept; simpa only [ha.call, ha.offer] using this

/-! ## The end of an order -/

/-- What an order of the switch has left alone where distribution, or nothing, and the end of the action follow. -/
theorem SwitchStarted.settled (h : SwitchStarted s u) (hset : Settled u v) (ha : Announced v t) :
    TakenFromSwitch s t := by
  have hconsole : ∀ q, v.console q = s.console q := fun q => by
    rw [State.console, hset.consoles, h.consoles]; rfl
  refine ⟨⟨(h.settings.trans hset.settings).trans ha.settings, (h.frames.trans hset.frames).trans ha.frames,
    fun k => (ha.link k).trans ((hset.links k).trans (h.links k)), fun q => ?_⟩, fun q => ?_⟩
  · rw [ha.sending, hconsole]
  · exact (ha.results q).trans (by rw [hconsole]; rfl)

theorem toldSwitch_started (s : State) (kind : Byte) (code : ResultCode) :
    SwitchStarted s ((s.hearing .switch).toldSwitch kind code) := by
  refine ⟨?_, ?_, fun k => ?_, ?_⟩
  all_goals unfold State.toldSwitch; split
  case refine_1.isTrue => constructor <;> rfl
  case refine_1.isFalse => constructor <;> rfl
  case refine_2.isTrue => exact ⟨[.result kind code], rfl, rfl⟩
  case refine_2.isFalse => exact .of_eq rfl rfl
  case refine_3.isTrue => cases k <;> rfl
  case refine_3.isFalse => rw [bump_link]
  case refine_4.isTrue => rfl
  case refine_4.isFalse => rfl

/-- The order of the switch is answered and then brings a change that distribution may bring. -/
theorem answeredThen_of_settled (hset : Settled ((s.hearing .switch).toldSwitch kind code) v)
    (ha : Announced v t) : TakenFromSwitch s t ∧ AnsweredThen s t kind code := by
  obtain ⟨htx, hcount⟩ := toldSwitch_congr (x := s) (w := s.hearing .switch) rfl rfl kind code
  refine ⟨(toldSwitch_started s kind code).settled hset ha, ?_, by rw [ha.counters, hset.counters, hcount]⟩
  rw [← htx]
  exact hset.txList.mono ha.txList ha.nightFlag ha.call

theorem AnsweredThen.congr (h : AnsweredThen x t kind code) (htx : x.txList = s.txList)
    (hcount : x.counters = s.counters) : AnsweredThen s t kind code := by
  obtain ⟨htold, hcounted⟩ := toldSwitch_congr htx hcount kind code
  unfold AnsweredThen at h ⊢
  rwa [← htold, ← hcounted]

/-- The order of console p is answered and then brings a change that distribution may bring. -/
theorem toldConsole_of_settled {seq : Byte} (hset : Settled ((s.hearing (.console p)).toldConsole p
      (.result seq kind code none)) v) (ha : Announced v t) :
    TakenFromConsole s t p (.result seq kind code none) ∧ RoutesJoin t s.txList ∧ t.counters = s.counters := by
  have hconsole : ∀ q, v.console q = if p = q then
      { s.console p with pending := (s.console p).pending ++ [.result seq kind code none] } else s.console q := by
    intro q
    rw [State.console, hset.consoles]
    exact setConsole_console (s := s.hearing (.console p)) ..
  have hresults : ∀ q, t.results q = v.results q := ha.results
  refine ⟨⟨⟨?_, ?_, fun k => ?_, fun q => ?_⟩, ?_, fun q hq => ?_⟩, ?_, ?_⟩
  · exact (SettingsKept.trans (t := (s.hearing (.console p)).toldConsole p (.result seq kind code none))
      (by constructor <;> rfl) hset.settings).trans ha.settings
  · exact (FramesJoin.trans (t := (s.hearing (.console p)).toldConsole p (.result seq kind code none))
      (.of_eq rfl rfl) hset.frames).trans ha.frames
  · rw [ha.link, hset.links]
    exact setConsole_link (s := s.hearing (.console p)) ..
  · rw [ha.sending, hconsole]
    split
    · rename_i h; rw [← h]
    · rfl
  · rw [hresults, State.results, hconsole, if_pos rfl, List.filter_append]
    rfl
  · rw [hresults, State.results, hconsole, if_neg (Ne.symm hq)]
    rfl
  · exact hset.txList.mono ha.txList ha.nightFlag ha.call
  · rw [ha.counters, hset.counters]; rfl

/-- The whole effect of an order of console p that is answered and does nothing the consoles are shown. -/
theorem consoleOrder_answered {f : State → State} {len : Nat} {r : ConsoleNotice} (h : s.Hears p)
    (hn : s.NewsClear) (hl : orderLength (.console p) kind = some len)
    (hf : f (s.hearing (.console p)) = (s.hearing (.console p)).toldConsole p r) :
    unlessHeld (consoleOrder p kind len f) s = .next ((s.hearing (.console p)).toldConsole p r).ended := by
  unfold unlessHeld
  rw [h.runs, consoleOrder_taken h hl]
  change Host.Outcome.next (announce (s.hearing (.console p)) (f (s.hearing (.console p)))) = _
  have hshown : ShownKept (s.hearing (.console p)) ((s.hearing (.console p)).toldConsole p r) :=
    ⟨rfl, rfl, rfl, rfl, rfl, rfl, rfl⟩
  rw [hf, announce_shownKept hshown hn]

theorem unlessHeld_consoleOrder {f : State → State} {len : Nat} (h : s.Hears p)
    (hl : orderLength (.console p) kind = some len) :
    unlessHeld (consoleOrder p kind len f) s = .next (act f (s.hearing (.console p))) := by
  unfold unlessHeld
  rw [h.runs, consoleOrder_taken h hl]
  rfl

/-- An order of the switch that writes the selection or the plans, answers and recomputes. -/
theorem switchOrder_replanned {f : State → State} {len : Nat} {x : State} (hr : s.Runs)
    (hl : orderLength .switch kind = some len)
    (hf : f (s.hearing .switch) = replan ((x.hearing .switch).toldSwitch kind code))
    (htx : x.txList = s.txList) (hcount : x.counters = s.counters) :
    ∃ t, unlessHeld (switchOrder kind len f) s = .next t ∧ TakenFromSwitch x t ∧ AnsweredThen s t kind code ∧
      Replanned x t := by
  have ha := act_announced f (s.hearing .switch)
  rw [hf] at ha
  obtain ⟨htaken, hanswered⟩ := answeredThen_of_settled (replan_settled _) ha
  refine ⟨_, unlessHeld_switchOrder hr hl, htaken, hanswered.congr htx hcount, ?_⟩
  exact ((replan_replanned _).of_spoken (toldSwitch_spoken x kind code)).announced ha

/-- The same from a console. -/
theorem consoleOrder_replanned {f : State → State} {len : Nat} {x : State} {seq : Byte} (h : s.Hears p)
    (hl : orderLength (.console p) kind = some len)
    (hf : f (s.hearing (.console p)) =
      replan ((x.hearing (.console p)).toldConsole p (.result seq kind code none))) :
    ∃ t, unlessHeld (consoleOrder p kind len f) s = .next t ∧
      TakenFromConsole x t p (.result seq kind code none) ∧ Replanned x t ∧ RoutesJoin t x.txList ∧
      t.counters = x.counters := by
  have ha := act_announced f (s.hearing (.console p))
  rw [hf] at ha
  obtain ⟨htaken, hroutes, hcount⟩ := toldConsole_of_settled (replan_settled _) ha
  refine ⟨_, unlessHeld_consoleOrder h hl, htaken, ?_, hroutes, hcount⟩
  exact ((replan_replanned _).of_spoken (toldConsole_spoken x p _)).announced ha

/-! ## The selection (R54) -/

theorem selectionArg_taken {b : Byte} {v : Selection}
    (h : (b, v) ∈ [((0 : Byte), Selection.manual .a), (1, .manual .b), (2, .manual .c), (3, .load)]) :
    selectionArg b = some v := by
  simp only [List.mem_cons, Prod.mk.injEq, List.not_mem_nil, or_false] at h
  rcases h with ⟨rfl, rfl⟩ | ⟨rfl, rfl⟩ | ⟨rfl, rfl⟩ | ⟨rfl, rfl⟩ <;> rfl

theorem selectionArg_refused {b : Byte} (h : 3 < b.toNat) : selectionArg b = none := by
  have hne : ∀ k : Byte, k.toNat ≤ 3 → b ≠ k := fun k hk hb => by rw [hb] at h; omega
  unfold selectionArg
  rw [if_neg (hne 0 (by decide)), if_neg (hne 1 (by decide)), if_neg (hne 2 (by decide)), if_neg (hne 3 (by decide))]

theorem planSelectOrder_taken {b : Byte} {v : Selection} (h : selectionArg b = some v) (s : State) :
    planSelectOrder b (s.hearing .switch) =
      replan ((State.hearing { s with selection := v } .switch).toldSwitch Kind.planSelect .accepted) := by
  unfold planSelectOrder
  rw [h, ← answerSwitch_told]
  rfl

theorem planSelectOrder_refused {b : Byte} (h : selectionArg b = none) (s : State) :
    planSelectOrder b s = answerSwitch Kind.planSelect .badRange s := by
  unfold planSelectOrder
  rw [h]

theorem selectOrder_taken {q b : Byte} {v : Selection} (hlead : s.lead = some p) (h : selectionArg b = some v) :
    selectOrder p q b (s.hearing (.console p)) =
      replan ((State.hearing { s with selection := v } (.console p)).toldConsole p
        (.result q Kind.select .accepted none)) := by
  unfold selectOrder
  rw [if_pos (show (s.hearing (.console p)).lead = some p from hlead), h]
  rfl

theorem selectOrder_badRange {q b : Byte} (hlead : s.lead = some p) (h : selectionArg b = none) :
    selectOrder p q b s = s.toldConsole p (.result q Kind.select .badRange none) := by
  unfold selectOrder
  rw [if_pos hlead, h]
  rfl

theorem selectOrder_notLead {q b : Byte} (hlead : s.lead ≠ some p) :
    selectOrder p q b s = s.toldConsole p (.result q Kind.select .notLead none) := if_neg hlead

end

end Sys2Proof.Machine

open Sys2Proof.Machine in
/-- Settles O32. A taken order is an answer and a recompute, `replan_replanned`; a refused one is its answer. -/
theorem selectionOrders : Obligations.SelectionOrders := by
  unfold Obligations.SelectionOrders
  intro s p seq b v hr
  refine ⟨fun hb => ?_, fun hn hb => ?_, fun hh => ⟨fun hlead hb => ?_, fun hn hlead hb => ?_, fun hn hlead => ?_⟩⟩
  · exact switchOrder_replanned (x := { s with selection := v }) hr rfl
      (planSelectOrder_taken (selectionArg_taken hb) s) rfl rfl
  · exact switchOrder_answered hr hn rfl (.refl s) (planSelectOrder_refused (selectionArg_refused hb) _)
  · exact consoleOrder_replanned (x := { s with selection := v }) hh rfl
      (selectOrder_taken hlead (selectionArg_taken hb))
  · exact consoleOrder_answered hh hn rfl
      (selectOrder_badRange (s := s.hearing (.console p)) hlead (selectionArg_refused hb))
  · exact consoleOrder_answered hh hn rfl (selectOrder_notLead (s := s.hearing (.console p)) hlead)

namespace Sys2Proof.Machine

section
variable {s : State}

/-! ## The release and the abandoning of the staging list (R51, R52) -/

theorem planReleaseOrder_notHeld (h : s.staging = none) :
    planReleaseOrder s = answerSwitch Kind.planRelease .notHeld s := by
  unfold planReleaseOrder
  rw [h]

theorem planReleaseOrder_valid {edits : List Edit} (h : s.staging = some edits)
    (hv : (edits.foldl Plans.apply s.plans).thresholds.valid = true) :
    planReleaseOrder (s.hearing .switch) = replan ((State.hearing { s with
      plans := edits.foldl Plans.apply s.plans, staging := none } .switch).toldSwitch Kind.planRelease .accepted) := by
  unfold planReleaseOrder
  rw [show (s.hearing .switch).staging = some edits from h, ← answerSwitch_told]
  exact if_pos hv

theorem planReleaseOrder_invalid {edits : List Edit} (h : s.staging = some edits)
    (hv : (edits.foldl Plans.apply s.plans).thresholds.valid = false) :
    planReleaseOrder s = answerSwitch Kind.planRelease .badThresholds { s with staging := none } := by
  unfold planReleaseOrder
  rw [h]
  exact if_neg (by rw [show (s.plans.applyAll edits).thresholds.valid = false from hv]; simp)

theorem planAbandonOrder_notHeld (h : s.staging = none) :
    planAbandonOrder s = answerSwitch Kind.planAbandon .notHeld s := by
  unfold planAbandonOrder
  rw [h]

theorem planAbandonOrder_held {edits : List Edit} (h : s.staging = some edits) :
    planAbandonOrder s = answerSwitch Kind.planAbandon .accepted { s with staging := none } := by
  unfold planAbandonOrder
  rw [h]

end

end Sys2Proof.Machine

open Sys2Proof.Machine in
/-- Settles O31. -/
theorem planReleaseAndAbandon : Obligations.PlanReleaseAndAbandon := by
  unfold Obligations.PlanReleaseAndAbandon
  intro s hr
  refine ⟨fun hn hs => ⟨?_, ?_⟩, fun edits hs => ⟨fun hv => ?_, fun hn hv => ?_, fun hn => ?_⟩⟩
  · exact switchOrder_answered hr hn rfl (.refl s) (planReleaseOrder_notHeld (s := s.hearing .switch) hs)
  · exact switchOrder_answered hr hn rfl (.refl s) (planAbandonOrder_notHeld (s := s.hearing .switch) hs)
  · exact switchOrder_replanned (x := { s with plans := edits.foldl Plans.apply s.plans, staging := none }) hr rfl
      (planReleaseOrder_valid hs hv) rfl rfl
  · exact switchOrder_answered hr hn rfl (staging_shownKept none s)
      (planReleaseOrder_invalid (s := s.hearing .switch) hs hv)
  · exact switchOrder_answered hr hn rfl (staging_shownKept none s)
      (planAbandonOrder_held (s := s.hearing .switch) hs)

end

section
/-! PROOFS. PLAN_WRITE: the numbers of the fields, the ranges, what an edit writes, and the order itself (R38, R47,
R49, R50, R167). -/
namespace Sys2Proof.Machine

/-! ## The numbers of the targets (R167) -/

/-- The fields of the three plans by number. -/
theorem editTargetArg_fields : ∀ (n : Fin 3) (k : ClassNo),
    let name := #v[PlanName.a, .b, .c][n]
    let g := fun b : Byte => editTargetArg (BitVec.ofNat 8 n.val) b
    g 0 = some (.field name .mode) ∧ g (BitVec.ofNat 8 (1 + k.val)) = some (.field name (.mask k)) ∧
    g (BitVec.ofNat 8 (9 + k.val)) = some (.field name (.weight k)) ∧
    g 17 = some (.field name .gain) ∧ g 18 = some (.field name .bonus) ∧
    g 19 = some (.field name .offerLimit) ∧ g 20 = some (.field name .missLimit) ∧
    g 21 = some (.field name .holdLimit) ∧ g 22 = some (.field name .parkLimit) ∧
    g 23 = some (.field name .ringLimit) ∧ g 24 = some (.field name .campLimit) ∧
    g 25 = some (.field name .waitLimit) ∧ g 26 = some (.field name .queueLimit) ∧
    g 27 = some (.field name .overflow) := by decide

theorem editTargetArg_threshold : ∀ k : Fin 4, editTargetArg 3 (BitVec.ofNat 8 k.val) = some (.threshold k) := by
  decide

/-- No field has a number above 27. -/
theorem planFieldArg_none {b : Byte} (h : 27 < b.toNat) : planFieldArg b = none := by
  unfold planFieldArg
  dsimp only
  rw [if_neg (by omega), if_neg (by omega), if_neg (by omega)]
  split
  case h_12 => rfl
  all_goals omega

theorem editTargetArg_noField {a b : Byte} (ha : a ≠ 3) (h : 27 < b.toNat) : editTargetArg a b = none := by
  unfold editTargetArg
  rw [planFieldArg_none h, if_neg ha]
  simp

theorem planNumber_ne : ∀ n : Fin 3, BitVec.ofNat 8 n.val ≠ (3 : Byte) := by decide

theorem editTargetArg_noThreshold {b : Byte} (h : 3 < b.toNat) : editTargetArg 3 b = none := by
  unfold editTargetArg
  rw [if_neg (by decide), if_neg (by decide), if_neg (by decide), if_pos rfl]
  exact dif_neg (by omega)

theorem editTargetArg_noTarget {a b : Byte} (h : 3 < a.toNat) : editTargetArg a b = none := by
  have hne : ∀ k : Byte, k.toNat ≤ 3 → a ≠ k := fun k hk ha => by rw [ha] at h; omega
  unfold editTargetArg
  rw [if_neg (hne 0 (by decide)), if_neg (hne 1 (by decide)), if_neg (hne 2 (by decide)),
    if_neg (hne 3 (by decide))]

/-! ## What an edit writes (R50, R51) -/

theorem Plans.get_put (ps : Plans) (n m : PlanName) (x : Plan) :
    (ps.put n x).get m = if n = m then x else ps.get m := by
  cases n <;> cases m <;> rfl

theorem apply_field (ps : Plans) (n : PlanName) (f : PlanField) (v : Nat) (m : PlanName) :
    (ps.apply { target := .field n f, value := v }).get m =
      if n = m then (ps.get n).put f v else ps.get m := Plans.get_put ps n m _

theorem apply_threshold (ps : Plans) (k : Fin 4) (v : Nat) :
    let t := ps.thresholds
    ps.apply { target := .threshold k, value := v } = { ps with
      thresholds := #v[{ t with t1 := v }, { t with t2 := v }, { t with t3 := v }, { t with t4 := v }][k] } := by
  match k with
  | 0 => rfl
  | 1 => rfl
  | 2 => rfl
  | 3 => rfl

/-! ## The order (R47, R49, R50) -/

section
variable {s : State} {a b : Byte} {value : Half} {e : EditTarget} {v : Nat}

theorem clampCode_eq {code : ResultCode} (ha : e.clamp v = v → code = .accepted)
    (hc : e.clamp v ≠ v → code = .clamped) : clampCode e v = code := by
  unfold clampCode
  split
  · exact (ha ‹_›).symm
  · exact (hc ‹_›).symm

theorem planWriteOrder_noTarget (h : editTargetArg a b = none) :
    planWriteOrder a b value s = answerSwitch Kind.planWrite .badRange s := by
  unfold planWriteOrder
  rw [h]

theorem planWriteOrder_full {edits : List Edit} (h : editTargetArg a b = some e) (hs : s.staging = some edits)
    (hlen : 32 ≤ edits.length) : planWriteOrder a b value s = answerSwitch Kind.planWrite .stageFull s := by
  unfold planWriteOrder
  rw [h]
  dsimp only
  rw [hs]
  exact if_pos hlen

theorem planWriteOrder_staged {edits : List Edit} (h : editTargetArg a b = some e) (hs : s.staging = some edits)
    (hlen : edits.length < 32) : planWriteOrder a b value s =
      answerSwitch Kind.planWrite (clampCode e value.toNat)
        { s with staging := some (edits ++ [{ target := e, value := e.clamp value.toNat }]) } := by
  unfold planWriteOrder
  rw [h]
  dsimp only
  rw [hs]
  exact if_neg (Nat.not_le.2 hlen)

theorem planWriteOrder_notHeld (h : editTargetArg a b = some e) (hs : s.staging = none)
    (hservice : s.service = .service) : planWriteOrder a b value s = answerSwitch Kind.planWrite .notHeld s := by
  unfold planWriteOrder
  rw [h]
  dsimp only
  rw [hs]
  exact if_neg (by rw [hservice]; decide)

theorem planWriteOrder_standby (h : editTargetArg a b = some e) (hs : s.staging = none)
    (hservice : s.service = .standby) : planWriteOrder a b value s = writeNow e value.toNat s := by
  unfold planWriteOrder
  rw [h]
  dsimp only
  rw [hs]
  exact if_pos hservice

theorem writeNow_allowed
    (h : (∃ n f, e = .field n f) ∨
      (s.plans.apply { target := e, value := e.clamp v }).thresholds.valid = true) :
    writeNow e v (s.hearing .switch) = replan ((State.hearing { s with
      plans := s.plans.apply { target := e, value := e.clamp v } } .switch).toldSwitch Kind.planWrite
        (clampCode e v)) := by
  have hallowed : writeAllowed e (s.plans.apply { target := e, value := e.clamp v }) = true := by
    rcases h with ⟨n, f, rfl⟩ | h
    · rfl
    · cases e with
      | field => rfl
      | threshold => exact h
  unfold writeNow
  rw [← answerSwitch_told]
  exact if_pos hallowed

theorem writeNow_refused {k : Fin 4} (he : e = .threshold k)
    (h : (s.plans.apply { target := e, value := e.clamp v }).thresholds.valid = false) :
    writeNow e v s = answerSwitch Kind.planWrite .badThresholds s := by
  subst he
  unfold writeNow
  exact if_neg (by unfold writeAllowed; simp [h])

end

end Sys2Proof.Machine

open Sys2Proof Sys2Proof.Machine in
/-- Settles O30. The numbers, the ranges and the written fields are case splits along the tables; the order is an
answer, with the list of edits written, or an answer and a recompute. -/
theorem planWrite : Obligations.PlanWrite := by
  unfold Obligations.PlanWrite
  refine ⟨⟨fun n k b => ?_, fun k b c => ⟨editTargetArg_threshold k, editTargetArg_noThreshold,
    editTargetArg_noTarget⟩⟩, ⟨fun n f => ?_, fun _ => rfl, fun ps n m f v => ?_, apply_threshold⟩,
    fun s a b value hr hn => ?_, fun s a b value g hr hservice hs hg => ?_⟩
  · obtain ⟨h0, h1, h2, h3, h4, h5, h6, h7, h8, h9, h10, h11, h12, h13⟩ := editTargetArg_fields n k
    exact ⟨h0, h1, h2, h3, h4, h5, h6, h7, h8, h9, h10, h11, h12, h13,
      editTargetArg_noField (planNumber_ne n)⟩
  · cases f <;> rfl
  · refine ⟨apply_field_thresholds ps n f v, fun hm => ?_, ?_⟩
    · rw [apply_field, if_neg (Ne.symm hm)]
    · rw [apply_field, if_pos rfl]; cases f <;> rfl
  · refine ⟨fun hg => ?_, fun g edits hg hs => ⟨fun hlen => ?_, fun hlen code hacc hclamp => ?_⟩,
      fun g hg hs hservice => ?_⟩
    · exact switchOrder_answered hr hn rfl (.refl s) (planWriteOrder_noTarget hg)
    · exact switchOrder_answered hr hn rfl (.refl s) (planWriteOrder_full (s := s.hearing .switch) hg hs hlen)
    · rw [← clampCode_eq hacc hclamp]
      exact switchOrder_answered hr hn rfl (staging_shownKept _ s)
        (planWriteOrder_staged (s := s.hearing .switch) hg hs hlen)
    · exact switchOrder_answered hr hn rfl (.refl s)
        (planWriteOrder_notHeld (s := s.hearing .switch) hg hs hservice)
  · have horder := planWriteOrder_standby (s := s.hearing .switch) (value := value) hg hs hservice
    refine ⟨fun hv code hacc hclamp => ?_, fun k hk hv hn => ?_⟩
    · rw [← clampCode_eq hacc hclamp]
      exact switchOrder_replanned (x := { s with
        plans := s.plans.apply { target := g, value := g.clamp value.toNat } }) hr rfl
        (horder.trans (writeNow_allowed hv)) rfl rfl
    · exact switchOrder_answered hr hn rfl (.refl s)
        (horder.trans (writeNow_refused (s := s.hearing .switch) hk hv))

end

section
/-! PROOFS. NIGHT: the setting, the flag, the calls that are routed away when it turns ON, and the offers that stand
(R55 to R57, R77, R78). -/
namespace Sys2Proof.Machine

section
variable {s t u x y z : State} {i : SlotNo} {p q : PosNo} {c : Call} {v : NightSetting}

/-! ## Night routing takes every WAITING call with a destination (R78) -/

/-- A call that is not OFFERED is what it was after the withdrawals. -/
theorem withdrawAt_unoffered_call (hst : c.state ≠ .offered) (p : PosNo) (h : s.call i = some c) :
    (withdrawAt p s).call i = some c := by
  rcases withdrawAt_call p s i with hs | ⟨d, _, _, hd, hd', _⟩
  · exact hs.trans h
  · rw [h] at hd; cases hd; exact absurd hd' hst

theorem recompute_unoffered_call (hst : c.state ≠ .offered) (h : s.call i = some c) :
    (recompute s).call i = some c :=
  recompute_keeps (P := fun t => t.call i = some c) (fun _ p => withdrawAt_unoffered_call hst p) h

theorem dropShowings_unoffered_call (hst : c.state ≠ .offered) (h : s.call i = some c) :
    (dropShowings s).call i = some c := by
  unfold dropShowings
  split
  · refine foldl_keeps (P := fun t => t.call i = some c) _ (fun t p _ h => ?_) h
    split
    · exact h
    · exact withdrawAt_unoffered_call hst p h
  · exact h

/-- The call of slot i is DEPARTING. -/
def State.Departing (s : State) (i : SlotNo) : Prop := ∃ d, s.call i = some d ∧ d.state = .departing

theorem Settled.departing (h : Settled s t) (hs : s.Departing i) : t.Departing i := by
  obtain ⟨d, hd, hst⟩ := hs
  have hp := h.slots i
  unfold SlotPassed at hp
  rw [hd] at hp
  exact ⟨d, by simpa [hst, CallState.queued] using hp, hst⟩

/-- One step of night routing, for the call of slot i. -/
def nightStep (s : State) (i : SlotNo) : State :=
  match s.call i with
  | none => s
  | some c =>
    let d := s.nightDestination c.origin
    if c.state = .waiting ∧ d ≠ 0 then depart i none (.away d) s else s

theorem nightRoute_eq (s : State) : nightRoute s = s.queue.foldl nightStep s := rfl

theorem nightStep_settled (hn : s.nightFlag = true) (i : SlotNo) : Settled s (nightStep s i) := by
  unfold nightStep
  split
  · exact .refl s
  · rename_i c hc
    dsimp only
    split
    · rename_i h; exact depart_away_settled i s c hc h.1 h.2 hn
    · exact .refl s

theorem nightSteps_settled (hn : s.nightFlag = true) (l : List SlotNo) : Settled s (l.foldl nightStep s) := by
  induction l generalizing s with
  | nil => exact .refl s
  | cons i l ih =>
    have h := nightStep_settled hn i
    exact h.trans (ih (h.nightFlag.trans hn))

/-- The step of another slot leaves a call alone. -/
theorem nightStep_other {j : SlotNo} (hij : j ≠ i) : (nightStep s j).call i = s.call i := by
  unfold nightStep
  split
  · rfl
  · rename_i c hc
    dsimp only
    split
    · rename_i h
      obtain ⟨⟨o, hcall⟩, -⟩ := depart_waiting hc h.1 (.away (s.nightDestination c.origin))
      rw [hcall, if_neg hij]
    · rfl

theorem nightStep_departs (hc : s.call i = some c) (hw : c.state = .waiting)
    (hd : s.nightDestination c.origin ≠ 0) : (nightStep s i).Departing i := by
  unfold nightStep
  rw [hc]
  dsimp only
  rw [if_pos ⟨hw, hd⟩]
  obtain ⟨⟨o, hcall⟩, -⟩ := depart_waiting hc hw (.away (s.nightDestination c.origin))
  exact ⟨_, by rw [hcall, if_pos rfl], rfl⟩

theorem nightRoute_departs (hn : s.nightFlag = true) (hc : s.call i = some c) (hw : c.state = .waiting)
    (hd : s.nightDestination c.origin ≠ 0) (hi : i ∈ s.queue) : (nightRoute s).Departing i := by
  rw [nightRoute_eq]
  generalize s.queue = l at hi
  induction l generalizing s with
  | nil => cases hi
  | cons j l ih =>
    rw [List.foldl_cons]
    have hset := nightStep_settled hn j
    have hn' := hset.nightFlag.trans hn
    by_cases hij : j = i
    · subst hij
      exact (nightSteps_settled hn' l).departing (nightStep_departs hc hw hd)
    · exact ih hn' ((nightStep_other hij).trans hc) (by rw [nightDestination_eq hset.settings.groups]; exact hd)
        ((List.mem_cons.1 hi).resolve_left (Ne.symm hij))

/-- With the flag ON distribution routes every WAITING call of the queue that has a destination. -/
theorem settle_departs (hn : s.nightFlag = true) (hc : s.call i = some c) (hw : c.state = .waiting)
    (hd : s.nightDestination c.origin ≠ 0) (hi : i ∈ s.queue) : (settle s).Departing i := by
  have hst : c.state ≠ .offered := by rw [hw]; decide
  have hstart := ((recomputeUnderLoad_settled s).trans (rejudge_settled _)).trans (dropShowings_settled _)
  have hload : (recomputeUnderLoad s).call i = some c ∧ (recomputeUnderLoad s).queue = s.queue := by
    unfold recomputeUnderLoad
    split
    · exact ⟨recompute_unoffered_call hst hc, (recompute_plan s).2⟩
    · exact ⟨hc, rfl⟩
  have hcall := dropShowings_unoffered_call (s := rejudge (recomputeUnderLoad s)) hst hload.1
  have hqueue : (dropShowings (rejudge (recomputeUnderLoad s))).queue = s.queue :=
    (dropShowings_plan _).queue.trans hload.2
  unfold settle settleWith
  dsimp only
  generalize dropShowings (rejudge (recomputeUnderLoad s)) = w at hstart hcall hqueue
  have hwn : w.nightFlag = true := hstart.nightFlag.trans hn
  have hrouted := nightRoute_departs hwn hcall hw
    (by rw [nightDestination_eq hstart.settings.groups]; exact hd) (hqueue ▸ hi)
  rw [if_pos hwn]
  split
  · exact (settleWith_settled _ _).departing hrouted
  · exact (distribute_settled _).departing hrouted

/-! ## The setting and the flag -/

/-- The state that a NIGHT judges: the setting and the flag have been written and the order answered. -/
def State.nightSet (s : State) (v : NightSetting) : State :=
  { s with nightSetting := v, nightFlag := nightFlagOf v s.positions }

/-- What a taken NIGHT brings about. -/
structure NightJudged (s : State) (v : NightSetting) (t : State) : Prop where
  flag : t.nightFlag = nightFlagOf v s.positions
  lead : t.lead = s.lead
  register : RegisterKept s t
  orbits : t.orbits = s.orbits
  camps : t.camps = s.camps
  positions : ∀ q, PositionKept (s.pos q) (t.pos q)
  slots : ∀ i, SlotSettled s t i
  steady : nightFlagOf v s.positions = s.nightFlag →
    t.slots = s.slots ∧ t.queue = s.queue ∧ t.available = s.available
  byDay : nightFlagOf v s.positions = false → t.queue = s.queue ∧ ∀ i c, s.call i = some c →
    c.state.queued = true → ∃ d, t.call i = some d ∧ d.state.queued = true
  byNight : nightFlagOf v s.positions = true → s.nightFlag = false → s.QueueLaw → ∀ i c, s.call i = some c →
    c.state = .waiting → s.nightDestination c.origin ≠ 0 →
    ∃ d, t.call i = some d ∧ d.state = .departing ∧ d.wanted = .away (s.nightDestination c.origin)
  stands : PlanSteady s t → ∀ i c q, s.call i = some c → c.state = .offered → (s.pos q).offer = some i →
    (s.eff.mode = .single ∨ s.isAvailable q = true) → (t.pos q).offer = some i ∧ (i ∈ s.queue → i ∈ t.queue) ∧
      ∃ d, t.call i = some d ∧ d.state = .offered ∧ (s.eff.mode = .single → d = c)

/-- An order that judges the night flag again: distribution follows where the flag changed. -/
theorem setNight_eq (v : NightSetting) (s : State) : setNight v s =
    if nightFlagOf v s.positions = s.nightFlag then s.nightSet v else settle (s.nightSet v) := rfl

theorem SlotSettled.refl (s : State) (i : SlotNo) : SlotSettled s s i :=
  ⟨(Settled.refl s).slots i, fun _ _ hc _ hd => by rw [hc] at hd; cases hd; rfl,
    fun c hc ho _ => ⟨fun _ _ => ⟨hc, fun _ hq => hq⟩, fun _ _ hq _ => ⟨hq, c, hc, ho, .inl rfl⟩⟩⟩

/-- Where no call is routed away the queue is kept whole. -/
theorem settle_queue (hn : s.nightFlag = false) : (settle s).queue = s.queue :=
  (settle_settled s).queue.eq_of_length ((settleWith_plan (fuel := s.depth) (.inr hn)).2 hn)

/-- What distribution does where the flag changed, and nothing where it did not. -/
structure NightSettled (y z : State) : Prop where
  settled : Settled y z
  slots : ∀ i, SlotSettled y z i
  queueing : Queueing y z
  byDay : y.nightFlag = false → z.queue = y.queue
  stands : ∀ {m i c P}, PlanSteady y z → Standing m i c P y → (m = .common → ∃ q, P q) → Standing m i c P z

theorem NightSettled.refl (y : State) : NightSettled y y :=
  ⟨.refl y, .refl y, .of_eq rfl, fun _ => rfl, fun _ h _ => h⟩

theorem settle_nightSettled (y : State) : NightSettled y (settle y) :=
  ⟨settle_settled y, settle_slots y, settleWith_queueing _ y, settle_queue, fun hs h hP => settle_standing h hP hs⟩

/-- The flag turns ON only with distribution, which then routes the calls; the rest follows from distribution alone. -/
theorem nightJudged_of (hy : Spoken (s.nightSet v) y) (hz : NightSettled y z)
    (hsame : nightFlagOf v s.positions = s.nightFlag → z = y)
    (hother : nightFlagOf v s.positions ≠ s.nightFlag → z = settle y) (ha : Announced z t) : NightJudged s v t := by
  have hcalls : SameCalls s y := by
    obtain ⟨_, _, _, _, _, rfl⟩ := hy
    exact ⟨rfl, rfl, rfl, rfl, rfl, rfl, rfl⟩
  have hcall : ∀ i, y.call i = s.call i := fun i => by simp only [State.call, hcalls.slots]
  have hpos : ∀ q, y.pos q = s.pos q := fun q => by simp only [State.pos, hcalls.positions]
  have hflag : y.nightFlag = nightFlagOf v s.positions := by obtain ⟨_, _, _, _, _, rfl⟩ := hy; rfl
  have hkept : y.lead = s.lead ∧ RegisterKept s y ∧ y.orbits = s.orbits ∧ y.camps = s.camps ∧
      y.available = s.available := by
    obtain ⟨_, _, _, _, _, rfl⟩ := hy
    exact ⟨rfl, ⟨rfl, rfl, rfl⟩, rfl, rfl, rfl⟩
  obtain ⟨hlead, hreg, horbits, hcamps, hav⟩ := hkept
  have hset := hz.settled
  have hareg := ha.register
  have hdest : y.nightDestination = s.nightDestination := nightDestination_eq hcalls.groups
  have hslots : ∀ i, SlotSettled s t i := fun i => ((hz.slots i).of_sameCalls hcalls).announced ha
  have htflag : t.nightFlag = nightFlagOf v s.positions := ha.nightFlag.trans (hset.nightFlag.trans hflag)
  refine
    { flag := htflag
      lead := ha.lead.trans (hset.lead.trans hlead)
      register := ⟨hareg.tagIndex.trans (hset.register.tagIndex.trans hreg.tagIndex),
        hareg.origins.trans (hset.register.origins.trans hreg.origins),
        hareg.freeSlots.trans (hset.register.freeSlots.trans hreg.freeSlots)⟩
      orbits := ha.orbits.trans (hset.orbits.trans horbits)
      camps := ha.camps.trans (hset.camps.trans hcamps)
      positions := fun q => by rw [← hpos q]; exact (hset.positions q).trans (ha.positionKept q)
      slots := hslots
      steady := fun hf => ?_
      byDay := fun hf => ⟨?_, fun i c hc hq => ?_⟩
      byNight := fun hf hoff hq i c hc hw hd => ?_
      stands := fun hsteady i c q hc ho hq hav' => ?_ }
  · rw [hsame hf] at ha
    exact ⟨ha.slots.trans hcalls.slots, ha.queue.trans hcalls.queue, ha.available.trans hav⟩
  · exact ha.queue.trans ((hz.byDay (hflag.trans hf)).trans hcalls.queue)
  · have hp := (hslots i).passed
    unfold SlotPassed at hp
    rw [hc] at hp
    dsimp only at hp
    rw [if_pos hq] at hp
    obtain ⟨d, hd, hr⟩ := hp
    refine ⟨d, hd, (queued_iff _).2 ?_⟩
    rcases hr.state with h | h | h
    · exact .inl h
    · exact .inr h
    · have := (hr.routed h).1; rw [htflag, hf] at this; cases this
  · have hne : nightFlagOf v s.positions ≠ s.nightFlag := by rw [hf, hoff]; decide
    have hi : i ∈ y.queue := by rw [hcalls.queue]; exact (hq.listed i).2 ⟨c, hc, by rw [hw]; rfl⟩
    have hdep := settle_departs (hflag.trans hf) ((hcall i).trans hc) hw (by rw [hdest]; exact hd) hi
    rw [← hother hne] at hdep
    obtain ⟨d, hdz, hst⟩ := hdep
    have hdt : t.call i = some d := (ha.call i).trans hdz
    have hp := (hslots i).passed
    unfold SlotPassed at hp
    rw [hc] at hp
    dsimp only at hp
    rw [if_pos (by rw [hw]; rfl), hdt] at hp
    obtain ⟨e, he, hr⟩ := hp
    cases he
    obtain ⟨-, -, -, -, hwanted, -⟩ := hr.routed hst
    exact ⟨d, hdt, hst, hwanted⟩
  · have hyz : PlanSteady y z := by
      unfold PlanSteady State.depth at hsteady ⊢
      rw [hcalls.eff, hcalls.selection, hcalls.plans, hcalls.queue, ← ha.eff, ← ha.nightFlag, ← ha.queue]
      exact hsteady
    have hstand : Standing s.eff.mode i c (· = q) y :=
      ⟨by rw [hcalls.eff], ⟨c, (hcall i).trans hc, ho, fun _ => rfl, .inl rfl⟩,
        fun k hk => by rw [hk, hpos]; exact hq,
        fun hcm k hk => by
          rw [hk, isAvailable_common (s := s) (by rw [hpos]; exact .refl _) hcm (by rw [hcalls.eff]; exact hcm)]
          exact hav'.resolve_left (by rw [hcm]; decide)⟩
    obtain ⟨-, ⟨d, hd, hdst, hdc, -⟩, hoffers, -⟩ := hz.stands hyz hstand (fun _ => ⟨q, rfl⟩)
    refine ⟨(ha.offer q).trans (hoffers q rfl), fun hi => ?_, d, (ha.call i).trans hd, hdst, hdc⟩
    rw [ha.queue]
    rcases hz.queueing i (by rw [hcalls.queue]; exact hi) with h | ⟨e, he, hest⟩
    · exact h
    · rw [hd] at he; cases he; rw [hdst] at hest; cases hest

/-! ## The orders (R55) -/

theorem setNight_settled (v : NightSetting) (s : State) :
    NightSettled (s.nightSet v) (setNight v s) := by
  rw [setNight_eq]
  split
  · exact .refl _
  · exact settle_nightSettled _

/-- A NIGHT that has been answered in w, on whichever link. -/
theorem setNight_judged {w : State} (hw : Spoken s w) (ha : Announced (setNight v w) t) : NightJudged s v t := by
  have hpos : w.positions = s.positions ∧ w.nightFlag = s.nightFlag := by
    obtain ⟨_, _, _, _, _, rfl⟩ := hw; exact ⟨rfl, rfl⟩
  have hy : Spoken (s.nightSet v) (w.nightSet v) := by
    obtain ⟨_, _, _, _, _, rfl⟩ := hw; exact ⟨_, _, _, _, _, rfl⟩
  have heq := setNight_eq v w
  rw [hpos.1, hpos.2] at heq
  exact nightJudged_of hy (setNight_settled v w) (fun hf => heq.trans (if_pos hf))
    (fun hf => heq.trans (if_neg hf)) ha

theorem nightArg_taken {b : Byte}
    (h : (b, v) ∈ [((0 : Byte), NightSetting.manualOff), (1, .manualOn), (2, .auto)]) : nightArg b = some v := by
  simp only [List.mem_cons, Prod.mk.injEq, List.not_mem_nil, or_false] at h
  rcases h with ⟨rfl, rfl⟩ | ⟨rfl, rfl⟩ | ⟨rfl, rfl⟩ <;> rfl

theorem nightArg_refused {b : Byte} (h : 2 < b.toNat) : nightArg b = none := by
  have hne : ∀ k : Byte, k.toNat ≤ 2 → b ≠ k := fun k hk hb => by rw [hb] at h; omega
  unfold nightArg
  rw [if_neg (hne 0 (by decide)), if_neg (hne 1 (by decide)), if_neg (hne 2 (by decide))]

theorem nightOrder_taken {b : Byte} (h : nightArg b = some v) (s : State) :
    nightOrder b s = setNight v (s.toldSwitch Kind.night .accepted) := by
  unfold nightOrder
  rw [h, ← answerSwitch_told]

theorem nightOrder_refused {b : Byte} (h : nightArg b = none) (s : State) :
    nightOrder b s = answerSwitch Kind.night .badRange s := by
  unfold nightOrder
  rw [h]

theorem nightConsoleOrder_taken {q b : Byte} (hlead : s.lead = some p) (h : nightArg b = some v) :
    nightConsoleOrder p q b s = setNight v (s.toldConsole p (.result q Kind.nightConsole .accepted none)) := by
  unfold nightConsoleOrder
  rw [if_pos hlead, h]
  rfl

theorem nightConsoleOrder_badRange {q b : Byte} (hlead : s.lead = some p) (h : nightArg b = none) :
    nightConsoleOrder p q b s = s.toldConsole p (.result q Kind.nightConsole .badRange none) := by
  unfold nightConsoleOrder
  rw [if_pos hlead, h]
  rfl

theorem nightConsoleOrder_notLead {q b : Byte} (hlead : s.lead ≠ some p) :
    nightConsoleOrder p q b s = s.toldConsole p (.result q Kind.nightConsole .notLead none) := if_neg hlead

/-- What an order leaves alone says nothing of the night flag. -/
theorem TakenFromSwitch.of_nightSet (h : TakenFromSwitch (s.nightSet v) t) :
    TakenFromSwitch { s with nightSetting := v } t :=
  ⟨⟨{ h.taken.settings with }, h.taken.frames, h.taken.links, h.taken.sending⟩, h.results⟩

theorem TakenFromConsole.of_nightSet {r : ConsoleNotice} (h : TakenFromConsole (s.nightSet v) t p r) :
    TakenFromConsole { s with nightSetting := v } t p r :=
  ⟨⟨{ h.taken.settings with }, h.taken.frames, h.taken.links, h.taken.sending⟩, h.told, h.results⟩

theorem toldSwitch_nightSet (s : State) (kind : Byte) (code : ResultCode) :
    (s.toldSwitch kind code).nightSet v = (s.nightSet v).toldSwitch kind code := by
  unfold State.toldSwitch
  split
  · rw [if_pos (by assumption)]; rfl
  · rw [if_neg (by assumption)]; rfl

theorem night_exec {b : Byte} (hr : s.Runs) (hb : nightArg b = some v) :
    ∃ t, exec (.night 1 b) s = .next t ∧ TakenFromSwitch { s with nightSetting := v } t ∧
      AnsweredThen s t Kind.night .accepted ∧ NightJudged s v t := by
  have ha := act_announced (nightOrder b) (s.hearing .switch)
  rw [nightOrder_taken hb] at ha
  have hset := (setNight_settled v ((s.hearing .switch).toldSwitch Kind.night .accepted)).settled
  rw [toldSwitch_nightSet] at hset
  obtain ⟨htaken, hanswered⟩ := answeredThen_of_settled (s := s.nightSet v) hset ha
  exact ⟨_, unlessHeld_switchOrder hr rfl, htaken.of_nightSet, hanswered.congr rfl rfl,
    setNight_judged (toldSwitch_spoken s _ _) ha⟩

theorem nightConsole_exec {q b : Byte} (hh : s.Hears p) (hlead : s.lead = some p) (hb : nightArg b = some v) :
    ∃ t, exec (.nightConsole p 2 q b) s = .next t ∧
      TakenFromConsole { s with nightSetting := v } t p (.result q Kind.nightConsole .accepted none) ∧
      NightJudged s v t ∧ RoutesJoin t s.txList ∧ t.counters = s.counters := by
  have ha := act_announced (nightConsoleOrder p q b) (s.hearing (.console p))
  rw [nightConsoleOrder_taken (s := s.hearing (.console p)) hlead hb] at ha
  have hset := (setNight_settled v ((s.hearing (.console p)).toldConsole p
    (.result q Kind.nightConsole .accepted none))).settled
  obtain ⟨htaken, hroutes, hcount⟩ := toldConsole_of_settled (s := s.nightSet v) hset ha
  exact ⟨_, unlessHeld_consoleOrder hh rfl, htaken.of_nightSet, setNight_judged (toldConsole_spoken s p _) ha,
    hroutes, hcount⟩

end

end Sys2Proof.Machine

open Sys2Proof.Machine in
/-- Settles O33. A taken NIGHT is an answer, the flag, and distribution where the flag changed: `NightJudged`. -/
theorem nightOrders : Obligations.NightOrders := by
  unfold Obligations.NightOrders
  intro s p seq b v hr
  dsimp only
  refine ⟨fun hb => ?_, fun hn hb => ?_, fun hh => ⟨fun hlead hb => ?_, fun hn hlead hb => ?_, fun hn hlead => ?_⟩⟩
  · obtain ⟨t, he, htaken, hanswered, h⟩ := night_exec hr (nightArg_taken hb)
    exact ⟨t, he, htaken, hanswered, h.flag, h.lead, h.register, h.orbits, h.camps, h.positions, h.slots, h.steady,
      h.byDay, h.byNight, h.stands⟩
  · exact switchOrder_answered hr hn rfl (.refl s) (nightOrder_refused (nightArg_refused hb) _)
  · obtain ⟨t, he, htaken, h, hroutes, hcount⟩ := nightConsole_exec (q := seq) hh hlead (nightArg_taken hb)
    exact ⟨t, he, htaken, ⟨h.flag, h.lead, h.register, h.orbits, h.camps, h.positions, h.slots, h.steady,
      h.byDay, h.byNight, h.stands⟩, hroutes, hcount⟩
  · exact consoleOrder_answered hh hn rfl
      (nightConsoleOrder_badRange (s := s.hearing (.console p)) hlead (nightArg_refused hb))
  · exact consoleOrder_answered hh hn rfl (nightConsoleOrder_notLead (s := s.hearing (.console p)) hlead)

end

section
/-! PROOFS. The expiry of an offer, its withdrawal, and the withdrawals of a recompute (R44, R45, R82 to R84). -/
namespace Sys2Proof.Machine

section
variable {s t u v : State} {i j : SlotNo} {p q : PosNo} {c d : Call} {n : Nat}

/-! ## One withdrawal (R84) -/

/-- What the withdrawal of a call's last offer makes of its record. -/
structure Ended (c d : Call) : Prop where
  state : d.state = .waiting
  offer : d.offer = none
  offerAge : d.offerAge = 0
  preferred : d.preferred = none
  age : d.age = c.age
  score : d.score = c.score
  same : SameCall c d

theorem Call.withdrawn_ended (hst : c.state = .offered) : Ended c (c.withdrawn false) := by
  refine ⟨rfl, rfl, rfl, rfl, ?_, ?_, rfl, rfl, rfl, rfl, rfl, rfl, rfl, rfl, ?_⟩
  · simp [Call.withdrawn, Call.enter, hst, CallState.queued]
  · simp [Call.withdrawn, Call.enter, hst, CallState.queued]
  · change (c.home.map fun h => { h with loop := none }).map (·.pos) = c.home.map (·.pos)
    cases c.home <;> rfl

/-- Another position shows the call. -/
theorem setOffer_shown (p : PosNo) (s : State) (i : SlotNo) :
    (setOffer p none s).shownAnywhere i = true ↔ ∃ q, q ≠ p ∧ (s.pos q).offer = some i := by
  rw [shownAnywhere_iff]
  simp only [setOffer_offer]
  constructor
  · rintro ⟨q, hq⟩
    split at hq
    · cases hq
    · rename_i h; exact ⟨q, Ne.symm h, hq⟩
  · rintro ⟨q, hne, hq⟩
    exact ⟨q, by rw [if_neg (Ne.symm hne)]; exact hq⟩

theorem withdrawAt_spec (h : (s.pos p).offer = some i) (hc : s.call i = some c) (hst : c.state = .offered) :
    withdrawAt p s = { s with slots := (withdrawAt p s).slots, positions := (withdrawAt p s).positions } ∧
    (withdrawAt p s).pos p = { s.pos p with offer := none, offerNews := true } ∧
    (∀ q, q ≠ p → (withdrawAt p s).pos q = s.pos q) ∧ (∀ j, j ≠ i → (withdrawAt p s).call j = s.call j) ∧
    ((∃ q, q ≠ p ∧ (s.pos q).offer = some i) → (withdrawAt p s).call i = some { c with preferred := none }) ∧
    ((¬ ∃ q, q ≠ p ∧ (s.pos q).offer = some i) → (withdrawAt p s).call i = some (c.withdrawn false)) := by
  have hshown := setOffer_shown p s i
  rw [withdrawAt_eq h hc hst]
  generalize (setOffer p none s).shownAnywhere i = b at hshown
  have hcall : ∀ j, ((setOffer p none s).modCall i (fun c => c.withdrawn b)).call j =
      if i = j then some (c.withdrawn b) else s.call j := fun j => by
    rw [modCall_call, setOffer, setPos_call]
    split
    · rename_i hij; rw [← hij, hc]; rfl
    · rfl
  have hpos : ∀ q, ((setOffer p none s).modCall i (fun c => c.withdrawn b)).pos q =
      if p = q then { s.pos p with offer := none, offerNews := true } else s.pos q := fun q => by
    rw [modCall_pos, setOffer, setPos_pos]
  refine ⟨rfl, by rw [hpos, if_pos rfl], fun q hq => by rw [hpos, if_neg (Ne.symm hq)],
    fun j hj => by rw [hcall, if_neg (Ne.symm hj)], fun hs => ?_, fun hs => ?_⟩
  · rw [hcall, if_pos rfl, hshown.2 hs]; rfl
  · rw [hcall, if_pos rfl]
    cases b with
    | true => exact absurd (hshown.1 rfl) hs
    | false => rfl

/-! ## The withdrawals of a recompute (R44, R45) -/

theorem withdrawAt_writes (p : PosNo) (s : State) :
    withdrawAt p s = { s with slots := (withdrawAt p s).slots, positions := (withdrawAt p s).positions } := by
  unfold withdrawAt
  split
  · rfl
  · dsimp only
    split <;> rfl

/-- A recompute writes the plan, the band, the records and the offers. -/
theorem recompute_writes (s : State) : recompute s = { s with
    eff := planInForce s.selection s.plans s.depth
    band := (recompute s).band
    slots := (recompute s).slots
    positions := (recompute s).positions } := by
  refine recompute_keeps (P := fun t => t = { s with
    eff := planInForce s.selection s.plans s.depth, band := t.band, slots := t.slots, positions := t.positions })
    (fun t p h => ?_) rfl
  rw [withdrawAt_writes, h]

/-- The position keeps its offer under the masks of plan e. -/
def State.stays (s : State) (e : Plan) (p : PosNo) : Bool :=
  (s.pos p).offer.all (fun i => (s.call i).any (fun c => e.allows c.cls p))

theorem stays_iff {e : Plan} (hi : (s.pos p).offer = some i) (hc : s.call i = some c) :
    s.stays e p = true ↔ e.allows c.cls p = true := by
  simp [State.stays, hi, hc]

/-- Part of the withdrawals by the masks of the plan in force has been made of s: no offer that may stay has gone,
and nothing else of the offers has changed. -/
structure MaskedSofar (s t : State) : Prop where
  eff : t.eff = s.eff
  cls : ∀ i, (t.call i).map (·.cls) = (s.call i).map (·.cls)
  offer : ∀ q, (t.pos q).offer = (s.pos q).offer ∨ s.stays s.eff q = false ∧ (t.pos q).offer = none

theorem MaskedSofar.withdrawn (h : MaskedSofar s t) (hq : s.stays s.eff q = false) :
    MaskedSofar s (withdrawAt q t) where
  eff := (withdrawAt_eff q t).trans h.eff
  cls i := (withdrawAt_cls q t i).trans (h.cls i)
  offer k := by
    rw [withdrawAt_offer]
    split
    · rename_i hqk; exact .inr ⟨hqk ▸ hq, rfl⟩
    · exact h.offer k

/-- An induction over the withdrawals by the masks: each is at a position whose offer may not stay. -/
theorem withdrawMasked_keeps {P : State → Prop} (hp : s.PlacesLaw)
    (hw : ∀ t q i, MaskedSofar s t → P t → (t.pos q).offer = some i → (s.pos q).offer = some i →
      s.stays s.eff q = false → P (withdrawAt q t)) (h : P s) :
    MaskedSofar s (withdrawMasked s) ∧ P (withdrawMasked s) := by
  refine foldl_keeps (P := fun t => MaskedSofar s t ∧ P t) _ (fun t q _ ⟨hm, h⟩ => ?_)
    ⟨⟨rfl, fun _ => rfl, fun _ => .inl rfl⟩, h⟩
  split
  · exact ⟨hm, h⟩
  · rename_i i hi
    have hsi : (s.pos q).offer = some i := by
      rcases hm.offer q with ho | ⟨-, ho⟩
      · rw [← ho, hi]
      · rw [hi] at ho; cases ho
    split
    · exact ⟨hm, h⟩
    · rename_i d hd
      split
      · exact ⟨hm, h⟩
      · rename_i hout
        obtain ⟨c, hc, -⟩ := hp.offers q i hsi
        have hcls := hm.cls i
        rw [hd, hc] at hcls
        have hcd : d.cls = c.cls := Option.some.inj hcls
        have hgoes : s.stays s.eff q = false := by
          rw [hm.eff, hcd] at hout
          exact Bool.eq_false_iff.2 fun hs => hout ((stays_iff hsi hc).1 hs)
        exact ⟨hm.withdrawn hgoes, hw t q i hm h hi hsi hgoes⟩

/-- The offers after a withdrawal by the masks: exactly those that may stay. -/
theorem withdrawMasked_offer (hp : s.PlacesLaw) (p : PosNo) : ((withdrawMasked s).pos p).offer =
    if s.stays s.eff p = true then (s.pos p).offer else none := by
  have hm := (withdrawMasked_keeps (P := fun _ => True) hp (fun _ _ _ _ _ _ _ _ => trivial) trivial).1
  have hmask := withdrawMasked_masked s p
  split
  · rename_i hstays
    rcases hm.offer p with ho | ⟨hgo, -⟩
    · exact ho
    · rw [hstays] at hgo; cases hgo
  · rename_i hgo
    rcases hm.offer p with ho | ⟨-, ho⟩
    · cases hi : (s.pos p).offer with
      | none => rw [ho, hi]
      | some i =>
        obtain ⟨c, hc, -⟩ := hp.offers p i hi
        have hcls := hm.cls i
        rw [hc, Option.map_some, Option.map_eq_some_iff] at hcls
        obtain ⟨d, hd, hdc⟩ := hcls
        have := hmask i d (ho.trans hi) hd
        rw [hm.eff, hdc] at this
        exact absurd ((stays_iff hi hc).2 this) hgo
    · exact ho

/-- A call all of whose offers may stay is untouched. -/
theorem withdrawMasked_whole (hp : s.PlacesLaw) (hc : s.call i = some c)
    (h : ∀ p, (s.pos p).offer = some i → s.stays s.eff p = true) : (withdrawMasked s).call i = some c := by
  refine (withdrawMasked_keeps (P := fun t => t.call i = some c) hp (fun t q j _ ht hj hsj hgo => ?_) hc).2
  rcases withdrawAt_call q t i with hs | ⟨_, _, hqi, _⟩
  · exact hs.trans ht
  · rw [hqi] at hj; cases hj
    rw [h q hsj] at hgo; cases hgo

/-- A call of which some offers stay and some go loses its preference alone (R84). -/
theorem withdrawMasked_part (hp : s.PlacesLaw) (hc : s.call i = some c) (hst : c.state = .offered)
    (hstay : ∃ p, (s.pos p).offer = some i ∧ s.stays s.eff p = true)
    (hgo : ∃ p, (s.pos p).offer = some i ∧ s.stays s.eff p = false) :
    (withdrawMasked s).call i = some { c with preferred := none } := by
  obtain ⟨p, hpi, hpstay⟩ := hstay
  obtain ⟨q, hqi, hqgo⟩ := hgo
  have hk := (withdrawMasked_keeps (s := s) (P := fun t => t.call i = some (c.withdrawn true) ∨
      t.call i = some c ∧ (t.pos q).offer = some i) hp (fun t k j hm ht hj hsj hkgo => ?_) (.inr ⟨hc, hqi⟩)).2
  · rcases hk with hk | ⟨-, hk⟩
    · exact hk
    · rw [withdrawMasked_offer hp, if_neg (by rw [hqgo]; decide)] at hk; cases hk
  · have hpt : (t.pos p).offer = some i := by
      rcases hm.offer p with ho | ⟨hno, -⟩
      · exact ho.trans hpi
      · rw [hpstay] at hno; cases hno
    have hkp : p ≠ k := fun h => by rw [h, hkgo] at hpstay; cases hpstay
    by_cases hji : j = i
    · subst hji
      left
      have hd : ∃ d, t.call j = some d ∧ d.state = .offered ∧ d.withdrawn true = c.withdrawn true := by
        rcases ht with ht | ⟨ht, -⟩
        · exact ⟨_, ht, hst, rfl⟩
        · exact ⟨c, ht, hst, rfl⟩
      obtain ⟨d, hd, hdst, hdw⟩ := hd
      obtain ⟨-, -, -, -, hpart, -⟩ := withdrawAt_spec hj hd hdst
      rw [hpart ⟨p, hkp, hpt⟩, ← hdw]; rfl
    · have hcall : (withdrawAt k t).call i = t.call i := by
        rcases withdrawAt_call k t i with hs | ⟨_, _, hki, _⟩
        · exact hs
        · rw [hki] at hj; exact absurd (Option.some.inj hj).symm hji
      rcases ht with ht | ⟨ht, hq⟩
      · exact .inl (hcall.trans ht)
      · refine .inr ⟨hcall.trans ht, ?_⟩
        rw [withdrawAt_offer, if_neg fun hkq : k = q => ?_]
        · exact hq
        · rw [hkq, hqi] at hsj; exact hji (Option.some.inj hsj).symm

/-- A call none of whose offers may stay is WAITING. -/
theorem withdrawMasked_ended (hp : s.PlacesLaw) (hheld : ∃ p, (s.pos p).offer = some i) (hc : s.call i = some c)
    (hst : c.state = .offered) (h : ∀ p, (s.pos p).offer = some i → s.stays s.eff p = false) :
    (withdrawMasked s).call i = some (c.withdrawn false) := by
  have hk := (withdrawMasked_keeps (s := s) (P := (·.HeldOrEnded i c)) hp
    (fun _ q _ _ ht _ _ _ => withdrawAt_heldOrEnded ht q) (.inl ⟨c, hc, hst, .inl rfl, hheld⟩)).2
  rcases hk with ⟨_, _, _, _, q, hq⟩ | hk
  · rw [withdrawMasked_offer hp] at hq
    split at hq
    · rename_i hs; rw [h q hq] at hs; cases hs
    · cases hq
  · exact hk

/-! ## The expiry (R82, R83) -/

theorem offerExpiry_exec (hr : s.Runs) (i : SlotNo) : exec (.offerExpiry i) s =
    .next (act (fun s => if s.eff.mode = .single then offerExpiryCheck i s else s) s) := by
  change unlessHeld _ s = _
  unfold unlessHeld
  rw [show s.resetHeld = false from hr]
  rfl

/-- An expiry that is not taken. -/
theorem offerExpiry_none (hc : s.call i = some c)
    (h : s.eff.mode = .common ∨ c.state ≠ .offered ∨ ∀ q, c.offer ≠ some (.one q)) :
    (if s.eff.mode = .single then offerExpiryCheck i s else s) = s := by
  split
  · rename_i hm
    unfold offerExpiryCheck
    rw [hc]
    dsimp only
    split
    · rename_i p hst ho
      rcases h with h | h | h
      · rw [hm] at h; cases h
      · exact absurd hst h
      · exact absurd ho (h p)
    · rfl
  · rfl

/-- An expiry that is taken: the offer age rises below the offer limit, and the offer goes at it. -/
theorem offerExpiry_taken (hm : s.eff.mode = .single) (hc : s.call i = some c) (hst : c.state = .offered)
    (ho : c.offer = some (.one p)) :
    (if s.eff.mode = .single then offerExpiryCheck i s else s) =
      if min 15 (c.offerAge + 1) < s.eff.offerLimit then
        s.modCall i (fun d => { d with offerAge := min 15 (c.offerAge + 1) })
      else settle (countMiss p (withdrawAt p s)) := by
  rw [if_pos hm]
  unfold offerExpiryCheck
  rw [hc]
  dsimp only
  rw [hst, ho]
  rfl

/-- No notice shows an offer age. -/
theorem offerAge_notice (i : SlotNo) (n : Nat) (s : State) (p : PosNo) (k : Subject) :
    (s.modCall i (fun d => { d with offerAge := n })).notice p k = s.notice p k := by
  have hcall : ∀ j, (s.modCall i (fun d => { d with offerAge := n })).call j =
      (s.call j).map (fun d => if i = j then { d with offerAge := n } else d) := fun j => by
    rw [modCall_call]
    split
    · rfl
    · simp
  have hpos : ∀ q, (s.modCall i (fun d => { d with offerAge := n })).pos q = s.pos q :=
    fun q => modCall_pos s i _ q
  have hloop : ∀ l, (s.modCall i (fun d => { d with offerAge := n })).loopCall p l =
      (s.loopCall p l).map (fun x => (x.1, if i = x.1 then { x.2 with offerAge := n } else x.2)) := fun l => by
    unfold State.loopCall
    rw [hpos]
    cases ((s.pos p).loop l).slot with
    | none => rfl
    | some j => dsimp only; rw [hcall]; cases s.call j <;> rfl
  cases k with
  | loop l =>
    simp only [State.notice, State.loopNotice, State.lamp, hloop, hpos]
    cases s.loopCall p l with
    | none => rfl
    | some x =>
      obtain ⟨j, d⟩ := x
      by_cases hij : i = j
      · simp only [Option.map_some, if_pos hij]; rfl
      · simp only [Option.map_some, if_neg hij]
  | offer =>
    simp only [State.notice, State.offerNotice, hcall, hpos]
    cases (s.pos p).offer with
    | none => rfl
    | some j =>
      dsimp only
      cases s.call j with
      | none => rfl
      | some d => dsimp only [Option.map_some]; split <;> rfl
  | queue =>
    have hage : (s.modCall i (fun d => { d with offerAge := n })).storedAge = s.storedAge := by
      funext j
      unfold State.storedAge
      rw [hcall]
      cases s.call j with
      | none => rfl
      | some d => dsimp only [Option.map_some]; split <;> rfl
    simp only [State.notice, State.queueNotice, State.oldestAge, hage]
    rfl
  | park =>
    have hlabel : ∀ j o, ((s.modCall i (fun d => { d with offerAge := n })).call j).map (fun c => (o, c.label)) =
        (s.call j).map (fun c => ((o : OrbitNo), c.label)) := fun j o => by
      rw [hcall]
      cases s.call j with
      | none => rfl
      | some d => simp only [Option.map_some]; split <;> rfl
    simp only [State.notice, State.parkNotice, State.parkItems, hlabel]
    rfl
  | position => rfl

/-- An action that leaves every notice, the orbits and the marks makes no subject pending. -/
theorem announce_unnoticed (hk : ∀ p k, t.notice p k = s.notice p k) (ho : t.orbits = s.orbits)
    (hn : t.NewsClear) : announce s t = t.ended := by
  refine announce_quiet (fun p => ?_) hn
  simp only [changedSubjects, List.filter_eq_nil_iff]
  intro k _
  cases k with
  | offer => simp [hn p]
  | park => simp [ho]
  | loop l => simp [hk p (.loop l)]
  | queue => simp [hk p .queue]
  | position => simp [hk p .position]

/-! ## The miss, and the forced close (R83) -/

/-- The miss brings the position to the miss limit while it is OPEN. -/
def State.Forces (s : State) (p : PosNo) : Prop :=
  s.eff.missLimit ≠ 0 ∧ s.eff.missLimit ≤ min 15 ((s.pos p).missCount + 1) ∧ (s.pos p).state = .opened

/-- What a counted miss leaves and changes. -/
structure Missed (s : State) (p : PosNo) (u : State) : Prop where
  state : u = { s with
    positions := u.positions, lead := u.lead, nightFlag := u.nightFlag,
    counters := (bump .missedOffers s).counters }
  own : u.pos p = { s.pos p with
    missCount := min 15 ((s.pos p).missCount + 1), state := (u.pos p).state, lastReason := (u.pos p).lastReason }
  others : ∀ q, q ≠ p → u.pos q = s.pos q
  forced : s.Forces p → (u.pos p).state = .closed ∧ (u.pos p).lastReason = .forced ∧ u.GroupLaw
  spared : ¬ s.Forces p → (u.pos p).state = (s.pos p).state ∧ (u.pos p).lastReason = (s.pos p).lastReason ∧
    u.lead = s.lead ∧ u.nightFlag = s.nightFlag

/-- The miss counted at position p, before the miss limit is judged. -/
def State.missed (s : State) (p : PosNo) : State :=
  bump .missedOffers (s.setPos p { s.pos p with missCount := min maxMissCount ((s.pos p).missCount + 1) })

theorem missed_pos (s : State) (p q : PosNo) : (s.missed p).pos q =
    if p = q then { s.pos p with missCount := min 15 ((s.pos p).missCount + 1) } else s.pos q := by
  unfold State.missed
  rw [bump_pos, setPos_pos]
  rfl

theorem missed_own (s : State) (p : PosNo) :
    (s.missed p).pos p = { s.pos p with missCount := min 15 ((s.pos p).missCount + 1) } := by
  rw [missed_pos, if_pos rfl]

theorem rejudgedAt_pos (s : State) (p q : PosNo) (st : PosState) (why : PosReason) :
    (s.rejudgedAt p st why).pos q =
      if p = q then { s.pos p with state := st, lastReason := why } else s.pos q :=
  setPos_pos s p q _

theorem countMiss_eq (p : PosNo) (s : State) : countMiss p s =
    if s.eff.missLimit ≠ 0 ∧ s.eff.missLimit ≤ min maxMissCount ((s.pos p).missCount + 1) ∧
      ((s.missed p).pos p).state = .opened
    then (s.missed p).rejudgedAt p .closed .forced else s.missed p := rfl

theorem forces_iff (s : State) (p : PosNo) : s.Forces p ↔
    s.eff.missLimit ≠ 0 ∧ s.eff.missLimit ≤ min maxMissCount ((s.pos p).missCount + 1) ∧
      ((s.missed p).pos p).state = .opened := by
  rw [missed_own]; rfl

theorem missed_missed (h : ¬ s.Forces p) : Missed s p (s.missed p) where
  state := rfl
  own := by rw [missed_own]
  others q hq := by rw [missed_pos, if_neg (Ne.symm hq)]
  forced hf := absurd hf h
  spared _ := by rw [missed_own]; exact ⟨rfl, rfl, rfl, rfl⟩

theorem forced_missed (h : s.Forces p) : Missed s p ((s.missed p).rejudgedAt p .closed .forced) where
  state := by
    unfold State.rejudgedAt rejudgeGroup setPosState State.missed
    rfl
  own := by rw [rejudgedAt_pos, if_pos rfl, missed_own]
  others q hq := by rw [rejudgedAt_pos, if_neg (Ne.symm hq), missed_pos, if_neg (Ne.symm hq)]
  forced _ := by rw [rejudgedAt_pos, if_pos rfl]; exact ⟨rfl, rfl, rejudgedAt_groupLaw ..⟩
  spared hn := absurd h hn

theorem countMiss_missed (p : PosNo) (s : State) : Missed s p (countMiss p s) := by
  rw [countMiss_eq]
  split
  · rename_i h; exact forced_missed ((forces_iff s p).2 h)
  · rename_i h; exact missed_missed fun hf => h ((forces_iff s p).1 hf)

/-- A position that is not OPEN and holds no offer is given none. -/
def State.Shut (s : State) (p : PosNo) : Prop := (s.pos p).state ≠ .opened ∧ (s.pos p).offer = none

theorem shut_keeps (p : PosNo) : DistributionKeeps (·.Shut p) where
  available _ _ h := h
  withdraw s q h := by
    refine ⟨?_, by rw [withdrawAt_offer]; split <;> [rfl; exact h.2]⟩
    rw [show ((withdrawAt q s).pos p).state = (s.pos p).state from ((withdrawAt_level q s).duty p).2]
    exact h.1
  depart s i c w h hc hw := by
    obtain ⟨-, hpos, -⟩ := depart_waiting hc hw w
    unfold State.Shut State.pos
    rw [hpos]
    exact h
  offer s q i c h _ _ _ hopen := by
    have hq : q ≠ p := fun hqp => h.1 (hqp ▸ hopen)
    refine ⟨?_, by rw [offerTo_offer, if_neg hq]; exact h.2⟩
    rw [show ((offerTo q i s).pos p).state = (s.pos p).state from ((offerTo_level q i s).duty p).2]
    exact h.1
  showing s q i c h _ _ _ hopen _ := by
    have hq : q ≠ p := fun hqp => h.1 (hqp ▸ hopen)
    refine ⟨?_, by rw [showTo_offer, if_neg hq]; exact h.2⟩
    rw [show ((showTo q i s).pos p).state = (s.pos p).state from ((showTo_level q i s).duty p).2]
    exact h.1

theorem settle_shut (h : s.Shut p) : (settle s).Shut p :=
  (shut_keeps p).settle (fun _ h => (shut_keeps p).recompute (fun _ _ _ h => h) h) h

/-- What an event of the part's own has left alone before the distribution that ends it. -/
structure EventStarted (s u : State) : Prop where
  settings : SettingsKept s u
  frames : FramesJoin s u
  links : ∀ k, u.link k = s.link k
  consoles : u.consoles = s.consoles

theorem EventStarted.ownEvent (h : EventStarted s u) (ha : Announced (settle u) t) : OwnEvent s t := by
  have hset := settle_settled u
  have hconsole : ∀ q, (settle u).console q = s.console q := fun q => by
    rw [State.console, hset.consoles, h.consoles]; rfl
  refine ⟨(h.settings.trans hset.settings).trans ha.settings, (h.frames.trans hset.frames).trans ha.frames,
    fun k => (ha.link k).trans ((hset.links k).trans (h.links k)), fun q => ?_, fun q => ?_⟩
  · rw [ha.sending, hconsole]
  · exact (ha.results q).trans (by rw [hconsole]; rfl)

/-- What an expiry at the limit brings about. -/
structure Expired (s : State) (i : SlotNo) (c : Call) (p : PosNo) (t : State) (d : Call) : Prop where
  event : OwnEvent s t
  register : RegisterKept s t
  counters : t.counters = (bump .missedOffers s).counters
  orbits : t.orbits = s.orbits
  camps : t.camps = s.camps
  missCount : (t.pos p).missCount = min 15 ((s.pos p).missCount + 1)
  loops : (t.pos p).loops = (s.pos p).loops
  consult : (t.pos p).consult = (s.pos p).consult
  forced : s.Forces p → (t.pos p).state = .closed ∧ (t.pos p).lastReason = .forced ∧
    t.lead = leadOf t.positions ∧ t.nightFlag = nightFlagOf s.nightSetting t.positions ∧ (t.pos p).offer = none
  spared : ¬ s.Forces p → (t.pos p).state = (s.pos p).state ∧ (t.pos p).lastReason = (s.pos p).lastReason ∧
    GroupKept s t
  positions : ∀ q, q ≠ p → PositionKept (s.pos q) (t.pos q)
  call : t.call i = some d
  redistributed : Redistributed t.nightFlag s.nightDestination c d
  preferred : d.preferred = none
  offerAge : d.offerAge = 0
  frames : RoutesJoin t s.txList
  others : ∀ j, j ≠ i → SlotSettled s t j

/-- The last offer of the call goes, the miss is counted, and distribution follows. -/
theorem expired_of (hc : s.call i = some c) (hst : c.state = .offered)
    (honly : ∀ q, (s.pos q).offer = some i ↔ q = p) (hu : Missed (withdrawAt p s) p u)
    (ha : Announced (settle u) t) : ∃ d, Expired s i c p t d := by
  obtain ⟨hwrites, hown, hothers, hcalls, -, hlast⟩ := withdrawAt_spec ((honly p).2 rfl) hc hst
  have hend := Call.withdrawn_ended hst
  have hcall := hlast fun ⟨q, hq, hqi⟩ => hq ((honly q).1 hqi)
  generalize hv : withdrawAt p s = v at hwrites hown hothers hcalls hcall hu
  have hset := settle_settled u
  have hforces : v.Forces p ↔ s.Forces p := by
    unfold State.Forces; rw [hown, hwrites]
  have hucall : ∀ j, u.call j = v.call j := fun j => by rw [hu.state]; rfl
  have hstate : u = { s with
      slots := v.slots, positions := u.positions, lead := u.lead, nightFlag := u.nightFlag,
      counters := (bump .missedOffers s).counters } := by
    conv_lhs => rw [hu.state, hwrites]
    rfl
  have hstart : EventStarted s u := by
    rw [hstate]
    exact ⟨by constructor <;> rfl, .of_eq rfl rfl, fun k => by cases k <;> rfl, rfl⟩
  have hpos : PositionKept (u.pos p) (t.pos p) := (hset.positions p).trans (ha.positionKept p)
  have hup : u.pos p = { s.pos p with
      offer := none, offerNews := true, missCount := min 15 ((s.pos p).missCount + 1),
      state := (u.pos p).state, lastReason := (u.pos p).lastReason } := by
    conv_lhs => rw [hu.own, hown]
  have hduty : SameDuty t.positions u.positions := SameDuty.trans ha.level.duty (settle_steady u).duty
  have hdest : u.nightDestination = s.nightDestination := nightDestination_eq hstart.settings.groups
  have huc : u.call i = some (c.withdrawn false) := (hucall i).trans hcall
  have hnight : t.nightFlag = u.nightFlag := ha.nightFlag.trans hset.nightFlag
  obtain ⟨d, hd, hpass⟩ : ∃ d, t.call i = some d ∧
      Redistributed t.nightFlag s.nightDestination (c.withdrawn false) d := by
    have hp := (settle_slots u i).passed
    unfold SlotPassed at hp
    rw [huc, hdest] at hp
    obtain ⟨d, hd, hr⟩ := hp
    exact ⟨d, (ha.call i).trans hd, ha.nightFlag ▸ hr⟩
  have hvd : (settle u).call i = some d := (ha.call i).symm.trans hd
  have hfirst : Redistributed t.nightFlag s.nightDestination c (c.withdrawn false) :=
    ⟨hend.same, .inl hend.state, .inr hend.preferred, fun _ => ⟨hend.age, hend.score, rfl, rfl⟩, nofun⟩
  refine ⟨d, ?_⟩
  constructor
  case event => exact hstart.ownEvent ha
  case register =>
    have hs := hset.register
    have hr := ha.register
    exact ⟨by rw [hr.tagIndex, hs.tagIndex, hstate], by rw [hr.origins, hs.origins, hstate],
      by rw [hr.freeSlots, hs.freeSlots, hstate]⟩
  case counters => rw [ha.counters, hset.counters, hstate]
  case orbits => rw [ha.orbits, hset.orbits, hstate]
  case camps => rw [ha.camps, hset.camps, hstate]
  case missCount => rw [hpos.missCount, hup]
  case loops => rw [hpos.loops, hup]
  case consult => rw [hpos.consult, hup]
  case forced =>
    intro hf
    obtain ⟨hclosed, hwhy, hgroup⟩ := hu.forced (hforces.2 hf)
    have hnone : (u.pos p).offer = none := by rw [hup]
    refine ⟨hpos.state.trans hclosed, hpos.lastReason.trans hwhy, ?_, ?_, ?_⟩
    · rw [ha.lead, hset.lead, hgroup.lead, hduty.leadOf]
    · rw [hnight, hgroup.nightFlag, hduty.nightFlagOf, hstart.settings.nightSetting]
    · exact (ha.offer p).trans (settle_shut ⟨by rw [hclosed]; nofun, hnone⟩).2
  case spared =>
    intro hn
    obtain ⟨hst', hwhy, hlead, hflag⟩ := hu.spared fun hf => hn (hforces.1 hf)
    rw [hpos.state, hpos.lastReason, hst', hwhy, hown]
    refine ⟨rfl, rfl, ?_, ?_⟩
    · rw [ha.lead, hset.lead, hlead, hwrites]
    · rw [hnight, hflag, hwrites]
  case positions =>
    intro q hq
    have := (hset.positions q).trans (ha.positionKept q)
    rwa [hu.others q hq, hothers q hq] at this
  case call => exact hd
  case redistributed => exact hfirst.trans (by rw [hend.state]; rfl) hpass
  case preferred =>
    exact ((settle_slots u i).waited _ d huc hend.state hvd).trans hend.preferred
  case offerAge =>
    exact settle_ageless (fun e he => by rw [huc] at he; cases he; rfl) d hvd
  case frames =>
    have := ha.routesJoin
    rwa [show u.txList = s.txList by rw [hstate]] at this
  case others =>
    intro j hj
    refine Aside.slotSettled ⟨?_, ?_, hstart.settings, ?_, ?_⟩ ha
    · exact (hucall j).trans (hcalls j hj)
    · intro q
      by_cases hq : q = p
      · subst hq
        rw [hup, (honly q).2 rfl]
        exact ⟨nofun, fun h => absurd (Option.some.inj h).symm hj⟩
      · rw [hu.others q hq, hothers q hq]
    · rw [hstate]
    · rw [hstate]; exact Nat.le_add_right _ _

/-- An expiry at the limit of a call that one position shows. -/
theorem offerExpiry_expired (hr : s.Runs) (hm : s.eff.mode = .single) (hc : s.call i = some c)
    (hst : c.state = .offered) (ho : c.offer = some (.one p)) (hn : s.eff.offerLimit ≤ min 15 (c.offerAge + 1))
    (honly : ∀ q, (s.pos q).offer = some i ↔ q = p) :
    ∃ t d, exec (.offerExpiry i) s = .next t ∧ Expired s i c p t d := by
  have ha := act_announced (fun s => if s.eff.mode = .single then offerExpiryCheck i s else s) s
  rw [offerExpiry_taken hm hc hst ho, if_neg (Nat.not_lt.2 hn)] at ha
  obtain ⟨d, hd⟩ := expired_of hc hst honly (countMiss_missed p _) ha
  exact ⟨_, d, offerExpiry_exec hr i, hd⟩

/-- An expiry below the limit. -/
theorem offerExpiry_aged (hr : s.Runs) (hn : s.NewsClear) (hm : s.eff.mode = .single) (hc : s.call i = some c)
    (hst : c.state = .offered) (ho : c.offer = some (.one p)) (hlt : min 15 (c.offerAge + 1) < s.eff.offerLimit) :
    exec (.offerExpiry i) s =
      .next { s with slots := vset s.slots i (some { c with offerAge := min 15 (c.offerAge + 1) }) }.ended := by
  rw [offerExpiry_exec hr, act]
  rw [offerExpiry_taken hm hc hst ho, if_pos hlt,
    announce_unnoticed (offerAge_notice i _ s) rfl fun q => ?_, modCall_eq hc]
  rw [modCall_pos]
  exact hn q

/-- An expiry that is not taken. -/
theorem offerExpiry_untaken (hr : s.Runs) (hn : s.NewsClear) (hc : s.call i = some c)
    (h : s.eff.mode = .common ∨ c.state ≠ .offered ∨ ∀ q, c.offer ≠ some (.one q)) :
    exec (.offerExpiry i) s = .next s.ended := by
  rw [offerExpiry_exec hr, act]
  rw [offerExpiry_none hc h, announce_shownKept (.refl s) hn]

theorem State.PlacesLaw.replanned (hp : s.PlacesLaw) : s.replanned.PlacesLaw :=
  ⟨hp.loops, hp.orbits, hp.offers, hp.consults⟩

/-- A call that is not OFFERED is left by a recompute. -/
theorem recompute_unoffered_slot (h : ∀ c, s.call i = some c → c.state ≠ .offered) :
    (recompute s).call i = s.call i := by
  cases hc : s.call i with
  | none =>
    have hp := (recompute_settled s).slots i
    unfold SlotPassed at hp
    rwa [hc] at hp
  | some c => exact recompute_unoffered_call (h c hc) hc

end

end Sys2Proof.Machine

open Sys2Proof.Machine in
/-- Settles O40: the expiry by `offerExpiry_expired`, the withdrawals by `withdrawAt_spec` and `withdrawMasked_keeps`. -/
theorem offerExpiry : Obligations.OfferExpiry := by
  unfold Obligations.OfferExpiry
  refine ⟨fun s i c p hr hc => ⟨fun hn h => offerExpiry_untaken hr hn hc h, ?_, ?_⟩, ?_, ?_⟩
  · exact fun hn hm hst ho hlt => offerExpiry_aged hr hn hm hc hst ho hlt
  · intro hm hst ho hle honly
    obtain ⟨t, d, ht, hd⟩ := offerExpiry_expired hr hm hc hst ho hle honly
    exact ⟨t, d, ht, hd.event, hd.register, hd.counters, hd.orbits, hd.camps, hd.missCount, hd.loops, hd.consult,
      hd.forced, hd.spared, hd.positions, hd.call, hd.redistributed, hd.preferred, hd.offerAge, hd.frames, hd.others⟩
  · intro s p i c hi hc hst
    obtain ⟨hwrites, hown, hothers, hcalls, hpart, hlast⟩ := withdrawAt_spec hi hc hst
    obtain ⟨hstate, hoffer, hage, hpref, hage', hscore, hsame⟩ := Call.withdrawn_ended hst
    exact ⟨hwrites, hown, hothers, hcalls, hpart, fun hs =>
      ⟨_, hlast hs, hstate, hoffer, hage, hpref, hage', hscore, hsame⟩⟩
  · intro s hp ho
    have hended : ∀ i c, c.state = .offered → (recompute s).call i = some (c.withdrawn false) →
        ∃ d, (recompute s).call i = some d ∧ d.state = .waiting ∧ d.offer = none ∧ d.offerAge = 0 ∧
          d.preferred = none ∧ d.age = c.age ∧ d.score = c.score ∧ SameCall c d := fun i c hst h => by
      obtain ⟨hstate, hoffer, hage, hpref, hage', hscore, hsame⟩ := Call.withdrawn_ended hst
      exact ⟨_, h, hstate, hoffer, hage, hpref, hage', hscore, hsame⟩
    refine ⟨recompute_writes s, (recompute_settled s).positions, fun i => recompute_unoffered_slot,
      fun hm => ⟨fun p => ?_, fun i c hc hst => hended i c hst (recompute_ended ho hm hc hst)⟩,
      fun hm hk => ⟨fun p => ?_, fun i c hc hst => ⟨fun hs => ?_, fun hs hg => ?_, fun hg => hended i c hst ?_⟩⟩,
      fun hm hk => ?_⟩
    · rw [recompute_of_mode hm]; exact withdrawAll_clear _ p
    · rw [recompute_of_masks hm hk]; exact withdrawMasked_offer hp.replanned p
    · rw [recompute_of_masks hm hk]; exact withdrawMasked_whole hp.replanned hc hs
    · rw [recompute_of_masks hm hk]; exact withdrawMasked_part hp.replanned hc hst hs hg
    · rw [recompute_of_masks hm hk]
      exact withdrawMasked_ended hp.replanned (ho.held i c hc hst) hc hst hg
    · rw [recompute_steady (plansDiffer_false.2 ⟨hm, hk⟩)]; exact ⟨rfl, rfl⟩

end

section
/-! PROOFS. What one console is shown through an action: its link, its pending entries and the offer of its position,
operation by operation. An offer either carries the mark of a change or stands with its call (R76, log 16). -/
namespace Sys2Proof.Machine

section
variable {s t u : State} {i j : SlotNo} {p q : PosNo} {c : Call}

/-! ## The relations -/

/-- The call of slot i is OFFERED, with recall reason r. -/
def State.OffersCall (s : State) (i : SlotNo) (r : Option RecallReason) : Prop :=
  ∃ c, s.call i = some c ∧ c.state = .offered ∧ c.reason = r

/-- The offer of position p, its mark and its call's reason are as they were. -/
structure Unmoved (p : PosNo) (s t : State) : Prop where
  news : (t.pos p).offerNews = (s.pos p).offerNews
  offer : (t.pos p).offer = (s.pos p).offer
  call : ∀ i r, (s.pos p).offer = some i → s.OffersCall i r → t.OffersCall i r

/-- The link of console p is not restored, its entries stay pending, and the offer of its position is marked or has
not moved. -/
structure Showing (p : PosNo) (s t : State) : Prop where
  up : (t.link (.console p)).up = true → (s.link (.console p)).up = true
  pending : ∀ n ∈ (s.console p).pending, n ∈ (t.console p).pending
  shown : (t.pos p).offerNews = true ∨ Unmoved p s t

/-- The same, and an offer without a mark is in force under the mode it was made in. -/
structure Watched (p : PosNo) (s t : State) : Prop extends Showing p s t where
  mode : (t.pos p).offerNews = true ∨ (s.pos p).offer = none ∨ t.eff.mode = s.eff.mode

/-- Console p and the offer of its position are untouched, and so is every OFFERED call but that of slot i. -/
structure Beside (p : PosNo) (i : SlotNo) (s t : State) : Prop where
  up : (t.link (.console p)).up = (s.link (.console p)).up
  pending : ∀ n ∈ (s.console p).pending, n ∈ (t.console p).pending
  offer : (t.pos p).offer = (s.pos p).offer
  news : (t.pos p).offerNews = (s.pos p).offerNews
  mode : t.eff.mode = s.eff.mode
  calls : ∀ j r, j ≠ i → s.OffersCall j r → t.OffersCall j r

theorem Unmoved.trans (h : Unmoved p s t) (k : Unmoved p t u) : Unmoved p s u :=
  ⟨k.news.trans h.news, k.offer.trans h.offer,
    fun i r hi hr => k.call i r (h.offer.trans hi) (h.call i r hi hr)⟩

theorem Unmoved.refl (p : PosNo) (s : State) : Unmoved p s s := ⟨rfl, rfl, fun _ _ _ h => h⟩

theorem Showing.trans (h : Showing p s t) (k : Showing p t u) : Showing p s u := by
  refine ⟨fun hu => h.up (k.up hu), fun n hn => k.pending n (h.pending n hn), ?_⟩
  rcases k.shown with hu | hk
  · exact .inl hu
  · rcases h.shown with ht | hh
    · exact .inl (hk.news.trans ht)
    · exact .inr (hh.trans hk)

theorem Showing.refl (p : PosNo) (s : State) : Showing p s s := ⟨id, fun _ => id, .inr (.refl p s)⟩

theorem Watched.trans (h : Watched p s t) (k : Watched p t u) : Watched p s u := by
  refine ⟨h.toShowing.trans k.toShowing, ?_⟩
  rcases k.shown with hu | hk
  · exact .inl hu
  · rcases h.shown with ht | hh
    · exact .inl (hk.news.trans ht)
    · rcases h.mode with ht | hnone | hm
      · exact .inl (hk.news.trans ht)
      · exact .inr (.inl hnone)
      · rcases k.mode with hu | hnone | hm'
        · exact .inl hu
        · exact .inr (.inl (hh.offer.symm.trans hnone))
        · exact .inr (.inr (hm'.trans hm))

theorem Watched.refl (p : PosNo) (s : State) : Watched p s s := ⟨.refl p s, .inr (.inr rfl)⟩

theorem Watched.foldl {α : Type} {f : State → α → State} (hf : ∀ s a, Watched p s (f s a)) (l : List α) (s : State) :
    Watched p s (l.foldl f s) :=
  foldl_keeps (P := fun t => Watched p s t) l (fun t a _ h => h.trans (hf t a)) (.refl p s)

theorem Beside.trans (h : Beside p i s t) (k : Beside p i t u) : Beside p i s u :=
  ⟨k.up.trans h.up, fun n hn => k.pending n (h.pending n hn), k.offer.trans h.offer, k.news.trans h.news,
    k.mode.trans h.mode, fun j r hj hr => k.calls j r hj (h.calls j r hj hr)⟩

theorem Beside.of_calls
    (h : (t.positions, t.consoles, t.consoleLinks, t.eff.mode) =
      (s.positions, s.consoles, s.consoleLinks, s.eff.mode))
    (hc : ∀ j r, j ≠ i → s.OffersCall j r → t.OffersCall j r) : Beside p i s t := by
  simp only [Prod.mk.injEq] at h
  obtain ⟨hpos, hconsoles, hlinks, hmode⟩ := h
  refine ⟨?_, fun n hn => ?_, ?_, ?_, hmode, hc⟩
  · simp only [State.link, hlinks]
  · simpa only [State.console, hconsoles] using hn
  · simp only [State.pos, hpos]
  · simp only [State.pos, hpos]

theorem Beside.of_same
    (h : (t.slots, t.positions, t.consoles, t.consoleLinks, t.eff.mode) =
      (s.slots, s.positions, s.consoles, s.consoleLinks, s.eff.mode)) : Beside p i s t := by
  obtain ⟨hslots, hrest⟩ := Prod.mk.inj h
  refine .of_calls hrest fun j r _ hj => ?_
  unfold State.OffersCall State.call at hj ⊢
  rwa [hslots]

theorem Beside.refl (p : PosNo) (i : SlotNo) (s : State) : Beside p i s s := .of_same rfl

theorem Beside.foldl {α : Type} {f : State → α → State} (hf : ∀ s a, Beside p i s (f s a)) (l : List α) (s : State) :
    Beside p i s (l.foldl f s) :=
  foldl_keeps (P := fun t => Beside p i s t) l (fun t a _ h => h.trans (hf t a)) (.refl p i s)

/-- A change of a call that is not OFFERED touches no OFFERED call. -/
theorem Beside.of_unoffered (h : Beside p j s t) (hj : ∀ c, s.call j = some c → c.state ≠ .offered) :
    Beside p i s t :=
  { h with calls := fun k r _ hk => h.calls k r (by
      rintro rfl
      obtain ⟨c, hc, hst, -⟩ := hk
      exact hj c hc hst) hk }

/-- A change of a call that position p is not offered. -/
theorem Beside.watched_of (h : Beside p i s t) (hi : (s.pos p).offer ≠ some i) : Watched p s t :=
  ⟨⟨fun hu => h.up.symm.trans hu, h.pending, .inr ⟨h.news, h.offer, fun j r hj hr =>
    h.calls j r (by rintro rfl; exact hi hj) hr⟩⟩, .inr (.inr h.mode)⟩

/-- A slot that position p is not offered. -/
theorem exists_unoffered (s : State) (p : PosNo) : ∃ i, (s.pos p).offer ≠ some i := by
  by_cases h : (s.pos p).offer = some 0
  · exact ⟨1, by rw [h]; decide⟩
  · exact ⟨0, h⟩

/-- A change that touches no OFFERED call. -/
theorem Beside.watched (h : ∀ i, Beside p i s t) : Watched p s t := by
  obtain ⟨i, hi⟩ := exists_unoffered s p
  exact (h i).watched_of hi

/-- A change of nothing that the console and its position's offer are made of. -/
theorem Watched.of_same
    (h : (t.slots, t.positions, t.consoles, t.consoleLinks, t.eff.mode) =
      (s.slots, s.positions, s.consoles, s.consoleLinks, s.eff.mode)) : Watched p s t :=
  Beside.watched fun _ => .of_same h

theorem Beside.watched_unoffered (h : Beside p i s t) (hi : ∀ c, s.call i = some c → c.state ≠ .offered) :
    Watched p s t := Beside.watched fun _ => h.of_unoffered hi

theorem Beside.setPos (q : PosNo) (x : Position) (s : State) (ho : x.offer = (s.pos q).offer)
    (hn : x.offerNews = (s.pos q).offerNews) : Beside p i s (s.setPos q x) := by
  refine ⟨by rw [setPos_link], fun n hn => hn, ?_, ?_, rfl, fun _ _ _ h => h⟩ <;> rw [setPos_pos] <;> split
  · rename_i h; rw [← h, ho]
  · rfl
  · rename_i h; rw [← h, hn]
  · rfl

theorem Left.beside (h : Left s t) (p : PosNo) (i : SlotNo) : Beside p i s t := by
  obtain ⟨ls, hl⟩ := h.positions p
  refine ⟨by rw [h.state]; rfl, fun n hn => by rw [h.state]; exact hn, by rw [hl], by rw [hl], by rw [h.state],
    fun j r _ ⟨c, hc, hst, hr⟩ => ?_⟩
  have hcall := h.call j
  rw [hc, Option.map_some, Option.map_eq_some_iff] at hcall
  obtain ⟨d, hd, hdc⟩ := hcall
  exact ⟨d, hd, (congrArg Call.state hdc).trans hst, (congrArg Call.reason hdc).trans hr⟩

/-! ## Frames and counters -/

theorem bump_beside (k : Counter) (s : State) : Beside p i s (bump k s) := .of_same rfl

theorem placeLow_beside (n : SwitchNotice) (s : State) : Beside p i s (placeLow n s) := by
  rcases placeLow_cases n s with h | h <;> rw [h] <;> exact .of_same rfl

theorem placeDroppable_beside (n : SwitchNotice) (s : State) : Beside p i s (placeDroppable n s) := by
  rcases placeDroppable_cases n s with h | h <;> rw [h] <;> exact .of_same rfl

theorem placeAnswer_beside (n : SwitchNotice) (s : State) : Beside p i s (placeAnswer n s) := by
  rcases placeAnswer_cases n s with h | h <;> rw [h] <;> exact .of_same rfl

theorem placeTested_beside (n : SwitchNotice) (s : State) : Beside p i s (placeTested n s) := by
  rcases placeTested_cases n s with h | h <;> rw [h] <;> exact .of_same rfl

theorem answerSwitch_beside (kind : Byte) (code : ResultCode) (s : State) :
    Beside p i s (answerSwitch kind code s) := placeAnswer_beside _ s

theorem answerConsole_beside (q : PosNo) (seq kind : Byte) (code : ResultCode) (orbit : Option OrbitNo)
    (s : State) : Beside p i s (answerConsole q seq kind code orbit s) := by
  refine { Beside.refl p i s with up := by unfold answerConsole; rw [setConsole_link], pending := fun n hn => ?_ }
  unfold answerConsole
  rw [setConsole_console]
  split
  · rename_i h; subst h; exact List.mem_append_left _ hn
  · exact hn

/-! ## Moves of one call -/

theorem modCall_beside (i : SlotNo) (f : Call → Call) (s : State) : Beside p i s (s.modCall i f) :=
  .of_calls rfl fun j r hj ⟨c, hc, h⟩ => ⟨c, by rw [modCall_call, if_neg (Ne.symm hj)]; exact hc, h⟩

/-- A change that leaves an OFFERED call OFFERED with its reason. -/
theorem modCall_beside_of (j : SlotNo) (f : Call → Call) (s : State)
    (hf : ∀ c, c.state = .offered → (f c).state = .offered ∧ (f c).reason = c.reason) :
    Beside p i s (s.modCall j f) :=
  .of_calls rfl fun k r _ ⟨c, hc, hst, hr⟩ => by
    unfold State.OffersCall
    rw [modCall_call, hc]
    split
    · exact ⟨f c, rfl, (hf c hst).1, (hf c hst).2.trans hr⟩
    · exact ⟨c, rfl, hst, hr⟩

theorem setLoop_beside (q : PosNo) (l : LoopNo) (x : Loop) (s : State) : Beside p i s (s.setLoop q l x) :=
  .setPos q _ s rfl rfl

theorem issue_beside (j : SlotNo) (s : State) : Beside p i s (issue j s) := by
  unfold issue
  split
  · exact .refl p i s
  · split
    · exact Beside.trans (t := enlist _ { s with reqCounter := s.nextNumber }) (.of_same (by rfl))
        (modCall_beside_of j _ _ fun _ h => ⟨h, rfl⟩)
    · exact .refl p i s

theorem want_beside (j : SlotNo) (w : Conn) (s : State) : Beside p i s (want j w s) := by
  unfold want
  split
  · exact .refl p i s
  · split
    · exact .refl p i s
    · exact (modCall_beside_of j (fun c => { c with wanted := w }) s fun _ h => ⟨h, rfl⟩).trans (issue_beside j _)

theorem leave_beside (j : SlotNo) (s : State) : Beside p i s (leave j s) := (leave_left j s).beside p i

theorem depart_beside (i : SlotNo) (x : Option Ext) (w : Conn) (s : State) : Beside p i s (depart i x w s) :=
  ((leave_beside i s).trans (modCall_beside i _ _)).trans (want_beside i w _)

theorem ringAt_beside (i : SlotNo) (x : Ext) (s : State) : Beside p i s (ringAt i x s) :=
  ((leave_beside i s).trans (modCall_beside i _ _)).trans (want_beside i _ _)

theorem holdSeated_beside (i : SlotNo) (s : State) : Beside p i s (holdSeated i s) :=
  (modCall_beside i _ s).trans (want_beside i _ _)

theorem loopCall_call {l : LoopNo} (h : s.loopCall q l = some (j, c)) : s.call j = some c := by
  unfold State.loopCall at h
  split at h
  · cases h
  · obtain ⟨d, hd, hdc⟩ := Option.map_eq_some_iff.1 h
    cases hdc; exact hd

/-- The auto-hold holds TALKING calls. -/
theorem autoHold_beside (q : PosNo) (l : LoopNo) (s : State) : Beside p i s (autoHold q l s) :=
  .foldl (fun s k => by
    split
    · exact .refl p i s
    · split
      · exact .refl p i s
      · rename_i j c hjc
        split
        · rename_i htalk
          exact (holdSeated_beside j s).of_unoffered fun d hd => by
            rw [loopCall_call hjc] at hd; cases hd; rw [htalk]; decide
        · exact .refl p i s) _ s

theorem seat_beside (q : PosNo) (l : LoopNo) (i : SlotNo) (fresh : Bool) (s : State) :
    Beside p i s (seat q l i fresh s) :=
  ((((autoHold_beside q l s).trans (leave_beside i _)).trans (setLoop_beside q l _ _)).trans
    (modCall_beside i _ _)).trans (want_beside i _ _)

theorem talkAgain_beside (q : PosNo) (l : LoopNo) (i : SlotNo) (s : State) : Beside p i s (talkAgain q l i s) :=
  ((autoHold_beside q l s).trans (modCall_beside i _ _)).trans (want_beside i _ _)

theorem parkCall_beside (i : SlotNo) (o : OrbitNo) (s : State) : Beside p i s (parkCall i o s) := by
  unfold parkCall
  exact (((leave_beside i s).trans (modCall_beside i _ _)).trans (.of_same (by rfl))).trans (want_beside i .hold _)

theorem campCall_beside (i : SlotNo) (x : Ext) (s : State) : Beside p i s (campCall i x s) := by
  unfold campCall
  exact (((leave_beside i s).trans (modCall_beside i _ _)).trans (.of_same (by rfl))).trans (want_beside i .hold _)

theorem openCamp_beside (x : Ext) (s : State) : Beside p i s (openCamp x s) := by
  unfold openCamp
  split
  · exact .refl p i s
  · exact Beside.trans (.of_same (by rfl)) (placeTested_beside _ _)

theorem closeConsult_beside (q : PosNo) (drop : Bool) (s : State) : Beside p i s (closeConsult q drop s) := by
  have h : Beside p i s (s.setPos q { s.pos q with consult := none }) := .setPos q _ s rfl rfl
  rcases closeConsult_cases q drop s with hc | ⟨n, _, _, hc⟩ <;> rw [hc]
  · exact h
  · exact h.trans (placeDroppable_beside _ _)

theorem closeConsultOf_beside (c : Call) (s : State) : Beside p i s (closeConsultOf c s) := by
  unfold closeConsultOf
  split
  · split
    · exact closeConsult_beside _ _ s
    · exact .refl p i s
  · exact .refl p i s

theorem rescore_beside (j : SlotNo) (s : State) : Beside p i s (rescore j s) :=
  modCall_beside_of j _ s fun _ h => ⟨h, rfl⟩

theorem requeue_beside (j : SlotNo) (s : State) : Beside p i s (place j (rescore j s)) :=
  (rescore_beside j s).trans (.of_same rfl)

/-! ## Offers and distribution -/

/-- The position whose offer is set is marked, and no other is touched. -/
theorem setOffer_watched (q : PosNo) (o : Option SlotNo) (s : State) : Watched p s (setOffer q o s) := by
  by_cases h : q = p
  · subst h
    have hnews : ((setOffer q o s).pos q).offerNews = true := by rw [setOffer, setPos_pos, if_pos rfl]
    exact ⟨⟨fun hu => by rwa [setOffer, setPos_link] at hu, fun _ => id, .inl hnews⟩, .inl hnews⟩
  · have hpos : (setOffer q o s).pos p = s.pos p := by rw [setOffer, setPos_pos, if_neg h]
    exact ⟨⟨fun hu => by rwa [setOffer, setPos_link] at hu, fun _ => id,
      .inr ⟨by rw [hpos], by rw [hpos], fun _ _ _ h => h⟩⟩, .inr (.inr rfl)⟩

/-- The offers of call i end with a mark, and then no position is offered it. -/
theorem endOffers_watched (i : SlotNo) (s : State) : Watched p s (endOffers i s) :=
  .foldl (fun s q => by
    split
    · exact setOffer_watched q none s
    · exact .refl p s) _ s

/-- A withdrawal marks its position; a call that another position is shown stays OFFERED with its reason. -/
theorem withdrawAt_watched (q : PosNo) (s : State) : Watched p s (withdrawAt q s) := by
  unfold withdrawAt
  split
  · exact .refl p s
  · rename_i i hi
    have hpref : Watched p s (modOffered i (fun c => { c with preferred := none }) (setOffer q none s)) :=
      (setOffer_watched q none s).trans (Beside.watched fun _ => modCall_beside_of i _ _ fun c h => by
        rw [if_pos h]; exact ⟨h, rfl⟩)
    dsimp only
    split
    · exact hpref
    · rename_i hshown
      refine hpref.trans ((modCall_beside i _ _).watched_of fun hp => hshown ?_)
      exact (shownAnywhere_iff _ i).2 ⟨p, hp⟩

theorem withdrawCall_watched (i : SlotNo) (s : State) : Watched p s (withdrawCall i s) :=
  .foldl (fun s q => by
    split
    · exact withdrawAt_watched q s
    · exact .refl p s) _ s

/-- A recompute withdraws every offer where it changes the mode. -/
theorem recompute_watched (s : State) : Watched p s (recompute s) := by
  have hplan : Showing p s s.replanned := ⟨id, fun _ => id, .inr ⟨rfl, rfl, fun _ _ _ h => h⟩⟩
  have h : Showing p s (recompute s) := recompute_keeps (P := fun t => Showing p s t)
    (fun t q h => h.trans (withdrawAt_watched q t).toShowing) hplan
  refine ⟨h, ?_⟩
  by_cases hm : s.eff.mode = s.replanned.eff.mode
  · exact .inr (.inr ((congrArg Plan.mode (recompute_plan s).1).trans hm.symm))
  · rcases h.shown with hn | hu
    · exact .inl hn
    · refine .inr (.inl (hu.offer.symm.trans ?_))
      rw [recompute_of_mode hm]
      exact withdrawAll_clear _ p

theorem offerTo_watched (q : PosNo) (hc : s.call i = some c) (hw : c.state = .waiting) :
    Watched p s (offerTo q i s) := by
  have hmod : Watched p s (s.modCall i fun c => { c.enter .offered with offer := some (.one q) }) :=
    (modCall_beside i _ s).watched_unoffered fun d hd => by rw [hc] at hd; cases hd; rw [hw]; decide
  exact (hmod.trans (setOffer_watched q _ _)).trans (.of_same rfl)

theorem showTo_watched (q : PosNo) (i : SlotNo) (s : State) : Watched p s (showTo q i s) :=
  Watched.trans (Beside.watched fun _ => modCall_beside_of i
    (fun c => { c.enter .offered with offer := some .all }) s fun _ _ => ⟨rfl, rfl⟩) (setOffer_watched q _ _)

theorem watched_keeps (p : PosNo) (s : State) : DistributionKeeps (Watched p s) where
  available _ _ h := h.trans (.of_same rfl)
  withdraw t q h := h.trans (withdrawAt_watched q t)
  depart t i c w h hc hw := h.trans ((depart_beside i none _ t).watched_unoffered fun d hd => by
    rw [hc] at hd; cases hd; rw [hw]; decide)
  offer t q i c h hc hw _ _ := h.trans (offerTo_watched q hc hw)
  showing t q i c h _ _ _ _ _ := h.trans (showTo_watched q i t)

theorem settle_watched (s : State) : Watched p s (settle s) :=
  (watched_keeps p s).settle (fun t h => h.trans (recompute_watched t)) (.refl p s)

theorem replan_watched (s : State) : Watched p s (replan s) := by
  unfold replan
  dsimp only
  split
  · exact (recompute_watched s).trans (settle_watched _)
  · exact recompute_watched s

/-! ## Recalls and freed calls -/

/-- A recall of a queued call withdraws its offers first; no other call that is recalled is OFFERED. -/
theorem recallCall_watched (i : SlotNo) (reason : RecallReason) (s : State) :
    Watched p s (recallCall i reason s) := by
  cases hc : s.call i with
  | none => unfold recallCall; rw [hc]; exact .refl p s
  | some c =>
    rw [recallCall_eq hc]
    have hafter : ∀ t : State, Beside p i t (bump .recalls (place i (rescore i (issue i
        (t.modCall i (·.recalled reason)))))) := fun t =>
      ((modCall_beside i _ t).trans (issue_beside i _)).trans ((requeue_beside i _).trans (bump_beside _ _))
    unfold recallStart
    split
    · exact (withdrawCall_watched i s).trans ((hafter _).watched_of (withdrawCall_noOffer i s p))
    · rename_i hq
      refine ((leave_beside i s).trans (hafter _)).watched_unoffered fun d hd => ?_
      rw [hc] at hd; cases hd
      exact fun hst => hq (by rw [hst]; rfl)

theorem recallNow_watched (i : SlotNo) (reason : RecallReason) (s : State) :
    Watched p s (recallNow i reason s) := (recallCall_watched i reason s).trans (settle_watched _)

theorem recallLoops_watched (q : PosNo) (s : State) : Watched p s (recallLoops q s) :=
  .foldl (fun s l => by
    split
    · exact .refl p s
    · split
      · exact recallCall_watched _ _ s
      · exact .refl p s) _ s

theorem freeSlot_watched (i : SlotNo) (s : State) : Watched p s (freeSlot i s) := by
  cases hc : s.call i with
  | none => rw [freeSlot_none hc]; exact .refl p s
  | some c =>
    have hafter : ∀ t : State, Beside p i t { (leave i t).setCall i none with
        tagIndex := (leave i t).tagIndex.filter (fun e => e.1 != c.tag)
        origins := vset (leave i t).origins c.origin { (leave i t).origin c.origin with current := none }
        freeSlots := (leave i t).freeSlots + 1 } := fun t =>
      (leave_beside i t).trans (.of_calls rfl fun j r hj ⟨d, hd, h⟩ =>
        ⟨d, (setCall_call ..).trans ((if_neg (Ne.symm hj)).trans hd), h⟩)
    rw [freeSlot_eq hc]
    unfold State.emptied
    split
    · exact (endOffers_watched i s).trans ((hafter _).watched_of (endOffers_noOffer i s p))
    · rename_i hst
      exact (hafter s).watched_unoffered fun d hd => by rw [hc] at hd; cases hd; exact hst

end

end Sys2Proof.Machine
end

section
/-! PROOFS. What one console is shown through the work of every order, event and loss of a link (R57, R70, R71, R76,
R107, R108): it is watched, or all its subjects are pending anew. -/
namespace Sys2Proof.Machine

section
variable {k : Scope} {s t u : State} {i : SlotNo} {p q : PosNo} {c : Call} {l : LoopNo}

/-! ## The part's own events -/

theorem bump_watched (x : Counter) (s : State) : Watched p s (bump x s) := Beside.watched fun _ => bump_beside x s

theorem placeLow_watched (n : SwitchNotice) (s : State) : Watched p s (placeLow n s) :=
  Beside.watched fun _ => placeLow_beside n s

theorem placeDroppable_watched (n : SwitchNotice) (s : State) : Watched p s (placeDroppable n s) :=
  Beside.watched fun _ => placeDroppable_beside n s

theorem placeAnswer_watched (n : SwitchNotice) (s : State) : Watched p s (placeAnswer n s) :=
  Beside.watched fun _ => placeAnswer_beside n s

theorem answerSwitch_watched (kind : Byte) (code : ResultCode) (s : State) :
    Watched p s (answerSwitch kind code s) := placeAnswer_watched _ s

theorem answerConsole_watched (q : PosNo) (seq kind : Byte) (code : ResultCode) (orbit : Option OrbitNo)
    (s : State) : Watched p s (answerConsole q seq kind code orbit s) :=
  Beside.watched fun _ => answerConsole_beside q seq kind code orbit s

theorem setPos_watched (q : PosNo) (x : Position) (s : State) (ho : x.offer = (s.pos q).offer)
    (hn : x.offerNews = (s.pos q).offerNews) : Watched p s (s.setPos q x) :=
  Beside.watched fun _ => .setPos q x s ho hn

theorem rejudgedAt_watched (q : PosNo) (st : PosState) (why : PosReason) (s : State) :
    Watched p s (s.rejudgedAt q st why) :=
  (setPos_watched q { s.pos q with state := st, lastReason := why } s rfl rfl).trans (.of_same (by rfl))

theorem waitLimitCheck_watched (i : SlotNo) (s : State) : Watched p s (waitLimitCheck i s) := by
  unfold waitLimitCheck
  split
  · exact .refl p s
  · rename_i c hc
    split
    · rename_i hw
      have hst : c.state = .waiting := by
        simp only [waitLimitHolds, Bool.and_eq_true, beq_iff_eq] at hw
        exact hw.1.1.1
      refine (((depart_beside i none _ s).watched_unoffered fun d hd => ?_).trans (bump_watched _ _)).trans
        (settle_watched _)
      rw [hc] at hd; cases hd; rw [hst]; decide
    · exact .refl p s

theorem missed_watched (q : PosNo) (s : State) : Watched p s (s.missed q) :=
  (setPos_watched q { s.pos q with missCount := min maxMissCount ((s.pos q).missCount + 1) } s rfl rfl).trans
    (bump_watched _ _)

theorem countMiss_watched (q : PosNo) (s : State) : Watched p s (countMiss q s) := by
  rw [countMiss_eq]
  split
  · exact (missed_watched q s).trans (rejudgedAt_watched q _ _ _)
  · exact missed_watched q s

theorem offerExpiryCheck_watched (i : SlotNo) (s : State) : Watched p s (offerExpiryCheck i s) := by
  unfold offerExpiryCheck
  split
  · exact .refl p s
  · split
    · dsimp only
      split
      · exact Beside.watched fun _ => modCall_beside_of i _ s fun _ h => ⟨h, rfl⟩
      · exact ((withdrawAt_watched _ s).trans (countMiss_watched _ _)).trans (settle_watched _)
    · exact .refl p s

theorem holdReminderCheck_watched (i : SlotNo) (s : State) : Watched p s (holdReminderCheck i s) := by
  unfold holdReminderCheck
  split
  · exact .refl p s
  · split
    · exact Beside.watched fun _ => modCall_beside_of i _ s fun _ h => ⟨h, rfl⟩
    · exact .refl p s

theorem holdRecallCheck_watched (i : SlotNo) (s : State) : Watched p s (holdRecallCheck i s) := by
  unfold holdRecallCheck
  split
  · exact .refl p s
  · split
    · exact recallNow_watched i _ s
    · exact .refl p s

theorem parkCheck_watched (i : SlotNo) (s : State) : Watched p s (parkCheck i s) := by
  unfold parkCheck
  split
  · exact .refl p s
  · split
    · exact recallNow_watched i _ s
    · exact .refl p s

theorem ringCheck_watched (i : SlotNo) (s : State) : Watched p s (ringCheck i s) := by
  unfold ringCheck
  split
  · exact .refl p s
  · split
    · exact recallNow_watched i _ s
    · exact .refl p s

theorem campCheck_watched (i : SlotNo) (s : State) : Watched p s (campCheck i s) := by
  unfold campCheck
  split
  · exact .refl p s
  · split
    · exact recallNow_watched i _ s
    · exact .refl p s

theorem queueCheck_watched (found : Call) (i : SlotNo) (s : State) : Watched p s (queueCheck found i s) := by
  have h : Watched p s (settle (place i (rescore i s))) :=
    (Beside.watched fun _ => requeue_beside i s).trans (settle_watched _)
  unfold queueCheck
  dsimp only
  split
  · exact h
  · split
    · exact h.trans (waitLimitCheck_watched i _)
    · split
      · exact h.trans (offerExpiryCheck_watched i _)
      · exact h

theorem ownersCheck_watched (found : Call) (i : SlotNo) (s : State) : Watched p s (ownersCheck found i s) := by
  unfold ownersCheck
  split
  case h_1 => exact queueCheck_watched found i s
  case h_2 => exact queueCheck_watched found i s
  case h_3 => exact .refl p s
  case h_4 =>
    split
    · exact holdRecallCheck_watched i s
    · exact holdReminderCheck_watched i s
  case h_5 => exact parkCheck_watched i s
  case h_6 => exact ringCheck_watched i s
  case h_7 => exact campCheck_watched i s
  case h_8 => exact .refl p s

theorem visitSlot_watched (i : SlotNo) (s : State) : Watched p s (visitSlot i s) := by
  unfold visitSlot
  split
  · exact .refl p s
  · have h : ∀ j, Beside p j s (issue i (s.modCall i (fun c => { c with retryWait := false }))) := fun j =>
      (modCall_beside_of i (fun c => { c with retryWait := false }) s fun _ h => ⟨h, rfl⟩).trans (issue_beside i _)
    dsimp only
    refine Watched.trans ?_ (ownersCheck_watched _ i _)
    split
    · exact Beside.watched fun j => (h j).trans (modCall_beside_of i _ _ fun _ h => ⟨h, rfl⟩)
    · exact Beside.watched h

theorem periodicReport_watched (s : State) : Watched p s (periodicReport s) := by
  unfold periodicReport
  split
  · exact .of_same rfl
  · exact bump_watched _ s

theorem reportEnd_watched (s : State) : Watched p s (reportEnd s) :=
  (periodicReport_watched s).trans (.of_same (by rfl))

theorem advancePointer_watched (s : State) : Watched p s (advancePointer s) := by
  unfold advancePointer
  split
  · unfold endPass
    split
    · exact .of_same rfl
    · dsimp only
      split
      · exact Watched.trans (.of_same (by rfl)) (reportEnd_watched _)
      · exact .of_same rfl
  · exact .of_same rfl

theorem sweepStep_watched (s : State) : Watched p s (sweepStep s) :=
  (visitSlot_watched _ s).trans (advancePointer_watched _)

theorem Events.watched {c : Instr} {f : State → State} (row : Events c f) (s : State) : Watched p s (f s) := by
  cases row with
  | sweepVisit => exact sweepStep_watched s
  | waitLimitRouting i => exact waitLimitCheck_watched i s
  | offerExpiry i =>
    dsimp only
    split
    · exact offerExpiryCheck_watched i s
    · exact .refl p s
  | holdReminder i => exact holdReminderCheck_watched i s
  | holdRecall i => exact holdRecallCheck_watched i s
  | parkExpiry i => exact parkCheck_watched i s
  | ringExpiry i => exact ringCheck_watched i s
  | campExpiry i => exact campCheck_watched i s
  | reportIntervalEnd =>
    dsimp only
    split
    · exact reportEnd_watched s
    · exact .refl p s

/-! ## The orders and reports of the switch -/

theorem rejectArrival_watched (tag : Tag) (why : RejectReason) (s : State) :
    Watched p s (rejectArrival tag why s) := (bump_watched _ s).trans (placeAnswer_watched _ _)

theorem divertArrival_watched (tag : Tag) (dest : Half) (why : DivertReason) (x : Counter) (s : State) :
    Watched p s (divertArrival tag dest why x s) := (bump_watched _ s).trans (placeAnswer_watched _ _)

theorem overflowArrival_watched (tag : Tag) (s : State) : Watched p s (overflowArrival tag s) := by
  unfold overflowArrival
  split
  · exact divertArrival_watched _ _ _ _ s
  · exact rejectArrival_watched _ _ s

/-- An admission fills a slot that held no call. -/
theorem admitCall_watched (hi : s.call i = none) (c : Call) : Watched p s (admitCall i c s) := by
  have h : ∀ j, Beside p j s (allocate i c (bump .admitted s)) := fun j =>
    .of_calls (by rfl) fun m r _ ⟨d, hd, hk⟩ => by
      have hne : i ≠ m := by rintro rfl; rw [hi] at hd; cases hd
      exact ⟨d, (setCall_call ..).trans ((if_neg hne).trans hd), hk⟩
  exact (Beside.watched fun j => (h j).trans (requeue_beside i _)).trans (settle_watched _)

theorem decideMapped_watched (tag : Tag) (e : Group) (o : OriginNo) (s : State) :
    Watched p s (decideMapped tag e o s) := by
  unfold decideMapped
  split
  · exact (rejectArrival_watched _ _ s).trans (placeLow_watched _ _)
  · split
    · exact divertArrival_watched _ _ _ _ s
    · split
      · exact overflowArrival_watched _ s
      · split
        · exact overflowArrival_watched _ s
        · rename_i hj; exact admitCall_watched (lowestFree_spec hj).2 _

theorem arriveDecision_watched (tag : Tag) (g x : Byte) (s : State) : Watched p s (arriveDecision tag g x s) := by
  refine (bump_watched .arrivals s).trans ?_
  unfold arriveDecision
  dsimp only
  split
  · exact rejectArrival_watched _ _ _
  · split
    · exact (rejectArrival_watched _ _ _).trans (placeLow_watched _ _)
    · split
      · exact (rejectArrival_watched _ _ _).trans (placeLow_watched _ _)
      · exact decideMapped_watched _ _ _ _

theorem goneCall_watched (i : SlotNo) (c : Call) (s : State) : Watched p s (goneCall i c s) := by
  have h : Watched p s (if c.state.queued then bump .abandoned s else s) := by
    split
    · exact bump_watched _ s
    · exact .refl p s
  unfold goneCall
  dsimp only
  refine (Watched.trans ?_ (freeSlot_watched i _)).trans (settle_watched _)
  split
  · exact h.trans (Beside.watched fun _ => closeConsultOf_beside c _)
  · exact h

theorem goneReport_watched (tag : Tag) (s : State) : Watched p s (goneReport tag s) := by
  unfold goneReport
  split
  · exact bump_watched _ s
  · split
    · exact bump_watched _ s
    · exact goneCall_watched _ _ s

theorem freed_watched (h : Watched p s t) (i : SlotNo) : Watched p s (settle (freeSlot i t)) :=
  (h.trans (freeSlot_watched i t)).trans (settle_watched _)

theorem acked_watched (s : State) (i : SlotNo) (c : Call) (r : Request) : Watched p s (s.acked i c r) :=
  Beside.watched fun _ => modCall_beside_of i _ s fun _ h => ⟨h, rfl⟩

theorem ackDone_watched (i : SlotNo) (c : Call) (r : Request) (s : State) : Watched p s (ackDone i c r s) := by
  have h := acked_watched (p := p) s i c r
  rw [ackDone_eq]
  split
  · refine freed_watched ?_ i
    split
    · exact h.trans (bump_watched _ _)
    · exact h
  · exact h.trans (Beside.watched fun _ => issue_beside i _)

theorem failConsequence_watched (i : SlotNo) (c : Call) (w : Conn) (s : State) :
    Watched p s (failConsequence i c w s) := by
  unfold failConsequence
  split
  case h_1 =>
    split
    · exact recallNow_watched i _ s
    · exact .refl p s
  case h_2 =>
    split
    · exact recallNow_watched i _ s
    · exact .refl p s
  case h_3 =>
    split
    · exact recallNow_watched i _ s
    · exact .refl p s
  case h_4 =>
    split
    · exact Beside.watched fun _ => modCall_beside_of i _ s fun _ h => ⟨h, rfl⟩
    · exact .refl p s
  case h_5 =>
    split
    · exact freed_watched (.refl p s) i
    · exact .refl p s
  case h_6 => exact .refl p s
  case h_7 => exact .refl p s

theorem failed_watched (s : State) (i : SlotNo) (c : Call) (r : Request) : Watched p s (s.failed i c r) := by
  unfold State.failed
  exact (((Beside.watched fun _ => modCall_beside_of i (fun c => { c with outstanding := none }) s
    fun _ h => ⟨h, rfl⟩).trans (bump_watched _ _)).trans (placeLow_watched _ _)).trans
    (Beside.watched fun _ => modCall_beside_of i (fun c => { c with retryWait := true }) _ fun _ h => ⟨h, rfl⟩)

theorem setPhase_watched (q : PosNo) (r : Consult) (phase : Phase) (leg : Option ReqNo) (s : State) :
    Watched p s (setPhase q r phase leg s) := setPos_watched q _ s rfl rfl

theorem legAck_watched (q : PosNo) (r : Consult) (n : ReqNo) (done : Bool) (s : State) :
    Watched p s (legAck q r n done s) := by
  unfold legAck
  split
  · split
    · exact setPhase_watched _ _ _ _ s
    · exact ((setPhase_watched _ _ _ _ s).trans (bump_watched _ _)).trans (placeLow_watched _ _)
  · exact bump_watched _ s

theorem pathAckReport_watched (n : ReqNo) (done : Bool) (s : State) : Watched p s (pathAckReport n done s) := by
  unfold pathAckReport
  split
  · split
    · exact .refl p s
    · split
      · exact .refl p s
      · split
        · exact ackDone_watched _ _ _ s
        · rw [ackFail_eq]
          exact ((failed_watched s _ _ _).trans (failConsequence_watched _ _ _ _)).trans
            (Beside.watched fun _ => issue_beside _ _)
  · split
    · split
      · exact .refl p s
      · exact legAck_watched _ _ _ _ s
    · exact (bump_watched _ s).trans (placeLow_watched _ _)

theorem watchReport_watched (i : SlotNo) (v : LegReport) (s : State) : Watched p s (watchReport i v s) := by
  cases v with
  | answered => exact freed_watched (bump_watched _ s) i
  | busy => exact recallNow_watched i _ s
  | unobtainable => exact recallNow_watched i _ s
  | ringing => exact .refl p s
  | cleared => exact .refl p s

theorem legReport_watched (n : ReqNo) (v : LegReport) (s : State) : Watched p s (legReport n v s) := by
  unfold legReport
  split
  · split
    · exact .refl p s
    · exact setPhase_watched _ _ _ _ s
  · split
    · exact watchReport_watched _ v s
    · exact bump_watched _ s

/-- A call known to be in another state than OFFERED. -/
theorem Beside.watched_at (h : Beside p i s t) (hc : s.call i = some c) (hst : c.state ≠ .offered) :
    Watched p s t := h.watched_unoffered fun d hd => by rw [hc] at hd; cases hd; exact hst

/-- The head of a camp list is CAMPED. -/
theorem extFreeReport_watched (h : s.CampLaw) (x : Ext) : Watched p s (extFreeReport x s) := by
  unfold extFreeReport
  split
  · rename_i i hhead
    unfold State.campHead at hhead
    split at hhead
    · cases hhead
    · rename_i e hfind
      obtain ⟨c, hc, hst, -⟩ := (h.listed i e.ext).1
        ⟨e, List.mem_of_find?_eq_some hfind, rfl, List.mem_of_mem_head? hhead⟩
      exact (ringAt_beside i x s).watched_at hc (by rw [hst]; decide)
  · exact placeDroppable_watched _ s

/-- The call in an orbit is PARKED. -/
theorem pickupReport_watched (h : Lawful k s) (o : OrbitNo) (x : Ext) : Watched p s (pickupReport o x s) := by
  unfold pickupReport
  split
  · exact bump_watched _ s
  · rename_i i horbit
    obtain ⟨c, hc, hst, -⟩ := (h.orbits o i).1 horbit
    exact (depart_beside i _ _ s).watched_at hc (by rw [hst]; decide)

theorem startOrder_watched (s : State) : Watched p s (startOrder s) := by
  unfold startOrder
  split
  · exact Watched.trans (.of_same (by rfl)) (answerSwitch_watched _ _ _)
  · exact answerSwitch_watched _ _ s

theorem inStandby_watched {kind : Byte} {f : State → State} (h : Watched p s (f s)) :
    Watched p s (inStandby kind f s) := by
  unfold inStandby
  split
  · exact h
  · exact answerSwitch_watched _ _ s

theorem groupSetOrder_watched (g v b : Byte) (x : Half) (y : Byte) (d : Half) (s : State) :
    Watched p s (groupSetOrder g v b x y d s) := by
  unfold groupSetOrder
  split
  · exact answerSwitch_watched _ _ s
  · split
    · exact answerSwitch_watched _ _ s
    · exact Watched.trans (.of_same (by rfl)) (answerSwitch_watched _ _ _)

theorem originSetOrder_watched (x : Half) (v o : Byte) (y : Half) (s : State) :
    Watched p s (originSetOrder x v o y s) := by
  unfold originSetOrder
  split
  · exact Watched.trans (.of_same (by rfl)) (answerSwitch_watched _ _ _)
  · exact answerSwitch_watched _ _ s

theorem setEligible_watched (q : PosNo) (b : Bool) (s : State) : Watched p s (setEligible q b s) :=
  (setPos_watched q { s.pos q with leadEligible := b } s rfl rfl).trans (.of_same (by rfl))

theorem positionSetOrder_watched (x v : Byte) (s : State) : Watched p s (positionSetOrder x v s) := by
  unfold positionSetOrder
  split
  · exact Watched.trans (t := setReportInterval v s) (.of_same (by rfl)) (answerSwitch_watched _ _ _)
  · split
    · exact (setEligible_watched _ _ s).trans (answerSwitch_watched _ _ _)
    · exact answerSwitch_watched _ _ s

theorem timingSetOrder_watched (a b x y z : Byte) (s : State) : Watched p s (timingSetOrder a b x y z s) :=
  Watched.trans (.of_same (by rfl)) (answerSwitch_watched _ _ _)

theorem rangeSetOrder_watched (a b : Half) (s : State) : Watched p s (rangeSetOrder a b s) := by
  unfold rangeSetOrder
  split
  · exact Watched.trans (.of_same (by rfl)) (answerSwitch_watched _ _ _)
  · exact answerSwitch_watched _ _ s

theorem countersReadOrder_watched (v : Byte) (s : State) : Watched p s (countersReadOrder v s) := by
  unfold countersReadOrder
  split
  · exact answerSwitch_watched _ _ s
  · rename_i b _
    have h : Watched p s (if b then clearCounters s else s) := by
      split
      · exact .of_same rfl
      · exact .refl p s
    unfold countersAnswer
    dsimp only
    split
    · exact h.trans (.of_same (by rfl))
    · exact h.trans (bump_watched _ _)

/-! ## The plans, the night setting and the service state -/

theorem setStaging_watched (x : Option (List Edit)) (s : State) : Watched p s { s with staging := x } :=
  .of_same rfl

theorem planHoldOrder_watched (s : State) : Watched p s (planHoldOrder s) := by
  unfold planHoldOrder
  split
  · exact (setStaging_watched _ s).trans (answerSwitch_watched _ _ _)
  · exact answerSwitch_watched _ _ s

theorem planWriteOrder_watched (a b : Byte) (v : Half) (s : State) : Watched p s (planWriteOrder a b v s) := by
  unfold planWriteOrder
  split
  · exact answerSwitch_watched _ _ s
  · split
    · split
      · exact answerSwitch_watched _ _ s
      · exact (setStaging_watched _ s).trans (answerSwitch_watched _ _ _)
    · split
      · unfold writeNow
        dsimp only
        split
        · exact Watched.trans (.of_same (by rfl))
            ((answerSwitch_watched _ _ { s with plans := s.plans.apply _ }).trans (replan_watched _))
        · exact answerSwitch_watched _ _ s
      · exact answerSwitch_watched _ _ s

theorem planReleaseOrder_watched (s : State) : Watched p s (planReleaseOrder s) := by
  unfold planReleaseOrder
  split
  · exact answerSwitch_watched _ _ s
  · rename_i edits _
    dsimp only
    split
    · exact Watched.trans (.of_same (by rfl))
        ((answerSwitch_watched _ _ { s with plans := s.plans.applyAll edits, staging := none }).trans
          (replan_watched _))
    · exact (setStaging_watched _ s).trans (answerSwitch_watched _ _ _)

theorem planAbandonOrder_watched (s : State) : Watched p s (planAbandonOrder s) := by
  unfold planAbandonOrder
  split
  · exact answerSwitch_watched _ _ s
  · exact (setStaging_watched _ s).trans (answerSwitch_watched _ _ _)

theorem planSelectOrder_watched (v : Byte) (s : State) : Watched p s (planSelectOrder v s) := by
  unfold planSelectOrder
  split
  · exact answerSwitch_watched _ _ s
  · rename_i x _
    exact Watched.trans (.of_same (by rfl))
      ((answerSwitch_watched _ _ { s with selection := x }).trans (replan_watched _))

theorem selectOrder_watched (q : PosNo) (seq v : Byte) (s : State) : Watched p s (selectOrder q seq v s) := by
  unfold selectOrder
  split
  · split
    · exact answerConsole_watched _ _ _ _ _ s
    · rename_i x _
      exact Watched.trans (.of_same (by rfl))
        ((answerConsole_watched _ _ _ _ _ { s with selection := x }).trans (replan_watched _))
  · exact answerConsole_watched _ _ _ _ _ s

theorem setNight_watched (v : NightSetting) (s : State) : Watched p s (setNight v s) := by
  have hwrite : Watched p s { s with nightSetting := v, nightFlag := nightFlagOf v s.positions } :=
    .of_same rfl
  unfold setNight
  dsimp only
  split
  · exact hwrite
  · exact hwrite.trans (settle_watched _)

theorem nightOrder_watched (v : Byte) (s : State) : Watched p s (nightOrder v s) := by
  unfold nightOrder
  split
  · exact answerSwitch_watched _ _ s
  · exact (answerSwitch_watched _ _ s).trans (setNight_watched _ _)

theorem nightConsoleOrder_watched (q : PosNo) (seq v : Byte) (s : State) :
    Watched p s (nightConsoleOrder q seq v s) := by
  unfold nightConsoleOrder
  split
  · split
    · exact answerConsole_watched _ _ _ _ _ s
    · exact (answerConsole_watched _ _ _ _ _ s).trans (setNight_watched _ _)
  · exact answerConsole_watched _ _ _ _ _ s

/-- A STOP ORDERLY of an empty part closes positions and takes no offer. -/
theorem stopping_watched (s : State) : Watched p s (rejudgeGroup s.stopping) := by
  have hpos : (rejudgeGroup s.stopping).pos p = closeOpenPosition (s.pos p) := stopping_pos s p
  have hkeep : (closeOpenPosition (s.pos p)).offer = (s.pos p).offer ∧
      (closeOpenPosition (s.pos p)).offerNews = (s.pos p).offerNews := by
    unfold closeOpenPosition; split <;> exact ⟨rfl, rfl⟩
  exact Beside.watched fun _ =>
    ⟨rfl, fun _ => id, by rw [hpos, hkeep.1], by rw [hpos, hkeep.2], rfl, fun _ _ _ h => h⟩

theorem stopOrderlyNow_watched (s : State) : Watched p s (stopOrderlyNow s) := by
  unfold stopOrderlyNow
  split
  · exact (setStaging_watched none s).trans (answerSwitch_watched _ _ _)
  · split
    · exact ((stopping_watched s).trans (settle_watched _)).trans (answerSwitch_watched _ _ _)
    · exact answerSwitch_watched _ _ s

/-! ## The orders of the consoles -/

/-- A call on a loop is seated, so it is not OFFERED. -/
theorem loopCall_unoffered (h : Lawful k s) (hl : s.loopCall q l = some (i, c)) : c.state ≠ .offered := by
  obtain ⟨-, -, hst, -⟩ := h.loopCall hl
  intro ho; rw [ho] at hst; cases hst

/-- An accepted order that moves the call of a loop. -/
theorem moved_watched {seq kind : Byte} {orbit : Option OrbitNo} (h : Lawful k s)
    (hl : s.loopCall q l = some (i, c)) (hm : Beside p i (answerConsole q seq kind .accepted orbit s) t) :
    Watched p s t :=
  ((answerConsole_beside q seq kind .accepted orbit s).trans hm).watched_at (h.loopCall hl).2.1
    (loopCall_unoffered h hl)

/-- A call whose offers have ended is seated. -/
theorem seat_watched (q : PosNo) (l : LoopNo) (h : (s.pos p).offer ≠ some i) :
    Watched p s (seat q l i true s) := (seat_beside q l i true s).watched_of h

theorem setAvailable_watched (ps : List PosNo) (s : State) : Watched p s { s with available := ps } :=
  .of_same rfl

theorem setMissCount_watched (q : PosNo) (n : Nat) (s : State) :
    Watched p s (s.setPos q { s.pos q with missCount := n }) :=
  setPos_watched q { s.pos q with missCount := n } s rfl rfl

theorem answerTaken_watched (q : PosNo) (l : LoopNo) (i : SlotNo) (s : State) :
    Watched p s (answerTaken q l i s) := by
  refine (endOffers_watched i s).trans ?_
  have hno := endOffers_noOffer i s p
  unfold answerTaken
  dsimp only
  generalize endOffers i s = u at hno ⊢
  refine Watched.trans (Watched.trans (Watched.trans ?_ (setMissCount_watched q 0 _)) (bump_watched _ _))
    (settle_watched _)
  exact (setAvailable_watched _ u).trans ((seat_beside q l i true _).watched_of hno)

theorem pickTaken_watched (q : PosNo) (l : LoopNo) (i : SlotNo) (s : State) :
    Watched p s (pickTaken q l i s) :=
  (((endOffers_watched i s).trans (seat_watched q l (endOffers_noOffer i s p))).trans
    (bump_watched _ _)).trans (settle_watched _)

theorem openOrder_watched (q : PosNo) (seq : Byte) (s : State) : Watched p s (openOrder q seq s) := by
  unfold openOrder
  split
  · exact answerConsole_watched _ _ _ _ _ s
  · have h := (answerConsole_watched (p := p) q seq Kind.openPosition .accepted none s).trans
      (setMissCount_watched q 0 _)
    unfold openTaken
    dsimp only
    split
    · exact h
    · exact (h.trans (rejudgedAt_watched q _ _ _)).trans (settle_watched _)

theorem closeOrder_watched (q : PosNo) (seq : Byte) (s : State) : Watched p s (closeOrder q seq s) := by
  have h := answerConsole_watched (p := p) q seq Kind.closePosition .accepted none s
  unfold closeOrder closeTaken
  split
  · exact ((h.trans (withdrawAt_watched q _)).trans (rejudgedAt_watched q _ _ _)).trans (settle_watched _)
  · exact h

theorem answerOrder_watched (q : PosNo) (seq a b : Byte) (s : State) : Watched p s (answerOrder q seq a b s) := by
  unfold answerOrder
  split
  · exact answerConsole_watched _ _ _ _ _ s
  · exact (answerConsole_watched _ _ _ _ _ s).trans (answerTaken_watched _ _ _ _)

theorem pickOrder_watched (q : PosNo) (seq a b : Byte) (s : State) : Watched p s (pickOrder q seq a b s) := by
  unfold pickOrder
  split
  · exact answerConsole_watched _ _ _ _ _ s
  · exact (answerConsole_watched _ _ _ _ _ s).trans (pickTaken_watched _ _ _ _)

theorem holdOrder_watched (h : Lawful k s) (q : PosNo) (seq a : Byte) : Watched p s (holdOrder q seq a s) := by
  unfold holdOrder
  split
  · exact answerConsole_watched _ _ _ _ _ s
  · rename_i ht
    obtain ⟨l, c, hl, -⟩ := holdTests_spec ht
    exact moved_watched h hl (holdSeated_beside _ _)

theorem returnOrder_watched (h : Lawful k s) (q : PosNo) (seq a : Byte) :
    Watched p s (returnOrder q seq a s) := by
  unfold returnOrder
  split
  · exact answerConsole_watched _ _ _ _ _ s
  · rename_i ht
    obtain ⟨c, hl, -⟩ := returnTests_spec ht
    exact moved_watched h hl (talkAgain_beside _ _ _ _)

theorem releaseOrder_watched (h : Lawful k s) (q : PosNo) (seq a : Byte) :
    Watched p s (releaseOrder q seq a s) := by
  unfold releaseOrder
  split
  · exact answerConsole_watched _ _ _ _ _ s
  · rename_i ht
    obtain ⟨l, c, hl, -⟩ := releaseTests_spec ht
    exact ((moved_watched h hl (depart_beside _ _ _ _)).trans (bump_watched _ _)).trans (settle_watched _)

theorem parkOrder_watched (h : Lawful k s) (q : PosNo) (seq a b : Byte) :
    Watched p s (parkOrder q seq a b s) := by
  unfold parkOrder
  split
  · exact answerConsole_watched _ _ _ _ _ s
  · rename_i ht
    obtain ⟨⟨l, c, hl, -⟩, -⟩ := parkTests_spec ht
    exact (moved_watched h hl (parkCall_beside _ _ _)).trans (settle_watched _)

theorem retrieveOrder_watched (h : Lawful k s) (q : PosNo) (seq a b : Byte) :
    Watched p s (retrieveOrder q seq a b s) := by
  unfold retrieveOrder
  split
  · exact answerConsole_watched _ _ _ _ _ s
  · rename_i ht
    obtain ⟨-, o, ho⟩ := retrieveTests_spec ht
    obtain ⟨c, hc, hst, -⟩ := (h.orbits o _).1 ho
    exact (((answerConsole_beside q _ _ _ _ s).trans (seat_beside q _ _ _ _)).watched_at hc
      (by rw [hst]; decide)).trans (settle_watched _)

theorem setConsult_beside (q : PosNo) (r : Option Consult) (s : State) :
    Beside p i s (s.setPos q { s.pos q with consult := r }) := .setPos q _ s rfl rfl

/-- A taken CONSULT opens the record, asks for the leg and holds the call. -/
theorem consultTaken_beside (q : PosNo) (l : LoopNo) (i : SlotNo) (x : Ext) (s : State) :
    ∃ u, consultTaken q l i x s = settle u ∧ Beside p i s u := by
  refine ⟨_, rfl, ?_⟩
  exact ((Beside.trans (t := { s with reqCounter := s.nextNumber }) (.of_same (by rfl))
    (setConsult_beside q _ _)).trans (placeTested_beside _ _)).trans (holdSeated_beside _ _)

theorem consultOrder_watched (h : Lawful k s) (q : PosNo) (seq a : Byte) (x : Ext) :
    Watched p s (consultOrder q seq a x s) := by
  unfold consultOrder consultTests
  split
  · exact answerConsole_watched _ _ _ _ _ s
  · rename_i ht
    split at ht
    · cases ht
    · rename_i hcaller
      split at ht
      · cases ht
      · cases ht
        obtain ⟨c, hl, -⟩ := callerTests_spec hcaller
        obtain ⟨u, hu, hb⟩ := consultTaken_beside (p := p) q _ _ x
          (answerConsole q seq Kind.consult .accepted none s)
        rw [hu]
        exact (moved_watched h hl hb).trans (settle_watched _)

theorem sendOrder_watched (h : Lawful k s) (q : PosNo) (seq a : Byte) (x : Ext) :
    Watched p s (sendOrder q seq a x s) := by
  unfold sendOrder
  split
  · exact answerConsole_watched _ _ _ _ _ s
  · rename_i ht
    obtain ⟨c, hl, -⟩ := callerTests_spec ht
    exact (moved_watched h hl (ringAt_beside _ _ _)).trans (settle_watched _)

theorem joinOrder_watched (h : Lawful k s) (q : PosNo) (seq a : Byte) : Watched p s (joinOrder q seq a s) := by
  have hanswer := answerConsole_watched (p := p) q seq Kind.join .wrongState none s
  unfold joinOrder
  split
  · exact answerConsole_watched _ _ _ _ _ s
  · rename_i i r ht
    obtain ⟨c, hl⟩ := endTests_spec ht
    have hscreened : Watched p s (joinScreened q i r (answerConsole q seq Kind.join .accepted none s)) :=
      (moved_watched h hl ((closeConsult_beside q false _).trans (depart_beside i _ _ _))).trans (settle_watched _)
    have hunscreened : Watched p s (joinUnscreened q i r (answerConsole q seq Kind.join .accepted none s)) :=
      (moved_watched h hl ((closeConsult_beside q true _).trans (ringAt_beside i _ _))).trans (settle_watched _)
    dsimp only
    split
    case h_1 => exact hscreened
    case h_2 => exact hunscreened
    case h_3 => exact hunscreened
    all_goals exact hanswer

theorem cancelOrder_watched (h : Lawful k s) (q : PosNo) (seq a : Byte) :
    Watched p s (cancelOrder q seq a s) := by
  unfold cancelOrder
  split
  · exact answerConsole_watched _ _ _ _ _ s
  · rename_i ht
    obtain ⟨c, hl⟩ := endTests_spec ht
    exact (moved_watched h hl ((closeConsult_beside q _ _).trans (talkAgain_beside q _ _ _))).trans
      (settle_watched _)

theorem campOrder_watched (h : Lawful k s) (q : PosNo) (seq a : Byte) : Watched p s (campOrder q seq a s) := by
  unfold campOrder
  split
  · exact answerConsole_watched _ _ _ _ _ s
  · rename_i ht
    obtain ⟨c, hl⟩ := endTests_spec ht
    split
    · exact answerConsole_watched _ _ _ _ _ s
    · exact (moved_watched h hl (((openCamp_beside _ _).trans (closeConsult_beside q _ _)).trans
        (campCall_beside _ _ _))).trans (settle_watched _)

/-! ## The service reset and the rows -/

/-- After a service reset all subjects of a console whose link is UP are pending (R178). -/
theorem serviceReset_shows (b : Bool) (s : State) (p : PosNo) : (serviceReset b s).Shows p := by
  rw [serviceReset_reformed]
  exact pendFull_shows _ p

theorem placeAnswer_shows (n : SwitchNotice) (h : s.Shows p) : (placeAnswer n s).Shows p := by
  rcases placeAnswer_cases n s with hc | hc <;> rw [hc]
  · exact fun hup j => by
      have := h (by rwa [enlist_link] at hup) j
      cases j <;> exact this
  · exact fun hup j => by
      have := h (by rwa [bump_link] at hup) j
      cases j <;> exact this

theorem reset_shows (b : Bool) (kind : Byte) (code : ResultCode) (s : State) (p : PosNo) :
    (answerSwitch kind code (serviceReset b s)).Shows p :=
  placeAnswer_shows _ (serviceReset_shows b s p)

/-- Every order leaves a console watched, or shows it everything anew. -/
theorem Orders.watched {c : Instr} {link : Link} {kind : Byte} {n : Nat} {f : State → State}
    (row : Orders c link kind n f) (h : Lawful k s) (p : PosNo) : Watched p s (f s) ∨ (f s).Shows p := by
  have hstop : ∀ mode, Watched p s (stopOrder mode s) ∨ (stopOrder mode s).Shows p := fun mode => by
    unfold stopOrder
    split
    · exact .inl (stopOrderlyNow_watched s)
    · split
      · exact .inr (reset_shows true _ _ s p)
      · exact .inl (answerSwitch_watched _ _ s)
  cases row with
  | stopOrderly => exact hstop _
  | stopForced => exact hstop _
  | restart => exact .inr (reset_shows false _ _ s p)
  | arrive => exact .inl (arriveDecision_watched _ _ _ s)
  | gone => exact .inl (goneReport_watched _ s)
  | pathAck n x v =>
    left
    dsimp only
    split
    · exact bump_watched _ s
    · exact pathAckReport_watched _ _ s
  | legState n x v =>
    left
    dsimp only
    split
    · exact bump_watched _ s
    · exact legReport_watched _ _ s
  | extFree n x =>
    left
    dsimp only
    split
    · exact extFreeReport_watched h.camps _
    · exact bump_watched _ s
  | pickup n o x =>
    left
    dsimp only
    split
    · exact bump_watched _ s
    · split
      · exact pickupReport_watched h _ _
      · exact bump_watched _ s
  | start => exact .inl (startOrder_watched s)
  | groupSet => exact .inl (inStandby_watched (groupSetOrder_watched _ _ _ _ _ _ s))
  | originSet => exact .inl (inStandby_watched (originSetOrder_watched _ _ _ _ s))
  | positionSetLeadEligible => exact .inl (inStandby_watched (positionSetOrder_watched _ _ s))
  | positionSetReportInterval => exact .inl (inStandby_watched (positionSetOrder_watched _ _ s))
  | timingSet => exact .inl (inStandby_watched (timingSetOrder_watched _ _ _ _ _ s))
  | rangeSet => exact .inl (inStandby_watched (rangeSetOrder_watched _ _ s))
  | planHold => exact .inl (planHoldOrder_watched s)
  | planWrite => exact .inl (planWriteOrder_watched _ _ _ s)
  | planRelease => exact .inl (planReleaseOrder_watched s)
  | planAbandon => exact .inl (planAbandonOrder_watched s)
  | planSelect => exact .inl (planSelectOrder_watched _ s)
  | select => exact .inl (selectOrder_watched _ _ _ s)
  | night => exact .inl (nightOrder_watched _ s)
  | nightConsole => exact .inl (nightConsoleOrder_watched _ _ _ s)
  | countersRead => exact .inl (countersReadOrder_watched _ s)
  | statusRead => exact .inl (placeAnswer_watched _ s)
  | openPosition => exact .inl (openOrder_watched _ _ s)
  | closePosition => exact .inl (closeOrder_watched _ _ s)
  | answer => exact .inl (answerOrder_watched _ _ _ _ s)
  | pick => exact .inl (pickOrder_watched _ _ _ _ s)
  | hold => exact .inl (holdOrder_watched h _ _ _)
  | returnCall => exact .inl (returnOrder_watched h _ _ _)
  | release => exact .inl (releaseOrder_watched h _ _ _)
  | park => exact .inl (parkOrder_watched h _ _ _ _)
  | retrieve => exact .inl (retrieveOrder_watched h _ _ _ _)
  | consult => exact .inl (consultOrder_watched h _ _ _ _)
  | join => exact .inl (joinOrder_watched h _ _ _)
  | cancel => exact .inl (cancelOrder_watched h _ _ _)
  | camp => exact .inl (campOrder_watched h _ _ _)
  | send => exact .inl (sendOrder_watched h _ _ _ _)

end

end Sys2Proof.Machine
end

section
/-! PROOFS. The transmit lists and the lamps (R110, R169 to R171), what the end of an action makes pending, and what
every command leaves pending for a console whose link is UP (O13). -/
namespace Sys2Proof.Machine

section
variable {s t u : State} {p q : PosNo} {j k : Subject} {l list : List ConsoleNotice} {m n : ConsoleNotice}

/-! ## The switch list (R169, R170) -/

theorem placeLow_admits (n : SwitchNotice) (s : State) :
    (s.txList.length ≤ 48 → placeLow n s = { s with txList := s.txList ++ [n] }) ∧
      (48 < s.txList.length → placeLow n s = bump .droppedNotices s) :=
  ⟨fun h => if_pos (show 16 ≤ 64 - s.txList.length by omega),
    fun h => if_neg (show ¬ 16 ≤ 64 - s.txList.length by omega)⟩

theorem freeEntries_pos (h : s.txList.length < 64) : 1 ≤ s.freeEntries := by
  change 1 ≤ 64 - s.txList.length; omega

theorem freeEntries_full (h : 64 ≤ s.txList.length) : ¬ 1 ≤ s.freeEntries := by
  change ¬ 1 ≤ 64 - s.txList.length; omega

/-! ## A subject made pending (R171) -/

theorem pend_present (h : n.subject ∈ list.map (·.subject)) :
    pend list n = list.map (fun m => if m.subject == n.subject then n else m) := by
  obtain ⟨m, hm, hs⟩ := List.mem_map.1 h
  exact if_pos (List.any_eq_true.2 ⟨m, hm, by simp [hs]⟩)

theorem pend_absent (h : n.subject ∉ list.map (·.subject)) : pend list n = list ++ [n] := by
  refine if_neg fun hany => h ?_
  obtain ⟨m, hm, hs⟩ := List.any_eq_true.1 hany
  exact List.mem_map.2 ⟨m, hm, by simpa using hs⟩

theorem pend_present_subjects (h : n.subject ∈ list.map (·.subject)) :
    (pend list n).map (·.subject) = list.map (·.subject) := by
  rw [pend_present h, List.map_map]
  refine List.map_congr_left fun m _ => ?_
  by_cases hm : m.subject = n.subject <;> simp [hm]

/-- The entries of a list after a subject was made pending: the new content, and those of other subjects. -/
theorem mem_pend : m ∈ pend list n ↔ m = n ∨ m ∈ list ∧ m.subject ≠ n.subject := by
  constructor
  · intro hm
    by_cases h : n.subject ∈ list.map (·.subject)
    · rw [pend_present h] at hm
      obtain ⟨x, hx, rfl⟩ := List.mem_map.1 hm
      by_cases hs : x.subject = n.subject
      · exact .inl (by simp [hs])
      · exact .inr (by simp [hs, hx])
    · rw [pend_absent h, List.mem_append, List.mem_singleton] at hm
      rcases hm with hm | rfl
      · exact .inr ⟨hm, fun hs => h (List.mem_map.2 ⟨m, hm, hs⟩)⟩
      · exact .inl rfl
  · rintro (rfl | ⟨hm, hs⟩)
    · exact mem_pend_self list m
    · exact mem_pend_of_ne hm hs

/-- A list after subjects of console p were made pending in turn. -/
def State.pendAll (s : State) (p : PosNo) (ks : List Subject) (l : List ConsoleNotice) : List ConsoleNotice :=
  ks.foldl (fun l k => pend l (s.notice p k)) l

theorem pendAll_other {ks : List Subject} (hk : k ∉ ks) (hn : n.subject = some k) :
    n ∈ s.pendAll p ks l ↔ n ∈ l := by
  induction ks generalizing l with
  | nil => exact .rfl
  | cons j ks ih =>
    obtain ⟨hj, hks⟩ := not_or.1 (mt List.mem_cons.2 hk)
    have hne : n.subject ≠ (s.notice p j).subject := by
      rw [notice_subject, hn]; exact fun h => hj (Option.some.inj h)
    change n ∈ s.pendAll p ks (pend l (s.notice p j)) ↔ n ∈ l
    rw [ih hks, mem_pend]
    constructor
    · rintro (rfl | ⟨h, -⟩)
      · exact absurd rfl hne
      · exact h
    · exact fun h => .inr ⟨h, hne⟩

theorem pendAll_own {ks : List Subject} (hk : k ∈ ks ∨ ∀ n ∈ l, n.subject = some k → n = s.notice p k) :
    ∀ n ∈ s.pendAll p ks l, n.subject = some k → n = s.notice p k := by
  induction ks generalizing l with
  | nil => exact hk.resolve_left List.not_mem_nil
  | cons j ks ih =>
    refine ih (l := pend l (s.notice p j)) ?_
    by_cases hjk : k = j
    · subst hjk
      right
      intro n hn hs
      rcases mem_pend.1 hn with h | ⟨-, h⟩
      · exact h
      · exact absurd (hs.trans (notice_subject s p k).symm) h
    · rcases hk with hk | hk
      · exact .inl ((List.mem_cons.1 hk).resolve_left hjk)
      · right
        intro n hn hs
        rcases mem_pend.1 hn with rfl | ⟨hn, -⟩
        · rw [notice_subject] at hs; exact absurd (Option.some.inj hs).symm hjk
        · exact hk n hn hs

/-! ## The end of an action -/

theorem mem_allSubjects (k : Subject) : k ∈ allSubjects := by
  cases k with
  | loop l => revert l; decide
  | offer => decide
  | queue => decide
  | park => decide
  | position => decide

theorem mem_changedSubjects {old new : State} : k ∈ changedSubjects old new p ↔ Touched old new p k := by
  unfold changedSubjects
  rw [List.mem_filter]
  cases k with
  | loop l => simp [mem_allSubjects, Touched, State.notice]
  | offer => simp [mem_allSubjects, Touched]
  | queue => simp [mem_allSubjects, Touched, State.notice]
  | park => simp [mem_allSubjects, Touched]
  | position => simp [mem_allSubjects, Touched, State.notice]

theorem mem_pendingOrder {old new : State} : k ∈ pendingOrder old new p ↔ Touched old new p k := by
  rw [← mem_changedSubjects]
  unfold pendingOrder
  dsimp only
  rw [List.mem_append, (arrange_perm _ _).mem_iff, List.mem_filter, List.mem_filter, ← and_or_left]
  refine and_iff_left ?_
  cases (new.console p).pending.any (fun m => m.subject == some k) <;> simp

theorem announceTo_console {old new : State} (q p : PosNo) (s : State) :
    (announceTo old new q s).console p = if q = p ∧ (new.link (.console p)).up = true then
      { s.console p with pending := s.pendAll p (pendingOrder old new p) (s.console p).pending }
      else s.console p := by
  unfold announceTo
  by_cases hq : q = p
  · subst hq
    by_cases hup : (new.link (.console q)).up = true
    · rw [if_pos hup, if_pos ⟨rfl, hup⟩]
      exact (setConsole_console ..).trans (if_pos rfl)
    · rw [if_neg hup, if_neg fun h => hup h.2]
  · have hother : ¬ (q = p ∧ (new.link (.console p)).up = true) := fun h => hq h.1
    rw [if_neg hother]
    split
    · exact (setConsole_console ..).trans (if_neg hq)
    · rfl

theorem announceTo_onlySubjects {old new : State} (q : PosNo) (s : State) :
    OnlySubjects s (announceTo old new q s) := by
  unfold announceTo
  split
  · exact makePending_onlySubjects q _ s
  · exact .refl s

theorem OnlySubjects.pendAll (h : OnlySubjects s t) (ks : List Subject) : t.pendAll p ks l = s.pendAll p ks l := by
  unfold State.pendAll
  rw [show (fun l k => pend l (t.notice p k)) = fun l k => pend l (s.notice p k) from
    funext fun l => funext fun k => by rw [h.notice]]

/-- The notices of the end of an action reach a console through its own turn alone. -/
theorem announced_fold (old new : State) (p : PosNo) (ps : List PosNo) (hnodup : ps.Nodup) (s : State)
    (h : OnlySubjects new s) : (ps.foldl (fun s q => announceTo old new q s) s).console p =
      if p ∈ ps ∧ (new.link (.console p)).up = true then
        { s.console p with pending := new.pendAll p (pendingOrder old new p) (s.console p).pending }
      else s.console p := by
  induction ps generalizing s with
  | nil => rfl
  | cons q ps ih =>
    obtain ⟨hq, hps⟩ := List.nodup_cons.1 hnodup
    rw [List.foldl_cons, ih hps _ (h.trans (announceTo_onlySubjects q s)), announceTo_console, h.pendAll]
    by_cases hqp : q = p
    · subst hqp; simp [hq]
    · simp [hqp, Ne.symm hqp]

theorem announce_console (old new : State) (p : PosNo) : (announce old new).console p =
    if (new.link (.console p)).up = true then
      { new.console p with pending := new.pendAll p (pendingOrder old new p) (new.console p).pending }
    else new.console p := by
  change (allPos.foldl (fun s q => announceTo old new q s) new).console p = _
  rw [announced_fold old new p allPos (by decide) new (.refl new)]
  have hp : p ∈ allPos := by revert p; decide
  simp [hp]

/-- What is touched is pending with the content of the new state. -/
theorem announce_touched {old new : State} (hup : (new.link (.console p)).up = true) (hk : Touched old new p k) :
    new.notice p k ∈ ((announce old new).console p).pending ∧
      ∀ n ∈ ((announce old new).console p).pending, n.subject = some k → n = new.notice p k := by
  rw [announce_console, if_pos hup]
  exact ⟨mem_pendAll new p k _ _ (.inr (mem_pendingOrder.2 hk)), pendAll_own (.inl (mem_pendingOrder.2 hk))⟩

/-- What is not touched stays pending, or not, as it was. -/
theorem announce_untouched {old new : State} (hup : (new.link (.console p)).up = true)
    (hk : ¬ Touched old new p k) (hn : n.subject = some k) :
    n ∈ ((announce old new).console p).pending ↔ n ∈ (new.console p).pending := by
  rw [announce_console, if_pos hup]
  exact pendAll_other (fun h => hk (mem_pendingOrder.1 h)) hn

/-! ## The lamps (R110) -/

section
variable {x : LoopNo} {i : SlotNo} {c : Call}

theorem lamp_empty (h : s.loopCall p x = none) : s.lamp p x = .empty := by
  unfold State.lamp
  rw [h]

theorem lamp_consult (h : s.loopCall p x = some (i, c)) {r : Consult} (hr : (s.pos p).consult = some r)
    (hl : r.loop = x) : s.lamp p x = r.phase.lamp := by
  unfold State.lamp
  rw [h, hr]
  exact if_pos hl

theorem lamp_call (h : s.loopCall p x = some (i, c)) (hn : s.consultOn p x = false) :
    s.lamp p x = State.lamp.lampOfCall p x c := by
  unfold State.lamp
  rw [h]
  unfold State.consultOn at hn
  dsimp only
  split
  · rename_i r hr
    rw [hr] at hn
    exact if_neg (by simpa using hn)
  · rfl

end

/-! ## What a console is told -/

/-- The content of a subject that a console whose link is UP has pending after a change: the new one, where the
change touched it or restored the link, and otherwise the one it had. -/
def Told (p : PosNo) (k : Subject) (s t : State) : Prop :=
  (t.link (.console p)).up = true → t.notice p k ∈ (t.console p).pending ∨
    (s.link (.console p)).up = true ∧ t.notice p k = s.notice p k ∧
      (s.notice p k ∈ (s.console p).pending → t.notice p k ∈ (t.console p).pending)

theorem Told.trans (h : Told p k s t) (g : Told p k t u) : Told p k s u := by
  intro hu
  rcases g hu with hnow | ⟨ht, hsame, hkeep⟩
  · exact .inl hnow
  · rcases h ht with hnow | ⟨hs, hsame', hkeep'⟩
    · exact .inl (hkeep hnow)
    · exact .inr ⟨hs, hsame.trans hsame', fun hp => hkeep (hkeep' hp)⟩

theorem Told.of_same (hup : (t.link (.console p)).up = true → (s.link (.console p)).up = true)
    (hsame : t.notice p k = s.notice p k) (hc : t.consoles = s.consoles) : Told p k s t := by
  refine fun hu => .inr ⟨hup hu, hsame, fun hp => ?_⟩
  rw [hsame, State.console, hc]
  exact hp

theorem OnlyLines.notice (h : OnlyLines s t) (p : PosNo) (k : Subject) : t.notice p k = s.notice p k := by
  rw [h.state]; cases k <;> rfl

theorem Told.of_lines (h : OnlyLines s t) (hc : t.consoles = s.consoles) : Told p k s t :=
  .of_same (fun hu => (h.up _).symm.trans hu) (h.notice p k) hc

theorem Told.refl (p : PosNo) (k : Subject) (s : State) : Told p k s s := .of_lines (.refl s) rfl

theorem Told.of_shows (h : t.Shows p) : Told p k s t := fun hu => .inl (h hu k)

/-- The calls of both states in one slot are the same call. -/
def SameCallers (s t : State) : Prop :=
  ∀ i c d, s.call i = some c → t.call i = some d → d.label = c.label ∧ d.cls = c.cls

theorem SlotsCarried.sameCallers (h : SlotsCarried s t) : SameCallers s t := fun i c d hc hd => by
  have hi := h i
  rw [hc, hd] at hi
  cases hi with
  | some hi => exact ⟨hi.label, hi.cls⟩

theorem Turn.sameCallers {F G : SlotNo → Prop} {E : Prop} (h : Turn F G E s t) : SameCallers s t := by
  intro i c d hc hd
  have hcarried : Option.Rel CallCarried (s.call i) (t.call i) → d.label = c.label ∧ d.cls = c.cls := fun hi => by
    rw [hc, hd] at hi
    cases hi with
    | some hi => exact ⟨hi.label, hi.cls⟩
  cases h with
  | same _ slots => exact hcarried (slots i)
  | emptied _ _ now => rw [now i] at hd; cases hd
  | filled _ j _ was others => exact hcarried (others i (by rintro rfl; rw [was] at hc; cases hc))
  | freed _ j _ now others => exact hcarried (others i (by rintro rfl; rw [now] at hd; cases hd))

/-- What precedes and fills no slot is left out. -/
theorem SameCallers.after (h : SlotsCarried s t) (g : SameCallers s u) : SameCallers t u := by
  intro i c d hc hd
  have hi := h i
  rw [hc] at hi
  cases hs : s.call i with
  | none => rw [hs] at hi; cases hi
  | some b =>
    rw [hs] at hi
    cases hi with
    | some hi =>
      obtain ⟨hlabel, hcls⟩ := g i b d hs hd
      exact ⟨hlabel.trans hi.label.symm, hcls.trans hi.cls.symm⟩

/-- With the orbits as they were PARK shows the same labels. -/
theorem parkNotice_same (hs : s.PlacesLaw) (ht : t.PlacesLaw) (hid : SameCallers s t) (ho : t.orbits = s.orbits) :
    t.parkNotice = s.parkNotice := by
  have horbit : ∀ o, t.orbitSlot o = s.orbitSlot o := fun o => by simp only [State.orbitSlot, ho]
  unfold State.parkNotice State.parkItems
  refine congrArg ConsoleNotice.park (List.filterMap_congr fun o _ => ?_)
  rw [horbit]
  cases hslot : s.orbitSlot o with
  | none => rfl
  | some i =>
    obtain ⟨c, hc, -⟩ := (hs.orbits o i).1 hslot
    obtain ⟨d, hd, -⟩ := (ht.orbits o i).1 ((horbit o).trans hslot)
    simp only [hc, hd, Option.map_some, (hid i c d hc hd).1]

/-- An offer that has not moved is shown as it was. -/
theorem offerNotice_same (hs : s.PlacesLaw) (hso : s.OfferLaw) (ht : t.PlacesLaw) (hto : t.OfferLaw)
    (hid : SameCallers s t) (h : Unmoved p s t) (hm : (s.pos p).offer = none ∨ t.eff.mode = s.eff.mode) :
    t.offerNotice p = s.offerNotice p := by
  unfold State.offerNotice
  rw [h.offer]
  cases hi : (s.pos p).offer with
  | none => rfl
  | some i =>
    obtain ⟨c, hc, hst⟩ := hs.offers p i hi
    have hti := h.offer.trans hi
    obtain ⟨d, hd, -⟩ := ht.offers p i hti
    obtain ⟨d', hd', -, hreason⟩ := h.call i c.reason hi ⟨c, hc, hst, rfl⟩
    rw [hd] at hd'; cases hd'
    obtain ⟨hlabel, hcls⟩ := hid i c d hc hd
    have hmode : t.eff.mode = s.eff.mode := hm.resolve_left (by rw [hi]; nofun)
    have hoffer : d.offer = c.offer := by
      cases hsm : s.eff.mode with
      | single => rw [hso.single hsm p i c hi hc, hto.single (hmode.trans hsm) p i d hti hd]
      | common => rw [hso.common hsm p i c hi hc, hto.common (hmode.trans hsm) p i d hti hd]
    simp only [hc, hd, hoffer, hreason, shown, hlabel, hcls]

/-- The laws of the collections and of the offers. -/
def Scope.offering : Scope := .full False True False

theorem Scope.offering_places (h : Lawful .offering s) : s.PlacesLaw := ((lawful_full_iff _ _ _ s).1 h).1

theorem Scope.offering_offers (h : Lawful .offering s) : s.OfferLaw :=
  ((lawful_full_iff _ _ _ s).1 h).2.2.2.2.1 trivial

/-- The end of an action tells a console that was watched through it. -/
theorem Watched.told (h : Watched p s u) (hs : Lawful .offering s) (ht : Lawful .offering (announce s u))
    (hid : SameCallers s (announce s u)) : Told p k s (announce s u) := by
  have ha := announce_announced s u
  intro hup
  rw [ha.link] at hup
  rw [ha.notice]
  by_cases hk : Touched s u p k
  · exact .inl (announce_touched hup hk).1
  · have hplaces := Scope.offering_places hs
    have hplaces' := Scope.offering_places ht
    have hsame : u.notice p k = s.notice p k := by
      cases k with
      | loop l => exact (not_ne_iff.1 hk).symm
      | queue => exact (not_ne_iff.1 hk).symm
      | position => exact (not_ne_iff.1 hk).symm
      | park =>
        rw [← ha.notice]
        exact parkNotice_same hplaces hplaces' hid (ha.orbits.trans (not_ne_iff.1 hk).symm)
      | offer =>
        rw [← ha.notice]
        have hnews : ¬ (u.pos p).offerNews = true := hk
        have hun := h.shown.resolve_left hnews
        refine offerNotice_same hplaces (Scope.offering_offers hs) hplaces' (Scope.offering_offers ht) hid
          ⟨?_, (ha.offer p).trans hun.offer, fun i r hi hr => ?_⟩ ((h.mode.resolve_left hnews).imp_right fun hm => by
            rw [ha.eff]; exact hm)
        · have hsnews := hun.news
          rw [Bool.eq_false_iff.2 hnews] at hsnews
          rw [ha.positions, ← hsnews]
        · have := hun.call i r hi hr
          unfold State.OffersCall at this ⊢
          rwa [ha.call]
    refine .inr ⟨h.up hup, hsame, fun hp => ?_⟩
    rw [announce_untouched hup hk (notice_subject u p k), hsame]
    exact h.pending _ hp

/-! ## The rows -/

theorem act_told {f : State → State} (h : Watched p s (f s) ∨ (f s).Shows p) (hs : Lawful .offering s)
    (ht : Lawful .offering (act f s)) (hid : SameCallers s (act f s)) : Told p k s (act f s) := by
  rcases h with h | h
  · exact h.told hs ht hid
  · exact .of_shows (announce_shows s (f s) p h)

theorem makePending_watched (h : q ≠ p) (ks : List Subject) (s : State) : Watched p s (makePending q ks s) := by
  have ho := makePending_onlySubjects q ks s
  refine Beside.watched fun _ => ⟨by rw [ho.link], fun n hn => ?_, by rw [ho.state]; rfl, by rw [ho.state]; rfl,
    by rw [ho.state], fun j r _ hj => by rw [ho.state]; exact hj⟩
  rwa [makePending_pending, if_neg h]

/-- A restored console has all its subjects pending; the others are watched. -/
theorem restoration_told (s : State) (q p : PosNo) {x : LinkUnit} :
    Watched p s (restoration q (s.setLink (.console q) x)) ∨ (restoration q (s.setLink (.console q) x)).Shows p := by
  rw [restoration_eq]
  by_cases hq : q = p
  · subst hq
    refine .inr fun _ k => ?_
    rw [(makePending_onlySubjects q _ _).notice, makePending_pending, if_pos rfl]
    exact mem_pendAll _ q k _ _ (.inr (by
      cases k with
      | loop l => revert l; decide
      | offer => decide
      | queue => decide
      | park => decide
      | position => decide))
  · left
    have hlink : Watched p s (s.setLink (.console q) x) := Beside.watched fun _ =>
      ⟨by rw [setLink_link, if_neg fun h => hq (Link.console.inj h)], fun n hn => by rwa [setLink_console],
        by rw [setLink_pos], by rw [setLink_pos], by rfl, fun _ _ _ ⟨c, hc⟩ => ⟨c, by rwa [setLink_call]⟩⟩
    exact ((((hlink.trans (setMissCount_watched q 0 _)).trans (rejudgedAt_watched q _ _ _)).trans
      (settle_watched _)).trans (placeLow_watched _ _)).trans (makePending_watched hq _ _)

theorem receive_told (h : Lawful .offering s) (l : Link) : Told p k s (receive l s) := by
  cases l with
  | switch => exact .of_same id (by cases k <;> rfl) rfl
  | console q =>
    cases hu : (s.link (.console q)).up with
    | true =>
      rw [receive_up hu]
      exact .of_lines (setLink_onlyLines _ _ s (by rw [hu]; rfl)) rfl
    | false =>
      have ht := receive_lawful h (.console q)
      have hid := (receive_carried (.console q) s).slots.sameCallers
      rw [receive_down hu] at ht hid ⊢
      rcases restoration_told s q p with hw | hw
      · exact hw.told h ht hid
      · exact .of_shows (announce_shows s _ p hw)

/-! ## The loss of a link and the ticks (R107, R174) -/

theorem positionLoss_watched (q : PosNo) (s : State) : Watched p s (positionLoss q s) := by
  rw [positionLoss_eq]
  exact ((((((recallLoops_watched q s).trans (Beside.watched fun _ => closeConsult_beside q true _)).trans
    (withdrawAt_watched q _)).trans (rejudgedAt_watched q _ _ _)).trans (placeLow_watched _ _)).trans
    (bump_watched _ _)).trans (settle_watched _)

/-- The state in which the loss of console q finds its position (R174). -/
def State.cut (s : State) (q : PosNo) : State :=
  let u := s.setLink (.console q) { s.link (.console q) with up := false, quiet := s.lossLimit (.console q) }
  u.setConsole q { u.console q with pending := [] }

/-- A loss takes the link of its own console, and brings every console the full notices where it resets the
service. -/
theorem linkLoss_told (l : Link) (s : State) : Watched p s (linkLoss l s) ∨ (linkLoss l s).Shows p := by
  cases l with
  | switch =>
    obtain ⟨x, ⟨-, h⟩ | ⟨-, h⟩⟩ := linkLoss_switch_cases s <;> rw [h]
    · exact .inr (serviceReset_shows true _ p)
    · exact .inl (.of_same rfl)
  | console q =>
    have hloss : linkLoss (.console q) s = positionLoss q (s.cut q) := rfl
    rw [hloss]
    have hw : Watched p (s.cut q) (positionLoss q (s.cut q)) := positionLoss_watched q _
    by_cases hq : q = p
    · subst hq
      refine .inr fun hup => ?_
      have := hw.up hup
      rw [State.cut, setConsole_link, setLink_link, if_pos rfl] at this
      cases this
    · refine .inl (Watched.trans (Beside.watched fun _ => ?_) hw)
      have hne : Link.console q ≠ .console p := fun h => hq (Link.console.inj h)
      refine ⟨by rw [State.cut, setConsole_link, setLink_link, if_neg hne], fun n hn => ?_, rfl, rfl, rfl,
        fun _ _ _ h => h⟩
      rw [State.cut, setConsole_console, if_neg hq]
      exact hn

theorem abandonFrame_consoles (l : Link) (s : State) : (abandonFrame l s).consoles = s.consoles := by
  unfold abandonFrame
  split
  · rfl
  · exact setLink_consoles s l _

theorem runPart_told (h : Lawful .offering s) (part : TickPart) : Told p k s (runPart part s) := by
  have ht := runPart_lawful h part
  cases part with
  | lose l =>
    exact act_told (linkLoss_told l s) h ht (act_turn (F := fun _ => False) (G := fun _ => False)
      (linkLoss_sweeping (E := True) l s fun _ _ => trivial)).sameCallers
  | abandon l => exact .of_lines (abandonFrame_onlyLines l s) (abandonFrame_consoles l s)
  | visit =>
    unfold runPart at ht ⊢
    dsimp only at ht ⊢
    split
    · rename_i hs
      rw [if_pos hs] at ht
      exact act_told (.inl (sweepStep_watched s)) h ht (act_carried (sweepStep_carried s)).slots.sameCallers
    · exact .refl p k s

theorem OnlyLinks.told (h : OnlyLinks s t) (hup : ∀ l, (t.link l).up = (s.link l).up) : Told p k s t := by
  obtain ⟨_, _, _, rfl⟩ := h
  exact .of_same (fun hu => (hup _).symm.trans hu) (by cases k <;> rfl) rfl

theorem countedTick_told (h : Lawful .offering s) : Told p k s (countedTick s) := by
  have hstart : Told p k s { s with pulseCount := 0, tickCount := s.tickCount + 1 } :=
    .of_same id (by cases k <;> rfl) rfl
  have hsup := hstart.trans ((supervised_onlyLinks s).told (supervised_onlyLines s).up)
  refine (hsup.trans ?_).trans ((countedTick_onlyLinks s).told (countedTick_flat s).up)
  have hlaw : Lawful .offering s.supervised := (supervised_onlyLinks s).neutral.lawful
    ((Neutral.of_same (s := s) (t := { s with pulseCount := 0, tickCount := s.tickCount + 1 })).lawful h)
  unfold State.afterParts
  generalize s.supervised = v at hlaw
  induction arrange (Config.tickOrder s.draws) (tickParts s) generalizing v with
  | nil => exact .refl p k v
  | cons part parts ih => exact (runPart_told hlaw part).trans (ih _ (runPart_lawful hlaw part))

/-! ## Every row -/

theorem powerOnState_shows (rate : LineRate) (held : Bool) (s : State) (p : PosNo) :
    (powerOnState rate held s).Shows p := fun hup => by
  rw [powerOnState_link] at hup
  exact absurd hup (by decide)

theorem Told.pending (h : Told p k s t) (hup : (t.link (.console p)).up = true)
    (hnew : (s.link (.console p)).up = true → s.notice p k ≠ t.notice p k) :
    t.notice p k ∈ (t.console p).pending := by
  rcases h hup with hnow | ⟨hs, hsame, -⟩
  · exact hnow
  · exact absurd hsame.symm (hnew hs)

/-- Every command leaves pending, for a console whose link is UP, each content that it changed, and every content
where it restored the link. -/
theorem exec_pending {c : Instr} (h : exec c s = .next t) (hs : Lawful .offering s)
    (hup : (t.link (.console p)).up = true)
    (hnew : (s.link (.console p)).up = true → s.notice p k ≠ t.notice p k) :
    t.notice p k ∈ (t.console p).pending := by
  have ht := exec_lawful h hs
  have hid := (exec_turn h).sameCallers
  cases exec_taken h with
  | quiet => exact (Told.refl p k s).pending hup hnew
  | reset rate held => exact (Told.of_shows (powerOnState_shows rate held s p)).pending hup hnew
  | ordered row =>
    rename_i l _ _ f _
    have hr := receive_lawful hs l
    have hcallers := hid.after (receive_carried l s).slots
    exact ((receive_told hs l).trans (act_told (row.watched hr p) hr ht hcallers)).pending hup hnew
  | discarded l =>
    exact ((receive_told hs l).trans (.of_lines (bump_onlyLines _ _) rfl)).pending hup hnew
  | heard l => exact (receive_told hs l).pending hup hnew
  | event row => exact (act_told (.inl (row.watched s)) hs ht hid).pending hup hnew
  | lost l => exact (act_told (linkLoss_told l s) hs ht hid).pending hup hnew
  | ticked => exact (countedTick_told hs).pending hup hnew
  | lines only => exact absurd (only.notice p k).symm (hnew ((only.up _).symm.trans hup))

end

end Sys2Proof.Machine

open Sys2Proof.Machine in
/-- Settles O13. The last clause is `exec_pending`: each part of a row is watched through or shows everything anew, and
the end of an action makes pending what it touched. -/
theorem noticesPlaced : Obligations.NoticesPlaced := by
  unfold Obligations.NoticesPlaced
  refine ⟨fun s n => ⟨(placeLow_admits n s).1, (placeLow_admits n s).2, fun h => ?_, fun h => ?_⟩,
    fun list n hn => ⟨pend_present_subjects, pend_absent, mem_pend_self list n, fun m hm hs => ?_,
      pend_results list n (by simpa using hn)⟩,
    fun s p l i c => ⟨lamp_empty, fun h => ⟨fun r hr hl => lamp_consult h hr hl, fun hn => ?_⟩⟩,
    fun old new p k => ?_, fun c s t p k hp hq hc ho h hup hnew => ?_⟩
  · have := freeEntries_pos h
    exact ⟨if_pos this, if_pos this, if_pos this⟩
  · have := freeEntries_full h
    exact ⟨if_neg this, if_neg this⟩
  · exact (mem_pend.1 hm).resolve_right fun h => h.2 hs
  · rw [lamp_call h hn]
    unfold State.lamp.lampOfCall
    refine ⟨fun hst hcon => ?_, fun hst hcon => ?_, fun hst hr => ?_, fun hst hr => ?_⟩ <;> simp [*]
  · have ha := announce_announced old new
    refine ⟨fun hdown => ?_, fun hup => ⟨ha.notice p k, ha.results p, ha.sending p, announce_touched hup,
      fun hk n hn => announce_untouched hup hk hn⟩⟩
    rw [announce_console, if_neg (by rw [hdown]; decide)]
  · exact exec_pending h ((lawful_full_iff _ _ _ s).2 ⟨hp, hq, hc, False.elim, fun _ => ho, False.elim⟩) hup hnew

end

section
/-! PROOFS. The reports: the counters and the status that the switch reads, and the periodic report (O58). -/
namespace Sys2Proof.Machine

section
variable {s : State} {clear : Byte}

/-! ## Events of the part's own -/

theorem unlessHeld_act (hr : s.Runs) (f : State → State) : unlessHeld (act f) s = .next (act f s) := by
  unfold unlessHeld
  rw [show s.resetHeld = false from hr]
  rfl

/-- The whole effect of an event of the part's own that the consoles are not shown. -/
theorem unlessHeld_act_shownKept {f : State → State} (hr : s.Runs) (hn : s.NewsClear) (h : ShownKept s (f s)) :
    unlessHeld (act f) s = .next (f s).ended := by
  rw [unlessHeld_act hr, act, announce_shownKept h hn]

/-! ## The answer to a read (R180) -/

theorem countersAnswer_shownKept (b : Bool) (s : State) : ShownKept s (countersAnswer b s) := by
  unfold countersAnswer
  cases b <;> dsimp only <;> split <;> exact ⟨rfl, rfl, rfl, rfl, rfl, rfl, rfl⟩

/-- A read with a clear byte in range is answered; the byte 1 asks for the clearing. -/
theorem countersReadOrder_taken (h : clear.toNat ≤ 1) (s : State) :
    countersReadOrder clear s = countersAnswer (clear == 1) s := by
  have hcases : clear = 0 ∨ clear = 1 := by bv_omega
  rcases hcases with rfl | rfl <;> rfl

theorem countersReadOrder_badRange (h : 1 < clear.toNat) (s : State) :
    countersReadOrder clear s = answerSwitch Kind.countersRead .badRange s := by
  unfold countersReadOrder
  rw [validArg_eq_none_iff.2 h]

theorem countersAnswer_room (h : s.txList.length ≤ 62) (b : Bool) :
    countersAnswer b s = { (if b then clearCounters s else s) with txList := s.txList ++ counterFrames s } :=
  if_pos (show 2 ≤ 64 - s.txList.length by omega)

theorem countersAnswer_full (h : 62 < s.txList.length) (b : Bool) :
    countersAnswer b s = bump .discardedOrders (if b then clearCounters s else s) :=
  if_neg (show ¬2 ≤ 64 - s.txList.length by omega)

/-! ## The periodic report (R158, R180) -/

theorem periodicReport_room (h : s.txList.length ≤ 47) :
    periodicReport s = clearCounters { s with txList := s.txList ++ counterFrames s } :=
  if_pos (show 17 ≤ 64 - s.txList.length by omega)

theorem periodicReport_full (h : 47 < s.txList.length) : periodicReport s = bump .droppedNotices s :=
  if_neg (show ¬17 ≤ 64 - s.txList.length by omega)

theorem reportEnd_shownKept (s : State) : ShownKept s (reportEnd s) := by
  unfold reportEnd periodicReport
  split <;> exact ⟨rfl, rfl, rfl, rfl, rfl, rfl, rfl⟩

/-- A report-interval end, by the service state and the report interval. -/
theorem reportIntervalEnd_exec (hr : s.Runs) (hn : s.NewsClear) : exec .reportIntervalEnd s =
    .next (if s.service = .service ∧ s.reportInterval ≠ 0 then reportEnd s else s).ended := by
  refine unlessHeld_act_shownKept (f := fun s =>
    if s.service = .service ∧ s.reportInterval ≠ 0 then reportEnd s else s) hr hn ?_
  split
  · exact reportEnd_shownKept s
  · exact .refl s

end

end Sys2Proof.Machine

open Sys2Proof Sys2Proof.Machine in
/-- Settles O58. No console is shown the counters or the status, so the answer or the report is the whole effect. -/
theorem reports : Obligations.Reports := by
  unfold Obligations.Reports
  refine ⟨fun s clear hr hn => ?_, fun s hr hn => ?_⟩
  · have hread : clear.toNat ≤ 1 → exec (.countersRead 1 clear) s =
        .next (countersAnswer (clear == 1) (s.hearing .switch)).ended := fun hc => by
      have h := switchOrder_shownKept (f := countersReadOrder clear) hr hn (kind := Kind.countersRead) (len := 1) rfl
        (by rw [countersReadOrder_taken hc]; exact countersAnswer_shownKept _ _)
      rw [countersReadOrder_taken hc] at h
      exact h
    refine ⟨fun hc => ?_, fun hc hroom => ?_, fun hc hfull => ?_, fun h => ?_, fun hs hi hroom => ?_,
      fun hs hi hfull => ?_⟩
    · exact switchOrder_answered hr hn rfl (.refl s) (countersReadOrder_badRange hc _)
    · rw [hread hc, countersAnswer_room (s := s.hearing .switch) hroom]
      by_cases hone : clear = 1 <;> simp only [hone, beq_iff_eq] <;> rfl
    · rw [hread hc, countersAnswer_full (s := s.hearing .switch) hfull]
      by_cases hone : clear = 1 <;> simp only [hone, beq_iff_eq] <;> rfl
    · rw [reportIntervalEnd_exec hr hn, if_neg]
      rintro ⟨hs, hi⟩
      rcases h with h | h
      · rw [h] at hs; cases hs
      · exact hi h
    · rw [reportIntervalEnd_exec hr hn, if_pos ⟨hs, hi⟩, reportEnd, periodicReport_room hroom]
      rfl
    · rw [reportIntervalEnd_exec hr hn, if_pos ⟨hs, hi⟩, reportEnd, periodicReport_full hfull]
  · have hread : exec (.statusRead 0) s = .next (statusReadOrder (s.hearing .switch)).ended :=
      switchOrder_shownKept (f := statusReadOrder) hr hn (kind := Kind.statusRead) (len := 0) rfl
        (placeAnswer_shownKept _ _)
    have hstaged : ∀ l : Option (List Edit),
        (l.getD []).length = match l with | some edits => edits.length | none => 0 := fun l => by cases l <;> rfl
    refine ⟨fun hroom => ?_, fun hfull => ?_⟩
    · rw [hread, statusReadOrder, placeAnswer_room (s := s.hearing .switch) _ hroom]
      unfold State.statusNow
      rw [hstaged]
      rfl
    · rw [hread, statusReadOrder, placeAnswer_full (s := s.hearing .switch) _ hfull]

end

section
/-! PROOFS. The score of a call, its place in the queue, and the oldest age (O34). -/
namespace Sys2Proof.Machine

section
variable {s : State} {i : SlotNo}

/-! ## The score (R61, R62) -/

theorem scoreOf_eq (e : Plan) (c : Call) : scoreOf e c =
    min 4095 (8 * e.weights[c.cls] + c.age * e.gain / 32 + (if c.reason = none then 0 else e.bonus)) := by
  unfold scoreOf maxScore
  cases c.reason <;> rfl

/-- An older call of a class never scores lower. -/
theorem scoreOf_mono (e : Plan) (c : Call) {a : Nat} (h : c.age ≤ a) : scoreOf e c ≤ scoreOf e { c with age := a } := by
  have hgain : c.age * e.gain / 32 ≤ a * e.gain / 32 := Nat.div_le_div_right (Nat.mul_le_mul_right _ h)
  unfold scoreOf
  dsimp only
  omega

/-- The largest sum of the three terms for values in their ranges. -/
theorem scoreTerms_le {w a g b : Nat} (hw : w ≤ 255) (hg : g ≤ 255) (hb : b ≤ 255) (ha : a ≤ 255) :
    8 * w + a * g / 32 + b ≤ 4327 := by
  have hag : a * g ≤ 255 * 255 := Nat.mul_le_mul ha hg
  omega

/-! ## Placement (R63) -/

/-- The walk stops ahead of the first entry that scores strictly lower. -/
theorem insertByScore_split (f : SlotNo → Nat) (i : SlotNo) (l : List SlotNo) : ∃ ahead behind,
    insertByScore f i l = ahead ++ i :: behind ∧ l = ahead ++ behind ∧ (∀ j ∈ ahead, f i ≤ f j) ∧
      ∀ j, behind.head? = some j → f j < f i := by
  induction l with
  | nil => exact ⟨[], [], rfl, rfl, nofun, nofun⟩
  | cons k l ih =>
    unfold insertByScore
    split
    · rename_i hlt
      exact ⟨[], k :: l, rfl, rfl, nofun, fun j hj => by cases hj; exact hlt⟩
    · rename_i hle
      obtain ⟨ahead, behind, hins, hl, hahead, hbehind⟩ := ih
      refine ⟨k :: ahead, behind, by rw [hins]; rfl, by rw [hl]; rfl, fun j hj => ?_, hbehind⟩
      rcases List.mem_cons.1 hj with rfl | hj
      · exact Nat.not_lt.1 hle
      · exact hahead j hj

/-! ## The oldest age (R69) -/

theorem storedAge_of_call {c : Call} (hc : s.call i = some c) : s.storedAge i = c.age := by
  simp only [State.storedAge, hc, Option.map_some, Option.getD_some]

/-- The oldest age is 0 or an age of the queue, and no age of the queue is above it. -/
theorem oldestAge_spec (s : State) : s.oldestAge ∈ 0 :: s.queue.map s.storedAge ∧
    ∀ a ∈ 0 :: s.queue.map s.storedAge, a ≤ s.oldestAge :=
  List.max?_eq_some_iff.1 (show (0 :: s.queue.map s.storedAge).max? = some s.oldestAge from rfl)

theorem storedAge_le_oldestAge (h : i ∈ s.queue) : s.storedAge i ≤ s.oldestAge :=
  (oldestAge_spec s).2 _ (List.mem_cons_of_mem _ (List.mem_map_of_mem h))

/-- The oldest age is the age of an entry of the queue. -/
theorem oldestAge_attained (h : s.queue ≠ []) : ∃ i ∈ s.queue, s.storedAge i = s.oldestAge := by
  rcases List.mem_cons.1 (oldestAge_spec s).1 with hzero | hmem
  · obtain ⟨i, hi⟩ := List.exists_mem_of_ne_nil _ h
    have := storedAge_le_oldestAge hi
    exact ⟨i, hi, by omega⟩
  · obtain ⟨i, hi, hage⟩ := List.mem_map.1 hmem
    exact ⟨i, hi, hage⟩

end

end Sys2Proof.Machine

open Sys2Proof Sys2Proof.Machine in
/-- Settles O34. The place is where the walk of R63 stops, `insertByScore_split`. -/
theorem scoreAndPlacement : Obligations.ScoreAndPlacement := by
  unfold Obligations.ScoreAndPlacement
  refine ⟨fun e c => ⟨scoreOf_eq e c, Nat.min_le_left _ _, scoreTerms_le, fun a ha => scoreOf_mono e c ha, ?_, ?_⟩,
    fun s i => ?_, fun s hq => ⟨rfl, fun i hi c hc => ?_, fun hne => ?_, fun hnil => ?_⟩⟩
  · rw [scoreOf_eq]; simp
  · intro r; rw [scoreOf_eq]; simp
  · obtain ⟨ahead, behind, hins, hl, hahead, hbehind⟩ :=
      insertByScore_split s.storedScore i (s.queue.filter (· != i))
    have hnot : i ∉ ahead ++ behind := by
      rw [← hl, List.mem_filter]; simp
    rw [List.mem_append, not_or] at hnot
    exact ⟨ahead, behind, hins, hl, hnot.1, hnot.2, hahead, hbehind,
      fun hsorted => insertByScore_sorted _ i (hsorted.sublist List.filter_sublist), rfl⟩
  · rw [← storedAge_of_call hc]; exact storedAge_le_oldestAge hi
  · obtain ⟨i, hi, hage⟩ := oldestAge_attained hne
    obtain ⟨c, hc, -⟩ := (hq.listed i).1 hi
    exact ⟨i, c, hi, hc, by rw [← hage, storedAge_of_call hc]⟩
  · rw [State.oldestAge, hnil]; rfl

end

section
/-! PROOFS. The frames that the receive side judges, and the frames, layouts and numbers of the notices (O10). -/
namespace Sys2Proof.Machine

section
variable {kind : Byte} {payload : List Byte} {check : Half} {l : Link}

/-! ## Bytes of the multi-byte fields (R166, R168) -/

theorem bytes2_append (a b : Byte) : bytes2 (a ++ b) = [a, b] :=
  congrArg₂ List.cons BitVec.extractLsb'_append_eq_left
    (congrArg₂ List.cons BitVec.extractLsb'_append_eq_right rfl)

/-- The bytes above the lowest are those of the field without it. -/
theorem bytes3_append (a b c : Byte) : bytes3 (a ++ b ++ c) = [a, b, c] := by
  refine (congrArg₂ List.cons (BitVec.extractLsb'_append_eq_of_le (by decide))
    (congrArg₂ List.cons (BitVec.extractLsb'_append_eq_of_le (by decide))
      (congrArg₂ List.cons BitVec.extractLsb'_append_eq_right rfl))).trans ?_
  exact congrArg (· ++ [c]) (bytes2_append a b)

theorem bytes4_append (a b c d : Byte) : bytes4 (a ++ b ++ c ++ d) = [a, b, c, d] := by
  refine (congrArg₂ List.cons (BitVec.extractLsb'_append_eq_of_le (by decide))
    (congrArg₂ List.cons (BitVec.extractLsb'_append_eq_of_le (by decide))
      (congrArg₂ List.cons (BitVec.extractLsb'_append_eq_of_le (by decide))
        (congrArg₂ List.cons BitVec.extractLsb'_append_eq_right rfl)))).trans ?_
  exact congrArg (· ++ [d]) (bytes3_append a b c)

/-- The high and the low byte make the field. -/
theorem bytes2_inj {x y : Half} (h : bytes2 x = bytes2 y) : x = y := by
  have hjoin : ∀ z : Half, z.extractLsb' 8 8 ++ z.extractLsb' 0 8 = z := fun z => by
    rw [BitVec.extractLsb'_append_extractLsb'_eq_extractLsb' (by rfl), BitVec.extractLsb'_eq_self]
  simp only [bytes2, List.cons.injEq, and_true] at h
  obtain ⟨hhigh, hlow⟩ := h
  rw [← hjoin x, ← hjoin y, hhigh, hlow]

/-! ## The check over the characters 1 to 9 (R165) -/

theorem crc16_digits : crc16 [0x31, 0x32, 0x33, 0x34, 0x35, 0x36, 0x37, 0x38, 0x39] = 0x29B1 := by
  simp only [crc16, List.foldl_cons, List.foldl_nil]
  rw [show crcByte 0xFFFF 0x31 = 0xC782 by decide, show crcByte 0xC782 0x32 = 0x3DBA by decide,
    show crcByte 0x3DBA 0x33 = 0x5BCE by decide, show crcByte 0x5BCE 0x34 = 0x5349 by decide,
    show crcByte 0x5349 0x35 = 0x4560 by decide, show crcByte 0x4560 0x36 = 0x2EF4 by decide,
    show crcByte 0x2EF4 0x37 = 0x7718 by decide, show crcByte 0x7718 0x38 = 0xA12B by decide,
    show crcByte 0xA12B 0x39 = 0x29B1 by decide]

/-! ## The receive side (R165, R166) -/

theorem lengthByte_toNat (h : payload.length ≤ 58) : (BitVec.ofNat 8 payload.length).toNat = payload.length := by
  rw [BitVec.toNat_ofNat]; omega

/-- A frame of full length is invalid exactly where its check differs. -/
theorem invalidFrame_iff (h : payload.length ≤ 58) (kind : Byte) (check : Half) :
    invalidFrame (BitVec.ofNat 8 payload.length :: kind :: payload ++ bytes2 check) = true ↔
      check ≠ crc16 (BitVec.ofNat 8 payload.length :: kind :: payload) := by
  have htake : (kind :: payload ++ bytes2 check).take (payload.length + 1) = kind :: payload :=
    List.take_left' rfl
  have hdrop : (kind :: payload ++ bytes2 check).drop (payload.length + 1) = bytes2 check := List.drop_left' rfl
  have hlen : (kind :: payload ++ bytes2 check).length = payload.length + 3 := by simp [bytes2]
  rw [List.cons_append]
  unfold invalidFrame
  dsimp only
  rw [lengthByte_toNat h, if_neg (show ¬maxPayload < payload.length from Nat.not_lt.2 h),
    htake, hdrop, hlen]
  simp only [beq_self_eq_true, Bool.true_and, bne_iff_ne, ne_eq]
  exact not_congr ⟨bytes2_inj, congrArg bytes2⟩

/-- The receive side reads a frame back. -/
theorem validFrame_frameBody (h : payload.length ≤ 58) (kind : Byte) :
    validFrame (frameBody kind payload) = some (kind, payload) := by
  have hlen : ∀ x : Half, (payload ++ bytes2 x).length = payload.length + 2 := fun x => by simp [bytes2]
  unfold frameBody
  dsimp only [List.cons_append]
  unfold validFrame
  dsimp only
  rw [lengthByte_toNat h, List.take_left' rfl, List.drop_left' rfl]
  exact if_pos ⟨h, hlen _, rfl⟩

theorem ne_of_lookup_none {α : Type} {table : List (Byte × α)} (h : table.lookup kind = none) :
    ∀ e ∈ table, kind ≠ e.1 := fun e he => by
  simpa using List.lookup_eq_none_iff.1 h e he

theorem switchCommand_otherKind (h : orderLength .switch kind = none) (payload : List Byte) :
    switchCommand kind payload = .otherKindFrame .switch kind := by
  have hne := ne_of_lookup_none h
  simp only [switchOrderLengths, List.forall_mem_cons] at hne
  simp only [switchCommand, hne, if_false]

theorem consoleCommand_otherKind {p : PosNo} (h : orderLength (.console p) kind = none) (payload : List Byte) :
    consoleCommand p kind payload = .otherKindFrame (.console p) kind := by
  have hne := ne_of_lookup_none h
  simp only [consoleOrderLengths, List.forall_mem_cons] at hne
  simp only [consoleCommand, hne, if_false]

/-- A valid frame of no order's kind (R166). -/
theorem commandOfFrame_otherKind (hlen : payload.length ≤ 58) (h : orderLength l kind = none) :
    commandOfFrame l (frameBody kind payload) = some (.otherKindFrame l kind) := by
  have hvalid : ¬invalidFrame (frameBody kind payload) = true := by
    rw [frameBody, invalidFrame_iff hlen]; exact not_not_intro rfl
  unfold commandOfFrame
  rw [if_neg hvalid, validFrame_frameBody hlen]
  cases l with
  | switch => exact congrArg some (switchCommand_otherKind h payload)
  | console p => exact congrArg some (consoleCommand_otherKind h payload)

/-- A frame whose check differs (R165). -/
theorem commandOfFrame_badCheck (hlen : payload.length ≤ 58) (l : Link) (kind : Byte)
    (h : check ≠ crc16 (BitVec.ofNat 8 payload.length :: kind :: payload)) :
    commandOfFrame l (BitVec.ofNat 8 payload.length :: kind :: payload ++ bytes2 check) =
      some (.badFrames l (BitVec.ofNat 8 payload.length :: kind :: payload ++ bytes2 check)) :=
  if_pos ((invalidFrame_iff hlen kind check).2 h)

/-- A length byte above 58, at once (R165). -/
theorem commandOfFrame_tooLong {len : Byte} (h : 58 < len.toNat) (l : Link) :
    commandOfFrame l [len] = some (.badFrames l [len]) := by
  have hinvalid : invalidFrame [len] = true := by
    unfold invalidFrame
    exact if_pos h
  exact if_pos hinvalid

/-! ## The notices (R168, R181) -/

theorem counterItems_eq (tag : Nat) (values : List Nat) : counterItems tag values =
    (values.zipIdx tag).flatMap (fun e => BitVec.ofNat 8 e.2 :: bytes4 (BitVec.ofNat 32 e.1)) := by
  induction values generalizing tag with
  | nil => rfl
  | cons v values ih => rw [counterItems, ih]; rfl

theorem counterItems_length (tag : Nat) (values : List Nat) :
    (counterItems tag values).length = 5 * values.length := by
  induction values generalizing tag with
  | nil => rfl
  | cons v values ih =>
    rw [counterItems, List.length_append, ih]
    simp only [List.length_cons, bytes4, List.length_nil]
    omega

theorem status_payload_length (st : Status) : st.payload.length = 44 := by
  simp [Status.payload, bytes2]

theorem conn_fields_length (c : Conn) : c.fields.length = 8 := by cases c <;> rfl

/-- No notice to the switch has a payload above 58 bytes. -/
theorem switchNotice_payload_length {n : SwitchNotice}
    (h : ∀ part values, n = .counters part values → values.length ≤ 9) : n.payload.length ≤ 58 := by
  cases n with
  | counters part values =>
    have := h part values rfl
    rw [SwitchNotice.payload, List.length_cons, counterItems_length]; omega
  | status st => rw [SwitchNotice.payload, status_payload_length]; decide
  | pathReq n tag c => simp [SwitchNotice.payload, bytes2, bytes4, conn_fields_length]
  | _ => simp [SwitchNotice.payload, bytes2, bytes3, bytes4]

/-- No notice to a console has a payload above 58 bytes. -/
theorem consoleNotice_payload_length {n : ConsoleNotice} (h : ∀ items, n = .park items → items.length ≤ 16) :
    n.payload.length ≤ 58 := by
  have hcall : ∀ c, (callFields c).length = 4 := fun c => by cases c <;> rfl
  cases n with
  | park items =>
    have := h items rfl
    have : (items.flatMap fun e => byteOf e.1.val :: bytes2 e.2).length = 3 * items.length := by
      simp [bytes2, Nat.mul_comm]
    rw [ConsoleNotice.payload, List.length_cons, this]; omega
  | _ => simp [ConsoleNotice.payload, bytes2, hcall]

/-! ## The items of STATUS (R181) -/

theorem serviceState_code (v : ServiceState) : v.code = if v = .service then 1 else 0 := by cases v <;> rfl

/-- The bytes of STATUS ahead of the positions' states. -/
def Status.ahead (st : Status) : List Byte :=
  [1, st.service.code, 2, st.nightSetting.code, 3, flagCode st.nightFlag, 4, st.selection.code, 5, st.band.code] ++
    (6 :: bytes2 (BitVec.ofNat 16 st.depth)) ++ (7 :: bytes2 (BitVec.ofNat 16 st.freeSlots)) ++
    [8, st.lead.elim 0xFF (fun p => byteOf p.val), 9]

/-- The bytes of STATUS behind the links of the consoles. -/
def Status.behind (st : Status) : List Byte :=
  11 :: bytes2 st.tickCount ++ [12, byteOf st.pointer.val, 13, byteOf st.staged]

/-- The links: item 10. -/
def Status.links (st : Status) : List Byte := [10, flagCode st.switchUp] ++ st.consolesUp.toList.map flagCode

theorem status_payload_eq (st : Status) :
    st.payload = st.ahead ++ (st.positions.toList.map PosState.code ++ (st.links ++ st.behind)) := by
  unfold Status.payload Status.ahead Status.links Status.behind
  cases st.lead <;> simp only [Option.elim, List.append_assoc, List.cons_append, List.nil_append]

theorem getElem?_behind {α : Type} {n : Nat} {a b : List α} (h : a.length = n) (k : Nat) :
    (a ++ b)[n + k]? = b[k]? := by
  rw [List.getElem?_append_right (by omega), h, Nat.add_sub_cancel_left]

theorem drop_behind {α : Type} {n : Nat} {a b : List α} (h : a.length = n) (k : Nat) :
    (a ++ b).drop (n + k) = b.drop k := by
  rw [← List.drop_drop, List.drop_left' h]

section
variable (st : Status)

theorem status_positions_length : (st.positions.toList.map PosState.code).length = 8 := by simp

theorem status_links_length : st.links.length = 10 := by simp [Status.links]

theorem status_ahead (k : Nat) (h : k < 19) : st.payload[k]? = st.ahead[k]? := by
  rw [status_payload_eq, List.getElem?_append_left (show k < st.ahead.length from h)]

theorem status_position (p : PosNo) : st.payload[19 + p.val]? = some st.positions[p].code := by
  rw [status_payload_eq, getElem?_behind (show st.ahead.length = 19 from rfl),
    List.getElem?_append_left (by rw [status_positions_length]; exact p.isLt)]
  simp

/-- The links begin at byte 27. -/
theorem status_links (k : Nat) (h : k < 10) : st.payload[27 + k]? = st.links[k]? := by
  rw [status_payload_eq, show 27 + k = 19 + (8 + k) by omega, getElem?_behind (show st.ahead.length = 19 from rfl),
    getElem?_behind (status_positions_length st), List.getElem?_append_left (by rw [status_links_length]; exact h)]

theorem status_console (p : PosNo) : st.payload[29 + p.val]? = some (flagCode st.consolesUp[p]) := by
  rw [show 29 + p.val = 27 + (2 + p.val) by omega, status_links st _ (by omega), Status.links,
    getElem?_behind (show [10, flagCode st.switchUp].length = 2 from rfl)]
  simp

/-- The last items begin at byte 37. -/
theorem status_behind (k : Nat) : st.payload.drop (37 + k) = st.behind.drop k := by
  rw [status_payload_eq, show 37 + k = 19 + (8 + (10 + k)) by omega,
    drop_behind (show st.ahead.length = 19 from rfl), drop_behind (status_positions_length st),
    drop_behind (status_links_length st)]

theorem status_behind_get (k : Nat) : st.payload[37 + k]? = st.behind[k]? := by
  have h := congrArg (·[k]?) (status_behind st 0)
  simpa only [List.getElem?_drop, Nat.add_zero, Nat.zero_add] using h

end

end

end Sys2Proof.Machine

open Sys2Proof Sys2Proof.Machine in
/-- Settles O10. A frame is read back by `validFrame_frameBody`; STATUS is read in its three parts, and the other layouts
and the numbers are those of the definitions. -/
theorem framesRead : Obligations.FramesRead := by
  unfold Obligations.FramesRead
  refine ⟨fun l kind payload hlen => ⟨commandOfFrame_otherKind hlen, fun check => commandOfFrame_badCheck hlen l kind⟩,
    fun l len h => commandOfFrame_tooLong h l, crc16_digits,
    ⟨fun n h => validFrame_frameBody (switchNotice_payload_length h) _,
      fun n h => validFrame_frameBody (consoleNotice_payload_length h) _⟩,
    fun a b c d => ⟨bytes2_append a b, bytes3_append a b c, bytes4_append a b c d⟩, ?_, ?_, ?_, ?_, ?_⟩
  · intro n via tag p l x d
    refine ⟨?_, ?_, ?_, ?_, ?_, ?_, ?_⟩
    all_goals rfl
  · intro n tag d1 d2 d3 p x dest kind up code dr rr ek vs
    refine ⟨?_, ?_, ?_, ?_, ?_, ?_, ?_, ?_, ?_, ?_, ?_⟩
    case refine_10 => exact congrArg (fun items => ((0x4A : Byte), (1 : Byte) :: items)) (counterItems_eq 1 vs.toList)
    case refine_11 => exact congrArg (fun items => ((0x4A : Byte), (2 : Byte) :: items)) (counterItems_eq 10 vs.toList)
    all_goals rfl
  · intro st
    have hahead := status_ahead st
    have hbehind := status_behind_get st
    refine ⟨rfl, status_payload_length st, rfl, ?_, rfl, rfl, rfl, rfl, rfl, rfl, rfl, rfl, rfl, rfl, rfl, rfl, rfl,
      fun p hp => ?_, fun hp => ?_, rfl, status_position st, status_links st 0 (by decide),
      status_links st 1 (by decide), status_console st, hbehind 0, ?_, hbehind 3, hbehind 4, hbehind 5, hbehind 6⟩
    · exact congrArg some (serviceState_code st.service)
    · exact (hahead 17 (by decide)).trans (by unfold Status.ahead; rw [hp]; rfl)
    · exact (hahead 17 (by decide)).trans (by unfold Status.ahead; rw [hp]; rfl)
    · rw [show 38 = 37 + 1 from rfl, status_behind]; rfl
  · intro seq kind code o l lamp i label k why depth oldest misses band night lead items st last
    refine ⟨?_, ?_, ?_, ?_, ?_, ?_, ?_, ?_, ?_, ?_⟩
    all_goals rfl
  · decide

end

section
/-! PROOFS. What distribution leaves of the offers whatever the records say: in SINGLE mode a position keeps an
offer while the plan's mode stays (R85), and in COMMON mode a position that is not available shows nothing (R81). -/
namespace Sys2Proof.Machine

section
variable {s t u : State} {i j : SlotNo} {p q : PosNo} {c : Call}

/-! ## One round of the re-establishing -/

/-- The round up to night routing: the recompute, the judgement of availability and the showings that end with it. -/
def State.judged (s : State) : State := dropShowings (rejudge (recomputeUnderLoad s))

/-- The round up to the walk or the showing. -/
def State.roundDone (s : State) : State := if s.judged.nightFlag then nightRoute s.judged else s.judged

theorem settleWith_succ (fuel : Nat) (s : State) : settleWith (fuel + 1) s =
    if s.roundDone.selection = .load ∧ s.roundDone.depth < s.judged.depth then settleWith fuel s.roundDone
    else distribute s.roundDone := rfl

theorem judged_settled (s : State) : Settled s s.judged :=
  ((recomputeUnderLoad_settled s).trans (rejudge_settled _)).trans (dropShowings_settled _)

theorem judged_eff (s : State) : s.judged.eff = (recomputeUnderLoad s).eff := (dropShowings_plan _).eff

theorem judged_depth (s : State) : s.judged.depth = s.depth := by
  have hload : (recomputeUnderLoad s).queue = s.queue := by
    unfold recomputeUnderLoad
    split
    · exact (recompute_plan s).2
    · rfl
  exact congrArg List.length ((dropShowings_plan _).queue.trans hload)

theorem nightRoute_positions (s : State) : (nightRoute s).positions = s.positions := by
  refine foldl_keeps (P := fun t => t.positions = s.positions) _ (fun t i _ h => ?_) rfl
  split
  · exact h
  · rename_i c hc
    dsimp only
    split
    · rename_i hw; exact (depart_waiting_apart hc hw.1 _).positions.trans h
    · exact h

/-- Night routing leaves the plan, the positions and their list. -/
theorem roundDone_kept (s : State) : Settled s.judged s.roundDone ∧ s.roundDone.eff = s.judged.eff ∧
    s.roundDone.positions = s.judged.positions ∧ s.roundDone.available = s.judged.available := by
  unfold State.roundDone
  split
  · rename_i hn
    exact ⟨nightRoute_settled _ hn, nightRoute_eff _, nightRoute_positions _, nightRoute_available _⟩
  · exact ⟨.refl _, rfl, rfl, rfl⟩

/-- The re-establishing ends with the walk or the showing of one last round. -/
theorem settle_last_round (s : State) : ∃ u, settle s = distribute (State.roundDone u) := by
  have hrounds : ∀ (fuel : Nat) (s : State), s.depth < fuel →
      ∃ u, settleWith fuel s = distribute (State.roundDone u) := by
    intro fuel
    induction fuel with
    | zero => exact fun _ h => absurd h (Nat.not_lt_zero _)
    | succ fuel ih =>
      intro s hd
      rw [settleWith_succ]
      split
      · rename_i hlower
        rw [judged_depth] at hlower
        exact ih _ (by omega)
      · exact ⟨s, rfl⟩
  exact hrounds _ s (Nat.lt_succ_self _)

/-! ## An offer of SINGLE mode (R85) -/

/-- In SINGLE mode position q holds an offer of slot j. -/
structure State.Holds (s : State) (q : PosNo) (j : SlotNo) : Prop where
  mode : s.eff.mode = .single
  offer : (s.pos q).offer = some j

theorem State.Holds.of_eq (h : s.Holds q j) (hm : t.eff.mode = s.eff.mode) (hp : t.positions = s.positions) :
    t.Holds q j := ⟨hm.trans h.mode, by rw [State.pos, hp]; exact h.offer⟩

/-- The walk offers to listed positions, and these hold no offer (R79). -/
theorem distribute_holds (h : s.Holds q j) (hv : s.Vacant) : (distribute s).Holds q j := by
  unfold distribute
  rw [h.mode]
  suffices hboth : (walk s).Holds q j ∧ (walk s).Vacant from hboth.1
  refine foldl_keeps (P := fun s => s.Holds q j ∧ s.Vacant) _ (fun s i _ ⟨h, hv⟩ => ?_) ⟨h, hv⟩
  split
  · exact ⟨h, hv⟩
  · split
    · split
      · rename_i p hp
        have hnone := hv h.mode p (chooseCandidate_mem hp)
        have hpq : p ≠ q := fun hpq => by rw [hpq, h.offer] at hnone; cases hnone
        refine ⟨⟨h.mode, by rw [offerTo_offer, if_neg hpq]; exact h.offer⟩, fun _ k hk => ?_⟩
        obtain ⟨hka, hkp⟩ := List.mem_filter.1 hk
        rw [offerTo_offer, if_neg (Ne.symm (by simpa using hkp))]
        exact hv h.mode k hka
      · exact ⟨h, hv⟩
    · exact ⟨h, hv⟩

/-- The plan in force at a depth differs from plan e neither in the mode nor in a mask. -/
def State.SteadyAt (s : State) (e : Plan) (n : Nat) : Prop :=
  s.selection = .load → plansDiffer e (planInForce .load s.plans n) = false

theorem recomputeUnderLoad_holds (h : s.Holds q j) (hsteady : s.SteadyAt s.eff s.depth) :
    (recomputeUnderLoad s).Holds q j := by
  unfold recomputeUnderLoad
  split
  · rename_i hl
    have hd := hsteady hl
    rw [← hl] at hd
    rw [recompute_steady hd]
    exact h.of_eq (plansDiffer_false.1 hd).1.symm rfl
  · exact h

theorem roundDone_holds (h : s.Holds q j) (hsteady : s.SteadyAt s.eff s.depth) :
    s.roundDone.Holds q j ∧ s.roundDone.Vacant := by
  obtain ⟨-, heff, hpos, hav⟩ := roundDone_kept s
  have hrec := recomputeUnderLoad_holds h hsteady
  have hjudged : s.judged.Holds q j := by
    unfold State.judged dropShowings
    rw [if_neg (by rw [show (rejudge (recomputeUnderLoad s)).eff.mode = .single from hrec.mode]; decide)]
    exact hrec.of_eq rfl rfl
  have hvacant : s.judged.Vacant := dropShowings_vacant (rejudge_vacant _)
  refine ⟨hjudged.of_eq (by rw [heff]) hpos, fun hm p hp => ?_⟩
  rw [State.pos, hpos]
  exact hvacant (by rw [← heff]; exact hm) p (hav ▸ hp)

/-- Where no depth on the way brings another mode or mask, the offer stays. -/
theorem settleWith_holds (fuel : Nat) (h : s.Holds q j)
    (hsteady : ∀ n, (settleWith fuel s).depth ≤ n → n ≤ s.depth → s.SteadyAt s.eff n) :
    (settleWith fuel s).Holds q j := by
  induction fuel generalizing s with
  | zero => exact h
  | succ fuel ih =>
    have hall := (judged_settled s).trans (roundDone_kept s).1
    have hdepth := hsteady s.depth (settleWith_settled _ s).queue.length_le (Nat.le_refl _)
    obtain ⟨hround, hvacant⟩ := roundDone_holds h hdepth
    rw [settleWith_succ] at hsteady ⊢
    split
    · rename_i hlower
      rw [if_pos hlower] at hsteady
      refine ih hround fun n hn hle hl => ?_
      have hsel : s.selection = .load := hall.settings.selection ▸ hl
      have heff : s.roundDone.eff = planInForce .load s.plans s.depth := by
        rw [(roundDone_kept s).2.1, judged_eff, recomputeUnderLoad, if_pos hsel, (recompute_plan s).1, hsel]
      obtain ⟨hmode, hmasks⟩ := plansDiffer_false.1 (hdepth hsel)
      obtain ⟨hmode', hmasks'⟩ := plansDiffer_false.1
        (hsteady n hn (Nat.le_trans hle hall.queue.length_le) hsel)
      rw [heff, hall.settings.plans]
      exact plansDiffer_false.2 ⟨hmode.symm.trans hmode', hmasks.symm.trans hmasks'⟩
    · exact distribute_holds hround hvacant

theorem settle_holds (h : s.Holds q j) (hend : plansDiffer s.eff (settle s).eff = false)
    (hload : s.selection = .load → s.nightFlag = true → ∀ n, (settle s).depth ≤ n → n ≤ s.depth →
      plansDiffer s.eff (planInForce .load s.plans n) = false) : (settle s).Holds q j := by
  refine settleWith_holds _ h fun n hn hle hl => ?_
  cases hnight : s.nightFlag with
  | true => exact hload hl hnight n hn hle
  | false =>
    obtain ⟨heff, hdepth⟩ := settleWith_plan (fuel := s.depth) (.inr hnight)
    have hn' : n = s.depth := Nat.le_antisymm hle (by rw [← hdepth hnight]; exact hn)
    have hplan : (settle s).eff = planInForce .load s.plans s.depth := by
      rw [show (settle s).eff = (recomputeUnderLoad s).eff from heff, recomputeUnderLoad, if_pos hl,
        (recompute_plan s).1, hl]
    rw [hn', ← hplan]
    exact hend

/-! ## The showings of COMMON mode (R81) -/

/-- In COMMON mode every listed position is available, and a position that is not available shows nothing. -/
def State.Veiled (s : State) : Prop := s.eff.mode = .common →
  (∀ p ∈ s.available, s.isAvailable p = true) ∧ ∀ p, s.isAvailable p = false → (s.pos p).offer = none

/-- Where a position is what it was but for its offer, COMMON mode finds it as available as it was (R74). -/
theorem isAvailable_settled (h : Settled s t) (hs : s.eff.mode = .common) (ht : t.eff = s.eff) (p : PosNo) :
    t.isAvailable p = s.isAvailable p := isAvailable_common (h.positions p) hs (by rw [ht]; exact hs)

theorem mem_rejudge (h : p ∈ (rejudge s).available) : s.isAvailable p = true := by
  rcases List.mem_append.1 h with h | h
  · exact (List.mem_filter.1 h).2
  · exact (Bool.and_eq_true _ _ ▸ (List.mem_filter.1 h).2).1

/-- In COMMON mode position p shows nothing unless it is available. -/
def State.VeiledAt (s : State) (p : PosNo) : Prop :=
  s.eff.mode = .common → s.isAvailable p = false → (s.pos p).offer = none

theorem withdrawAt_veiledAt (h : s.VeiledAt q) (p : PosNo) : (withdrawAt p s).VeiledAt q := by
  intro hm hq
  rw [withdrawAt_eff] at hm
  rw [isAvailable_settled (withdrawAt_settled p s) hm (withdrawAt_eff p s)] at hq
  rw [withdrawAt_offer, h hm hq, ite_self]

theorem dropShowings_veiledAt (s : State) (q : PosNo) : (dropShowings s).VeiledAt q := by
  unfold dropShowings
  split
  · refine foldl_positions (P := State.VeiledAt) (fun s p => ?_) (fun s p q h => ?_) s q
    · split
      · rename_i hp
        intro _ hq
        rw [hp] at hq; cases hq
      · intro _ _
        rw [withdrawAt_offer, if_pos rfl]
    · split
      · exact h
      · exact withdrawAt_veiledAt h p
  · rename_i hm
    exact fun hc => absurd hc hm

theorem dropShowings_listed (h : ∀ p ∈ s.available, s.isAvailable p = true)
    (hm : (dropShowings s).eff.mode = .common) :
    ∀ p ∈ (dropShowings s).available, (dropShowings s).isAvailable p = true := by
  have heff := (dropShowings_plan s).eff
  rw [heff] at hm
  intro p hp
  rw [dropShowings_available] at hp
  rw [isAvailable_settled (dropShowings_settled s) hm heff]
  exact h p hp

theorem judged_veiled (s : State) : s.judged.Veiled := fun hm =>
  ⟨dropShowings_listed (s := rejudge (recomputeUnderLoad s))
      (fun _ hp => mem_rejudge (s := recomputeUnderLoad s) hp) hm, fun p => dropShowings_veiledAt _ p hm⟩

theorem roundDone_veiled (s : State) : s.roundDone.Veiled := by
  obtain ⟨hset, heff, hpos, hav⟩ := roundDone_kept s
  intro hm
  have hm' : s.judged.eff.mode = .common := by rw [← heff]; exact hm
  have havailable := isAvailable_settled hset hm' heff
  obtain ⟨hlisted, hnone⟩ := judged_veiled s hm'
  refine ⟨fun p hp => ?_, fun p hp => ?_⟩
  · rw [havailable]; exact hlisted p (hav ▸ hp)
  · rw [State.pos, hpos]; exact hnone p (havailable p ▸ hp)

theorem showing_available (s : State) : (showing s).available = s.available := by
  refine foldl_keeps (P := fun t => t.available = s.available) _ (fun t p _ h => ?_) rfl
  split
  · exact h
  · split <;> exact h

/-- The showing shows to listed positions alone (R81). -/
theorem showing_offer_of_unlisted (hp : p ∉ s.available) : ((showing s).pos p).offer = (s.pos p).offer := by
  refine foldl_keeps (P := fun t => (t.pos p).offer = (s.pos p).offer) _ (fun t q hq h => ?_) rfl
  split
  · exact h
  · split
    · rw [showTo_offer, if_neg fun hqp : q = p => hp (hqp ▸ hq)]; exact h
    · exact h

theorem distribute_veiled (h : s.Veiled) : (distribute s).Veiled := by
  intro hm
  have heff := (distribute_plan s).eff
  rw [heff] at hm
  have hav := isAvailable_settled (distribute_settled s) hm heff
  obtain ⟨hlisted, hnone⟩ := h hm
  have hlist : (distribute s).available = s.available := by
    unfold distribute
    rw [hm]
    exact showing_available s
  refine ⟨fun p hp => ?_, fun p hp => ?_⟩
  · rw [hav]; exact hlisted p (hlist ▸ hp)
  · rw [hav] at hp
    unfold distribute
    rw [hm]
    exact (showing_offer_of_unlisted fun hmem => by rw [hlisted p hmem] at hp; cases hp).trans (hnone p hp)

/-- After the re-establishing in COMMON mode a position that is not available shows nothing (R81). -/
theorem settle_veiled (s : State) : (settle s).Veiled := by
  obtain ⟨u, hu⟩ := settle_last_round s
  rw [hu]
  exact distribute_veiled (roundDone_veiled u)

end
end Sys2Proof.Machine
end

section
/-! PROOFS. Wait-limit routing (R67): the WAITING call that leaves the queue for the overflow destination (O35). -/
namespace Sys2Proof.Machine

section
variable {s t u : State} {i j : SlotNo} {c d : Call}

/-! ## The check -/

/-- The state before distribution of a call of slot i that has been routed away at the wait limit. -/
def State.overflowed (s : State) (i : SlotNo) : State :=
  bump .divertedOverflow (depart i none (.away s.eff.overflow) s)

theorem waitLimitHolds_iff : waitLimitHolds s c = true ↔
    c.state = .waiting ∧ s.eff.waitLimit ≠ 0 ∧ s.eff.waitLimit ≤ c.age ∧ s.eff.overflow ≠ 0 := by
  simp only [waitLimitHolds, Bool.and_eq_true, beq_iff_eq, bne_iff_ne, decide_eq_true_eq, and_assoc]

theorem waitLimitCheck_taken (hc : s.call i = some c) (h : waitLimitHolds s c = true) :
    waitLimitCheck i s = settle (s.overflowed i) := by
  unfold waitLimitCheck
  rw [hc]
  exact if_pos h

theorem waitLimitCheck_untaken (hc : s.call i = some c) (h : waitLimitHolds s c = false) : waitLimitCheck i s = s := by
  unfold waitLimitCheck
  rw [hc]
  exact if_neg (by rw [h]; decide)

theorem waitLimitRouting_exec (hr : s.Runs) (i : SlotNo) :
    exec (.waitLimitRouting i) s = .next (act (waitLimitCheck i) s) := unlessHeld_act hr _

/-! ## The call routed away -/

/-- The state whose queue has lost slot i. -/
def State.unlisted (s : State) (i : SlotNo) : State := { s with queue := s.queue.filter (· != i) }

/-- What routing a WAITING call to the overflow destination does before distribution. -/
structure Overflowed (s : State) (i : SlotNo) (c : Call) (u : State) : Prop where
  started : EventStarted s u
  register : RegisterKept s u
  group : GroupKept s u
  positions : u.positions = s.positions
  eff : u.eff = s.eff
  orbits : u.orbits = s.orbits
  camps : u.camps = s.camps
  counters : u.counters = (bump .divertedOverflow s).counters
  queue : u.queue = s.queue.filter (· != i)
  call : u.call i = some (c.departed none (.away s.eff.overflow) (s.requestAfter c (.away s.eff.overflow)))
  others : ∀ j, j ≠ i → u.call j = s.call j
  txList : u.txList = s.txList ++ s.requestFor c (.away s.eff.overflow)

theorem overflowed_spec (hc : s.call i = some c) (hw : c.state = .waiting) : Overflowed s i c (s.overflowed i) := by
  have heq : depart i none (.away s.eff.overflow) s = (s.unlisted i).asked i c
      (c.departed none (.away s.eff.overflow) (s.requestAfter c (.away s.eff.overflow))) (.away s.eff.overflow) :=
    depart_eq (leave_queued hc (by rw [hw]; rfl)) hc none _
  have hframes := asked_frames (s.unlisted i) i c
    (c.departed none (.away s.eff.overflow) (s.requestAfter c (.away s.eff.overflow))) (.away s.eff.overflow)
  unfold State.overflowed
  rw [heq]
  constructor
  case started =>
    refine ⟨by constructor <;> rfl, ?_, fun k => by cases k <;> rfl, rfl⟩
    exact hframes
  case register => exact ⟨rfl, rfl, rfl⟩
  case group => exact ⟨rfl, rfl⟩
  case call => rw [bump_call, asked_call, if_pos rfl]
  case others =>
    intro j hj
    rw [bump_call, asked_call, if_neg (Ne.symm hj)]; rfl
  case txList =>
    change (if s.asksFor c _ = true then _ else _) = s.txList ++ (if s.asksFor c _ = true then _ else _)
    split
    · rfl
    · exact (List.append_nil _).symm
  all_goals rfl

/-! ## Distribution after it -/

section
variable (h : Overflowed s i c u) (ha : Announced (settle u) t)
include h ha

theorem Overflowed.routed : t.call i =
    some (c.departed none (.away s.eff.overflow) (s.requestAfter c (.away s.eff.overflow))) :=
  (ha.call i).trans ((settle_slots u i).passed.outside h.call rfl)

theorem Overflowed.unqueued : i ∉ t.queue := by
  rw [ha.queue]
  intro hi
  have := (settle_settled u).queue.subset hi
  rw [h.queue] at this
  simp at this

theorem Overflowed.slotSettled (hj : j ≠ i) : SlotSettled s t j := by
  refine Aside.slotSettled ⟨h.others j hj, fun q => ?_, h.started.settings, h.eff, ?_⟩ ha
  · rw [State.pos, h.positions]; rfl
  · rw [State.depth, h.queue]
    exact Nat.le_trans (List.length_filter_le _ _) (Nat.le_add_right _ _)

theorem Overflowed.offersKept : OffersKept s t i := by
  have hpos : ∀ q, u.pos q = s.pos q := fun q => by rw [State.pos, h.positions]; rfl
  have hset := settle_settled u
  refine ⟨fun hm hsteady q hq _ => ?_, fun hm q hq => ?_⟩
  · obtain ⟨j, hj⟩ := Option.ne_none_iff_exists'.1 hq
    have hu : u.Holds q j := ⟨by rw [h.eff]; exact hm, by rw [hpos]; exact hj⟩
    have hdepth : u.depth ≤ s.depth + 4 := by
      rw [State.depth, h.queue]
      exact Nat.le_trans (List.length_filter_le _ _) (Nat.le_add_right _ _)
    rw [ha.offer, hj]
    refine (settle_holds hu (by rw [h.eff, ← ha.eff]; exact hsteady.1) fun hl hn n hlo hhi => ?_).offer
    rw [h.eff, h.started.settings.plans]
    exact hsteady.2 (h.started.settings.selection ▸ hl) (ha.nightFlag.trans (hset.nightFlag.trans hn)) n
      (by rw [State.depth, ha.queue]; exact hlo) (Nat.le_trans hhi hdepth)
  · rw [ha.offer]
    exact (settle_veiled u (by rw [← ha.eff]; exact hm)).2 q (by rw [← ha.isAvailable]; exact hq)

theorem Overflowed.restKept : RestKept s t i := by
  have hset := settle_settled u
  have hkept : ∀ p, PositionKept (u.pos p) (t.pos p) := fun p => (hset.positions p).trans (ha.positionKept p)
  have hpos : ∀ q, u.pos q = s.pos q := fun q => by rw [State.pos, h.positions]; rfl
  refine ⟨(h.register.trans hset.register).trans ha.register,
    ⟨ha.lead.trans (hset.lead.trans h.group.lead), ha.nightFlag.trans (hset.nightFlag.trans h.group.nightFlag)⟩,
    fun j hj => h.slotSettled ha hj, h.offersKept ha, fun p => ?_⟩
  rw [← hpos]
  exact ⟨(hkept p).state, (hkept p).lastReason, (hkept p).leadEligible⟩

end

theorem departed_moved (c : Call) (x : Option Ext) (w : Conn) (o : Option Request) :
    Moved c (c.departed x w o) .departing w :=
  ⟨rfl, rfl, rfl, rfl, rfl, by simp [Call.departed, Call.enter, CallState.queued], rfl, rfl, rfl, rfl, fun _ => rfl,
    rfl, rfl, rfl, rfl⟩

end
end Sys2Proof.Machine

open Sys2Proof Sys2Proof.Machine in
/-- Settles O35: the call by `overflowed_spec`, and what distribution leaves of the rest by `Overflowed.restKept`. -/
theorem waitLimitRouting : Obligations.WaitLimitRouting := by
  unfold Obligations.WaitLimitRouting
  refine fun s i c hr hc => ⟨fun hw hlimit hage hdest => ?_, fun hn hnot => ?_⟩
  · have ha := act_announced (waitLimitCheck i) s
    have hexec := waitLimitRouting_exec hr i
    have h := overflowed_spec hc hw
    generalize act (waitLimitCheck i) s = t at ha hexec
    rw [waitLimitCheck_taken hc (waitLimitHolds_iff.2 ⟨hw, hlimit, hage, hdest⟩)] at ha
    have hset := settle_settled (s.overflowed i)
    refine ⟨t, _, hexec, h.started.ownEvent ha, h.restKept ha, ha.orbits.trans (hset.orbits.trans h.orbits),
      ha.camps.trans (hset.camps.trans h.camps), fun p => ?_, ha.counters.trans (hset.counters.trans h.counters),
      h.unqueued ha, h.routed ha, departed_moved _ _ _ _, rfl, rfl, rfl, ?_⟩
    · have hkept := (hset.positions p).trans (ha.positionKept p)
      rwa [show (s.overflowed i).pos p = s.pos p by rw [State.pos, h.positions]; rfl] at hkept
    · rw [← h.txList]
      exact ha.routesJoin
  · have hf : waitLimitHolds s c = false := by
      rw [Bool.eq_false_iff, Ne, waitLimitHolds_iff]
      rintro ⟨hw, hlimit, hage, hdest⟩
      rcases hnot with h | h | h | h
      · exact h hw
      · exact hlimit h
      · exact Nat.not_le.2 h hage
      · exact hdest h
    have hsame := waitLimitCheck_untaken hc hf
    refine (unlessHeld_act_shownKept hr hn (f := waitLimitCheck i) ?_).trans ?_
    · rw [hsame]; exact .refl s
    · rw [hsame]

end

section
/-! PROOFS. What a sweep visit neither reads nor writes: the pointer, the range, the pass count, the report interval and
the links. A visit of a state that has these from elsewhere is the same visit (R157, R158). -/
namespace Sys2Proof.Machine

section
variable {s t u : State} {i j : SlotNo} {c : Call} {f g : State → State}

/-! ## The pointer, the pass and the links -/

/-- The state with the pointer, the range, the pass and the links of k. -/
def State.sweptAs (s k : State) : State :=
  { s with
    pointer := k.pointer
    rangeFirst := k.rangeFirst
    rangeLast := k.rangeLast
    passCount := k.passCount
    reportInterval := k.reportInterval
    switchLink := k.switchLink
    consoleLinks := k.consoleLinks }

/-- An operation that neither reads nor writes the pointer, the range, the pass and the links. -/
def Aloof (f : State → State) : Prop := ∀ s k, f (s.sweptAs k) = (f s).sweptAs k

theorem Aloof.kept (h : Aloof f) (s : State) : f s = (f s).sweptAs s := h s s

theorem Aloof.comp (hg : Aloof g) (hf : Aloof f) : Aloof (fun s => g (f s)) := fun s k =>
  (congrArg g (hf s k)).trans (hg (f s) k)

theorem Aloof.foldl {α : Type} {f : State → α → State} (hf : ∀ a, Aloof (f · a)) (l : List α) :
    Aloof (l.foldl f ·) := fun s k => by
  induction l generalizing s with
  | nil => rfl
  | cons a l ih => exact (congrArg (l.foldl f ·) (hf a s k)).trans (ih (f s a))

theorem Aloof.ite {p : State → Prop} [DecidablePred p] (hf : Aloof f) (hp : ∀ s k, p (s.sweptAs k) ↔ p s)
    (hg : Aloof g) : Aloof (fun s => if p s then f s else g s) := fun s k => by
  dsimp only
  by_cases h : p s
  · rw [if_pos ((hp s k).2 h), if_pos h, hf]
  · rw [if_neg fun h' => h ((hp s k).1 h'), if_neg h, hg]

theorem aloof_id : Aloof (fun s => s) := fun _ _ => rfl

section
variable (s k : State)

@[simp] theorem sweptAs_call (i : SlotNo) : (s.sweptAs k).call i = s.call i := rfl
@[simp] theorem sweptAs_pos (p : PosNo) : (s.sweptAs k).pos p = s.pos p := rfl
@[simp] theorem sweptAs_eff : (s.sweptAs k).eff = s.eff := rfl
@[simp] theorem sweptAs_camps : (s.sweptAs k).camps = s.camps := rfl

end

/-! ## The operations on one call -/

theorem modCall_aloof (i : SlotNo) (f : Call → Call) : Aloof (·.modCall i f) := fun _ _ => rfl

theorem bump_aloof (k : Counter) : Aloof (bump k) := fun _ _ => rfl

theorem issue_aloof (i : SlotNo) : Aloof (issue i) := fun s k => by
  unfold issue
  simp only [sweptAs_call]
  split
  · rfl
  · rename_i c _
    have hplaced : Aloof (fun s => (enlist (.pathReq s.nextNumber c.tag c.wanted)
        { s with reqCounter := s.nextNumber }).modCall i
          (fun c => { c with outstanding := some { number := s.nextNumber, target := c.wanted } })) := fun _ _ => rfl
    exact hplaced.ite (p := fun s => s.mayIssue c = true) (fun _ _ => Iff.rfl) aloof_id s k

theorem want_aloof (i : SlotNo) (w : Conn) : Aloof (want i w) := fun s k => by
  unfold want
  simp only [sweptAs_call]
  split
  · rfl
  · split
    · rfl
    · exact (issue_aloof i).comp (modCall_aloof i _) s k

theorem placeDroppable_aloof (n : SwitchNotice) : Aloof (placeDroppable n) :=
  Aloof.ite (fun _ _ => rfl) (fun _ _ => Iff.rfl) (bump_aloof _)

theorem leaveCamp_aloof (i : SlotNo) (x : Ext) : Aloof (leaveCamp i x) := fun s k => by
  unfold leaveCamp
  simp only [sweptAs_camps]
  split
  · rfl
  · rename_i e _
    have hgone : Aloof (fun s => { s with camps := s.camps.filter (fun e => e.ext != x) }) := fun _ _ => rfl
    have hmoved : Aloof (fun s => { s with camps := s.camps.map fun f =>
        if f.ext == x then { f with list := e.list.filter (· != i) } else f }) := fun _ _ => rfl
    exact (((placeDroppable_aloof _).comp hgone).ite (p := fun _ => (e.list.filter (· != i)).isEmpty = true)
      (fun _ _ => Iff.rfl) hmoved).comp (Aloof.foldl (fun j => modCall_aloof j _) _) s k

theorem leave_aloof (i : SlotNo) : Aloof (leave i) := fun s k => by
  unfold leave
  simp only [sweptAs_call]
  split
  · rfl
  · rename_i c _
    have hloop : leave.leaveLoop c (s.sweptAs k) = (leave.leaveLoop c s).sweptAs k := by
      unfold leave.leaveLoop
      split <;> rfl
    split
    · rfl
    · rfl
    · exact hloop
    · exact hloop
    · split <;> rfl
    · split
      · exact leaveCamp_aloof i _ s k
      · rfl
    · rfl
    · rfl

theorem depart_aloof (i : SlotNo) (x : Option Ext) (w : Conn) : Aloof (depart i x w) :=
  (want_aloof i w).comp ((modCall_aloof i _).comp (leave_aloof i))

theorem requeue_aloof (i : SlotNo) : Aloof (fun s => place i (rescore i s)) := fun _ _ => rfl

/-! ## Distribution -/

theorem withdrawAt_aloof (p : PosNo) : Aloof (withdrawAt p) := fun s k => by
  unfold withdrawAt
  simp only [sweptAs_pos]
  split
  · rfl
  · rename_i i _
    exact aloof_id.ite (p := fun s => s.shownAnywhere i = true) (fun _ _ => Iff.rfl)
      (modCall_aloof i _) (modOffered i (fun c => { c with preferred := none }) (setOffer p none s)) k

theorem withdrawCall_aloof (i : SlotNo) : Aloof (withdrawCall i) :=
  Aloof.foldl (fun p => (withdrawAt_aloof p).ite (p := fun s => (s.pos p).offer = some i) (fun _ _ => Iff.rfl)
    aloof_id) _

theorem withdrawAll_aloof : Aloof withdrawAll := Aloof.foldl withdrawAt_aloof _

theorem withdrawMasked_aloof : Aloof withdrawMasked := Aloof.foldl (fun p s k => by
  simp only [sweptAs_pos, sweptAs_call]
  split
  · rfl
  · split
    · rfl
    · rename_i c _
      exact aloof_id.ite (p := fun s => s.eff.allows c.cls p = true) (fun _ _ => Iff.rfl) (withdrawAt_aloof p) s k) _

theorem recompute_aloof : Aloof recompute := fun s k => by
  have hplan : Aloof State.replanned := fun _ _ => rfl
  exact (withdrawAll_aloof.comp hplan).ite
    (p := fun s => (s.eff.mode != (planInForce s.selection s.plans s.depth).mode) = true) (fun _ _ => Iff.rfl)
    ((withdrawMasked_aloof.comp hplan).ite
      (p := fun s => (s.eff.masks != (planInForce s.selection s.plans s.depth).masks) = true) (fun _ _ => Iff.rfl)
      hplan) s k

theorem recomputeUnderLoad_aloof : Aloof recomputeUnderLoad :=
  recompute_aloof.ite (p := fun s => s.selection = .load) (fun _ _ => Iff.rfl) aloof_id

theorem dropShowings_aloof : Aloof dropShowings :=
  Aloof.ite (p := fun s => s.eff.mode = .common)
    (Aloof.foldl (fun p => aloof_id.ite (p := fun s => s.isAvailable p = true) (fun _ _ => Iff.rfl)
      (withdrawAt_aloof p)) _) (fun _ _ => Iff.rfl) aloof_id

theorem judged_aloof : Aloof State.judged :=
  dropShowings_aloof.comp (Aloof.comp (fun _ _ => rfl : Aloof rejudge) recomputeUnderLoad_aloof)

theorem nightRoute_aloof : Aloof nightRoute := fun s k => by
  refine Aloof.foldl (fun i s k => ?_) s.queue s k
  simp only [sweptAs_call]
  split
  · rfl
  · rename_i c _
    exact Aloof.ite (f := fun s => depart i none (.away (s.nightDestination c.origin)) s)
      (p := fun s => c.state = .waiting ∧ s.nightDestination c.origin ≠ 0)
      (fun s k => depart_aloof i none (.away (s.nightDestination c.origin)) s k) (fun _ _ => Iff.rfl) aloof_id s k

theorem walk_aloof : Aloof walk := fun s k => by
  refine Aloof.foldl (fun i s k => ?_) s.queue s k
  simp only [sweptAs_call]
  split
  · rfl
  · split
    · rename_i c _ _
      rw [show chooseCandidate (s.sweptAs k) c = chooseCandidate s c from rfl]
      split <;> rfl
    · rfl

theorem showing_aloof : Aloof showing := fun s k => by
  refine Aloof.foldl (fun p s k => ?_) s.available s k
  simp only [sweptAs_pos, show firstFor (s.sweptAs k) p = firstFor s p from rfl]
  split
  · rfl
  · split <;> rfl

theorem distribute_aloof : Aloof distribute := fun s k => by
  unfold distribute
  simp only [sweptAs_eff]
  split
  · exact walk_aloof s k
  · exact showing_aloof s k

theorem roundDone_aloof : Aloof State.roundDone :=
  (nightRoute_aloof.comp judged_aloof).ite (p := fun s => s.judged.nightFlag = true)
    (fun s k => by rw [judged_aloof s k]; rfl) judged_aloof

theorem settleWith_aloof (fuel : Nat) : Aloof (settleWith fuel) := by
  induction fuel with
  | zero => exact aloof_id
  | succ fuel ih =>
    refine (ih.comp roundDone_aloof).ite
      (p := fun s => s.roundDone.selection = .load ∧ s.roundDone.depth < s.judged.depth)
      (fun s k => ?_) (distribute_aloof.comp roundDone_aloof)
    rw [judged_aloof s k, roundDone_aloof s k]
    exact Iff.rfl

theorem settle_aloof : Aloof settle := fun s k => settleWith_aloof (s.depth + 1) s k

/-! ## The checks of a visit -/

theorem countMiss_aloof (p : PosNo) : Aloof (countMiss p) :=
  Aloof.ite (f := fun s => (s.missed p).rejudgedAt p .closed .forced) (g := (·.missed p))
    (p := fun s => s.eff.missLimit ≠ 0 ∧ s.eff.missLimit ≤ min maxMissCount ((s.pos p).missCount + 1) ∧
      ((s.missed p).pos p).state = .opened)
    (fun _ _ => rfl) (fun _ _ => Iff.rfl) (fun _ _ => rfl)

theorem recallCall_aloof (i : SlotNo) (reason : RecallReason) : Aloof (recallCall i reason) := fun s k => by
  unfold recallCall
  simp only [sweptAs_call]
  split
  · rfl
  · rename_i c _
    have hleft : Aloof (fun s => if c.state.queued = true then withdrawCall i s else leave i s) :=
      (withdrawCall_aloof i).ite (p := fun _ => c.state.queued = true) (fun _ _ => Iff.rfl) (leave_aloof i)
    exact (bump_aloof .recalls).comp ((requeue_aloof i).comp ((issue_aloof i).comp
      ((modCall_aloof i _).comp hleft))) s k

theorem recallNow_aloof (i : SlotNo) (reason : RecallReason) : Aloof (recallNow i reason) :=
  settle_aloof.comp (recallCall_aloof i reason)

/-- An operation on the call of a slot. -/
theorem aloof_of_call {g : Call → State → State} (hg : ∀ c, Aloof (g c)) (hnone : ∀ s, s.call i = none → f s = s)
    (hsome : ∀ s c, s.call i = some c → f s = g c s) : Aloof f := fun s k => by
  cases hc : s.call i with
  | none => rw [hnone s hc, hnone (s.sweptAs k) hc]
  | some c => rw [hsome s c hc, hsome (s.sweptAs k) c hc, hg c s k]

theorem waitLimitCheck_aloof (i : SlotNo) : Aloof (waitLimitCheck i) :=
  aloof_of_call (i := i) (g := fun c s => if waitLimitHolds s c = true then
      settle (bump .divertedOverflow (depart i none (.away s.eff.overflow) s)) else s)
    (fun _ => (settle_aloof.comp ((bump_aloof _).comp fun s k => depart_aloof i none (.away s.eff.overflow) s k)).ite
      (fun _ _ => Iff.rfl) aloof_id)
    (fun s h => by simp only [waitLimitCheck, h]) (fun s c h => by simp only [waitLimitCheck, h])

theorem offerExpiryCheck_aloof (i : SlotNo) : Aloof (offerExpiryCheck i) := fun s k => by
  unfold offerExpiryCheck
  simp only [sweptAs_call]
  split
  · rfl
  · rename_i c _
    split
    · rename_i p _ _
      exact (modCall_aloof i _).ite (p := fun s => min maxOfferAge (c.offerAge + 1) < s.eff.offerLimit)
        (fun _ _ => Iff.rfl) (settle_aloof.comp ((countMiss_aloof p).comp (withdrawAt_aloof p))) s k
    · rfl

theorem holdReminderCheck_aloof (i : SlotNo) : Aloof (holdReminderCheck i) :=
  aloof_of_call (i := i) (g := fun c s => if holdLimitReached s c = true ∧ c.reminded = false then
      s.modCall i (fun c => { c with reminded := true, age := 0 }) else s)
    (fun _ => (modCall_aloof i _).ite (fun _ _ => Iff.rfl) aloof_id)
    (fun s h => by simp only [holdReminderCheck, h]) (fun s c h => by simp only [holdReminderCheck, h])

theorem holdRecallCheck_aloof (i : SlotNo) : Aloof (holdRecallCheck i) :=
  aloof_of_call (i := i)
    (g := fun c s => if holdLimitReached s c = true ∧ c.reminded = true then recallNow i .hold s else s)
    (fun _ => (recallNow_aloof i _).ite (fun _ _ => Iff.rfl) aloof_id)
    (fun s h => by simp only [holdRecallCheck, h]) (fun s c h => by simp only [holdRecallCheck, h])

theorem parkCheck_aloof (i : SlotNo) : Aloof (parkCheck i) :=
  aloof_of_call (i := i)
    (g := fun c s => if c.state = .parked ∧ s.eff.parkLimit ≤ c.age then recallNow i .park s else s)
    (fun _ => (recallNow_aloof i _).ite (fun _ _ => Iff.rfl) aloof_id)
    (fun s h => by simp only [parkCheck, h]) (fun s c h => by simp only [parkCheck, h])

theorem ringCheck_aloof (i : SlotNo) : Aloof (ringCheck i) :=
  aloof_of_call (i := i)
    (g := fun c s => if c.state = .ringing ∧ s.eff.ringLimit ≤ c.age then recallNow i .ring s else s)
    (fun _ => (recallNow_aloof i _).ite (fun _ _ => Iff.rfl) aloof_id)
    (fun s h => by simp only [ringCheck, h]) (fun s c h => by simp only [ringCheck, h])

theorem campCheck_aloof (i : SlotNo) : Aloof (campCheck i) :=
  aloof_of_call (i := i)
    (g := fun c s => if c.state = .camped ∧ s.eff.campLimit ≤ c.age then recallNow i .camp s else s)
    (fun _ => (recallNow_aloof i _).ite (fun _ _ => Iff.rfl) aloof_id)
    (fun s h => by simp only [campCheck, h]) (fun s c h => by simp only [campCheck, h])

theorem queueCheck_aloof (found : Call) (i : SlotNo) : Aloof (queueCheck found i) := fun s k => by
  have hsettled := settle_aloof.comp (requeue_aloof i) s k
  unfold queueCheck
  dsimp only at hsettled ⊢
  rw [hsettled]
  simp only [sweptAs_call]
  split
  · rfl
  · rename_i c _
    exact (waitLimitCheck_aloof i).ite (p := fun s => waitLimitHolds s c = true) (fun _ _ => Iff.rfl)
      ((offerExpiryCheck_aloof i).ite (p := fun s => found.state = .offered ∧ s.eff.mode = .single)
        (fun _ _ => Iff.rfl) aloof_id) _ k

theorem ownersCheck_aloof (found : Call) (i : SlotNo) : Aloof (ownersCheck found i) := fun s k => by
  unfold ownersCheck
  split
  case h_4 => split <;> [exact holdRecallCheck_aloof i s k; exact holdReminderCheck_aloof i s k]
  case h_1 | h_2 => exact queueCheck_aloof found i s k
  case h_5 => exact parkCheck_aloof i s k
  case h_6 => exact ringCheck_aloof i s k
  case h_7 => exact campCheck_aloof i s k
  all_goals rfl

/-- The state in which a visit of the call c of slot i takes the owner's check. -/
def State.aged (s : State) (i : SlotNo) (c : Call) : State :=
  let s := issue i (s.modCall i (fun c => { c with retryWait := false }))
  if agesAtVisit s c then s.modCall i (fun c => { c with age := min maxAge (c.age + 1) }) else s

theorem visitSlot_none (h : s.call i = none) : visitSlot i s = s := by simp only [visitSlot, h]

theorem visitSlot_some (h : s.call i = some c) : visitSlot i s = ownersCheck c i (s.aged i c) := by
  simp only [visitSlot, h]
  rfl

/-- A visit neither reads nor writes the pointer, the range, the pass and the links. -/
theorem visitSlot_aloof (i : SlotNo) : Aloof (visitSlot i) :=
  aloof_of_call (i := i) (g := fun c s => ownersCheck c i (s.aged i c))
    (fun c => (ownersCheck_aloof c i).comp (((modCall_aloof i _).ite (p := fun s => agesAtVisit s c = true)
      (fun _ _ => Iff.rfl) aloof_id).comp ((issue_aloof i).comp (modCall_aloof i _))))
    (fun _ h => visitSlot_none h) (fun _ _ h => visitSlot_some h)

end
end Sys2Proof.Machine
end

section
/-! PROOFS. The pointer and the pass (R157, R158), and the report that the last visit of a pass makes (R180). -/
namespace Sys2Proof.Machine

section
variable {s t u old new : State} {i j : SlotNo} {c : Call}

/-! ## The pointer -/

theorem sweepVisit_standby (hr : s.Runs) (h : s.service = .standby) : exec .sweepVisit s = .next s := by
  change unlessHeld _ s = _
  unfold unlessHeld
  rw [show s.resetHeld = false from hr]
  have hnot : s.service ≠ .service := by rw [h]; decide
  exact congrArg Host.Outcome.next (if_neg hnot)

theorem sweepVisit_service (hr : s.Runs) (h : s.service = .service) :
    exec .sweepVisit s = .next (act sweepStep s) := by
  change unlessHeld _ s = _
  unfold unlessHeld
  rw [show s.resetHeld = false from hr]
  exact congrArg Host.Outcome.next (if_pos h)

theorem sweepStep_inside (h : s.pointer ≠ s.rangeLast) :
    sweepStep s = { visitSlot s.pointer s with pointer := s.pointer + 1 } := by
  have hkept := visitSlot_aloof s.pointer |>.kept s
  unfold sweepStep advancePointer
  generalize visitSlot s.pointer s = v at hkept
  rw [if_neg (by rw [hkept]; exact h), hkept]
  rfl

/-- What the last visit of a pass does before the pass ends. -/
def State.swept (s : State) : State := { visitSlot s.pointer s with pointer := s.rangeFirst }

theorem swept_kept (s : State) : s.swept = s.swept.sweptAs { s with pointer := s.rangeFirst } := by
  have hkept := visitSlot_aloof s.pointer |>.kept s
  unfold State.swept
  rw [hkept]
  rfl

theorem sweepStep_last (h : s.pointer = s.rangeLast) : sweepStep s = endPass s.swept := by
  have hkept := visitSlot_aloof s.pointer |>.kept s
  unfold sweepStep advancePointer State.swept
  generalize visitSlot s.pointer s = v at hkept
  rw [if_pos (by rw [hkept]; exact h), hkept]
  rfl

/-! ## The end of a pass -/

/-- The state with the report interval r, the pass count n, the switch list and the counters given. -/
def State.reported (s : State) (r n : Nat) (list : List SwitchNotice) (counters : Vector Nat 18) : State :=
  { s with reportInterval := r, passCount := n, txList := list, counters := counters }

theorem endPass_none (h : s.reportInterval = 0) : endPass s = s := if_pos h

theorem endPass_below (h : s.reportInterval ≠ 0) (hn : s.passCount + 1 ≠ s.reportInterval) :
    endPass s = s.reported s.reportInterval (s.passCount + 1) s.txList s.counters := by
  unfold endPass
  rw [if_neg h]
  exact if_neg hn

theorem endPass_reached (h : s.reportInterval ≠ 0) (hn : s.passCount + 1 = s.reportInterval) :
    endPass s = reportEnd { s with passCount := s.passCount + 1 } := by
  unfold endPass
  rw [if_neg h]
  exact if_pos hn

theorem reportEnd_room (h : s.txList.length ≤ 47) :
    reportEnd s = s.reported s.reportInterval 0 (s.txList ++ counterFrames s) (Vector.replicate 18 0) := by
  unfold reportEnd
  rw [periodicReport_room h]
  rfl

theorem reportEnd_full (h : 47 < s.txList.length) :
    reportEnd s = s.reported s.reportInterval 0 s.txList (bump .droppedNotices s).counters := by
  unfold reportEnd
  rw [periodicReport_full h]
  rfl

/-- The end of a pass changes the pass count, the switch list and the counters alone. -/
theorem endPass_reported (s : State) : ∃ list counters, endPass s = s.reported s.reportInterval
    (if s.reportInterval = 0 then s.passCount else if s.passCount + 1 = s.reportInterval then 0 else s.passCount + 1)
    list counters := by
  by_cases h : s.reportInterval = 0
  · exact ⟨s.txList, s.counters, by rw [endPass_none h, if_pos h]; rfl⟩
  · rw [if_neg h]
    by_cases hn : s.passCount + 1 = s.reportInterval
    · rw [endPass_reached h hn, if_pos hn]
      rcases Nat.lt_or_ge 47 s.txList.length with hfull | hroom
      · exact ⟨_, _, reportEnd_full hfull⟩
      · exact ⟨_, _, reportEnd_room hroom⟩
    · exact ⟨_, _, by rw [endPass_below h hn, if_neg hn]⟩

/-! ## The end of the action, with and without the report -/

theorem announce_reported (r n r' n' : Nat) (list list' : List SwitchNotice) (counters counters' : Vector Nat 18)
    (old new : State) : announce (old.reported r n list counters) (new.reported r' n' list' counters') =
      (announce old new).reported r' n' list' counters' := by
  have hpend : ∀ (l : List PosNo) (s : State),
      l.foldl (fun s p => announceTo (old.reported r n list counters) (new.reported r' n' list' counters') p s)
          (s.reported r' n' list' counters') =
        (l.foldl (fun s p => announceTo old new p s) s).reported r' n' list' counters' := by
    intro l
    induction l with
    | nil => exact fun _ => rfl
    | cons p l ih =>
      intro s
      rw [List.foldl_cons, List.foldl_cons, ← ih]
      congr 1
      have horder : pendingOrder (old.reported r n list counters) (new.reported r' n' list' counters') p =
          pendingOrder old new p := rfl
      unfold announceTo
      rw [horder]
      split
      · rename_i h
        rw [if_pos (show (new.link (.console p)).up = true from h)]
        rfl
      · rename_i h
        rw [if_neg (show ¬(new.link (.console p)).up = true from h)]
  unfold announce
  rw [hpend]
  rfl

/-- The last visit of a pass, where there is no report interval. -/
theorem sweep_unreported (h : s.pointer = s.rangeLast) :
    act sweepStep { s with reportInterval := 0 } = { announce s s.swept with reportInterval := 0 } := by
  have hvisit := visitSlot_aloof s.pointer s { s with reportInterval := 0 }
  have hswept : State.swept { s with reportInterval := 0 } =
      s.swept.reported 0 s.swept.passCount s.swept.txList s.swept.counters := by
    rw [swept_kept s]
    unfold State.swept
    exact congrArg (fun v : State => { v with pointer := s.rangeFirst }) hvisit
  rw [act, sweepStep_last (s := { s with reportInterval := 0 }) h, hswept, endPass_none rfl]
  refine (announce_reported 0 s.passCount _ _ s.txList _ s.counters _ s s.swept).trans ?_
  have ha := announce_announced s s.swept
  unfold State.reported
  rw [← ha.txList, ← ha.counters, ← ha.settings.passCount]

/-- The last visit of a pass with a report interval. -/
theorem sweep_last (h : s.pointer = s.rangeLast) {n : Nat} {list : List SwitchNotice} {counters : Vector Nat 18}
    (hend : endPass s.swept = s.swept.reported s.reportInterval n list counters) :
    act sweepStep s = (announce s s.swept).reported s.reportInterval n list counters := by
  rw [act, sweepStep_last h, hend]
  exact announce_reported s.reportInterval s.passCount _ _ s.txList _ s.counters _ s s.swept

/-- The links, the pointer and the pass count after a visit (R157, R158). -/
theorem sweep_kept (s : State) : (∀ l, (act sweepStep s).link l = s.link l) ∧
    (s.pointer ≠ s.rangeLast →
      (act sweepStep s).pointer = s.pointer + 1 ∧ (act sweepStep s).passCount = s.passCount) ∧
    (s.pointer = s.rangeLast → (act sweepStep s).pointer = s.rangeFirst ∧ (act sweepStep s).passCount =
      if s.reportInterval = 0 then s.passCount
      else if s.passCount + 1 = s.reportInterval then 0 else s.passCount + 1) := by
  have ha := act_announced sweepStep s
  have hkept := (visitSlot_aloof s.pointer).kept s
  by_cases h : s.pointer = s.rangeLast
  · obtain ⟨list, counters, hend⟩ := endPass_reported s.swept
    rw [swept_kept s] at hend
    rw [sweepStep_last h, swept_kept s, hend] at ha
    refine ⟨fun l => (ha.link l).trans (by cases l <;> rfl), fun hne => absurd h hne,
      fun _ => ⟨ha.settings.pointer, ha.settings.passCount⟩⟩
  · rw [sweepStep_inside h, hkept] at ha
    refine ⟨fun l => (ha.link l).trans (by cases l <;> rfl),
      fun _ => ⟨ha.settings.pointer, ha.settings.passCount⟩, fun heq => absurd heq h⟩

/-- A visit of a FREE slot that ends no pass moves the pointer alone. -/
theorem sweep_free (hn : s.NewsClear) (hc : s.call s.pointer = none) (h : s.pointer ≠ s.rangeLast) :
    act sweepStep s = { s with pointer := s.pointer + 1, draws := s.draws + 1 } := by
  rw [act, sweepStep_inside h, visitSlot_none hc]
  exact announce_shownKept ⟨rfl, rfl, rfl, rfl, rfl, rfl, rfl⟩ hn

/-- The periodic report that the last visit of a pass makes (R180). -/
theorem sweep_report (h : s.pointer = s.rangeLast) (hi : s.reportInterval ≠ 0) :
    let u := act sweepStep { s with reportInterval := 0 }
    let ended := { u with reportInterval := s.reportInterval }
    (s.passCount + 1 ≠ s.reportInterval → act sweepStep s = { ended with passCount := s.passCount + 1 }) ∧
    (s.passCount + 1 = s.reportInterval → u.txList.length ≤ 47 → act sweepStep s = { ended with
      passCount := 0, txList := u.txList ++ counterFrames u, counters := Vector.replicate 18 0 }) ∧
    (s.passCount + 1 = s.reportInterval → 47 < u.txList.length →
      act sweepStep s = { bump .droppedNotices ended with passCount := 0 }) := by
  have ha := announce_announced s s.swept
  have hcount : s.swept.passCount = s.passCount := by rw [swept_kept s]; rfl
  have hinterval : s.swept.reportInterval = s.reportInterval := by rw [swept_kept s]; rfl
  have hne : s.swept.reportInterval ≠ 0 := by rw [hinterval]; exact hi
  have hreached : s.passCount + 1 = s.reportInterval → s.swept.passCount + 1 = s.swept.reportInterval := by
    rw [hcount, hinterval]; exact id
  dsimp only
  rw [sweep_unreported h]
  refine ⟨fun hn => ?_, fun hn hroom => ?_, fun hn hfull => ?_⟩
  · have hend := endPass_below hne (by rw [hcount, hinterval]; exact hn)
    rw [hinterval, hcount] at hend
    rw [sweep_last h hend, ← ha.txList, ← ha.counters]
    rfl
  · have hend : endPass s.swept = s.swept.reported s.reportInterval 0 (s.swept.txList ++ counterFrames s.swept)
        (Vector.replicate 18 0) := by
      rw [endPass_reached hne (hreached hn), reportEnd_room (ha.txList ▸ hroom), ← hinterval]
      rfl
    have hframes : counterFrames s.swept = counterFrames (announce s s.swept) := by
      unfold counterFrames
      rw [ha.counters]
    rw [sweep_last h hend, hframes, ← ha.txList]
    rfl
  · have hend : endPass s.swept =
        s.swept.reported s.reportInterval 0 s.swept.txList (bump .droppedNotices s.swept).counters := by
      rw [endPass_reached hne (hreached hn), reportEnd_full (ha.txList ▸ hfull), ← hinterval]
      rfl
    have hcounters :
        (bump .droppedNotices s.swept).counters = (bump .droppedNotices (announce s s.swept)).counters := by
      unfold bump
      rw [ha.counters]
    rw [sweep_last h hend, hcounters, ← ha.txList]
    rfl

end
end Sys2Proof.Machine
end

section
/-! PROOFS. A sweep visit of a slot that holds a call (R159): the retry wait, the request, the age and the check of the
state's owner (R66, R103, R117, R134, R139). -/
namespace Sys2Proof.Machine

section
variable {s t u v : State} {i j : SlotNo} {c d e : Call} {p : PosNo} {reason : RecallReason}

/-! ## The state after a sweep step -/

/-- What a sweep step leaves of the state that its visit made, the end of a pass or not. -/
structure Visited (v t : State) : Prop where
  call : ∀ j, t.call j = v.call j
  pos : ∀ p, t.pos p = { v.pos p with offerNews := false }
  queue : t.queue = v.queue
  orbits : t.orbits = v.orbits
  camps : t.camps = v.camps
  nightFlag : t.nightFlag = v.nightFlag

theorem sweep_visited (s : State) : Visited (visitSlot s.pointer s) (act sweepStep s) ∧
    (s.pointer ≠ s.rangeLast → (act sweepStep s).counters = (visitSlot s.pointer s).counters) := by
  have ha := act_announced sweepStep s
  by_cases h : s.pointer = s.rangeLast
  · obtain ⟨list, counters, hend⟩ := endPass_reported s.swept
    rw [sweepStep_last h, hend] at ha
    exact ⟨⟨ha.call, ha.positions, ha.queue, ha.orbits, ha.camps, ha.nightFlag⟩, fun hne => absurd h hne⟩
  · rw [sweepStep_inside h] at ha
    exact ⟨⟨ha.call, ha.positions, ha.queue, ha.orbits, ha.camps, ha.nightFlag⟩, fun _ => ha.counters⟩

/-! ## The retry wait, the request and the age -/

/-- The outstanding request of a call after the attempt of the issue rule at its visit (R146, R159). -/
def State.visitRequest (s : State) (c : Call) : Option Request :=
  if c.outstanding = none ∧ c.wanted ≠ c.confirmed ∧ s.txList.length < 64 then
    some { number := s.nextNumber, target := c.wanted }
  else c.outstanding

/-- The record of a call with its retry wait cleared and its request attempted, at the age given. -/
def State.visitRecord (s : State) (c : Call) (age : Nat) : Call :=
  { c with retryWait := false, outstanding := s.visitRequest c, age := age }

theorem issuedAfter_ready (hc : s.call i = some c) :
    State.issuedAfter { s with slots := vset s.slots i (some { c with retryWait := false }) }
      { c with retryWait := false } c.wanted = s.visitRequest c := by
  unfold State.issuedAfter State.visitRequest State.admits
  rw [nextNumber_vset s i c { c with retryWait := false } hc rfl]
  simp [and_assoc]

/-- The state in which the owner's check of a visit is taken: the record of the slot and the frames are new. -/
structure Readied (s : State) (i : SlotNo) (r : Call) (t : State) : Prop where
  call : t.call i = some r
  others : ∀ j, j ≠ i → t.call j = s.call j
  only : OnlyRecords s t

theorem modCall_onlyRecords (i : SlotNo) (f : Call → Call) (s : State) : OnlyRecords s (s.modCall i f) :=
  ⟨rfl, .of_eq rfl rfl⟩

theorem Readied.modCall (h : Readied s i d t) (f : Call → Call) : Readied s i (f d) (t.modCall i f) := by
  refine ⟨by rw [modCall_call, if_pos rfl, h.call]; rfl, fun j hj => ?_, h.only.trans (modCall_onlyRecords i f t)⟩
  rw [modCall_call, if_neg (Ne.symm hj)]
  exact h.others j hj

theorem readied_issue (hc : s.call i = some c) : Readied s i (s.visitRecord c c.age)
    (issue i (s.modCall i (fun c => { c with retryWait := false }))) := by
  have honly := (modCall_onlyRecords i (fun c => { c with retryWait := false }) s).trans (issue_onlyRecords i _)
  rw [modCall_eq hc] at honly ⊢
  have hr : State.call { s with slots := vset s.slots i (some { c with retryWait := false }) } i =
      some { c with retryWait := false } := by simp [State.call]
  refine ⟨?_, fun j hj => ?_, honly⟩
  · rw [(issue_requests hr).1, issuedAfter_ready hc]
    rfl
  · rcases issue_cases i { s with slots := vset s.slots i (some { c with retryWait := false }) } with
      h | ⟨_, _, _, h⟩ <;> rw [h] <;> simp [State.call, Ne.symm hj]

/-- The age of a call when its owner's check is taken. -/
def State.visitAge (s : State) (c : Call) : Nat := if agesAtVisit s c then min 255 (c.age + 1) else c.age

theorem Readied.agesAtVisit (h : Readied s i d t) (c : Call) : agesAtVisit t c = agesAtVisit s c := by
  rw [h.only.state]
  rfl

theorem Readied.consulting (h : Readied s i d t) (c : Call) : t.consulting c = s.consulting c := by
  rw [h.only.state]
  rfl

theorem readied_aged (hc : s.call i = some c) : Readied s i (s.visitRecord c (s.visitAge c)) (s.aged i c) := by
  have h := readied_issue hc
  unfold State.aged State.visitAge
  dsimp only
  rw [h.agesAtVisit]
  split
  · exact h.modCall (fun c => { c with age := min maxAge (c.age + 1) })
  · exact h

/-! ## The call that a visit leaves in its state -/

/-- The visit has cleared the retry wait, made the request and set the age of the call c of slot i, and no more. -/
structure OnlyReadied (s : State) (i : SlotNo) (c : Call) (age : Nat) (t : State) : Prop where
  call : t.call i = some (s.visitRecord c age)
  others : ∀ j, j ≠ i → t.call j = s.call j
  queue : t.queue = s.queue
  orbits : t.orbits = s.orbits
  camps : t.camps = s.camps

/-- The record that such a visit leaves, and what else it leaves alone. -/
theorem OnlyReadied.record {age : Nat} (h : OnlyReadied s i c age t) :
    ∃ d, t.call i = some d ∧
      { d with outstanding := c.outstanding } = { ({ c with retryWait := false } : Call) with age := age } ∧
      d.outstanding = (if c.outstanding = none ∧ c.wanted ≠ c.confirmed ∧ s.txList.length < 64 then
        some { number := s.nextNumber, target := c.wanted } else c.outstanding) ∧
      (∀ j, j ≠ i → t.call j = s.call j) ∧ t.queue = s.queue ∧ t.orbits = s.orbits ∧ t.camps = s.camps :=
  ⟨_, h.call, rfl, rfl, h.others, h.queue, h.orbits, h.camps⟩

theorem Readied.onlyReadied {age : Nat} (h : Readied s i (s.visitRecord c age) v) (hv : Visited v t) :
    OnlyReadied s i c age t := by
  have hstate := h.only.state
  exact ⟨(hv.call i).trans h.call, fun j hj => (hv.call j).trans (h.others j hj),
    hv.queue.trans (by rw [hstate]), hv.orbits.trans (by rw [hstate]), hv.camps.trans (by rw [hstate])⟩

/-! ## The recalls -/

/-- The fields of a state outside the queue are clear. -/
structure Call.Bare (c : Call) : Prop where
  extension : c.extension = none
  orbit : c.orbit = none
  campOrder : c.campOrder = none
  reminded : c.reminded = false

theorem Call.bare_enter (st : CallState) (c : Call) : (c.enter st).Bare := ⟨rfl, rfl, rfl, rfl⟩

/-- The call of slot i has the fields of the queue alone, and it stands in no queue when it is DEPARTING. -/
def State.Parted (s : State) (i : SlotNo) : Prop :=
  ∀ c, s.call i = some c → c.Bare ∧ (c.state = .departing → i ∉ s.queue)

theorem parted_given {f : Call → Call} (h : s.Parted i) (hq : t.queue = s.queue)
    (hcall : t.call i = if j = i then (s.call i).map f else s.call i)
    (hf : ∀ c, (f c).Bare ∧ (f c).state ≠ .departing) : t.Parted i := by
  intro d hd
  rw [hcall] at hd
  split at hd
  · obtain ⟨c, -, rfl⟩ := Option.map_eq_some_iff.1 hd
    exact ⟨(hf c).1, fun hst => absurd hst (hf c).2⟩
  · rw [hq]; exact h d hd

theorem parted_keeps (i : SlotNo) : DistributionKeeps (·.Parted i) where
  available _ _ h := h
  withdraw s p h d hd := by
    rw [show (withdrawAt p s).queue = s.queue by rw [withdrawAt_writes]]
    rcases withdrawAt_call p s i with hs | ⟨c, b, -, hc, ho, hs⟩
    · exact h d (hs ▸ hd)
    · rw [hs] at hd; cases hd
      cases b
      · exact ⟨Call.bare_enter .waiting _, nofun⟩
      · obtain ⟨hext, horb, hcamp, hrem⟩ := (h c hc).1
        exact ⟨⟨hext, horb, hcamp, hrem⟩, fun hst => absurd (ho.symm.trans hst) (by decide)⟩
  depart s j c w h hc hw d hd := by
    rw [depart_eq (leave_queued hc (by rw [hw]; rfl)) hc] at hd ⊢
    rw [asked_queue]
    rw [asked_call] at hd
    split at hd
    · rename_i hij
      subst hij
      cases hd
      exact ⟨⟨rfl, rfl, rfl, rfl⟩, fun _ => by simp⟩
    · exact ⟨(h d hd).1, fun hst hi => (h d hd).2 hst (List.mem_filter.1 hi).1⟩
  offer s p j c h hc _ _ _ := parted_given h rfl (offerTo_call p j i s) fun _ => ⟨⟨rfl, rfl, rfl, rfl⟩, nofun⟩
  showing s p j c h hc _ _ _ _ := parted_given h rfl (showTo_call p j i s) fun _ => ⟨⟨rfl, rfl, rfl, rfl⟩, nofun⟩

theorem settle_parted (h : s.Parted i) : (settle s).Parted i :=
  (parted_keeps i).settle (fun _ h => (parted_keeps i).recompute (fun _ _ _ h => h) h) h

/-- A recall leaves an outstanding request running. -/
theorem recallCall_running (hc : s.call i = some c) (hq : c.state.queued = false)
    (hd : (recallCall i reason s).call i = some d) (hout : c.outstanding ≠ none) : d.outstanding = c.outstanding := by
  obtain ⟨k, hk⟩ := (leave_left i s).call_some hc
  rw [(recallCall_requests hc hq rfl hk reason).1 d hd]
  unfold State.issuedAfter State.admits
  rw [if_neg]
  cases ho : c.outstanding with
  | none => exact absurd ho hout
  | some r => simp

/-- A queued call is redistributed. -/
theorem SlotPassed.queued (h : SlotPassed s t i) (hc : s.call i = some c) (hq : c.state.queued = true) :
    ∃ d, t.call i = some d ∧ Redistributed t.nightFlag s.nightDestination c d := by
  simpa [SlotPassed, hc, hq] using h

theorem RecalledCall.bare {e : Plan} (h : RecalledCall c d reason e) : d.Bare :=
  ⟨h.extension, h.orbit, h.campOrder, h.reminded⟩

/-- The call that a recall brings to the queue, after the distribution that ends the action (R119). -/
theorem recallNow_recalledInto (hc : s.call i = some c) (hq : c.state.queued = false) (reason : RecallReason) :
    ∃ d, (recallNow i reason s).call i = some d ∧ RecalledInto s (recallNow i reason s) i c d reason := by
  obtain ⟨r, hr, hrec, hqueue, hset, -⟩ := recallCall_spec hc reason
  have hrunning := recallCall_running hc hq hr
  unfold recallNow
  generalize recallCall i reason s = u at hr hqueue hset
  have hwaiting : r.state.queued = true := by rw [hrec.state]; rfl
  have hslot := settle_slots u i
  obtain ⟨d, hd, h⟩ := hslot.passed.queued hr hwaiting
  rw [nightDestination_eq hset.groups] at h
  have hparted := settle_parted (i := i) (s := u) fun e he => by
    rw [hr] at he; cases he
    exact ⟨hrec.bare, fun hst => absurd (hrec.state.symm.trans hst) (by decide)⟩
  obtain ⟨⟨hext, horbit, hcamp, hremind⟩, hleft⟩ := hparted d hd
  have hage : d.age = 0 := by
    by_cases hst : d.state = .departing
    · exact (h.routed hst).2.1
    · exact (h.stays hst).1.trans hrec.age
  refine ⟨d, hd, ?_⟩
  have hsame := h.same
  constructor
  case recalled => exact {
    tag := hsame.tag.trans hrec.tag
    origin := hsame.origin.trans hrec.origin
    cls := hsame.cls.trans hrec.cls
    label := hsame.label.trans hrec.label
    reason := hsame.reason.trans hrec.recallReason
    home := hsame.home.trans (by rw [hrec.home]; cases c.home <;> rfl)
    extension := hext, orbit := horbit, campOrder := hcamp, reminded := hremind
    ringWatch := hsame.ringWatch.trans hrec.ringWatch
    confirmed := hsame.confirmed.trans hrec.confirmed
    retryWait := hsame.retryWait.trans hrec.retryWait
    age := hage }
  case preferred => exact (hslot.waited r d hr hrec.state hd).trans hrec.preferred
  case running =>
    intro hout
    have hr := hrunning hout
    by_cases hst : d.state = .departing
    · obtain ⟨-, -, -, -, -, hkept | ⟨hnone, -⟩⟩ := h.routed hst
      · exact hkept.trans hr
      · exact absurd (hr.symm.trans hnone) hout
    · exact (h.stays hst).2.2.2.trans hr
  case state =>
    rcases h.state with h | h | h
    · exact .inl h
    · exact .inr (.inl h)
    · exact .inr (.inr h)
  case stays =>
    intro hst
    obtain ⟨-, hscore, hwanted, -⟩ := h.stays hst
    refine ⟨?_, hwanted.trans hrec.wanted, hscore.trans hrec.score⟩
    rcases settleWith_queueing (u.depth + 1) u i hqueue with hi | ⟨e, he, hdep⟩
    · exact hi
    · rw [show (settleWith (u.depth + 1) u).call i = some d from hd] at he
      cases he
      exact absurd hdep hst
  case routed =>
    intro hst
    obtain ⟨hnight, -, hscore, hne, hwanted, -⟩ := h.routed hst
    rw [hrec.origin] at hne hwanted
    exact ⟨hnight, hleft hst, hscore, hne, hwanted⟩

/-- The record that a visit made ready, recalled, as a recall of the call that the visit found. -/
theorem RecalledInto.of_readied {age : Nat} {x : State} (h : RecalledInto t x i (s.visitRecord c age) d reason)
    (hr : Readied s i (s.visitRecord c age) t) (hv : Visited x v) :
    RecalledInto s v i { c with retryWait := false } d reason := by
  have heff : t.eff = s.eff := by rw [hr.only.state]
  have hdest : t.nightDestination = s.nightDestination := nightDestination_eq (by rw [hr.only.state])
  obtain ⟨hrec, hpref, hrunning, hstate, hstays, hrouted⟩ := h
  rw [heff] at hstays
  rw [hdest, ← hv.nightFlag] at hrouted
  rw [← hv.queue] at hstays hrouted
  refine ⟨⟨hrec.tag, hrec.origin, hrec.cls, hrec.label, hrec.reason, hrec.home, hrec.extension, hrec.orbit,
    hrec.campOrder, hrec.reminded, hrec.ringWatch, hrec.confirmed, hrec.retryWait, hrec.age⟩, hpref, fun hout => ?_,
    hstate, hstays, hrouted⟩
  have hkept : s.visitRequest c = c.outstanding := if_neg fun hx => hout hx.1
  exact (hrunning (by rw [State.visitRecord, hkept]; exact hout)).trans hkept

/-! ## The checks outside the queue -/

theorem holdLimitReached_iff : holdLimitReached s c = true ↔
    c.state = .held ∧ s.consulting c = false ∧ s.eff.holdLimit ≤ c.age := by
  simp only [holdLimitReached, Bool.and_eq_true, beq_iff_eq, Bool.not_eq_true', decide_eq_true_eq, and_assoc]

theorem holdRecallCheck_untaken (hc : s.call i = some c) (h : holdLimitReached s c = false) :
    holdRecallCheck i s = s := by
  simp [holdRecallCheck, hc, h]

theorem holdReminderCheck_untaken (hc : s.call i = some c) (h : holdLimitReached s c = false) :
    holdReminderCheck i s = s := by
  simp [holdReminderCheck, hc, h]

theorem holdRecallCheck_taken (hc : s.call i = some c) (h : holdLimitReached s c = true) (hr : c.reminded = true) :
    holdRecallCheck i s = recallNow i .hold s := by
  simp [holdRecallCheck, hc, h, hr]

theorem holdReminderCheck_taken (hc : s.call i = some c) (h : holdLimitReached s c = true) (hr : c.reminded = false) :
    holdReminderCheck i s = s.modCall i (fun c => { c with reminded := true, age := 0 }) := by
  simp [holdReminderCheck, hc, h, hr]

/-- The visit of a HELD call whose hold check has not reached the limit, or that is consulting. -/
theorem heldCheck_untaken (hst : c.state = .held) (hd : s.call i = some d) (h : holdLimitReached s d = false) :
    ownersCheck c i s = s := by
  unfold ownersCheck
  rw [hst]
  dsimp only
  split
  · exact holdRecallCheck_untaken hd h
  · exact holdReminderCheck_untaken hd h

/-- The check of an age limit outside the queue: what recalls the call, with what reason. -/
inductive LimitCheck (s : State) (i : SlotNo) : CallState → Nat → RecallReason → Prop
  | parked : LimitCheck s i .parked s.eff.parkLimit .park
  | ringing : LimitCheck s i .ringing s.eff.ringLimit .ring
  | camped : LimitCheck s i .camped s.eff.campLimit .camp

theorem LimitCheck.taken {st : CallState} {n : Nat} (h : LimitCheck s i st n reason) (hst : c.state = st)
    (hd : s.call i = some d) (hds : d.state = st) :
    ownersCheck c i s = if n ≤ d.age then recallNow i reason s else s := by
  cases h <;> unfold ownersCheck <;> rw [hst] <;> simp [parkCheck, ringCheck, campCheck, hd, hds]

/-! ## The checks of a queued call (R66) -/

/-- The call of slot i is that of record c, in the queue with its age and score or routed away. -/
def State.Requeued (s : State) (i : SlotNo) (c : Call) : Prop :=
  ∃ d, s.call i = some d ∧ SameCall c d ∧ (d.state = .departing ∨
    (d.state = .waiting ∨ d.state = .offered) ∧ d.age = c.age ∧ d.score = c.score)

theorem State.Requeued.settled (h : s.Requeued i c) (hset : SlotPassed s t i) : t.Requeued i c := by
  obtain ⟨d, hd, hsame, hdep | ⟨hst, hage, hscore⟩⟩ := h
  · exact ⟨d, hset.outside hd (by rw [hdep]; rfl), hsame, .inl hdep⟩
  · obtain ⟨e, he, hr⟩ := hset.queued hd ((queued_iff _).2 hst)
    refine ⟨e, he, hsame.trans hr.same, ?_⟩
    by_cases hed : e.state = .departing
    · exact .inl hed
    · obtain ⟨hage', hscore', -⟩ := hr.stays hed
      refine .inr ⟨?_, hage'.trans hage, hscore'.trans hscore⟩
      rcases hr.state with h | h | h
      · exact .inl h
      · exact .inr h
      · exact absurd h hed

theorem Call.departed_same (c : Call) (x : Option Ext) (w : Conn) (o : Option Request) :
    SameCall c (c.departed x w o) := by
  refine ⟨rfl, rfl, rfl, rfl, rfl, rfl, rfl, rfl, ?_⟩
  cases h : c.home <;> simp [Call.departed, Call.enter, CallState.seated, h]

theorem waitLimitCheck_requeued (h : s.Requeued i c) : (waitLimitCheck i s).Requeued i c := by
  obtain ⟨d, hd, hsame, -⟩ := id h
  cases hw : waitLimitHolds s d with
  | false => rw [waitLimitCheck_untaken hd hw]; exact h
  | true =>
    rw [waitLimitCheck_taken hd hw]
    have hu := overflowed_spec hd (waitLimitHolds_iff.1 hw).1
    refine State.Requeued.settled ⟨_, hu.call, ?_, .inl rfl⟩ (settle_slots _ i).passed
    exact hsame.trans (Call.departed_same d _ _ _)

theorem offerExpiryCheck_requeued (h : s.Requeued i c) : (offerExpiryCheck i s).Requeued i c := by
  obtain ⟨d, hd, hsame, hst⟩ := id h
  unfold offerExpiryCheck
  rw [hd]
  dsimp only
  split
  · rename_i p _ _
    split
    · refine ⟨{ d with offerAge := min maxOfferAge (d.offerAge + 1) }, ?_, ⟨hsame.tag, hsame.origin, hsame.cls,
        hsame.label, hsame.reason, hsame.confirmed, hsame.retryWait, hsame.ringWatch, hsame.home⟩, hst⟩
      rw [modCall_call, if_pos rfl, hd]
      rfl
    · have hw := h.settled ((withdrawAt_settled p s).slots i)
      have hm : (countMiss p (withdrawAt p s)).call i = (withdrawAt p s).call i := by
        rw [(countMiss_missed p _).state]; rfl
      exact (hw.settled (.of_eq hm)).settled (settle_slots _ i).passed
  · exact h

theorem queueCheck_requeued (found : Call) (h : (place i (rescore i s)).Requeued i c) :
    (queueCheck found i s).Requeued i c := by
  have hset := h.settled (settle_slots _ i).passed
  unfold queueCheck
  dsimp only
  split
  · exact hset
  · split
    · exact waitLimitCheck_requeued hset
    · split
      · exact offerExpiryCheck_requeued hset
      · exact hset

theorem ownersCheck_queued (h : c.state.queued = true) : ownersCheck c i s = queueCheck c i s := by
  unfold ownersCheck
  rcases (queued_iff _).1 h with h | h <;> rw [h]

theorem requeue_call (hc : s.call i = some c) :
    (place i (rescore i s)).call i = some { c with score := scoreOf s.eff c } := by
  unfold rescore
  rw [modCall_eq hc]
  simp [place, State.call]

/-! ## The visit -/

section
variable (hc : s.call i = some c) (hv : Visited (visitSlot i s) t)
include hc hv

/-- A visit whose check is not taken. -/
theorem visit_untaken (h : ownersCheck c i (s.aged i c) = s.aged i c) : OnlyReadied s i c (s.visitAge c) t := by
  rw [visitSlot_some hc, h] at hv
  exact (readied_aged hc).onlyReadied hv

/-- A visit whose check recalls the call. -/
theorem visit_recalled (hq : c.state.queued = false)
    (h : ownersCheck c i (s.aged i c) = recallNow i reason (s.aged i c)) :
    ∃ d, t.call i = some d ∧ RecalledInto s t i { c with retryWait := false } d reason := by
  have hr := readied_aged hc
  rw [visitSlot_some hc, h] at hv
  obtain ⟨d, hd, hinto⟩ := recallNow_recalledInto hr.call hq reason
  exact ⟨d, (hv.call i).trans hd, hinto.of_readied hr hv⟩

theorem visit_unowned (hst : c.state = .talking ∨ c.state = .departing) : OnlyReadied s i c c.age t := by
  have hage : s.visitAge c = c.age := by
    unfold State.visitAge agesAtVisit
    rcases hst with hst | hst <;> rw [hst] <;> rfl
  rw [← hage]
  refine visit_untaken hc hv ?_
  unfold ownersCheck
  rcases hst with hst | hst <;> rw [hst]

theorem visit_consulting (hst : c.state = .held) (hcons : s.consulting c = true) : OnlyReadied s i c c.age t := by
  have hr := readied_aged hc
  have hage : s.visitAge c = c.age := by
    unfold State.visitAge agesAtVisit
    rw [hst]
    simp [hcons]
  have h := visit_untaken hc hv (heldCheck_untaken hst hr.call (Bool.eq_false_iff.2 fun hl => ?_))
  · rwa [hage] at h
  · have hcons' : (s.aged i c).consulting (s.visitRecord c (s.visitAge c)) = true := (hr.consulting _).trans hcons
    rw [(holdLimitReached_iff.1 hl).2.1] at hcons'
    cases hcons'

/-- The hold check of a call that is not consulting, at and below the hold limit (R103). -/
theorem visit_held (hst : c.state = .held) (hcons : s.consulting c = false) :
    (min 255 (c.age + 1) < s.eff.holdLimit → OnlyReadied s i c (min 255 (c.age + 1)) t) ∧
    (s.eff.holdLimit ≤ min 255 (c.age + 1) → c.reminded = true →
      ∃ d, t.call i = some d ∧ RecalledInto s t i { c with retryWait := false } d .hold) ∧
    (s.eff.holdLimit ≤ min 255 (c.age + 1) → c.reminded = false →
      ∃ d, t.call i = some d ∧ d.state = .held ∧ d.reminded = true ∧ d.age = 0) := by
  have hr := readied_aged hc
  have hage : s.visitAge c = min 255 (c.age + 1) := by
    unfold State.visitAge agesAtVisit
    rw [hst]
    simp [hcons]
  have heff : (s.aged i c).eff = s.eff := by rw [hr.only.state]
  have hreached : holdLimitReached (s.aged i c) (s.visitRecord c (s.visitAge c)) = true ↔
      s.eff.holdLimit ≤ min 255 (c.age + 1) := by
    rw [holdLimitReached_iff, hr.consulting, heff]
    exact ⟨fun h => hage ▸ h.2.2, fun h => ⟨hst, hcons, by rw [← hage] at h; exact h⟩⟩
  refine ⟨fun hlt => ?_, fun hle hrem => ?_, fun hle hrem => ?_⟩
  · rw [← hage]
    exact visit_untaken hc hv (heldCheck_untaken hst hr.call
      (Bool.eq_false_iff.2 fun h => Nat.not_le.2 hlt (hreached.1 h)))
  · refine visit_recalled hc hv (by rw [hst]; rfl) ?_
    unfold ownersCheck
    rw [hst]
    exact (if_pos hrem).trans (holdRecallCheck_taken hr.call (hreached.2 hle) hrem)
  · have hcheck : ownersCheck c i (s.aged i c) =
        (s.aged i c).modCall i (fun c => { c with reminded := true, age := 0 }) := by
      unfold ownersCheck
      rw [hst]
      exact (if_neg (by rw [hrem]; decide)).trans (holdReminderCheck_taken hr.call (hreached.2 hle) hrem)
    rw [visitSlot_some hc, hcheck] at hv
    exact ⟨_, (hv.call i).trans (hr.modCall _).call, hst, rfl, rfl⟩

/-- The park, ring and camp checks, at and below their limits (R117, R134, R139). -/
theorem visit_limit {st : CallState} {n : Nat} (h : LimitCheck s i st n reason) (hst : c.state = st) :
    (min 255 (c.age + 1) < n → OnlyReadied s i c (min 255 (c.age + 1)) t) ∧
    (n ≤ min 255 (c.age + 1) →
      ∃ d, t.call i = some d ∧ RecalledInto s t i { c with retryWait := false } d reason) := by
  have hr := readied_aged hc
  have hage : s.visitAge c = min 255 (c.age + 1) := by
    unfold State.visitAge agesAtVisit
    cases h <;> rw [hst] <;> rfl
  have hlimit : LimitCheck (s.aged i c) i st n reason := by
    have heff : (s.aged i c).eff = s.eff := by rw [hr.only.state]
    cases h <;> rw [← heff] <;> constructor
  have hcheck := hlimit.taken hst hr.call hst
  rw [show (s.visitRecord c (s.visitAge c)).age = min 255 (c.age + 1) from hage] at hcheck
  refine ⟨fun hlt => ?_, fun hle => ?_⟩
  · rw [if_neg (Nat.not_le.2 hlt)] at hcheck
    rw [← hage]
    exact visit_untaken hc hv hcheck
  · rw [if_pos hle] at hcheck
    exact visit_recalled hc hv (by cases h <;> rw [hst] <;> rfl) hcheck

/-- A queued call stays in the queue, older and rescored, or is routed away (R66). -/
theorem visit_queued (hq : c.state.queued = true) : ∃ d, t.call i = some d ∧ SameCall { c with retryWait := false } d ∧
    (d.state = .departing ∨ (d.state = .waiting ∨ d.state = .offered) ∧ d.age = min 255 (c.age + 1) ∧
      d.score = min 4095 (8 * s.eff.weights[c.cls] + min 255 (c.age + 1) * s.eff.gain / 32 +
        (if c.reason.isSome then s.eff.bonus else 0))) := by
  have hr := readied_aged hc
  have hage : s.visitAge c = min 255 (c.age + 1) := by
    unfold State.visitAge agesAtVisit
    rcases (queued_iff _).1 hq with hst | hst <;> rw [hst] <;> rfl
  have heff : (s.aged i c).eff = s.eff := by rw [hr.only.state]
  have hstart : (place i (rescore i (s.aged i c))).Requeued i
      { s.visitRecord c (s.visitAge c) with score := scoreOf s.eff (s.visitRecord c (s.visitAge c)) } :=
    ⟨_, (requeue_call hr.call).trans (by rw [heff]), .refl _, .inr ⟨(queued_iff _).1 hq, rfl, rfl⟩⟩
  have h := queueCheck_requeued c hstart
  rw [visitSlot_some hc, ownersCheck_queued hq] at hv
  obtain ⟨d, hd, hsame, hst⟩ := h
  refine ⟨d, (hv.call i).trans hd, ⟨hsame.tag, hsame.origin, hsame.cls, hsame.label, hsame.reason, hsame.confirmed,
    hsame.retryWait, hsame.ringWatch, hsame.home⟩, ?_⟩
  rw [hage] at hst
  exact hst

end

end
end Sys2Proof.Machine
end

section
/-! PROOFS. A state whose plan is that of its depth and whose calls are distributed is left as it is by distribution
(R74 to R81), and so a visit of a queued call takes its check on the call as it stood (R66, R67, R82, R83). -/
namespace Sys2Proof.Machine

section
variable {s t u v x : State} {i j : SlotNo} {c d r : Call} {p : PosNo}

/-! ## Distribution of a distributed state -/

theorem foldl_same {α : Type} {f : State → α → State} (l : List α) (h : ∀ a ∈ l, f s a = s) : l.foldl f s = s :=
  foldl_keeps (P := (· = s)) l (fun t a ha ht => by rw [ht]; exact h a ha) rfl

theorem State.PlanLaw.recompute (h : s.PlanLaw) : recompute s = s := by
  have hsteady : plansDiffer s.eff (planInForce s.selection s.plans s.depth) = false := by
    rw [← h.eff]
    exact plansDiffer_false.2 ⟨rfl, rfl⟩
  rw [recompute_steady hsteady, ← h.eff, ← h.band]

theorem State.DistributionLaw.rejudge (h : s.DistributionLaw) : rejudge s = s := by
  have hkept : s.available.filter s.isAvailable = s.available :=
    List.filter_eq_self.2 fun p hp => (h.members p).1 hp
  have hnew : allPos.filter (fun p => s.isAvailable p && !s.available.contains p) = [] := by
    rw [List.filter_eq_nil_iff]
    intro p _ hp
    rw [Bool.and_eq_true] at hp
    simp [(h.members p).2 hp.1] at hp
  simp only [Machine.rejudge, hkept, hnew, List.append_nil]

theorem State.DistributionLaw.dropShowings (h : s.DistributionLaw) : dropShowings s = s := by
  unfold Machine.dropShowings
  split
  · rename_i hm
    refine foldl_same _ fun p _ => ?_
    split
    · rfl
    · rename_i hp
      refine withdrawAt_none (Classical.not_not.1 fun hne => hp ?_)
      exact (h.members p).1 (h.shown hm p hne)
  · rfl

theorem State.DistributionLaw.nightRoute (h : s.DistributionLaw) (hp : s.PlanLaw) (hn : s.nightFlag = true) :
    nightRoute s = s :=
  nightRoute_ready ⟨fun hl => ⟨hl ▸ hp.eff, hl ▸ hp.band⟩, h.members, h.night⟩ hn

theorem State.DistributionLaw.walk (h : s.DistributionLaw) (hm : s.eff.mode = .single) : walk s = s := by
  refine foldl_same _ fun i hi => ?_
  split
  · rfl
  · rename_i c hc
    split
    · rename_i hw
      split
      · rename_i p hp
        obtain ⟨hmem, hmask⟩ := chooseCandidate_spec hp
        rw [h.single hm i hi c hc hw p hmem] at hmask
        cases hmask
      · rfl
    · rfl

theorem State.DistributionLaw.showing (h : s.DistributionLaw) (hm : s.eff.mode = .common) : showing s = s := by
  refine foldl_same _ fun p hp => ?_
  split
  · rfl
  · rename_i hnone
    split
    · rename_i i hi
      obtain ⟨c, hc, hq, hmask⟩ := firstFor_queued hi
      rw [h.common hm p hp (by simpa using hnone) i (List.mem_of_find?_eq_some hi) c hc hq] at hmask
      cases hmask
    · rfl

theorem State.DistributionLaw.distribute (h : s.DistributionLaw) : distribute s = s := by
  unfold Machine.distribute
  cases hm : s.eff.mode with
  | single => exact h.walk hm
  | common => exact h.showing hm

/-- Where the laws of the plan and of distribution stand, the re-establishing has nothing to do. -/
theorem State.DistributionLaw.settle (h : s.DistributionLaw) (hp : s.PlanLaw) : settle s = s := by
  have hjudged : s.judged = s := by
    unfold State.judged recomputeUnderLoad
    rw [hp.recompute, ite_self, h.rejudge, h.dropShowings]
  have hround : s.roundDone = s := by
    unfold State.roundDone
    rw [hjudged]
    split
    · rename_i hn; exact h.nightRoute hp hn
    · rfl
  unfold Machine.settle
  rw [settleWith_succ, hround, hjudged, if_neg (fun hx => Nat.lt_irrefl _ hx.2), h.distribute]

/-! ## The call placed again for its new score -/

/-- The queued call of slot i has the record r and a place in the queue again; frames may have been placed, and all else
stands. -/
structure Relisted (s : State) (i : SlotNo) (r : Call) (x : State) : Prop where
  call : x.call i = some r
  others : ∀ j, j ≠ i → x.call j = s.call j
  state : x = { s with slots := x.slots, reqCounter := x.reqCounter, txList := x.txList, queue := x.queue }
  queue : x.queue.Perm s.queue

theorem insertByScore_perm (f : SlotNo → Nat) (i : SlotNo) (l : List SlotNo) :
    (insertByScore f i l).Perm (i :: l) := by
  obtain ⟨ahead, behind, hplaced, hlist, -⟩ := insertByScore_split f i l
  rw [hplaced, hlist]
  exact List.perm_middle

theorem place_relisted (h : Readied s i r t) (hq : i ∈ s.queue) (hn : s.queue.Nodup) :
    Relisted s i { r with score := scoreOf s.eff r } (place i (rescore i t)) := by
  have heff : t.eff = s.eff := by rw [h.only.state]
  have hqueue : t.queue = s.queue := by rw [h.only.state]
  refine ⟨(requeue_call h.call).trans (by rw [heff]), fun j hj => ?_, ?_, ?_⟩
  · rw [← h.others j hj]
    exact (modCall_call t i j _).trans (if_neg (Ne.symm hj))
  · exact congrArg (fun u : State => { u with
      slots := (place i (rescore i t)).slots, queue := (place i (rescore i t)).queue }) h.only.state
  · refine (insertByScore_perm _ i _).trans ?_
    change (i :: t.queue.filter (· != i)).Perm s.queue
    rw [hqueue, ← hn.erase_eq_filter]
    exact (List.perm_cons_erase hq).symm

section
variable (h : Relisted s i r x) (hc : s.call i = some c) (hst : r.state = c.state) (hcls : r.cls = c.cls)
  (horigin : r.origin = c.origin)
include h

theorem Relisted.depth : x.depth = s.depth := h.queue.length_eq

theorem Relisted.planLaw (hp : s.PlanLaw) : x.PlanLaw := by
  have hd := h.depth
  constructor <;> rw [hd, h.state]
  · exact hp.eff
  · exact hp.band

theorem Relisted.pos (p : PosNo) : x.pos p = s.pos p := by
  rw [h.state]; rfl

include hc hst hcls horigin in
theorem Relisted.record (hd : x.call j = some d) :
    ∃ e, s.call j = some e ∧ d.state = e.state ∧ d.cls = e.cls ∧ d.origin = e.origin := by
  by_cases hj : j = i
  · subst hj
    rw [h.call] at hd; cases hd
    exact ⟨c, hc, hst, hcls, horigin⟩
  · rw [h.others j hj] at hd
    exact ⟨d, hd, rfl, rfl, rfl⟩

include hc hst hcls horigin in
theorem Relisted.distributionLaw (hl : s.DistributionLaw) : x.DistributionLaw := by
  have heff : x.eff = s.eff := by rw [h.state]
  have hlist : x.available = s.available := by rw [h.state]
  have havailable : x.isAvailable = s.isAvailable := by rw [h.state]; rfl
  have hmem : ∀ j, j ∈ x.queue ↔ j ∈ s.queue := fun j => h.queue.mem_iff
  have hrecord := fun j d => h.record hc hst hcls horigin (j := j) (d := d)
  constructor
  case members => rw [hlist, havailable]; exact hl.members
  case nodup => rw [hlist]; exact hl.nodup
  case shown => intro hm p; rw [h.pos, hlist]; exact hl.shown (heff ▸ hm) p
  case single =>
    intro hm j hj d hd hw p hp
    obtain ⟨e, he, hs, hk, -⟩ := hrecord j d hd
    rw [heff, hk]
    exact hl.single (heff ▸ hm) j ((hmem j).1 hj) e he (hs.symm.trans hw) p (hlist ▸ hp)
  case common =>
    intro hm p hp hnone j hj d hd hq
    obtain ⟨e, he, hs, hk, -⟩ := hrecord j d hd
    rw [heff, hk]
    exact hl.common (heff ▸ hm) p (hlist ▸ hp) (h.pos p ▸ hnone) j ((hmem j).1 hj) e he (hs ▸ hq)
  case night =>
    intro hn j hj d hd hw
    obtain ⟨e, he, hs, -, ho⟩ := hrecord j d hd
    have hdest : x.nightDestination = s.nightDestination := nightDestination_eq (by rw [h.state])
    rw [hdest, ho]
    exact hl.night (by rw [h.state] at hn; exact hn) j ((hmem j).1 hj) e he (hs.symm.trans hw)

end

/-! ## The check of a queued call (R67, R82, R83) -/

/-- The record of a queued call when its check is taken. -/
def State.queuedRecord (s : State) (c : Call) : Call :=
  { s.visitRecord c (min 255 (c.age + 1)) with
    score := scoreOf s.eff (s.visitRecord c (min 255 (c.age + 1))) }

/-- Where the laws of distribution stand, a visit of a queued call takes the check on the call rescored (R66). -/
theorem visit_relisted (hc : s.call i = some c) (hq : c.state.queued = true) (hqueue : s.QueueLaw) (hplan : s.PlanLaw)
    (hdist : s.DistributionLaw) : ∃ x, Relisted s i (s.queuedRecord c) x ∧ visitSlot i s =
      if waitLimitHolds x (s.queuedRecord c) = true then waitLimitCheck i x
      else if c.state = .offered ∧ x.eff.mode = .single then offerExpiryCheck i x else x := by
  have hr := readied_aged hc
  have hage : s.visitAge c = min 255 (c.age + 1) := by
    unfold State.visitAge agesAtVisit
    rcases (queued_iff _).1 hq with hst | hst <;> rw [hst] <;> rfl
  rw [hage] at hr
  have hx : Relisted s i (s.queuedRecord c) _ := place_relisted hr ((hqueue.listed i).2 ⟨c, hc, hq⟩) hqueue.nodup
  have hsettle := (hx.distributionLaw hc rfl rfl rfl hdist).settle (hx.planLaw hplan)
  refine ⟨_, hx, ?_⟩
  rw [visitSlot_some hc, ownersCheck_queued hq]
  unfold queueCheck
  dsimp only
  rw [hsettle]
  simp only [hx.call]

theorem count_of_bumped {k : Counter} (hx : x.counters = s.counters) (ht : t.counters = (bump k x).counters) :
    t.count k = min counterMax (s.count k + 1) := by
  have hbump : (bump k x).counters = (bump k s).counters := by unfold bump; rw [hx]
  unfold State.count
  rw [ht, hbump]
  exact (bump_count s k k).trans (if_pos rfl)

section
variable (hv : Visited (visitSlot i s) t) (hc : s.call i = some c) (hqueue : s.QueueLaw) (hplan : s.PlanLaw)
  (hdist : s.DistributionLaw)
include hv hc hqueue hplan hdist

/-- A WAITING call at the wait limit is routed away and counted (R67). -/
theorem visit_due (hw : c.state = .waiting) (hdue : s.eff.waitLimit ≠ 0 ∧ s.eff.waitLimit ≤ min 255 (c.age + 1) ∧
    s.eff.overflow ≠ 0) : i ∉ t.queue ∧
      (∃ d, t.call i = some d ∧ d.state = .departing ∧ d.wanted = .away s.eff.overflow) ∧
      (visitSlot i s).count .divertedOverflow = min counterMax (s.count .divertedOverflow + 1) := by
  obtain ⟨x, hx, hvisit⟩ := visit_relisted hc (by rw [hw]; rfl) hqueue hplan hdist
  have heff : x.eff = s.eff := by rw [hx.state]
  have hholds : waitLimitHolds x (s.queuedRecord c) = true := by
    rw [waitLimitHolds_iff, heff]
    exact ⟨hw, hdue⟩
  rw [if_pos hholds, waitLimitCheck_taken hx.call hholds] at hvisit
  have hu := overflowed_spec hx.call hw
  have hset := settle_settled (x.overflowed i)
  rw [hvisit] at hv ⊢
  refine ⟨fun hi => ?_, ⟨_, (hv.call i).trans ((settle_slots _ i).passed.outside hu.call rfl), rfl, ?_⟩, ?_⟩
  · rw [hv.queue] at hi
    have hi := hset.queue.subset hi
    rw [hu.queue] at hi
    simp at hi
  · rw [← heff]; rfl
  · exact count_of_bumped (by rw [hx.state]) (hset.counters.trans hu.counters)

/-- A WAITING call below the wait limit stays WAITING. -/
theorem visit_waiting (hw : c.state = .waiting) (hdue : ¬(s.eff.waitLimit ≠ 0 ∧
    s.eff.waitLimit ≤ min 255 (c.age + 1) ∧ s.eff.overflow ≠ 0)) :
    i ∈ t.queue ∧ ∃ d, t.call i = some d ∧ d.state = .waiting := by
  obtain ⟨x, hx, hvisit⟩ := visit_relisted hc (by rw [hw]; rfl) hqueue hplan hdist
  have heff : x.eff = s.eff := by rw [hx.state]
  have hholds : ¬ waitLimitHolds x (s.queuedRecord c) = true := by
    rw [waitLimitHolds_iff, heff]
    exact fun h => hdue h.2
  rw [if_neg hholds, if_neg (by rw [hw]; exact fun h => nomatch h.1)] at hvisit
  rw [hvisit] at hv
  refine ⟨?_, _, (hv.call i).trans hx.call, hw⟩
  rw [hv.queue, hx.queue.mem_iff]
  exact (hqueue.listed i).2 ⟨c, hc, by rw [hw]; rfl⟩

theorem visit_offered (ho : c.state = .offered) : ∃ x, Relisted s i (s.queuedRecord c) x ∧ x.eff = s.eff ∧
    Visited (if s.eff.mode = .single then offerExpiryCheck i x else x) t ∧
    visitSlot i s = if s.eff.mode = .single then offerExpiryCheck i x else x := by
  obtain ⟨x, hx, hvisit⟩ := visit_relisted hc (by rw [ho]; rfl) hqueue hplan hdist
  have heff : x.eff = s.eff := by rw [hx.state]
  have hholds : ¬ waitLimitHolds x (s.queuedRecord c) = true := by
    rw [waitLimitHolds_iff]
    exact fun h => absurd (ho.symm.trans h.1) (by decide)
  rw [if_neg hholds, heff] at hvisit
  have hcheck : visitSlot i s = if s.eff.mode = .single then offerExpiryCheck i x else x := by
    rw [hvisit]
    simp only [ho, true_and]
  exact ⟨x, hx, heff, hcheck ▸ hv, hcheck⟩

/-- In COMMON mode an OFFERED call keeps its showings. -/
theorem visit_shown (ho : c.state = .offered) (hm : s.eff.mode = .common) (hp : s.OfferLaw) :
    ∃ d, t.call i = some d ∧ d.state = .offered ∧ d.offer = some .all ∧ d.offerAge = c.offerAge := by
  obtain ⟨x, hx, -, hv, -⟩ := visit_offered hv hc hqueue hplan hdist ho
  rw [if_neg (by rw [hm]; decide)] at hv
  obtain ⟨p, hpi⟩ := hp.held i c hc ho
  exact ⟨_, (hv.call i).trans hx.call, ho, hp.common hm p i c hpi hc, rfl⟩

/-- In SINGLE mode the offer age of an OFFERED call is raised below the offer limit (R82). -/
theorem visit_offer_below (ho : c.state = .offered) (hm : s.eff.mode = .single) (hp : s.OfferLaw)
    (hone : c.offer = some (.one p)) (hlt : min 15 (c.offerAge + 1) < s.eff.offerLimit) :
    (t.pos p).offer = some i ∧ (t.pos p).missCount = (s.pos p).missCount ∧
      ∃ d, t.call i = some d ∧ d.state = .offered ∧ d.offer = some (.one p) ∧ d.offerAge = min 15 (c.offerAge + 1) := by
  obtain ⟨x, hx, heff, hv, -⟩ := visit_offered hv hc hqueue hplan hdist ho
  have htaken := offerExpiry_taken (heff ▸ hm) hx.call ho hone
  rw [heff, if_pos (show min 15 ((s.queuedRecord c).offerAge + 1) < _ from hlt)] at htaken
  rw [htaken] at hv
  have hpos : ∀ q, t.pos q = { s.pos q with offerNews := false } := fun q => by
    rw [hv.pos, modCall_pos, hx.pos]
  have hheld : (s.pos p).offer = some i := by
    obtain ⟨q, hq⟩ := hp.held i c hc ho
    have := hone.symm.trans (hp.single hm q i c hq hc)
    cases this
    exact hq
  refine ⟨by rw [hpos]; exact hheld, by rw [hpos], ?_⟩
  have hcall := hv.call i
  rw [modCall_call, if_pos rfl, hx.call] at hcall
  exact ⟨_, hcall, ho, hone, rfl⟩

/-- At the offer limit the offer goes with a miss (R82, R83). -/
theorem visit_offer_expired (ho : c.state = .offered) (hm : s.eff.mode = .single) (hp : s.OfferLaw)
    (hone : c.offer = some (.one p)) (hle : s.eff.offerLimit ≤ min 15 (c.offerAge + 1)) :
    (t.pos p).missCount = min 15 ((s.pos p).missCount + 1) ∧
      (visitSlot i s).count .missedOffers = min counterMax (s.count .missedOffers + 1) ∧
      ∃ d, t.call i = some d ∧ d.preferred = none ∧ d.offerAge = 0 := by
  obtain ⟨x, hx, heff, hv, hvisit⟩ := visit_offered hv hc hqueue hplan hdist ho
  have htaken := offerExpiry_taken (heff ▸ hm) hx.call ho hone
  rw [heff, if_neg (show ¬min 15 ((s.queuedRecord c).offerAge + 1) < _ from Nat.not_lt.2 hle)] at htaken
  rw [htaken] at hv hvisit
  have honly : ∀ q, (x.pos q).offer = some i ↔ q = p := by
    intro q
    rw [hx.pos]
    have hnames : ∀ q, (s.pos q).offer = some i → q = p := fun q hq => by
      have := hone.symm.trans (hp.single hm q i c hq hc)
      cases this
      rfl
    refine ⟨hnames q, fun hq => ?_⟩
    obtain ⟨q', hq'⟩ := hp.held i c hc ho
    rw [hq, ← hnames q' hq']
    exact hq'
  have ha := announce_announced x (settle (countMiss p (withdrawAt p x)))
  obtain ⟨d, hd⟩ := expired_of hx.call ho honly (countMiss_missed p _) ha
  refine ⟨?_, ?_, d, ?_, hd.preferred, hd.offerAge⟩
  · have hmiss := hd.missCount
    rw [ha.positions, hx.pos] at hmiss
    rw [hv.pos]
    exact hmiss
  · rw [hvisit]
    exact count_of_bumped (by rw [hx.state]) (ha.counters.symm.trans hd.counters)
  · rw [hv.call, ← ha.call]
    exact hd.call

end

end
end Sys2Proof.Machine

open Sys2Proof Sys2Proof.Machine in
/-- Settles O57: the pointer and the report by `sweep_kept` and `sweep_report`, the checks by the `visit_` lemmas. -/
theorem sweep : Obligations.Sweep := by
  unfold Obligations.Sweep
  refine ⟨fun s hr => ⟨sweepVisit_standby hr, fun hs => ?_⟩, fun s hr hs hp hi => ?_, fun s c hr hs hc => ?_,
    fun s c hr hs hc hqueue _ hoffers hplan hdist => ?_⟩
  · obtain ⟨hlinks, hinside, hlast⟩ := sweep_kept s
    exact ⟨_, sweepVisit_service hr hs, hlinks, hinside, hlast, fun hc hn hne => sweep_free hn hc hne⟩
  · obtain ⟨hbelow, hroom, hfull⟩ := sweep_report hp hi
    have hexec := sweepVisit_service hr hs
    refine ⟨_, sweepVisit_service (s := { s with reportInterval := 0 }) hr hs, fun hn => ?_, fun hn hr' => ?_,
      fun hn hf => ?_⟩
    · exact hexec.trans (congrArg Host.Outcome.next (hbelow hn))
    · exact hexec.trans (congrArg Host.Outcome.next (hroom hn hr'))
    · exact hexec.trans (congrArg Host.Outcome.next (hfull hn hf))
  · obtain ⟨hv, -⟩ := sweep_visited s
    refine ⟨_, sweepVisit_service hr hs, ?_, ?_, ?_, ?_, ?_, ?_, ?_⟩
    · exact fun hst => (visit_unowned hc hv hst).record
    · exact fun hst hcons => (visit_consulting hc hv hst hcons).record
    · intro hst hcons
      obtain ⟨hbelow, hrecalled, hreminded⟩ := visit_held hc hv hst hcons
      exact ⟨fun h => (hbelow h).record, hrecalled, hreminded⟩
    · exact fun hst => (visit_limit hc hv .parked hst).imp (fun h hlt => (h hlt).record) id
    · exact fun hst => (visit_limit hc hv .ringing hst).imp (fun h hlt => (h hlt).record) id
    · exact fun hst => (visit_limit hc hv .camped hst).imp (fun h hlt => (h hlt).record) id
    · exact visit_queued hc hv
  · obtain ⟨hv, hcounters⟩ := sweep_visited s
    have hcount : ∀ k, s.pointer ≠ s.rangeLast → (act sweepStep s).count k = (visitSlot s.pointer s).count k :=
      fun k hne => by unfold State.count; rw [hcounters hne]
    refine ⟨_, sweepVisit_service hr hs, fun hw hdue => ?_, fun hw hdue => ?_, fun ho hm => ?_, fun p ho hm hone => ?_⟩
    · obtain ⟨hout, hcall, hbumped⟩ := visit_due hv hc hqueue hplan hdist hw hdue
      exact ⟨hout, hcall, fun hne => (hcount _ hne).trans hbumped⟩
    · exact visit_waiting hv hc hqueue hplan hdist hw hdue
    · exact visit_shown hv hc hqueue hplan hdist ho hm hoffers
    · refine ⟨visit_offer_below hv hc hqueue hplan hdist ho hm hoffers hone, fun hle => ?_⟩
      obtain ⟨hmiss, hbumped, hcall⟩ := visit_offer_expired hv hc hqueue hplan hdist ho hm hoffers hone hle
      exact ⟨hmiss, fun hne => (hcount _ hne).trans hbumped, hcall⟩

end
